-- ==== Sys2Proof/Word.lean ====
section
/-! DEFINITION. The machine's word and its plainest arithmetic (00 R5: bit 0 is least significant, bit ranges are [hi:lo]). -/

namespace Sys2Proof

/-- A general register, an address, a descriptor dword. -/
abbrev Word := BitVec 64

/-- One byte of storage. -/
abbrev Byte := BitVec 8

/-- A slice `x[lo + n - 1 : lo]` read unsigned (00 R7). -/
def fld (x : Word) (lo n : Nat) : Nat := x.toNat / 2 ^ lo % 2 ^ n

/-- One bit of a word. -/
def bitOf (x : Word) (i : Nat) : Bool := x.getLsbD i

/-- The word whose value is `n`, modulo 2^64. -/
abbrev word (n : Nat) : Word := BitVec.ofNat 64 n

/-- The low `n` bits of `x` read as a two's complement integer (00 R7, `SignExtend`). -/
def sext (x n : Nat) : Int :=
  if 2 * (x % 2 ^ n) < 2 ^ n then ((x % 2 ^ n : Nat) : Int) else ((x % 2 ^ n : Nat) : Int) - (2 ^ n : Nat)

/-- The word of an integer, modulo 2^64. -/
def wordI (i : Int) : Word := BitVec.ofInt 64 i

end Sys2Proof
end

