-- ==== Sys2Proof/Syntax.lean ====
section
/-! DEFINITION. The abstract syntax: one constructor for each row of the opcode table. Registers and immediates keep the widths of their fields (08 R212 to R225); engines, pans, blocks and links are named by their numbers. -/

namespace Sys2Proof

/-- A grain of a loaded slot: region key 16 × pan index + region number, slot 0 to 3, region index of the grain (11 R311). -/
structure GrainRef where
  region : Nat
  slot : Nat
  grain : Nat
  deriving DecidableEq, Repr

/-- The frame-op word but for OP, which the constructor names (08 R228). -/
structure FropWord where
  dtype : BitVec 4
  ina : BitVec 4
  inb : BitVec 4
  outs : BitVec 5
  dreg : BitVec 3
  dim : BitVec 3
  mark : BitVec 3
  imm : BitVec 16
  md : BitVec 16
  deriving DecidableEq, Repr

/-- What a remote access does at its target (05 R147, R149, R150). -/
inductive RKind where
  | load
  | store
  | amo (fn : Nat) (signed : Bool)
  | cas
  deriving DecidableEq, Repr

/-- A remote access as the fabric carries it: the packing of the payload is open (15 R408), its content is this. -/
structure RMsg where
  src : Nat
  dst : Nat
  tag : Nat
  addr : Nat
  size : Nat
  kind : RKind
  data : Word
  cmp : Word
  posted : Bool
  /-- the count N that a release carries (05 R148) -/
  rel : Option Nat
  /-- the context it is attributed to at its source (03 R78) -/
  ctx : Nat
  /-- tags of the source's earlier posted stores to a line it touches, in whose order it is applied (05 R147) -/
  after : List Nat
  /-- the home that forwards it to the owner of its region's token (05 R152); `addr` is then a physical address of that home -/
  via : Option Nat
  deriving DecidableEq, Repr

/-- What comes back for a remote access (01 R27, 15 R415). -/
inductive RResp where
  | value (v : Word)
  | ack
  | fault (cause : Nat)
  | lost
  /-- the owner of the token holds no line of it in M: the access is performed at its home (05 R152) -/
  | atHome
  deriving DecidableEq, Repr

/-- A token-managed region (01 R26) and the device its token goes to (05 R153). -/
structure TokenReq where
  home : Nat
  region : Nat
  toDev : Nat
  deriving DecidableEq, Repr

/-- The content of a flit by KIND (15 R408). -/
inductive FlitBody where
  | idle
  | mreq (m : RMsg)
  | mrsp (tag : Nat) (r : RResp)
  | cdata (elems : List Byte)
  | cmark (set : Nat)
  | abt
  | abtack
  | keysw (slot : Bool)
  | reserved
  deriving DecidableEq, Repr

/-- A flit: the header fields of 15 R408, with its content. `seq` is GSEQ; `ack` holds NAK and ACKSEQ when AV = 1. PLEN is the length of the content, whose packing is open for KINDs 1 and 2. `detour` holds how many detours it has made and, during one, the mask of the dimensions a, b, c, d that were blocked (15 R415); the spec gives it no place in the flit (log 20). -/
structure Flit where
  ack : Option (Bool × Nat)
  lseq : Nat
  seq : Nat
  group : Nat
  src : Nat
  dst : Nat
  vc : Nat
  ks : Bool
  body : FlitBody
  detour : Nat × Nat
  deriving DecidableEq, Repr

/-- What the scrubber reads a word of (19 R455): device memory by granule, pan memory by bank word, or other SRAM of a source number (02 R62, R63). -/
inductive ScrubUnit where
  | hbm
  | bank
  | sram (source : Nat)
  deriving DecidableEq, Repr

/-- What it finds there: no error, a single-bit error, an uncorrectable one. -/
inductive ScrubFind where
  | clean | corrected | uncorrectable
  deriving DecidableEq, Repr

/-- A cycle of a pan's vector issue arbiter (06 R165): the strands whose heads still wait for operands, and the pipes that accept no group, one bit each (log 6). -/
structure IssueCycle where
  pan : Nat
  waits : Nat
  busy : Nat
  deriving DecidableEq, Repr

/-- What firmware records when it creates a context (06 R156, R160, R167, 13 R459); `saveBase` and `evictBase` are the physical addresses of its save and eviction areas (14 R398, R399). -/
structure CtxSpec where
  num : Nat
  troot : Word
  lclass : Nat
  psize : Nat
  argBase : Word
  argN : Nat
  stub : Word
  saveBase : Nat
  evictBase : Nat
  deriving DecidableEq, Repr

/-- One constructor per row of the opcode table, in its order but for fetchFault and illegalEncoding, which the step builds and which stand before the other events. -/
inductive Instr where
  | add (d : BitVec 5) (a : BitVec 5) (b : BitVec 5) (t : BitVec 3)
  | sub (d : BitVec 5) (a : BitVec 5) (b : BitVec 5) (t : BitVec 3)
  | and (d : BitVec 5) (a : BitVec 5) (b : BitVec 5) (t : BitVec 3)
  | or (d : BitVec 5) (a : BitVec 5) (b : BitVec 5) (t : BitVec 3)
  | xor (d : BitVec 5) (a : BitVec 5) (b : BitVec 5) (t : BitVec 3)
  | andn (d : BitVec 5) (a : BitVec 5) (b : BitVec 5) (t : BitVec 3)
  | sll (d : BitVec 5) (a : BitVec 5) (b : BitVec 5) (t : BitVec 3)
  | srl (d : BitVec 5) (a : BitVec 5) (b : BitVec 5) (t : BitVec 3)
  | sra (d : BitVec 5) (a : BitVec 5) (b : BitVec 5) (t : BitVec 3)
  | ror (d : BitVec 5) (a : BitVec 5) (b : BitVec 5) (t : BitVec 3)
  | slt (d : BitVec 5) (a : BitVec 5) (b : BitVec 5) (t : BitVec 3)
  | min (d : BitVec 5) (a : BitVec 5) (b : BitVec 5) (t : BitVec 3)
  | max (d : BitVec 5) (a : BitVec 5) (b : BitVec 5) (t : BitVec 3)
  | mul (d : BitVec 5) (a : BitVec 5) (b : BitVec 5) (t : BitVec 3)
  | mulh (d : BitVec 5) (a : BitVec 5) (b : BitVec 5) (t : BitVec 3)
  | div (d : BitVec 5) (a : BitVec 5) (b : BitVec 5) (t : BitVec 3)
  | rem (d : BitVec 5) (a : BitVec 5) (b : BitVec 5) (t : BitVec 3)
  | clz (d : BitVec 5) (a : BitVec 5) (t : BitVec 3)
  | ctz (d : BitVec 5) (a : BitVec 5) (t : BitVec 3)
  | popc (d : BitVec 5) (a : BitVec 5) (t : BitVec 3)
  | brev (d : BitVec 5) (a : BitVec 5) (t : BitVec 3)
  | bswap (d : BitVec 5) (a : BitVec 5) (t : BitVec 3)
  | sext (d : BitVec 5) (a : BitVec 5) (t : BitVec 3)
  | zext (d : BitVec 5) (a : BitVec 5) (t : BitVec 3)
  | sel (d : BitVec 5) (a : BitVec 5) (b : BitVec 5) (t : BitVec 3)
  | fadd (d : BitVec 5) (a : BitVec 5) (b : BitVec 5) (t : BitVec 2)
  | fsub (d : BitVec 5) (a : BitVec 5) (b : BitVec 5) (t : BitVec 2)
  | fmul (d : BitVec 5) (a : BitVec 5) (b : BitVec 5) (t : BitVec 2)
  | fdiv (d : BitVec 5) (a : BitVec 5) (b : BitVec 5) (t : BitVec 2)
  | fsqrt (d : BitVec 5) (a : BitVec 5) (t : BitVec 2)
  | ffma (d : BitVec 5) (a : BitVec 5) (b : BitVec 5) (t : BitVec 2)
  | fmin (d : BitVec 5) (a : BitVec 5) (b : BitVec 5) (t : BitVec 2)
  | fmax (d : BitVec 5) (a : BitVec 5) (b : BitVec 5) (t : BitVec 2)
  | fcmp (d : BitVec 5) (a : BitVec 5) (b : BitVec 5) (c : BitVec 2) (t : BitVec 2)
  | fclass (d : BitVec 5) (a : BitVec 5) (t : BitVec 2)
  | fcvt (d : BitVec 5) (a : BitVec 5) (v : BitVec 4) (u : Bool) (t : BitVec 4)
  | addi (d : BitVec 5) (a : BitVec 5) (i : BitVec 12)
  | andi (d : BitVec 5) (a : BitVec 5) (i : BitVec 12)
  | ori (d : BitVec 5) (a : BitVec 5) (i : BitVec 12)
  | xori (d : BitVec 5) (a : BitVec 5) (i : BitVec 12)
  | slli (d : BitVec 5) (a : BitVec 5) (n : BitVec 6)
  | srli (d : BitVec 5) (a : BitVec 5) (n : BitVec 6)
  | srai (d : BitVec 5) (a : BitVec 5) (n : BitVec 6)
  | slti (d : BitVec 5) (a : BitVec 5) (i : BitVec 12)
  | ldhi (d : BitVec 5) (i : BitVec 17)
  | addpc (d : BitVec 5) (i : BitVec 17)
  | ld (t : BitVec 3) (d : BitVec 5) (a : BitVec 5) (i : BitVec 12)
  | ldP (t : BitVec 3) (d : BitVec 5) (a : BitVec 5) (i : BitVec 12)
  | st (w : BitVec 2) (a : BitVec 5) (b : BitVec 5) (i : BitVec 12)
  | stP (w : BitVec 2) (a : BitVec 5) (b : BitVec 5) (i : BitVec 12)
  | ldacq (d : BitVec 5) (a : BitVec 5) (s : BitVec 3) (t : BitVec 3)
  | ldacqP (d : BitVec 5) (a : BitVec 5) (s : BitVec 3) (t : BitVec 3)
  | strel (a : BitVec 5) (b : BitVec 5) (s : BitVec 3) (w : BitVec 2)
  | strelP (a : BitVec 5) (b : BitVec 5) (s : BitVec 3) (w : BitVec 2)
  | amo (f : BitVec 3) (d : BitVec 5) (a : BitVec 5) (b : BitVec 5) (s : BitVec 3) (y : BitVec 2) (p : BitVec 2)
  | amoP (f : BitVec 3) (d : BitVec 5) (a : BitVec 5) (b : BitVec 5) (s : BitVec 3) (y : BitVec 2) (p : BitVec 2)
  | amocas (d : BitVec 5) (a : BitVec 5) (b : BitVec 5) (s : BitVec 3) (y : BitVec 2) (p : BitVec 2)
  | amocasP (d : BitVec 5) (a : BitVec 5) (b : BitVec 5) (s : BitVec 3) (y : BitVec 2) (p : BitVec 2)
  | fence (s : BitVec 3) (k : BitVec 3)
  | beq (a : BitVec 5) (b : BitVec 5) (i : BitVec 12)
  | bne (a : BitVec 5) (b : BitVec 5) (i : BitVec 12)
  | blt (a : BitVec 5) (b : BitVec 5) (i : BitVec 12)
  | bge (a : BitVec 5) (b : BitVec 5) (i : BitVec 12)
  | bltZ (a : BitVec 5) (b : BitVec 5) (i : BitVec 12)
  | bgeZ (a : BitVec 5) (b : BitVec 5) (i : BitVec 12)
  | jal (i : BitVec 22)
  | jalr (d : BitVec 5) (a : BitVec 5) (i : BitVec 12)
  | svc (n : BitVec 12)
  | brk (n : BitVec 12)
  | eret
  | mfc (d : BitVec 5) (n : BitVec 12)
  | mtc (a : BitVec 5) (n : BitVec 12)
  | wfe
  | yield
  | exit
  | placeAddr (d : BitVec 5) (a : BitVec 5)
  | placeSelf (d : BitVec 5)
  | rdgt (d : BitVec 5)
  | hint (n : BitVec 12)
  | cflush (a : BitVec 5) (s : BitVec 3)
  | cinv (a : BitVec 5)
  | xinvAll
  | xinvCtx (a : BitVec 5)
  | xinvVa (a : BitVec 5) (b : BitVec 5)
  | xinvIn (a : BitVec 5)
  | addH (y : BitVec 5) (x : BitVec 5)
  | subH (y : BitVec 5) (x : BitVec 5)
  | andH (y : BitVec 5) (x : BitVec 5)
  | orH (y : BitVec 5) (x : BitVec 5)
  | xorH (y : BitVec 5) (x : BitVec 5)
  | addiH (i : BitVec 6) (x : BitVec 5)
  | slliH (i : BitVec 6) (x : BitVec 5)
  | srliH (i : BitVec 6) (x : BitVec 5)
  | ldH (y : BitVec 5) (x : BitVec 5)
  | stH (y : BitVec 5) (x : BitVec 5)
  | beqH (i : BitVec 6) (x : BitVec 5)
  | bneH (i : BitVec 6) (x : BitVec 5)
  | jalrH (y : BitVec 5) (x : BitVec 5)
  | jalH (i : BitVec 11)
  | hintH
  | vadd (d : BitVec 5) (a : BitVec 5) (b : BitVec 5) (m : BitVec 3) (w : Bool) (f : BitVec 2)
  | vsub (d : BitVec 5) (a : BitVec 5) (b : BitVec 5) (m : BitVec 3) (w : Bool) (f : BitVec 2)
  | vmul (d : BitVec 5) (a : BitVec 5) (b : BitVec 5) (m : BitVec 3) (w : Bool) (f : BitVec 2)
  | vmulh (d : BitVec 5) (a : BitVec 5) (b : BitVec 5) (m : BitVec 3) (w : Bool) (f : BitVec 2)
  | vwmul (d : BitVec 5) (a : BitVec 5) (b : BitVec 5) (m : BitVec 3) (w : Bool) (f : BitVec 2)
  | vwmac (d : BitVec 5) (a : BitVec 5) (b : BitVec 5) (m : BitVec 3) (w : Bool) (f : BitVec 2)
  | vmac (d : BitVec 5) (a : BitVec 5) (b : BitVec 5) (m : BitVec 3) (w : Bool) (f : BitVec 2)
  | vdiv (d : BitVec 5) (a : BitVec 5) (b : BitVec 5) (m : BitVec 3) (w : Bool) (x : Bool) (f : BitVec 2)
  | vrem (d : BitVec 5) (a : BitVec 5) (b : BitVec 5) (m : BitVec 3) (w : Bool) (x : Bool) (f : BitVec 2)
  | vmin (d : BitVec 5) (a : BitVec 5) (b : BitVec 5) (m : BitVec 3) (w : Bool) (f : BitVec 2)
  | vmax (d : BitVec 5) (a : BitVec 5) (b : BitVec 5) (m : BitVec 3) (w : Bool) (f : BitVec 2)
  | vand (d : BitVec 5) (a : BitVec 5) (b : BitVec 5) (m : BitVec 3) (w : Bool) (f : BitVec 2)
  | vor (d : BitVec 5) (a : BitVec 5) (b : BitVec 5) (m : BitVec 3) (w : Bool) (f : BitVec 2)
  | vxor (d : BitVec 5) (a : BitVec 5) (b : BitVec 5) (m : BitVec 3) (w : Bool) (f : BitVec 2)
  | vsll (d : BitVec 5) (a : BitVec 5) (b : BitVec 5) (m : BitVec 3) (w : Bool) (f : BitVec 2)
  | vsrl (d : BitVec 5) (a : BitVec 5) (b : BitVec 5) (m : BitVec 3) (w : Bool) (f : BitVec 2)
  | vsra (d : BitVec 5) (a : BitVec 5) (b : BitVec 5) (m : BitVec 3) (w : Bool) (f : BitVec 2)
  | vnshr (d : BitVec 5) (a : BitVec 5) (b : BitVec 5) (m : BitVec 3) (w : Bool) (x : Bool) (f : BitVec 2)
  | vsadd (d : BitVec 5) (a : BitVec 5) (b : BitVec 5) (m : BitVec 3) (w : Bool) (x : Bool) (f : BitVec 2)
  | vssub (d : BitVec 5) (a : BitVec 5) (b : BitVec 5) (m : BitVec 3) (w : Bool) (x : Bool) (f : BitVec 2)
  | vcmp (c : BitVec 2) (d : BitVec 3) (a : BitVec 5) (b : BitVec 5) (m : BitVec 3) (w : Bool) (f : BitVec 2)
  | vfcmp (c : BitVec 2) (d : BitVec 3) (a : BitVec 5) (b : BitVec 5) (m : BitVec 3) (w : Bool)
  | vfadd (d : BitVec 5) (a : BitVec 5) (b : BitVec 5) (m : BitVec 3) (w : Bool) (x : Bool) (f : BitVec 2)
  | vfsub (d : BitVec 5) (a : BitVec 5) (b : BitVec 5) (m : BitVec 3) (w : Bool) (x : Bool) (f : BitVec 2)
  | vfmul (d : BitVec 5) (a : BitVec 5) (b : BitVec 5) (m : BitVec 3) (w : Bool) (x : Bool) (f : BitVec 2)
  | vfdiv (d : BitVec 5) (a : BitVec 5) (b : BitVec 5) (m : BitVec 3) (w : Bool) (x : Bool) (f : BitVec 2)
  | vfsqrt (d : BitVec 5) (a : BitVec 5) (m : BitVec 3) (w : Bool) (x : Bool)
  | vfma (d : BitVec 5) (a : BitVec 5) (b : BitVec 5) (m : BitVec 3) (w : Bool) (x : Bool) (f : BitVec 2)
  | vfms (d : BitVec 5) (a : BitVec 5) (b : BitVec 5) (m : BitVec 3) (w : Bool) (x : Bool) (f : BitVec 2)
  | vfnma (d : BitVec 5) (a : BitVec 5) (b : BitVec 5) (m : BitVec 3) (w : Bool) (x : Bool) (f : BitVec 2)
  | vfmin (d : BitVec 5) (a : BitVec 5) (b : BitVec 5) (m : BitVec 3) (w : Bool) (x : Bool) (f : BitVec 2)
  | vfmax (d : BitVec 5) (a : BitVec 5) (b : BitVec 5) (m : BitVec 3) (w : Bool) (x : Bool) (f : BitVec 2)
  | vfclass (d : BitVec 5) (a : BitVec 5) (m : BitVec 3) (w : Bool)
  | vfcvt (d : BitVec 5) (a : BitVec 5) (v : BitVec 4) (u : Bool) (m : BitVec 3) (w : Bool) (x : Bool)
  | vsfn (d : BitVec 5) (a : BitVec 5) (n : BitVec 5) (m : BitVec 3) (w : Bool) (x : Bool)
  | vred (o : BitVec 3) (d : BitVec 5) (a : BitVec 5) (b : BitVec 5) (m : BitVec 3) (w : Bool)
  | vfredo (d : BitVec 5) (a : BitVec 5) (b : BitVec 5) (m : BitVec 3) (w : Bool) (x : Bool)
  | vfredt (d : BitVec 5) (a : BitVec 5) (b : BitVec 5) (m : BitVec 3) (w : Bool) (x : Bool)
  | vld (d : BitVec 5) (a : BitVec 5) (m : BitVec 3) (p : Bool) (o : Bool)
  | vlds (d : BitVec 5) (a : BitVec 5) (b : BitVec 5) (m : BitVec 3) (p : Bool) (o : Bool)
  | vldx (d : BitVec 5) (a : BitVec 5) (b : BitVec 5) (m : BitVec 3) (p : Bool) (o : Bool)
  | vlseg (d : BitVec 5) (a : BitVec 5) (n : BitVec 3) (m : BitVec 3) (p : Bool) (o : Bool)
  | vlda (d : BitVec 5) (a : BitVec 5) (m : BitVec 3) (p : Bool)
  | vst (d : BitVec 5) (a : BitVec 5) (m : BitVec 3) (p : Bool) (o : Bool)
  | vsts (d : BitVec 5) (a : BitVec 5) (b : BitVec 5) (m : BitVec 3) (p : Bool) (o : Bool)
  | vstx (d : BitVec 5) (a : BitVec 5) (b : BitVec 5) (m : BitVec 3) (p : Bool) (o : Bool)
  | vsseg (d : BitVec 5) (a : BitVec 5) (n : BitVec 3) (m : BitVec 3) (p : Bool) (o : Bool)
  | vstn (d : BitVec 5) (a : BitVec 5) (b : BitVec 5) (m : BitVec 3) (n : Bool) (p : Bool) (o : Bool)
  | vamo (f : BitVec 3) (d : BitVec 5) (a : BitVec 5) (b : BitVec 5) (m : BitVec 3) (p : Bool) (y : BitVec 2)
  | mand (d : BitVec 3) (a : BitVec 3) (b : BitVec 3)
  | mor (d : BitVec 3) (a : BitVec 3) (b : BitVec 3)
  | mxor (d : BitVec 3) (a : BitVec 3) (b : BitVec 3)
  | mandn (d : BitVec 3) (a : BitVec 3) (b : BitVec 3)
  | mpopc (d : BitVec 5) (a : BitVec 3)
  | mfirst (d : BitVec 5) (a : BitVec 3)
  | vslideup (d : BitVec 5) (a : BitVec 5) (b : BitVec 5) (m : BitVec 3) (f : BitVec 2)
  | vslidedn (d : BitVec 5) (a : BitVec 5) (b : BitVec 5) (m : BitVec 3) (f : BitVec 2)
  | vgather (d : BitVec 5) (a : BitVec 5) (b : BitVec 5) (m : BitVec 3)
  | vcompress (d : BitVec 5) (a : BitVec 5) (m : BitVec 3)
  | vexpand (d : BitVec 5) (a : BitVec 5) (m : BitVec 3)
  | vbcast (d : BitVec 5) (b : BitVec 5) (m : BitVec 3) (f : BitVec 2)
  | vmvx (d : BitVec 5) (a : BitVec 5) (b : BitVec 5) (f : BitVec 2)
  | vins (d : BitVec 5) (a : BitVec 5) (b : BitVec 5) (f : BitVec 2)
  | viota (d : BitVec 5) (a : BitVec 3) (m : BitVec 3)
  | vmerge (d : BitVec 5) (a : BitVec 5) (b : BitVec 5) (m : BitVec 3)
  | vperms (d : BitVec 5) (a : BitVec 5) (b : BitVec 5) (m : BitVec 3) (f : BitVec 2)
  | vbrev (d : BitVec 5) (a : BitVec 5) (m : BitVec 3)
  | vsetl (d : BitVec 5) (a : BitVec 5) (w : BitVec 2) (s : BitVec 3)
  | vspill (d : BitVec 5) (a : BitVec 5) (b : BitVec 5) (p : Bool)
  | vfill (d : BitVec 5) (a : BitVec 5) (b : BitVec 5) (p : Bool)
  | vhad (d : BitVec 5) (a : BitVec 5) (isInt : Bool) (alt : Bool) (cv : Bool) (sat : Bool) (sh : BitVec 5) (ot : BitVec 4) (j : BitVec 4) (nst : BitVec 4)
  | vloop (a : BitVec 5) (len : BitVec 5)
  | vloopStrip (k : Nat)
  | rnginit (d : BitVec 5) (a : BitVec 5) (b : BitVec 5)
  | rawait (d : BitVec 5) (a : BitVec 5)
  | rrels (a : BitVec 5)
  | rngq (d : BitVec 5) (a : BitVec 5) (s : Bool)
  | tcset (a : BitVec 5) (b : BitVec 5) (s : BitVec 3)
  | tcadd (a : BitVec 5) (b : BitVec 5) (s : BitVec 3)
  | tcwait (d : BitVec 5) (a : BitVec 5) (b : BitVec 5) (s : BitVec 3) (p : Bool)
  | launch (d : BitVec 5) (a : BitVec 5)
  | spawn (d : BitVec 5) (a : BitVec 5)
  | ownacq (d : BitVec 5) (a : BitVec 5)
  | ownrel (d : BitVec 5) (a : BitVec 5)
  | routeset (d : BitVec 5) (a : BitVec 5) (b : BitVec 5)
  | collab (d : BitVec 5) (a : BitVec 5) (b : BitVec 5)
  | cpy (a : BitVec 5) (ch : BitVec 3)
  | cpyTrg (a : BitVec 5) (ch : BitVec 3) (t : BitVec 5)
  | coll (a : BitVec 5)
  | collTrg (a : BitVec 5) (t : BitVec 5)
  | smshape (qd : BitVec 2) (rows : BitVec 3) (cols : BitVec 3) (fmt : Bool)
  | smld (qd : BitVec 2) (x : BitVec 5) (y : BitVec 5) (m : BitVec 3) (p : Bool)
  | smst (qd : BitVec 2) (x : BitVec 5) (y : BitVec 5) (m : BitVec 3) (p : Bool)
  | smmul (qd : BitVec 2) (qa : BitVec 2) (qb : BitVec 2) (m : BitVec 3) (xm : Bool) (acc : Bool)
  | smadd (qd : BitVec 2) (qa : BitVec 2) (qb : BitVec 2) (m : BitVec 3) (xm : Bool) (neg : Bool)
  | smtrn (qd : BitVec 2) (qa : BitVec 2) (m : BitVec 3)
  | smchol (qd : BitVec 2) (qa : BitVec 2) (m : BitVec 3) (xm : Bool) (mf : BitVec 3)
  | smlu (qd : BitVec 2) (qa : BitVec 2) (x : BitVec 5) (m : BitVec 3) (xm : Bool) (mf : BitVec 3)
  | smsolve (qd : BitVec 2) (qa : BitVec 2) (qb : BitVec 2) (x : BitVec 5) (m : BitVec 3) (xm : Bool) (mode : BitVec 2)
  | smget (qa : BitVec 2) (x : BitVec 5) (m : BitVec 3) (i : BitVec 3) (j : BitVec 3)
  | smput (qd : BitVec 2) (x : BitVec 5) (m : BitVec 3) (i : BitVec 3) (j : BitVec 3)
  | rgalloc (d : BitVec 5) (qr : BitVec 2) (qc : BitVec 2) (atO : Bool) (orow : BitVec 2) (oc : BitVec 2)
  | rgfree (a : BitVec 5) (whole : Bool)
  | rgload (d : BitVec 5) (a : BitVec 5) (b : BitVec 5)
  | rgrun (a : BitVec 5)
  | rgwait (d : BitVec 5) (a : BitVec 5) (s : BitVec 3)
  | rgstop (a : BitVec 5)
  | rgstat (d : BitVec 5) (a : BitVec 5)
  | rgexp (d : BitVec 5) (a : BitVec 5) (b : BitVec 5)
  | rgimp (d : BitVec 5) (a : BitVec 5) (b : BitVec 5)
  | sbind (a : BitVec 5) (b : BitVec 5)
  | rgsetc (a : BitVec 5) (b : BitVec 5) (n : BitVec 3) (allG : Bool) (grain : BitVec 8)
  | bfly (g : GrainRef) (w : FropWord)
  | hadb (g : GrainRef) (w : FropWord)
  | cmul (g : GrainRef) (w : FropWord)
  | mac (g : GrainRef) (w : FropWord)
  | smac (g : GrainRef) (w : FropWord)
  | eop (g : GrainRef) (w : FropWord)
  | mmul (g : GrainRef) (w : FropWord)
  | madd (g : GrainRef) (w : FropWord)
  | mred (g : GrainRef) (w : FropWord)
  | bfps (g : GrainRef) (w : FropWord)
  | cvt (g : GrainRef) (w : FropWord)
  | scan (g : GrainRef) (w : FropWord)
  | cmps (g : GrainRef) (w : FropWord)
  | ldg (g : GrainRef) (w : FropWord)
  | stg (g : GrainRef) (w : FropWord)
  | ldp (g : GrainRef) (w : FropWord)
  | stp (g : GrainRef) (w : FropWord)
  | tas (g : GrainRef) (w : FropWord)
  | req (g : GrainRef) (w : FropWord)
  | rld (g : GrainRef) (w : FropWord)
  | rst (g : GrainRef) (w : FropWord)
  | rat (g : GrainRef) (w : FropWord)
  | rout (g : GrainRef) (w : FropWord)
  | merg (g : GrainRef) (w : FropWord)
  | filt (g : GrainRef) (w : FropWord)
  | dupl (g : GrainRef) (w : FropWord)
  | cnt (g : GrainRef) (w : FropWord)
  | mark (g : GrainRef) (w : FropWord)
  | rdce (g : GrainRef) (w : FropWord)
  | gate (g : GrainRef) (w : FropWord)
  | fetchFault (cause : Nat) (tval : Word)
  | illegalEncoding (bits : Word)
  | strandWake (k : Nat)
  | wfeTimeout (k : Nat)
  | vectorIssueCycle (c : IssueCycle)
  | bankArbitrationCycle (pan bank : Nat) (g v : Bool) (s : Nat) (e : Bool) (x : Nat)
  | vldaGroupWrite (k : Nat)
  | vstnNotify (k : Nat)
  | xinvRetire (n : Nat)
  | regionServiceCycle (r : Nat)
  | frameChangeDone (r slot : Nat)
  | ringOutputPublishTimeout (r slot bind : Nat)
  | ringInputAcquire (r slot bind : Nat)
  | regionStopTimeout (r slot : Nat)
  | sluiceCommandStart (ch : Nat)
  | sluiceChunk (ch : Nat)
  | ringReserve (ch : Nat)
  | armedCopyEnqueue (ch : Nat)
  | pmigdbWrite (die : Nat) (v : Word)
  | pageMigrationStart (die : Nat)
  | pageMigrationChunk (die : Nat)
  | frameInvalidationRetire (die : Nat)
  | remoteAccessArrival (m : RMsg)
  | remoteReleasePerform (n : Nat)
  | remoteResponseArrival (tag : Nat) (r : RResp)
  | tokenTransferComplete (req : TokenReq)
  | dispatchCycle
  | queueAging (q : Nat)
  | imageLoadComplete (h : BitVec 48)
  | blockStart (b : Nat)
  | blockRetire (b : Nat)
  | heldRecordEnqueue (n : Nat)
  | taskCommit (t : Nat)
  | preemptRequest (b : Nat)
  | preemptComplete (b : Nat)
  | resumeRequest (b : Nat)
  | blockResume (b : Nat)
  | evictRequest (pan res : Nat)
  | evictionComplete (pan res : Nat)
  | killWrite (k : Nat)
  | migrationCopyComplete (b : Nat)
  | flitTransmit (link : Nat)
  | flitReceive (link : Nat) (f : Flit) (opens : Bool)
  | retrainComplete (link : Nat) (ok : Bool)
  | flitDeliveryTimeout (tag : Nat)
  | collFlitReceive (link : Nat) (group gseq : Nat) (body : FlitBody)
  | reducerStep (die : Nat)
  | abtReceive (link : Nat) (group seq : Nat)
  | abtackReceive (link : Nat) (group seq : Nat)
  | collTimeout (vs : Nat)
  | lkkeyWrite (link : Nat) (v : Word) (fw : Bool)
  | spareTakeover (dev : BitVec 19)
  | checkpointStart
  | checkpointComplete
  | faultRecovery
  | ownclaimWrite (p0 p1 : Bool)
  | ownhandWrite (port : Nat) (v : Word)
  | ownerLinkTimeout
  | hwsyncRead (port : Nat)
  | ihead (port i : Nat) (v : Word)
  | ictrl (port i : Nat) (v : Word)
  | itstamp (port i : Nat) (v : Word)
  | icmpl (port i : Nat) (v : Word)
  | iarg (port i : Nat) (v : Word)
  | iend (port i : Nat) (v : Word)
  | istatRead (port i : Nat)
  | hirqWrite (port : Nat) (v : Word)
  | qcfgWrite (q : Nat) (v : Word) (fw : Bool)
  | imageTableWrite (port e dw : Nat) (v : Word)
  | hostWindowWrite (port w dw : Nat) (v : Word)
  | panControlWrite (pan off : Nat) (v : Word) (fw : Bool)
  | tcctlClear (die : Nat)
  | tcctlFreeze (die : Nat) (on : Bool)
  | pwrlimWrite (v : Word)
  | registerWrite (off : Nat) (v : Word) (fw : Bool)
  | powerLimiterSample (avg : Nat)
  | thermalThrottle (die : Nat) (hot : Bool)
  | thermalTrip
  | reset
  | bootStepComplete (ok : Bool)
  | attestationRequest (port : Nat) (nonce : List Byte)
  | patrolScrub (u : ScrubUnit) (n : Nat) (found : ScrubFind)
  | errorLogPlace
  | hostPortLinkDown (port : Nat) (up : Bool)
  | hostReadCompletion (tag : Nat) (v : Word)
  | quiescedReport (dev : BitVec 19)
  | contextCreate (c : CtxSpec)
  | contextDestroy (c : Nat)
  | queueClear (q : Nat)
  deriving DecidableEq, Repr

end Sys2Proof
end

