-- ==== Sys2Proof/WellFormed.lean ====
section
/-! DEFINITION. Well-formedness of an encoding beyond its fixed bits (08 R226). -/

namespace Sys2Proof

/-- Scope codes 6 and 7 are reserved (00 R4). -/
def scopeOk (s : BitVec 3) : Bool := decide (s.toNat ≤ 5)

/-- FORM 3 is reserved (08 R220). -/
def formOk (f : BitVec 2) : Bool := decide (f ≠ 3#2)

/-- FORM 0 and FORM 3 are reserved for the permute and move instructions that take a scalar or an immediate (10 R301). -/
def formImm (f : BitVec 2) : Bool := decide (f = 1#2 ∨ f = 2#2)

/-- `.xm` needs a mask register other than m0 (07 R188). -/
def xmOk (x : Bool) (m : BitVec 3) : Bool := !x || decide (m ≠ 0#3)

/-- 09 R268: the numbers that name a control word. -/
def controlAssigned (n : Nat) : Bool :=
  decide (n ≤ 2 ∨ (8 ≤ n ∧ n ≤ 0x10) ∨ (0x20 ≤ n ∧ n ≤ 0x23) ∨ n = 0x30 ∨ n = 0x31 ∨ (0x800 ≤ n ∧ n ≤ 0x806) ∨ (0x810 ≤ n ∧ n ≤ 0x812))

/-- The conditions of 08 R226 that are not fixed bits of the encoding; what has no encoding has no conditions. -/
def Instr.wf (i : Instr) : Bool :=
  match i with
  | .bswap _ _ t => decide (t ≠ 0#3 ∧ t ≠ 4#3)
  | .sext _ _ t => decide (t.toNat ≤ 2)
  | .zext _ _ t => decide (4 ≤ t.toNat ∧ t.toNat ≤ 6)
  | .fcvt _ _ v u t => decide (t.toNat ≤ 0xD ∧ v.toNat ≤ 0xD ∧ ¬(t.toNat < 8 ∧ v.toNat < 8)) && (!u || decide (t = 0xC#4 ∨ t = 0xD#4))
  | .ld t _ _ _ => decide (t ≠ 7#3)
  | .ldP t _ _ _ => decide (t ≠ 7#3)
  | .ldacq _ _ s t => decide (t ≠ 7#3) && scopeOk s
  | .ldacqP _ _ s t => decide (t ≠ 7#3) && scopeOk s
  | .strel _ _ s _ => scopeOk s
  | .strelP _ _ s _ => scopeOk s
  | .amo f _ _ _ s y _ => scopeOk s && (decide (f ≠ 7#3) || decide (y.toNat ≤ 1))
  | .amoP f _ _ _ s y _ => scopeOk s && (decide (f ≠ 7#3) || decide (y.toNat ≤ 1))
  | .amocas _ _ _ s y _ => scopeOk s && decide (2 ≤ y.toNat)
  | .amocasP _ _ _ s y _ => scopeOk s && decide (2 ≤ y.toNat)
  | .fence s k => scopeOk s && decide (k.toNat ≤ 3)
  | .mfc _ n => controlAssigned n.toNat
  | .mtc _ n => controlAssigned n.toNat
  | .cflush _ s => scopeOk s
  | .vadd _ _ _ _ _ f => formOk f
  | .vsub _ _ _ _ _ f => formOk f
  | .vmul _ _ _ _ _ f => formOk f
  | .vmulh _ _ _ _ _ f => formOk f
  | .vwmul _ _ _ _ _ f => formOk f
  | .vwmac _ _ _ _ _ f => formOk f
  | .vmac _ _ _ _ _ f => formOk f
  | .vdiv _ _ _ m _ x f => formOk f && xmOk x m
  | .vrem _ _ _ m _ x f => formOk f && xmOk x m
  | .vmin _ _ _ _ _ f => formOk f
  | .vmax _ _ _ _ _ f => formOk f
  | .vand _ _ _ _ _ f => formOk f
  | .vor _ _ _ _ _ f => formOk f
  | .vxor _ _ _ _ _ f => formOk f
  | .vsll _ _ _ _ _ f => formOk f
  | .vsrl _ _ _ _ _ f => formOk f
  | .vsra _ _ _ _ _ f => formOk f
  | .vnshr _ _ _ m _ x f => formOk f && xmOk x m
  | .vsadd _ _ _ m _ x f => formOk f && xmOk x m
  | .vssub _ _ _ m _ x f => formOk f && xmOk x m
  | .vcmp _ _ _ _ _ _ f => formOk f
  | .vfadd _ _ _ m _ x f => formOk f && xmOk x m
  | .vfsub _ _ _ m _ x f => formOk f && xmOk x m
  | .vfmul _ _ _ m _ x f => formOk f && xmOk x m
  | .vfdiv _ _ _ m _ x f => formOk f && xmOk x m
  | .vfsqrt _ _ m _ x => xmOk x m
  | .vfma _ _ _ m _ x f => formOk f && xmOk x m
  | .vfms _ _ _ m _ x f => formOk f && xmOk x m
  | .vfnma _ _ _ m _ x f => formOk f && xmOk x m
  | .vfmin _ _ _ m _ x f => formOk f && xmOk x m
  | .vfmax _ _ _ m _ x f => formOk f && xmOk x m
  | .vfcvt _ _ v u m _ x => xmOk x m && decide (v.toNat ≤ 0xD) && (!u || decide (v = 0xC#4 ∨ v = 0xD#4))
  | .vsfn _ _ n m _ x => xmOk x m && decide (n.toNat ≤ 6)
  | .vred o _ _ _ _ _ => decide (o.toNat ≤ 5)
  | .vfredo _ _ _ m _ x => xmOk x m
  | .vfredt _ _ _ m _ x => xmOk x m
  | .vlseg _ _ n _ _ _ => decide (n ≠ 0#3)
  | .vsseg _ _ n _ _ _ => decide (n ≠ 0#3)
  | .vstn _ _ b _ n _ _ => n || decide (b = 0#5)
  | .vslideup _ _ _ _ f => formImm f
  | .vslidedn _ _ _ _ f => formImm f
  | .vbcast _ _ _ f => formImm f
  | .vmvx _ _ _ f => formImm f
  | .vins _ _ _ f => formImm f
  | .vperms _ _ _ _ f => formImm f
  | .vsetl _ _ _ s => scopeOk s
  | .vhad _ _ isInt alt cv sat sh ot j nst => decide (1 ≤ nst.toNat ∧ j.toNat + nst.toNat ≤ 11 ∧ ot.toNat ≤ 0xD) && (cv || (!sat && decide (sh = 0#5) && decide (ot = 0#4))) && !(isInt && alt) && (isInt || (decide (sh = 0#5) && (!sat || decide (ot = 0xC#4 ∨ ot = 0xD#4))))
  | .tcset _ _ s => scopeOk s
  | .tcadd _ _ s => scopeOk s
  | .tcwait _ _ _ s _ => scopeOk s
  | .smshape _ rows cols _ => decide (1 ≤ rows.toNat ∧ rows.toNat ≤ 6 ∧ 1 ≤ cols.toNat ∧ cols.toNat ≤ 6)
  | .smmul _ _ _ m xm _ => xmOk xm m
  | .smadd _ _ _ m xm _ => xmOk xm m
  | .smchol _ _ m xm _ => xmOk xm m
  | .smlu _ _ _ m xm _ => xmOk xm m
  | .smsolve _ _ _ x m xm mode => xmOk xm m && (decide (mode = 1#2) || decide (x = 0#5))
  | .rgalloc _ _ _ atO orow oc => atO || (decide (orow = 0#2) && decide (oc = 0#2))
  | .rgwait _ _ s => scopeOk s
  | .rgsetc _ _ _ allG grain => !allG || decide (grain = 0#8)
  | _ => true

end Sys2Proof
end

