-- ==== Sys2Proof/Decode.lean ====
section
/-! DEFINITION. Decoding (08 R209 to R231) and, after it, the encoder from the same tables. Fields are pulled out here, once. -/

namespace Sys2Proof

/-- The fields of the 32-bit base form (08 R212); `k` is bits [3:0], class and the one of bit 0. -/
structure W32 where
  k : BitVec 4
  op : BitVec 6
  d : BitVec 5
  a : BitVec 5
  b : BitVec 5
  m : BitVec 3
  f : BitVec 4
  deriving DecidableEq, Repr

def W32.ofBits (w : Word) : W32 :=
  ⟨w.extractLsb' 0 4, w.extractLsb' 4 6, w.extractLsb' 10 5, w.extractLsb' 15 5, w.extractLsb' 20 5, w.extractLsb' 25 3, w.extractLsb' 28 4⟩

def W32.bits (w : W32) : Word :=
  ((w.f ++ w.m ++ w.b ++ w.a ++ w.d ++ w.op ++ w.k : BitVec 32)).zeroExtend 64

/-- The parts of a prefixed form (08 R224): POP, EXT and the body word. -/
structure P64 where
  pop : BitVec 6
  ext : BitVec 22
  body : BitVec 32
  deriving DecidableEq, Repr

def P64.ofBits (w : Word) : P64 := ⟨w.extractLsb' 4 6, w.extractLsb' 10 22, w.extractLsb' 32 32⟩

def P64.bits (w : P64) : Word := w.body ++ w.ext ++ w.pop ++ 0xF#4

/-- 08 R216. -/
def decodeClass0 (w : W32) : Option Instr :=
  match w.op.toNat with
  | 0 => if w.m = 0#3 ∧ w.f.extractLsb' 3 1 = 0#1 then some (.add (w.d) (w.a) (w.b) (w.f.extractLsb' 0 3)) else none
  | 1 => if w.m = 0#3 ∧ w.f.extractLsb' 3 1 = 0#1 then some (.sub (w.d) (w.a) (w.b) (w.f.extractLsb' 0 3)) else none
  | 2 => if w.m = 0#3 ∧ w.f.extractLsb' 3 1 = 0#1 then some (.and (w.d) (w.a) (w.b) (w.f.extractLsb' 0 3)) else none
  | 3 => if w.m = 0#3 ∧ w.f.extractLsb' 3 1 = 0#1 then some (.or (w.d) (w.a) (w.b) (w.f.extractLsb' 0 3)) else none
  | 4 => if w.m = 0#3 ∧ w.f.extractLsb' 3 1 = 0#1 then some (.xor (w.d) (w.a) (w.b) (w.f.extractLsb' 0 3)) else none
  | 5 => if w.m = 0#3 ∧ w.f.extractLsb' 3 1 = 0#1 then some (.andn (w.d) (w.a) (w.b) (w.f.extractLsb' 0 3)) else none
  | 6 => if w.m = 0#3 ∧ w.f.extractLsb' 3 1 = 0#1 then some (.sll (w.d) (w.a) (w.b) (w.f.extractLsb' 0 3)) else none
  | 7 => if w.m = 0#3 ∧ w.f.extractLsb' 3 1 = 0#1 then some (.srl (w.d) (w.a) (w.b) (w.f.extractLsb' 0 3)) else none
  | 8 => if w.m = 0#3 ∧ w.f.extractLsb' 3 1 = 0#1 then some (.sra (w.d) (w.a) (w.b) (w.f.extractLsb' 0 3)) else none
  | 9 => if w.m = 0#3 ∧ w.f.extractLsb' 3 1 = 0#1 then some (.ror (w.d) (w.a) (w.b) (w.f.extractLsb' 0 3)) else none
  | 10 => if w.m = 0#3 ∧ w.f.extractLsb' 3 1 = 0#1 then some (.slt (w.d) (w.a) (w.b) (w.f.extractLsb' 0 3)) else none
  | 11 => if w.m = 0#3 ∧ w.f.extractLsb' 3 1 = 0#1 then some (.min (w.d) (w.a) (w.b) (w.f.extractLsb' 0 3)) else none
  | 12 => if w.m = 0#3 ∧ w.f.extractLsb' 3 1 = 0#1 then some (.max (w.d) (w.a) (w.b) (w.f.extractLsb' 0 3)) else none
  | 13 => if w.m = 0#3 ∧ w.f.extractLsb' 3 1 = 0#1 then some (.mul (w.d) (w.a) (w.b) (w.f.extractLsb' 0 3)) else none
  | 14 => if w.m = 0#3 ∧ w.f.extractLsb' 3 1 = 0#1 then some (.mulh (w.d) (w.a) (w.b) (w.f.extractLsb' 0 3)) else none
  | 15 => if w.m = 0#3 ∧ w.f.extractLsb' 3 1 = 0#1 then some (.div (w.d) (w.a) (w.b) (w.f.extractLsb' 0 3)) else none
  | 16 => if w.m = 0#3 ∧ w.f.extractLsb' 3 1 = 0#1 then some (.rem (w.d) (w.a) (w.b) (w.f.extractLsb' 0 3)) else none
  | 17 => if w.b = 0#5 ∧ w.m = 0#3 ∧ w.f.extractLsb' 3 1 = 0#1 then some (.clz (w.d) (w.a) (w.f.extractLsb' 0 3)) else none
  | 18 => if w.b = 0#5 ∧ w.m = 0#3 ∧ w.f.extractLsb' 3 1 = 0#1 then some (.ctz (w.d) (w.a) (w.f.extractLsb' 0 3)) else none
  | 19 => if w.b = 0#5 ∧ w.m = 0#3 ∧ w.f.extractLsb' 3 1 = 0#1 then some (.popc (w.d) (w.a) (w.f.extractLsb' 0 3)) else none
  | 20 => if w.b = 0#5 ∧ w.m = 0#3 ∧ w.f.extractLsb' 3 1 = 0#1 then some (.brev (w.d) (w.a) (w.f.extractLsb' 0 3)) else none
  | 21 => if w.b = 0#5 ∧ w.m = 0#3 ∧ w.f.extractLsb' 3 1 = 0#1 then some (.bswap (w.d) (w.a) (w.f.extractLsb' 0 3)) else none
  | 22 => if w.b = 0#5 ∧ w.m = 0#3 ∧ w.f.extractLsb' 3 1 = 0#1 then some (.sext (w.d) (w.a) (w.f.extractLsb' 0 3)) else none
  | 23 => if w.b = 0#5 ∧ w.m = 0#3 ∧ w.f.extractLsb' 3 1 = 0#1 then some (.zext (w.d) (w.a) (w.f.extractLsb' 0 3)) else none
  | 24 => if w.m = 0#3 ∧ w.f.extractLsb' 3 1 = 0#1 then some (.sel (w.d) (w.a) (w.b) (w.f.extractLsb' 0 3)) else none
  | 32 => if w.m = 0#3 ∧ w.f.extractLsb' 2 2 = 2#2 then some (.fadd (w.d) (w.a) (w.b) (w.f.extractLsb' 0 2)) else none
  | 33 => if w.m = 0#3 ∧ w.f.extractLsb' 2 2 = 2#2 then some (.fsub (w.d) (w.a) (w.b) (w.f.extractLsb' 0 2)) else none
  | 34 => if w.m = 0#3 ∧ w.f.extractLsb' 2 2 = 2#2 then some (.fmul (w.d) (w.a) (w.b) (w.f.extractLsb' 0 2)) else none
  | 35 => if w.m = 0#3 ∧ w.f.extractLsb' 2 2 = 2#2 then some (.fdiv (w.d) (w.a) (w.b) (w.f.extractLsb' 0 2)) else none
  | 36 => if w.b = 0#5 ∧ w.m = 0#3 ∧ w.f.extractLsb' 2 2 = 2#2 then some (.fsqrt (w.d) (w.a) (w.f.extractLsb' 0 2)) else none
  | 37 => if w.m = 0#3 ∧ w.f.extractLsb' 2 2 = 2#2 then some (.ffma (w.d) (w.a) (w.b) (w.f.extractLsb' 0 2)) else none
  | 38 => if w.m = 0#3 ∧ w.f.extractLsb' 2 2 = 2#2 then some (.fmin (w.d) (w.a) (w.b) (w.f.extractLsb' 0 2)) else none
  | 39 => if w.m = 0#3 ∧ w.f.extractLsb' 2 2 = 2#2 then some (.fmax (w.d) (w.a) (w.b) (w.f.extractLsb' 0 2)) else none
  | 40 => if w.m.extractLsb' 2 1 = 0#1 ∧ w.f.extractLsb' 2 2 = 2#2 then some (.fcmp (w.d) (w.a) (w.b) (w.m.extractLsb' 0 2) (w.f.extractLsb' 0 2)) else none
  | 41 => if w.b = 0#5 ∧ w.m = 0#3 ∧ w.f.extractLsb' 2 2 = 2#2 then some (.fclass (w.d) (w.a) (w.f.extractLsb' 0 2)) else none
  | 42 => if w.m = 0#3 then some (.fcvt (w.d) (w.a) (w.b.extractLsb' 0 4) (w.b.getLsbD 4) (w.f)) else none
  | _ => none

/-- 08 R217. -/
def decodeClass1 (w : W32) : Option Instr :=
  match w.op.toNat with
  | 0 => some (.addi (w.d) (w.a) (w.f ++ w.m ++ w.b))
  | 2 => some (.andi (w.d) (w.a) (w.f ++ w.m ++ w.b))
  | 3 => some (.ori (w.d) (w.a) (w.f ++ w.m ++ w.b))
  | 4 => some (.xori (w.d) (w.a) (w.f ++ w.m ++ w.b))
  | 6 => if w.m.extractLsb' 1 2 = 0#2 ∧ w.f = 0#4 then some (.slli (w.d) (w.a) (w.m.extractLsb' 0 1 ++ w.b)) else none
  | 7 => if w.m.extractLsb' 1 2 = 0#2 ∧ w.f = 0#4 then some (.srli (w.d) (w.a) (w.m.extractLsb' 0 1 ++ w.b)) else none
  | 8 => if w.m.extractLsb' 1 2 = 0#2 ∧ w.f = 0#4 then some (.srai (w.d) (w.a) (w.m.extractLsb' 0 1 ++ w.b)) else none
  | 10 => some (.slti (w.d) (w.a) (w.f ++ w.m ++ w.b))
  | 48 => some (.ldhi (w.d) (w.f ++ w.m ++ w.b ++ w.a))
  | 49 => some (.addpc (w.d) (w.f ++ w.m ++ w.b ++ w.a))
  | _ => none

/-- 08 R218. -/
def decodeClass2 (w : W32) : Option Instr :=
  match w.op.toNat with
  | 24 => if w.b = 0#5 ∧ w.f.extractLsb' 3 1 = 0#1 then some (.ldacq (w.d) (w.a) (w.m) (w.f.extractLsb' 0 3)) else none
  | 25 => if w.b = 0#5 ∧ w.f.extractLsb' 3 1 = 0#1 then some (.ldacqP (w.d) (w.a) (w.m) (w.f.extractLsb' 0 3)) else none
  | 26 => if w.d = 0#5 ∧ w.f.extractLsb' 2 2 = 0#2 then some (.strel (w.a) (w.b) (w.m) (w.f.extractLsb' 0 2)) else none
  | 27 => if w.d = 0#5 ∧ w.f.extractLsb' 2 2 = 0#2 then some (.strelP (w.a) (w.b) (w.m) (w.f.extractLsb' 0 2)) else none
  | 48 => some (.amocas (w.d) (w.a) (w.b) (w.m) (w.f.extractLsb' 0 2) (w.f.extractLsb' 2 2))
  | 49 => some (.amocasP (w.d) (w.a) (w.b) (w.m) (w.f.extractLsb' 0 2) (w.f.extractLsb' 2 2))
  | 56 => if w.d = 0#5 ∧ w.a = 0#5 ∧ w.b = 0#5 ∧ w.f.extractLsb' 3 1 = 0#1 then some (.fence (w.m) (w.f.extractLsb' 0 3)) else none
  | 16 | 17 | 18 | 19 => some (.st (w.op.extractLsb' 0 2) (w.a) (w.b) (w.f ++ w.m ++ w.d))
  | 20 | 21 | 22 | 23 => some (.stP (w.op.extractLsb' 0 2) (w.a) (w.b) (w.f ++ w.m ++ w.d))
  | 0 | 1 | 2 | 3 | 4 | 5 | 6 | 7 => some (.ld (w.op.extractLsb' 0 3) (w.d) (w.a) (w.f ++ w.m ++ w.b))
  | 8 | 9 | 10 | 11 | 12 | 13 | 14 | 15 => some (.ldP (w.op.extractLsb' 0 3) (w.d) (w.a) (w.f ++ w.m ++ w.b))
  | 32 | 33 | 34 | 35 | 36 | 37 | 38 | 39 => some (.amo (w.op.extractLsb' 0 3) (w.d) (w.a) (w.b) (w.m) (w.f.extractLsb' 0 2) (w.f.extractLsb' 2 2))
  | 40 | 41 | 42 | 43 | 44 | 45 | 46 | 47 => some (.amoP (w.op.extractLsb' 0 3) (w.d) (w.a) (w.b) (w.m) (w.f.extractLsb' 0 2) (w.f.extractLsb' 2 2))
  | _ => none

/-- 08 R219. -/
def decodeClass3 (w : W32) : Option Instr :=
  match w.op.toNat with
  | 0 => some (.beq (w.a) (w.b) (w.f ++ w.m ++ w.d))
  | 1 => some (.bne (w.a) (w.b) (w.f ++ w.m ++ w.d))
  | 2 => some (.blt (w.a) (w.b) (w.f ++ w.m ++ w.d))
  | 3 => some (.bge (w.a) (w.b) (w.f ++ w.m ++ w.d))
  | 4 => some (.bltZ (w.a) (w.b) (w.f ++ w.m ++ w.d))
  | 5 => some (.bgeZ (w.a) (w.b) (w.f ++ w.m ++ w.d))
  | 8 => some (.jal (w.f ++ w.m ++ w.b ++ w.a ++ w.d))
  | 9 => some (.jalr (w.d) (w.a) (w.f ++ w.m ++ w.b))
  | 16 => if w.d = 0#5 ∧ w.a = 0#5 then some (.svc (w.f ++ w.m ++ w.b)) else none
  | 17 => if w.d = 0#5 ∧ w.a = 0#5 then some (.brk (w.f ++ w.m ++ w.b)) else none
  | 18 => if w.d = 0#5 ∧ w.a = 0#5 ∧ w.b = 0#5 ∧ w.m = 0#3 ∧ w.f = 0#4 then some .eret else none
  | 19 => if w.a = 0#5 then some (.mfc (w.d) (w.f ++ w.m ++ w.b)) else none
  | 20 => if w.d = 0#5 then some (.mtc (w.a) (w.f ++ w.m ++ w.b)) else none
  | 21 => if w.d = 0#5 ∧ w.a = 0#5 ∧ w.b = 0#5 ∧ w.m = 0#3 ∧ w.f = 0#4 then some .wfe else none
  | 22 => if w.d = 0#5 ∧ w.a = 0#5 ∧ w.b = 0#5 ∧ w.m = 0#3 ∧ w.f = 0#4 then some .yield else none
  | 23 => if w.d = 0#5 ∧ w.a = 0#5 ∧ w.b = 0#5 ∧ w.m = 0#3 ∧ w.f = 0#4 then some .exit else none
  | 24 => if w.b = 0#5 ∧ w.m = 0#3 ∧ w.f = 0#4 then some (.placeAddr (w.d) (w.a)) else if w.a = 0#5 ∧ w.b = 0#5 ∧ w.m = 0#3 ∧ w.f = 1#4 then some (.placeSelf (w.d)) else none
  | 25 => if w.a = 0#5 ∧ w.b = 0#5 ∧ w.m = 0#3 ∧ w.f = 0#4 then some (.rdgt (w.d)) else none
  | 26 => if w.d = 0#5 ∧ w.a = 0#5 then some (.hint (w.f ++ w.m ++ w.b)) else none
  | 27 => if w.d = 0#5 ∧ w.b = 0#5 ∧ w.f = 0#4 then some (.cflush (w.a) (w.m)) else none
  | 28 => if w.d = 0#5 ∧ w.b = 0#5 ∧ w.m = 0#3 ∧ w.f = 0#4 then some (.cinv (w.a)) else none
  | 29 => if w.d = 0#5 ∧ w.a = 0#5 ∧ w.b = 0#5 ∧ w.m = 0#3 ∧ w.f = 0#4 then some .xinvAll else if w.d = 0#5 ∧ w.b = 0#5 ∧ w.m = 0#3 ∧ w.f = 1#4 then some (.xinvCtx (w.a)) else if w.d = 0#5 ∧ w.m = 0#3 ∧ w.f = 2#4 then some (.xinvVa (w.a) (w.b)) else if w.d = 0#5 ∧ w.b = 0#5 ∧ w.m = 0#3 ∧ w.f = 3#4 then some (.xinvIn (w.a)) else none
  | _ => none

/-- 08 R220. -/
def decodeClass4 (w : W32) : Option Instr :=
  match w.op.toNat with
  | 0 => if w.f.extractLsb' 1 1 = 0#1 then some (.vadd (w.d) (w.a) (w.b) (w.m) (w.f.getLsbD 0) (w.f.extractLsb' 2 2)) else none
  | 1 => if w.f.extractLsb' 1 1 = 0#1 then some (.vsub (w.d) (w.a) (w.b) (w.m) (w.f.getLsbD 0) (w.f.extractLsb' 2 2)) else none
  | 2 => if w.f.extractLsb' 1 1 = 0#1 then some (.vmul (w.d) (w.a) (w.b) (w.m) (w.f.getLsbD 0) (w.f.extractLsb' 2 2)) else none
  | 3 => if w.f.extractLsb' 1 1 = 0#1 then some (.vmulh (w.d) (w.a) (w.b) (w.m) (w.f.getLsbD 0) (w.f.extractLsb' 2 2)) else none
  | 4 => if w.f.extractLsb' 1 1 = 0#1 then some (.vwmul (w.d) (w.a) (w.b) (w.m) (w.f.getLsbD 0) (w.f.extractLsb' 2 2)) else none
  | 5 => if w.f.extractLsb' 1 1 = 0#1 then some (.vwmac (w.d) (w.a) (w.b) (w.m) (w.f.getLsbD 0) (w.f.extractLsb' 2 2)) else none
  | 6 => if w.f.extractLsb' 1 1 = 0#1 then some (.vmac (w.d) (w.a) (w.b) (w.m) (w.f.getLsbD 0) (w.f.extractLsb' 2 2)) else none
  | 7 => some (.vdiv (w.d) (w.a) (w.b) (w.m) (w.f.getLsbD 0) (w.f.getLsbD 1) (w.f.extractLsb' 2 2))
  | 8 => some (.vrem (w.d) (w.a) (w.b) (w.m) (w.f.getLsbD 0) (w.f.getLsbD 1) (w.f.extractLsb' 2 2))
  | 9 => if w.f.extractLsb' 1 1 = 0#1 then some (.vmin (w.d) (w.a) (w.b) (w.m) (w.f.getLsbD 0) (w.f.extractLsb' 2 2)) else none
  | 10 => if w.f.extractLsb' 1 1 = 0#1 then some (.vmax (w.d) (w.a) (w.b) (w.m) (w.f.getLsbD 0) (w.f.extractLsb' 2 2)) else none
  | 11 => if w.f.extractLsb' 1 1 = 0#1 then some (.vand (w.d) (w.a) (w.b) (w.m) (w.f.getLsbD 0) (w.f.extractLsb' 2 2)) else none
  | 12 => if w.f.extractLsb' 1 1 = 0#1 then some (.vor (w.d) (w.a) (w.b) (w.m) (w.f.getLsbD 0) (w.f.extractLsb' 2 2)) else none
  | 13 => if w.f.extractLsb' 1 1 = 0#1 then some (.vxor (w.d) (w.a) (w.b) (w.m) (w.f.getLsbD 0) (w.f.extractLsb' 2 2)) else none
  | 14 => if w.f.extractLsb' 1 1 = 0#1 then some (.vsll (w.d) (w.a) (w.b) (w.m) (w.f.getLsbD 0) (w.f.extractLsb' 2 2)) else none
  | 15 => if w.f.extractLsb' 1 1 = 0#1 then some (.vsrl (w.d) (w.a) (w.b) (w.m) (w.f.getLsbD 0) (w.f.extractLsb' 2 2)) else none
  | 16 => if w.f.extractLsb' 1 1 = 0#1 then some (.vsra (w.d) (w.a) (w.b) (w.m) (w.f.getLsbD 0) (w.f.extractLsb' 2 2)) else none
  | 17 => some (.vnshr (w.d) (w.a) (w.b) (w.m) (w.f.getLsbD 0) (w.f.getLsbD 1) (w.f.extractLsb' 2 2))
  | 18 => some (.vsadd (w.d) (w.a) (w.b) (w.m) (w.f.getLsbD 0) (w.f.getLsbD 1) (w.f.extractLsb' 2 2))
  | 19 => some (.vssub (w.d) (w.a) (w.b) (w.m) (w.f.getLsbD 0) (w.f.getLsbD 1) (w.f.extractLsb' 2 2))
  | 32 => some (.vfadd (w.d) (w.a) (w.b) (w.m) (w.f.getLsbD 0) (w.f.getLsbD 1) (w.f.extractLsb' 2 2))
  | 33 => some (.vfsub (w.d) (w.a) (w.b) (w.m) (w.f.getLsbD 0) (w.f.getLsbD 1) (w.f.extractLsb' 2 2))
  | 34 => some (.vfmul (w.d) (w.a) (w.b) (w.m) (w.f.getLsbD 0) (w.f.getLsbD 1) (w.f.extractLsb' 2 2))
  | 35 => some (.vfdiv (w.d) (w.a) (w.b) (w.m) (w.f.getLsbD 0) (w.f.getLsbD 1) (w.f.extractLsb' 2 2))
  | 36 => if w.b = 0#5 ∧ w.f.extractLsb' 2 2 = 0#2 then some (.vfsqrt (w.d) (w.a) (w.m) (w.f.getLsbD 0) (w.f.getLsbD 1)) else none
  | 37 => some (.vfma (w.d) (w.a) (w.b) (w.m) (w.f.getLsbD 0) (w.f.getLsbD 1) (w.f.extractLsb' 2 2))
  | 38 => some (.vfms (w.d) (w.a) (w.b) (w.m) (w.f.getLsbD 0) (w.f.getLsbD 1) (w.f.extractLsb' 2 2))
  | 39 => some (.vfnma (w.d) (w.a) (w.b) (w.m) (w.f.getLsbD 0) (w.f.getLsbD 1) (w.f.extractLsb' 2 2))
  | 40 => some (.vfmin (w.d) (w.a) (w.b) (w.m) (w.f.getLsbD 0) (w.f.getLsbD 1) (w.f.extractLsb' 2 2))
  | 41 => some (.vfmax (w.d) (w.a) (w.b) (w.m) (w.f.getLsbD 0) (w.f.getLsbD 1) (w.f.extractLsb' 2 2))
  | 42 => if w.b = 0#5 ∧ w.f.extractLsb' 1 3 = 0#3 then some (.vfclass (w.d) (w.a) (w.m) (w.f.getLsbD 0)) else none
  | 43 => if w.f.extractLsb' 2 2 = 0#2 then some (.vfcvt (w.d) (w.a) (w.b.extractLsb' 0 4) (w.b.getLsbD 4) (w.m) (w.f.getLsbD 0) (w.f.getLsbD 1)) else none
  | 44 => if w.f.extractLsb' 2 2 = 0#2 then some (.vsfn (w.d) (w.a) (w.b) (w.m) (w.f.getLsbD 0) (w.f.getLsbD 1)) else none
  | 54 => if w.f.extractLsb' 2 2 = 0#2 then some (.vfredo (w.d) (w.a) (w.b) (w.m) (w.f.getLsbD 0) (w.f.getLsbD 1)) else none
  | 55 => if w.f.extractLsb' 2 2 = 0#2 then some (.vfredt (w.d) (w.a) (w.b) (w.m) (w.f.getLsbD 0) (w.f.getLsbD 1)) else none
  | 20 | 21 | 22 | 23 => if w.d.extractLsb' 3 2 = 0#2 ∧ w.f.extractLsb' 1 1 = 0#1 then some (.vcmp (w.op.extractLsb' 0 2) (w.d.extractLsb' 0 3) (w.a) (w.b) (w.m) (w.f.getLsbD 0) (w.f.extractLsb' 2 2)) else none
  | 24 | 25 | 26 | 27 => if w.d.extractLsb' 3 2 = 0#2 ∧ w.f.extractLsb' 1 3 = 0#3 then some (.vfcmp (w.op.extractLsb' 0 2) (w.d.extractLsb' 0 3) (w.a) (w.b) (w.m) (w.f.getLsbD 0)) else none
  | 48 | 49 | 50 | 51 | 52 | 53 => if w.f.extractLsb' 1 3 = 0#3 then some (.vred (w.op.extractLsb' 0 3) (w.d) (w.a) (w.b) (w.m) (w.f.getLsbD 0)) else none
  | _ => none

/-- 08 R221. -/
def decodeClass5 (w : W32) : Option Instr :=
  match w.op.toNat with
  | 0 => if w.b = 0#5 ∧ w.f.extractLsb' 3 1 = 0#1 ∧ w.f.extractLsb' 0 1 = 0#1 then some (.vld (w.d) (w.a) (w.m) (w.f.getLsbD 1) (w.f.getLsbD 2)) else none
  | 1 => if w.f.extractLsb' 3 1 = 0#1 ∧ w.f.extractLsb' 0 1 = 0#1 then some (.vlds (w.d) (w.a) (w.b) (w.m) (w.f.getLsbD 1) (w.f.getLsbD 2)) else none
  | 2 => if w.f.extractLsb' 3 1 = 0#1 ∧ w.f.extractLsb' 0 1 = 0#1 then some (.vldx (w.d) (w.a) (w.b) (w.m) (w.f.getLsbD 1) (w.f.getLsbD 2)) else none
  | 3 => if w.b.extractLsb' 3 2 = 0#2 ∧ w.f.extractLsb' 3 1 = 0#1 ∧ w.f.extractLsb' 0 1 = 0#1 then some (.vlseg (w.d) (w.a) (w.b.extractLsb' 0 3) (w.m) (w.f.getLsbD 1) (w.f.getLsbD 2)) else none
  | 4 => if w.b = 0#5 ∧ w.f.extractLsb' 2 2 = 0#2 ∧ w.f.extractLsb' 0 1 = 0#1 then some (.vlda (w.d) (w.a) (w.m) (w.f.getLsbD 1)) else none
  | 8 => if w.b = 0#5 ∧ w.f.extractLsb' 3 1 = 0#1 ∧ w.f.extractLsb' 0 1 = 0#1 then some (.vst (w.d) (w.a) (w.m) (w.f.getLsbD 1) (w.f.getLsbD 2)) else none
  | 9 => if w.f.extractLsb' 3 1 = 0#1 ∧ w.f.extractLsb' 0 1 = 0#1 then some (.vsts (w.d) (w.a) (w.b) (w.m) (w.f.getLsbD 1) (w.f.getLsbD 2)) else none
  | 10 => if w.f.extractLsb' 3 1 = 0#1 ∧ w.f.extractLsb' 0 1 = 0#1 then some (.vstx (w.d) (w.a) (w.b) (w.m) (w.f.getLsbD 1) (w.f.getLsbD 2)) else none
  | 11 => if w.b.extractLsb' 3 2 = 0#2 ∧ w.f.extractLsb' 3 1 = 0#1 ∧ w.f.extractLsb' 0 1 = 0#1 then some (.vsseg (w.d) (w.a) (w.b.extractLsb' 0 3) (w.m) (w.f.getLsbD 1) (w.f.getLsbD 2)) else none
  | 12 => if w.f.extractLsb' 3 1 = 0#1 then some (.vstn (w.d) (w.a) (w.b) (w.m) (w.f.getLsbD 0) (w.f.getLsbD 1) (w.f.getLsbD 2)) else none
  | 32 => if w.d.extractLsb' 3 2 = 0#2 ∧ w.a.extractLsb' 3 2 = 0#2 ∧ w.b.extractLsb' 3 2 = 0#2 ∧ w.m = 0#3 ∧ w.f = 0#4 then some (.mand (w.d.extractLsb' 0 3) (w.a.extractLsb' 0 3) (w.b.extractLsb' 0 3)) else none
  | 33 => if w.d.extractLsb' 3 2 = 0#2 ∧ w.a.extractLsb' 3 2 = 0#2 ∧ w.b.extractLsb' 3 2 = 0#2 ∧ w.m = 0#3 ∧ w.f = 0#4 then some (.mor (w.d.extractLsb' 0 3) (w.a.extractLsb' 0 3) (w.b.extractLsb' 0 3)) else none
  | 34 => if w.d.extractLsb' 3 2 = 0#2 ∧ w.a.extractLsb' 3 2 = 0#2 ∧ w.b.extractLsb' 3 2 = 0#2 ∧ w.m = 0#3 ∧ w.f = 0#4 then some (.mxor (w.d.extractLsb' 0 3) (w.a.extractLsb' 0 3) (w.b.extractLsb' 0 3)) else none
  | 35 => if w.d.extractLsb' 3 2 = 0#2 ∧ w.a.extractLsb' 3 2 = 0#2 ∧ w.b.extractLsb' 3 2 = 0#2 ∧ w.m = 0#3 ∧ w.f = 0#4 then some (.mandn (w.d.extractLsb' 0 3) (w.a.extractLsb' 0 3) (w.b.extractLsb' 0 3)) else none
  | 36 => if w.a.extractLsb' 3 2 = 0#2 ∧ w.b = 0#5 ∧ w.m = 0#3 ∧ w.f = 0#4 then some (.mpopc (w.d) (w.a.extractLsb' 0 3)) else none
  | 37 => if w.a.extractLsb' 3 2 = 0#2 ∧ w.b = 0#5 ∧ w.m = 0#3 ∧ w.f = 0#4 then some (.mfirst (w.d) (w.a.extractLsb' 0 3)) else none
  | 40 => if w.f.extractLsb' 0 2 = 0#2 then some (.vslideup (w.d) (w.a) (w.b) (w.m) (w.f.extractLsb' 2 2)) else none
  | 41 => if w.f.extractLsb' 0 2 = 0#2 then some (.vslidedn (w.d) (w.a) (w.b) (w.m) (w.f.extractLsb' 2 2)) else none
  | 42 => if w.f = 0#4 then some (.vgather (w.d) (w.a) (w.b) (w.m)) else none
  | 43 => if w.b = 0#5 ∧ w.f = 0#4 then some (.vcompress (w.d) (w.a) (w.m)) else none
  | 44 => if w.b = 0#5 ∧ w.f = 0#4 then some (.vexpand (w.d) (w.a) (w.m)) else none
  | 45 => if w.a = 0#5 ∧ w.f.extractLsb' 0 2 = 0#2 then some (.vbcast (w.d) (w.b) (w.m) (w.f.extractLsb' 2 2)) else none
  | 46 => if w.m = 0#3 ∧ w.f.extractLsb' 0 2 = 0#2 then some (.vmvx (w.d) (w.a) (w.b) (w.f.extractLsb' 2 2)) else none
  | 47 => if w.m = 0#3 ∧ w.f.extractLsb' 0 2 = 0#2 then some (.vins (w.d) (w.a) (w.b) (w.f.extractLsb' 2 2)) else none
  | 48 => if w.a.extractLsb' 3 2 = 0#2 ∧ w.b = 0#5 ∧ w.f = 0#4 then some (.viota (w.d) (w.a.extractLsb' 0 3) (w.m)) else none
  | 49 => if w.f = 0#4 then some (.vmerge (w.d) (w.a) (w.b) (w.m)) else none
  | 50 => if w.f.extractLsb' 0 2 = 0#2 then some (.vperms (w.d) (w.a) (w.b) (w.m) (w.f.extractLsb' 2 2)) else none
  | 51 => if w.b = 0#5 ∧ w.f = 0#4 then some (.vbrev (w.d) (w.a) (w.m)) else none
  | 56 => if w.m = 0#3 ∧ w.f = 0#4 then some (.vsetl (w.d) (w.a) (w.b.extractLsb' 0 2) (w.b.extractLsb' 2 3)) else none
  | 58 => if w.m = 0#3 ∧ w.f.extractLsb' 2 2 = 0#2 ∧ w.f.extractLsb' 0 1 = 0#1 then some (.vspill (w.d) (w.a) (w.b) (w.f.getLsbD 1)) else none
  | 59 => if w.m = 0#3 ∧ w.f.extractLsb' 2 2 = 0#2 ∧ w.f.extractLsb' 0 1 = 0#1 then some (.vfill (w.d) (w.a) (w.b) (w.f.getLsbD 1)) else none
  | 24 | 25 | 26 | 27 | 28 | 29 | 30 | 31 => if w.f.extractLsb' 0 1 = 0#1 then some (.vamo (w.op.extractLsb' 0 3) (w.d) (w.a) (w.b) (w.m) (w.f.getLsbD 1) (w.f.extractLsb' 2 2)) else none
  | _ => none

/-- 08 R222. -/
def decodeClass6 (w : W32) : Option Instr :=
  match w.op.toNat with
  | 0 => if w.m = 0#3 ∧ w.f = 0#4 then some (.rnginit (w.d) (w.a) (w.b)) else none
  | 1 => if w.b = 0#5 ∧ w.m = 0#3 ∧ w.f = 0#4 then some (.rawait (w.d) (w.a)) else none
  | 2 => if w.d = 0#5 ∧ w.b = 0#5 ∧ w.m = 0#3 ∧ w.f = 0#4 then some (.rrels (w.a)) else none
  | 3 => if w.b = 0#5 ∧ w.m = 0#3 ∧ w.f.extractLsb' 1 3 = 0#3 then some (.rngq (w.d) (w.a) (w.f.getLsbD 0)) else none
  | 8 => if w.d = 0#5 ∧ w.f = 0#4 then some (.tcset (w.a) (w.b) (w.m)) else none
  | 9 => if w.d = 0#5 ∧ w.f = 0#4 then some (.tcadd (w.a) (w.b) (w.m)) else none
  | 10 => if w.f.extractLsb' 1 3 = 0#3 then some (.tcwait (w.d) (w.a) (w.b) (w.m) (w.f.getLsbD 0)) else none
  | 16 => if w.b = 0#5 ∧ w.m = 0#3 ∧ w.f = 0#4 then some (.launch (w.d) (w.a)) else none
  | 17 => if w.b = 0#5 ∧ w.m = 0#3 ∧ w.f = 0#4 then some (.spawn (w.d) (w.a)) else none
  | 24 => if w.b = 0#5 ∧ w.m = 0#3 ∧ w.f = 0#4 then some (.ownacq (w.d) (w.a)) else none
  | 25 => if w.b = 0#5 ∧ w.m = 0#3 ∧ w.f = 0#4 then some (.ownrel (w.d) (w.a)) else none
  | 32 => if w.m = 0#3 ∧ w.f = 0#4 then some (.routeset (w.d) (w.a) (w.b)) else none
  | 33 => if w.m = 0#3 ∧ w.f = 0#4 then some (.collab (w.d) (w.a) (w.b)) else none
  | _ => none

/-- The 32-bit base form by its class (08 R209). -/
def decodeBase (w : W32) : Option Instr :=
  match w.k.toNat with
  | 1 => decodeClass0 w
  | 3 => decodeClass1 w
  | 5 => decodeClass2 w
  | 7 => decodeClass3 w
  | 9 => decodeClass4 w
  | 11 => decodeClass5 w
  | 13 => decodeClass6 w
  | _ => none

/-- The compressed forms (08 R225). -/
def decodeShort (h : BitVec 16) : Option Instr :=
  let x := h.extractLsb' 11 5
  let y := h.extractLsb' 6 5
  let z := h.extractLsb' 5 1
  match (h.extractLsb' 1 4).toNat with
  | 1 => if z = 0#1 then some (.addH y x) else none
  | 2 => if z = 0#1 then some (.subH y x) else none
  | 3 => if z = 0#1 then some (.andH y x) else none
  | 4 => if z = 0#1 then some (.orH y x) else none
  | 5 => if z = 0#1 then some (.xorH y x) else none
  | 6 => some (.addiH (y ++ z) x)
  | 7 => some (.slliH (y ++ z) x)
  | 8 => some (.srliH (y ++ z) x)
  | 9 => if z = 0#1 then some (.ldH y x) else none
  | 10 => if z = 0#1 then some (.stH y x) else none
  | 11 => some (.beqH (y ++ z) x)
  | 12 => some (.bneH (y ++ z) x)
  | 13 => if z = 0#1 then some (.jalrH y x) else none
  | 14 => some (.jalH (x ++ y ++ z))
  | 15 => if x = 0#5 ∧ y = 0#5 ∧ z = 0#1 then some (.hintH) else none
  | _ => none

/-- 08 R224: the assigned families. -/
def popAssigned (pop : BitVec 6) : Bool :=
  [0, 1, 2, 3, 8, 9, 16, 17, 18, 19, 20, 21, 22, 23, 24, 25, 26, 32, 33, 34, 35, 36, 37, 38, 39, 40, 41, 42].contains pop.toNat

/-- The prefixed forms (08 R224; 10 R303, R305; 11 R314, R341; 12 R351, R369). -/
def decodePrefixed (w : P64) : Option Instr :=
  match w.pop.toNat with
  | 0 => if w.ext = 0#22 ∧ w.body.extractLsb' 8 24 = 0#24 then some (.cpy (w.body.extractLsb' 0 5) (w.body.extractLsb' 5 3)) else none
  | 1 => if w.ext = 0#22 ∧ w.body.extractLsb' 13 19 = 0#19 then some (.cpyTrg (w.body.extractLsb' 0 5) (w.body.extractLsb' 5 3) (w.body.extractLsb' 8 5)) else none
  | 2 => if w.ext = 0#22 ∧ w.body.extractLsb' 5 27 = 0#27 then some (.coll (w.body.extractLsb' 0 5)) else none
  | 3 => if w.ext = 0#22 ∧ w.body.extractLsb' 10 22 = 0#22 then some (.collTrg (w.body.extractLsb' 0 5) (w.body.extractLsb' 5 5)) else none
  | 8 => if w.ext.extractLsb' 10 12 = 0#12 ∧ w.body = 0#32 then some (.vloop (w.ext.extractLsb' 0 5) (w.ext.extractLsb' 5 5)) else none
  | 9 => if w.ext.extractLsb' 0 1 = 0#1 ∧ w.body.extractLsb' 10 22 = 0#22 then some (.vhad (w.body.extractLsb' 0 5) (w.body.extractLsb' 5 5) (w.ext.getLsbD 1) (w.ext.getLsbD 2) (w.ext.getLsbD 3) (w.ext.getLsbD 4) (w.ext.extractLsb' 5 5) (w.ext.extractLsb' 10 4) (w.ext.extractLsb' 14 4) (w.ext.extractLsb' 18 4)) else none
  | 16 => if w.ext.extractLsb' 11 11 = 0#11 ∧ w.ext.extractLsb' 0 4 = 0#4 ∧ w.body.extractLsb' 2 30 = 0#30 then some (.smshape (w.body.extractLsb' 0 2) (w.ext.extractLsb' 4 3) (w.ext.extractLsb' 7 3) (w.ext.getLsbD 10)) else none
  | 17 => if w.ext.extractLsb' 4 18 = 0#18 ∧ w.body.extractLsb' 16 16 = 0#16 ∧ w.body.extractLsb' 2 4 = 0#4 then some (.smld (w.body.extractLsb' 0 2) (w.body.extractLsb' 6 5) (w.body.extractLsb' 11 5) (w.ext.extractLsb' 0 3) (w.ext.getLsbD 3)) else none
  | 18 => if w.ext.extractLsb' 4 18 = 0#18 ∧ w.body.extractLsb' 16 16 = 0#16 ∧ w.body.extractLsb' 2 4 = 0#4 then some (.smst (w.body.extractLsb' 0 2) (w.body.extractLsb' 6 5) (w.body.extractLsb' 11 5) (w.ext.extractLsb' 0 3) (w.ext.getLsbD 3)) else none
  | 19 => if w.ext.extractLsb' 5 17 = 0#17 ∧ w.body.extractLsb' 6 26 = 0#26 then some (.smmul (w.body.extractLsb' 0 2) (w.body.extractLsb' 2 2) (w.body.extractLsb' 4 2) (w.ext.extractLsb' 0 3) (w.ext.getLsbD 3) (w.ext.getLsbD 4)) else none
  | 20 => if w.ext.extractLsb' 5 17 = 0#17 ∧ w.body.extractLsb' 6 26 = 0#26 then some (.smadd (w.body.extractLsb' 0 2) (w.body.extractLsb' 2 2) (w.body.extractLsb' 4 2) (w.ext.extractLsb' 0 3) (w.ext.getLsbD 3) (w.ext.getLsbD 4)) else none
  | 21 => if w.ext.extractLsb' 3 19 = 0#19 ∧ w.body.extractLsb' 4 28 = 0#28 then some (.smtrn (w.body.extractLsb' 0 2) (w.body.extractLsb' 2 2) (w.ext.extractLsb' 0 3)) else none
  | 22 => if w.ext.extractLsb' 7 15 = 0#15 ∧ w.body.extractLsb' 4 28 = 0#28 then some (.smchol (w.body.extractLsb' 0 2) (w.body.extractLsb' 2 2) (w.ext.extractLsb' 0 3) (w.ext.getLsbD 3) (w.ext.extractLsb' 4 3)) else none
  | 23 => if w.ext.extractLsb' 7 15 = 0#15 ∧ w.body.extractLsb' 11 21 = 0#21 ∧ w.body.extractLsb' 4 2 = 0#2 then some (.smlu (w.body.extractLsb' 0 2) (w.body.extractLsb' 2 2) (w.body.extractLsb' 6 5) (w.ext.extractLsb' 0 3) (w.ext.getLsbD 3) (w.ext.extractLsb' 4 3)) else none
  | 24 => if w.ext.extractLsb' 6 16 = 0#16 ∧ w.body.extractLsb' 11 21 = 0#21 then some (.smsolve (w.body.extractLsb' 0 2) (w.body.extractLsb' 2 2) (w.body.extractLsb' 4 2) (w.body.extractLsb' 6 5) (w.ext.extractLsb' 0 3) (w.ext.getLsbD 3) (w.ext.extractLsb' 4 2)) else none
  | 25 => if w.ext.extractLsb' 10 12 = 0#12 ∧ w.ext.extractLsb' 3 1 = 0#1 ∧ w.body.extractLsb' 11 21 = 0#21 ∧ w.body.extractLsb' 4 2 = 0#2 ∧ w.body.extractLsb' 0 2 = 0#2 then some (.smget (w.body.extractLsb' 2 2) (w.body.extractLsb' 6 5) (w.ext.extractLsb' 0 3) (w.ext.extractLsb' 4 3) (w.ext.extractLsb' 7 3)) else none
  | 26 => if w.ext.extractLsb' 10 12 = 0#12 ∧ w.ext.extractLsb' 3 1 = 0#1 ∧ w.body.extractLsb' 11 21 = 0#21 ∧ w.body.extractLsb' 2 4 = 0#4 then some (.smput (w.body.extractLsb' 0 2) (w.body.extractLsb' 6 5) (w.ext.extractLsb' 0 3) (w.ext.extractLsb' 4 3) (w.ext.extractLsb' 7 3)) else none
  | 32 => if w.ext.extractLsb' 9 13 = 0#13 ∧ w.body.extractLsb' 5 27 = 0#27 then some (.rgalloc (w.body.extractLsb' 0 5) (w.ext.extractLsb' 0 2) (w.ext.extractLsb' 2 2) (w.ext.getLsbD 4) (w.ext.extractLsb' 5 2) (w.ext.extractLsb' 7 2)) else none
  | 33 => if w.ext.extractLsb' 1 21 = 0#21 ∧ w.body.extractLsb' 10 22 = 0#22 ∧ w.body.extractLsb' 0 5 = 0#5 then some (.rgfree (w.body.extractLsb' 5 5) (w.ext.getLsbD 0)) else none
  | 34 => if w.ext = 0#22 ∧ w.body.extractLsb' 15 17 = 0#17 then some (.rgload (w.body.extractLsb' 0 5) (w.body.extractLsb' 5 5) (w.body.extractLsb' 10 5)) else none
  | 35 => if w.ext = 0#22 ∧ w.body.extractLsb' 10 22 = 0#22 ∧ w.body.extractLsb' 0 5 = 0#5 then some (.rgrun (w.body.extractLsb' 5 5)) else none
  | 36 => if w.ext.extractLsb' 3 19 = 0#19 ∧ w.body.extractLsb' 10 22 = 0#22 then some (.rgwait (w.body.extractLsb' 0 5) (w.body.extractLsb' 5 5) (w.ext.extractLsb' 0 3)) else none
  | 37 => if w.ext = 0#22 ∧ w.body.extractLsb' 10 22 = 0#22 ∧ w.body.extractLsb' 0 5 = 0#5 then some (.rgstop (w.body.extractLsb' 5 5)) else none
  | 38 => if w.ext = 0#22 ∧ w.body.extractLsb' 10 22 = 0#22 then some (.rgstat (w.body.extractLsb' 0 5) (w.body.extractLsb' 5 5)) else none
  | 39 => if w.ext = 0#22 ∧ w.body.extractLsb' 15 17 = 0#17 then some (.rgexp (w.body.extractLsb' 0 5) (w.body.extractLsb' 5 5) (w.body.extractLsb' 10 5)) else none
  | 40 => if w.ext = 0#22 ∧ w.body.extractLsb' 15 17 = 0#17 then some (.rgimp (w.body.extractLsb' 0 5) (w.body.extractLsb' 5 5) (w.body.extractLsb' 10 5)) else none
  | 41 => if w.ext = 0#22 ∧ w.body.extractLsb' 15 17 = 0#17 ∧ w.body.extractLsb' 0 5 = 0#5 then some (.sbind (w.body.extractLsb' 5 5) (w.body.extractLsb' 10 5)) else none
  | 42 => if w.ext.extractLsb' 12 10 = 0#10 ∧ w.body.extractLsb' 15 17 = 0#17 ∧ w.body.extractLsb' 0 5 = 0#5 then some (.rgsetc (w.body.extractLsb' 5 5) (w.body.extractLsb' 10 5) (w.ext.extractLsb' 0 3) (w.ext.getLsbD 3) (w.ext.extractLsb' 4 8)) else none
  | _ => none

/-- An encoding is an instruction when its fields decode and it is well formed (08 R226). -/
def checked (i : Option Instr) : Option Instr :=
  match i with
  | some i => if i.wf then some i else none
  | none => none

/-- The length in bytes that the first halfword fixes (08 R209). -/
def lengthOf (w : Word) : Nat := if !bitOf w 0 then 2 else if fld w 0 4 = 15 then 8 else 4

/-- The instruction that starts at bit 0 of `w`, and its length in bytes (08 R209, R210, R226). -/
def decodeBits (w : Word) : Option (Instr × Nat) :=
  if !bitOf w 0 then (checked (decodeShort (w.extractLsb' 0 16))).map (·, 2)
  else if fld w 0 4 = 15 then (checked (decodePrefixed (P64.ofBits w))).map (·, 8)
  else (checked (decodeBase (W32.ofBits w))).map (·, 4)

/-- Little-endian bytes as a word (00 R5). -/
def wordOfBytes : List Byte → Nat
  | [] => 0
  | b :: bs => b.toNat + 256 * wordOfBytes bs

/-- The low `n` bytes of `v`, lowest first (00 R5). -/
def bytesOf (v : Nat) : Nat → List Byte
  | 0 => []
  | n + 1 => BitVec.ofNat 8 v :: bytesOf (v / 256) n

/-- The instruction at the head of a byte string, with the rest of the string. -/
def decodeBytes (bs : List Byte) : Option (Instr × List Byte) :=
  match decodeBits (word (wordOfBytes (bs.take 8))) with
  | some (i, n) => if n ≤ bs.length then some (i, bs.drop n) else none
  | none => none

/-- The instruction the decoder reads from the bits `w`, numbered as the opcode table numbers them. -/
def decodeTableWord (nbits w : Nat) : Option Instr :=
  (decodeBytes (bytesOf (w % 2 ^ (max nbits 16)) 8)).map (·.1)

/-- The bits of an instruction and its length in bytes; frops and events have no encoding in the instruction stream. -/
def Instr.encode (i : Instr) : Option (Word × Nat) :=
  match i with
  | .add d a b t => some (W32.bits ⟨1#4, 0#6, d, a, b, 0#3, (0#1 ++ t)⟩, 4)
  | .sub d a b t => some (W32.bits ⟨1#4, 1#6, d, a, b, 0#3, (0#1 ++ t)⟩, 4)
  | .and d a b t => some (W32.bits ⟨1#4, 2#6, d, a, b, 0#3, (0#1 ++ t)⟩, 4)
  | .or d a b t => some (W32.bits ⟨1#4, 3#6, d, a, b, 0#3, (0#1 ++ t)⟩, 4)
  | .xor d a b t => some (W32.bits ⟨1#4, 4#6, d, a, b, 0#3, (0#1 ++ t)⟩, 4)
  | .andn d a b t => some (W32.bits ⟨1#4, 5#6, d, a, b, 0#3, (0#1 ++ t)⟩, 4)
  | .sll d a b t => some (W32.bits ⟨1#4, 6#6, d, a, b, 0#3, (0#1 ++ t)⟩, 4)
  | .srl d a b t => some (W32.bits ⟨1#4, 7#6, d, a, b, 0#3, (0#1 ++ t)⟩, 4)
  | .sra d a b t => some (W32.bits ⟨1#4, 8#6, d, a, b, 0#3, (0#1 ++ t)⟩, 4)
  | .ror d a b t => some (W32.bits ⟨1#4, 9#6, d, a, b, 0#3, (0#1 ++ t)⟩, 4)
  | .slt d a b t => some (W32.bits ⟨1#4, 10#6, d, a, b, 0#3, (0#1 ++ t)⟩, 4)
  | .min d a b t => some (W32.bits ⟨1#4, 11#6, d, a, b, 0#3, (0#1 ++ t)⟩, 4)
  | .max d a b t => some (W32.bits ⟨1#4, 12#6, d, a, b, 0#3, (0#1 ++ t)⟩, 4)
  | .mul d a b t => some (W32.bits ⟨1#4, 13#6, d, a, b, 0#3, (0#1 ++ t)⟩, 4)
  | .mulh d a b t => some (W32.bits ⟨1#4, 14#6, d, a, b, 0#3, (0#1 ++ t)⟩, 4)
  | .div d a b t => some (W32.bits ⟨1#4, 15#6, d, a, b, 0#3, (0#1 ++ t)⟩, 4)
  | .rem d a b t => some (W32.bits ⟨1#4, 16#6, d, a, b, 0#3, (0#1 ++ t)⟩, 4)
  | .clz d a t => some (W32.bits ⟨1#4, 17#6, d, a, 0#5, 0#3, (0#1 ++ t)⟩, 4)
  | .ctz d a t => some (W32.bits ⟨1#4, 18#6, d, a, 0#5, 0#3, (0#1 ++ t)⟩, 4)
  | .popc d a t => some (W32.bits ⟨1#4, 19#6, d, a, 0#5, 0#3, (0#1 ++ t)⟩, 4)
  | .brev d a t => some (W32.bits ⟨1#4, 20#6, d, a, 0#5, 0#3, (0#1 ++ t)⟩, 4)
  | .bswap d a t => some (W32.bits ⟨1#4, 21#6, d, a, 0#5, 0#3, (0#1 ++ t)⟩, 4)
  | .sext d a t => some (W32.bits ⟨1#4, 22#6, d, a, 0#5, 0#3, (0#1 ++ t)⟩, 4)
  | .zext d a t => some (W32.bits ⟨1#4, 23#6, d, a, 0#5, 0#3, (0#1 ++ t)⟩, 4)
  | .sel d a b t => some (W32.bits ⟨1#4, 24#6, d, a, b, 0#3, (0#1 ++ t)⟩, 4)
  | .fadd d a b t => some (W32.bits ⟨1#4, 32#6, d, a, b, 0#3, (2#2 ++ t)⟩, 4)
  | .fsub d a b t => some (W32.bits ⟨1#4, 33#6, d, a, b, 0#3, (2#2 ++ t)⟩, 4)
  | .fmul d a b t => some (W32.bits ⟨1#4, 34#6, d, a, b, 0#3, (2#2 ++ t)⟩, 4)
  | .fdiv d a b t => some (W32.bits ⟨1#4, 35#6, d, a, b, 0#3, (2#2 ++ t)⟩, 4)
  | .fsqrt d a t => some (W32.bits ⟨1#4, 36#6, d, a, 0#5, 0#3, (2#2 ++ t)⟩, 4)
  | .ffma d a b t => some (W32.bits ⟨1#4, 37#6, d, a, b, 0#3, (2#2 ++ t)⟩, 4)
  | .fmin d a b t => some (W32.bits ⟨1#4, 38#6, d, a, b, 0#3, (2#2 ++ t)⟩, 4)
  | .fmax d a b t => some (W32.bits ⟨1#4, 39#6, d, a, b, 0#3, (2#2 ++ t)⟩, 4)
  | .fcmp d a b c t => some (W32.bits ⟨1#4, 40#6, d, a, b, (0#1 ++ c), (2#2 ++ t)⟩, 4)
  | .fclass d a t => some (W32.bits ⟨1#4, 41#6, d, a, 0#5, 0#3, (2#2 ++ t)⟩, 4)
  | .fcvt d a v u t => some (W32.bits ⟨1#4, 42#6, d, a, (BitVec.ofBool u ++ v), 0#3, t⟩, 4)
  | .addi d a i => some (W32.bits ⟨3#4, 0#6, d, a, i.extractLsb' 0 5, i.extractLsb' 5 3, i.extractLsb' 8 4⟩, 4)
  | .andi d a i => some (W32.bits ⟨3#4, 2#6, d, a, i.extractLsb' 0 5, i.extractLsb' 5 3, i.extractLsb' 8 4⟩, 4)
  | .ori d a i => some (W32.bits ⟨3#4, 3#6, d, a, i.extractLsb' 0 5, i.extractLsb' 5 3, i.extractLsb' 8 4⟩, 4)
  | .xori d a i => some (W32.bits ⟨3#4, 4#6, d, a, i.extractLsb' 0 5, i.extractLsb' 5 3, i.extractLsb' 8 4⟩, 4)
  | .slli d a n => some (W32.bits ⟨3#4, 6#6, d, a, n.extractLsb' 0 5, (0#2 ++ n.extractLsb' 5 1), 0#4⟩, 4)
  | .srli d a n => some (W32.bits ⟨3#4, 7#6, d, a, n.extractLsb' 0 5, (0#2 ++ n.extractLsb' 5 1), 0#4⟩, 4)
  | .srai d a n => some (W32.bits ⟨3#4, 8#6, d, a, n.extractLsb' 0 5, (0#2 ++ n.extractLsb' 5 1), 0#4⟩, 4)
  | .slti d a i => some (W32.bits ⟨3#4, 10#6, d, a, i.extractLsb' 0 5, i.extractLsb' 5 3, i.extractLsb' 8 4⟩, 4)
  | .ldhi d i => some (W32.bits ⟨3#4, 48#6, d, i.extractLsb' 0 5, i.extractLsb' 5 5, i.extractLsb' 10 3, i.extractLsb' 13 4⟩, 4)
  | .addpc d i => some (W32.bits ⟨3#4, 49#6, d, i.extractLsb' 0 5, i.extractLsb' 5 5, i.extractLsb' 10 3, i.extractLsb' 13 4⟩, 4)
  | .ld t d a i => some (W32.bits ⟨5#4, (0#3 ++ t), d, a, i.extractLsb' 0 5, i.extractLsb' 5 3, i.extractLsb' 8 4⟩, 4)
  | .ldP t d a i => some (W32.bits ⟨5#4, (1#3 ++ t), d, a, i.extractLsb' 0 5, i.extractLsb' 5 3, i.extractLsb' 8 4⟩, 4)
  | .st w a b i => some (W32.bits ⟨5#4, (4#4 ++ w), i.extractLsb' 0 5, a, b, i.extractLsb' 5 3, i.extractLsb' 8 4⟩, 4)
  | .stP w a b i => some (W32.bits ⟨5#4, (5#4 ++ w), i.extractLsb' 0 5, a, b, i.extractLsb' 5 3, i.extractLsb' 8 4⟩, 4)
  | .ldacq d a s t => some (W32.bits ⟨5#4, 24#6, d, a, 0#5, s, (0#1 ++ t)⟩, 4)
  | .ldacqP d a s t => some (W32.bits ⟨5#4, 25#6, d, a, 0#5, s, (0#1 ++ t)⟩, 4)
  | .strel a b s w => some (W32.bits ⟨5#4, 26#6, 0#5, a, b, s, (0#2 ++ w)⟩, 4)
  | .strelP a b s w => some (W32.bits ⟨5#4, 27#6, 0#5, a, b, s, (0#2 ++ w)⟩, 4)
  | .amo f d a b s y p => some (W32.bits ⟨5#4, (4#3 ++ f), d, a, b, s, (p ++ y)⟩, 4)
  | .amoP f d a b s y p => some (W32.bits ⟨5#4, (5#3 ++ f), d, a, b, s, (p ++ y)⟩, 4)
  | .amocas d a b s y p => some (W32.bits ⟨5#4, 48#6, d, a, b, s, (p ++ y)⟩, 4)
  | .amocasP d a b s y p => some (W32.bits ⟨5#4, 49#6, d, a, b, s, (p ++ y)⟩, 4)
  | .fence s k => some (W32.bits ⟨5#4, 56#6, 0#5, 0#5, 0#5, s, (0#1 ++ k)⟩, 4)
  | .beq a b i => some (W32.bits ⟨7#4, 0#6, i.extractLsb' 0 5, a, b, i.extractLsb' 5 3, i.extractLsb' 8 4⟩, 4)
  | .bne a b i => some (W32.bits ⟨7#4, 1#6, i.extractLsb' 0 5, a, b, i.extractLsb' 5 3, i.extractLsb' 8 4⟩, 4)
  | .blt a b i => some (W32.bits ⟨7#4, 2#6, i.extractLsb' 0 5, a, b, i.extractLsb' 5 3, i.extractLsb' 8 4⟩, 4)
  | .bge a b i => some (W32.bits ⟨7#4, 3#6, i.extractLsb' 0 5, a, b, i.extractLsb' 5 3, i.extractLsb' 8 4⟩, 4)
  | .bltZ a b i => some (W32.bits ⟨7#4, 4#6, i.extractLsb' 0 5, a, b, i.extractLsb' 5 3, i.extractLsb' 8 4⟩, 4)
  | .bgeZ a b i => some (W32.bits ⟨7#4, 5#6, i.extractLsb' 0 5, a, b, i.extractLsb' 5 3, i.extractLsb' 8 4⟩, 4)
  | .jal i => some (W32.bits ⟨7#4, 8#6, i.extractLsb' 0 5, i.extractLsb' 5 5, i.extractLsb' 10 5, i.extractLsb' 15 3, i.extractLsb' 18 4⟩, 4)
  | .jalr d a i => some (W32.bits ⟨7#4, 9#6, d, a, i.extractLsb' 0 5, i.extractLsb' 5 3, i.extractLsb' 8 4⟩, 4)
  | .svc n => some (W32.bits ⟨7#4, 16#6, 0#5, 0#5, n.extractLsb' 0 5, n.extractLsb' 5 3, n.extractLsb' 8 4⟩, 4)
  | .brk n => some (W32.bits ⟨7#4, 17#6, 0#5, 0#5, n.extractLsb' 0 5, n.extractLsb' 5 3, n.extractLsb' 8 4⟩, 4)
  | .eret => some (W32.bits ⟨7#4, 18#6, 0#5, 0#5, 0#5, 0#3, 0#4⟩, 4)
  | .mfc d n => some (W32.bits ⟨7#4, 19#6, d, 0#5, n.extractLsb' 0 5, n.extractLsb' 5 3, n.extractLsb' 8 4⟩, 4)
  | .mtc a n => some (W32.bits ⟨7#4, 20#6, 0#5, a, n.extractLsb' 0 5, n.extractLsb' 5 3, n.extractLsb' 8 4⟩, 4)
  | .wfe => some (W32.bits ⟨7#4, 21#6, 0#5, 0#5, 0#5, 0#3, 0#4⟩, 4)
  | .yield => some (W32.bits ⟨7#4, 22#6, 0#5, 0#5, 0#5, 0#3, 0#4⟩, 4)
  | .exit => some (W32.bits ⟨7#4, 23#6, 0#5, 0#5, 0#5, 0#3, 0#4⟩, 4)
  | .placeAddr d a => some (W32.bits ⟨7#4, 24#6, d, a, 0#5, 0#3, 0#4⟩, 4)
  | .placeSelf d => some (W32.bits ⟨7#4, 24#6, d, 0#5, 0#5, 0#3, 1#4⟩, 4)
  | .rdgt d => some (W32.bits ⟨7#4, 25#6, d, 0#5, 0#5, 0#3, 0#4⟩, 4)
  | .hint n => some (W32.bits ⟨7#4, 26#6, 0#5, 0#5, n.extractLsb' 0 5, n.extractLsb' 5 3, n.extractLsb' 8 4⟩, 4)
  | .cflush a s => some (W32.bits ⟨7#4, 27#6, 0#5, a, 0#5, s, 0#4⟩, 4)
  | .cinv a => some (W32.bits ⟨7#4, 28#6, 0#5, a, 0#5, 0#3, 0#4⟩, 4)
  | .xinvAll => some (W32.bits ⟨7#4, 29#6, 0#5, 0#5, 0#5, 0#3, 0#4⟩, 4)
  | .xinvCtx a => some (W32.bits ⟨7#4, 29#6, 0#5, a, 0#5, 0#3, 1#4⟩, 4)
  | .xinvVa a b => some (W32.bits ⟨7#4, 29#6, 0#5, a, b, 0#3, 2#4⟩, 4)
  | .xinvIn a => some (W32.bits ⟨7#4, 29#6, 0#5, a, 0#5, 0#3, 3#4⟩, 4)
  | .addH y x => some (((x ++ y ++ 0#1 ++ 1#4 ++ 0#1) : BitVec 16).zeroExtend 64, 2)
  | .subH y x => some (((x ++ y ++ 0#1 ++ 2#4 ++ 0#1) : BitVec 16).zeroExtend 64, 2)
  | .andH y x => some (((x ++ y ++ 0#1 ++ 3#4 ++ 0#1) : BitVec 16).zeroExtend 64, 2)
  | .orH y x => some (((x ++ y ++ 0#1 ++ 4#4 ++ 0#1) : BitVec 16).zeroExtend 64, 2)
  | .xorH y x => some (((x ++ y ++ 0#1 ++ 5#4 ++ 0#1) : BitVec 16).zeroExtend 64, 2)
  | .addiH i x => some (((x ++ i ++ 6#4 ++ 0#1) : BitVec 16).zeroExtend 64, 2)
  | .slliH i x => some (((x ++ i ++ 7#4 ++ 0#1) : BitVec 16).zeroExtend 64, 2)
  | .srliH i x => some (((x ++ i ++ 8#4 ++ 0#1) : BitVec 16).zeroExtend 64, 2)
  | .ldH y x => some (((x ++ y ++ 0#1 ++ 9#4 ++ 0#1) : BitVec 16).zeroExtend 64, 2)
  | .stH y x => some (((x ++ y ++ 0#1 ++ 10#4 ++ 0#1) : BitVec 16).zeroExtend 64, 2)
  | .beqH i x => some (((x ++ i ++ 11#4 ++ 0#1) : BitVec 16).zeroExtend 64, 2)
  | .bneH i x => some (((x ++ i ++ 12#4 ++ 0#1) : BitVec 16).zeroExtend 64, 2)
  | .jalrH y x => some (((x ++ y ++ 0#1 ++ 13#4 ++ 0#1) : BitVec 16).zeroExtend 64, 2)
  | .jalH i => some (((i ++ 14#4 ++ 0#1) : BitVec 16).zeroExtend 64, 2)
  | .hintH => some (((0#11 ++ 15#4 ++ 0#1) : BitVec 16).zeroExtend 64, 2)
  | .vadd d a b m w f => some (W32.bits ⟨9#4, 0#6, d, a, b, m, (f ++ 0#1 ++ BitVec.ofBool w)⟩, 4)
  | .vsub d a b m w f => some (W32.bits ⟨9#4, 1#6, d, a, b, m, (f ++ 0#1 ++ BitVec.ofBool w)⟩, 4)
  | .vmul d a b m w f => some (W32.bits ⟨9#4, 2#6, d, a, b, m, (f ++ 0#1 ++ BitVec.ofBool w)⟩, 4)
  | .vmulh d a b m w f => some (W32.bits ⟨9#4, 3#6, d, a, b, m, (f ++ 0#1 ++ BitVec.ofBool w)⟩, 4)
  | .vwmul d a b m w f => some (W32.bits ⟨9#4, 4#6, d, a, b, m, (f ++ 0#1 ++ BitVec.ofBool w)⟩, 4)
  | .vwmac d a b m w f => some (W32.bits ⟨9#4, 5#6, d, a, b, m, (f ++ 0#1 ++ BitVec.ofBool w)⟩, 4)
  | .vmac d a b m w f => some (W32.bits ⟨9#4, 6#6, d, a, b, m, (f ++ 0#1 ++ BitVec.ofBool w)⟩, 4)
  | .vdiv d a b m w x f => some (W32.bits ⟨9#4, 7#6, d, a, b, m, (f ++ BitVec.ofBool x ++ BitVec.ofBool w)⟩, 4)
  | .vrem d a b m w x f => some (W32.bits ⟨9#4, 8#6, d, a, b, m, (f ++ BitVec.ofBool x ++ BitVec.ofBool w)⟩, 4)
  | .vmin d a b m w f => some (W32.bits ⟨9#4, 9#6, d, a, b, m, (f ++ 0#1 ++ BitVec.ofBool w)⟩, 4)
  | .vmax d a b m w f => some (W32.bits ⟨9#4, 10#6, d, a, b, m, (f ++ 0#1 ++ BitVec.ofBool w)⟩, 4)
  | .vand d a b m w f => some (W32.bits ⟨9#4, 11#6, d, a, b, m, (f ++ 0#1 ++ BitVec.ofBool w)⟩, 4)
  | .vor d a b m w f => some (W32.bits ⟨9#4, 12#6, d, a, b, m, (f ++ 0#1 ++ BitVec.ofBool w)⟩, 4)
  | .vxor d a b m w f => some (W32.bits ⟨9#4, 13#6, d, a, b, m, (f ++ 0#1 ++ BitVec.ofBool w)⟩, 4)
  | .vsll d a b m w f => some (W32.bits ⟨9#4, 14#6, d, a, b, m, (f ++ 0#1 ++ BitVec.ofBool w)⟩, 4)
  | .vsrl d a b m w f => some (W32.bits ⟨9#4, 15#6, d, a, b, m, (f ++ 0#1 ++ BitVec.ofBool w)⟩, 4)
  | .vsra d a b m w f => some (W32.bits ⟨9#4, 16#6, d, a, b, m, (f ++ 0#1 ++ BitVec.ofBool w)⟩, 4)
  | .vnshr d a b m w x f => some (W32.bits ⟨9#4, 17#6, d, a, b, m, (f ++ BitVec.ofBool x ++ BitVec.ofBool w)⟩, 4)
  | .vsadd d a b m w x f => some (W32.bits ⟨9#4, 18#6, d, a, b, m, (f ++ BitVec.ofBool x ++ BitVec.ofBool w)⟩, 4)
  | .vssub d a b m w x f => some (W32.bits ⟨9#4, 19#6, d, a, b, m, (f ++ BitVec.ofBool x ++ BitVec.ofBool w)⟩, 4)
  | .vcmp c d a b m w f => some (W32.bits ⟨9#4, (5#4 ++ c), (0#2 ++ d), a, b, m, (f ++ 0#1 ++ BitVec.ofBool w)⟩, 4)
  | .vfcmp c d a b m w => some (W32.bits ⟨9#4, (6#4 ++ c), (0#2 ++ d), a, b, m, (0#3 ++ BitVec.ofBool w)⟩, 4)
  | .vfadd d a b m w x f => some (W32.bits ⟨9#4, 32#6, d, a, b, m, (f ++ BitVec.ofBool x ++ BitVec.ofBool w)⟩, 4)
  | .vfsub d a b m w x f => some (W32.bits ⟨9#4, 33#6, d, a, b, m, (f ++ BitVec.ofBool x ++ BitVec.ofBool w)⟩, 4)
  | .vfmul d a b m w x f => some (W32.bits ⟨9#4, 34#6, d, a, b, m, (f ++ BitVec.ofBool x ++ BitVec.ofBool w)⟩, 4)
  | .vfdiv d a b m w x f => some (W32.bits ⟨9#4, 35#6, d, a, b, m, (f ++ BitVec.ofBool x ++ BitVec.ofBool w)⟩, 4)
  | .vfsqrt d a m w x => some (W32.bits ⟨9#4, 36#6, d, a, 0#5, m, (0#2 ++ BitVec.ofBool x ++ BitVec.ofBool w)⟩, 4)
  | .vfma d a b m w x f => some (W32.bits ⟨9#4, 37#6, d, a, b, m, (f ++ BitVec.ofBool x ++ BitVec.ofBool w)⟩, 4)
  | .vfms d a b m w x f => some (W32.bits ⟨9#4, 38#6, d, a, b, m, (f ++ BitVec.ofBool x ++ BitVec.ofBool w)⟩, 4)
  | .vfnma d a b m w x f => some (W32.bits ⟨9#4, 39#6, d, a, b, m, (f ++ BitVec.ofBool x ++ BitVec.ofBool w)⟩, 4)
  | .vfmin d a b m w x f => some (W32.bits ⟨9#4, 40#6, d, a, b, m, (f ++ BitVec.ofBool x ++ BitVec.ofBool w)⟩, 4)
  | .vfmax d a b m w x f => some (W32.bits ⟨9#4, 41#6, d, a, b, m, (f ++ BitVec.ofBool x ++ BitVec.ofBool w)⟩, 4)
  | .vfclass d a m w => some (W32.bits ⟨9#4, 42#6, d, a, 0#5, m, (0#3 ++ BitVec.ofBool w)⟩, 4)
  | .vfcvt d a v u m w x => some (W32.bits ⟨9#4, 43#6, d, a, (BitVec.ofBool u ++ v), m, (0#2 ++ BitVec.ofBool x ++ BitVec.ofBool w)⟩, 4)
  | .vsfn d a n m w x => some (W32.bits ⟨9#4, 44#6, d, a, n, m, (0#2 ++ BitVec.ofBool x ++ BitVec.ofBool w)⟩, 4)
  | .vred o d a b m w => some (W32.bits ⟨9#4, (6#3 ++ o), d, a, b, m, (0#3 ++ BitVec.ofBool w)⟩, 4)
  | .vfredo d a b m w x => some (W32.bits ⟨9#4, 54#6, d, a, b, m, (0#2 ++ BitVec.ofBool x ++ BitVec.ofBool w)⟩, 4)
  | .vfredt d a b m w x => some (W32.bits ⟨9#4, 55#6, d, a, b, m, (0#2 ++ BitVec.ofBool x ++ BitVec.ofBool w)⟩, 4)
  | .vld d a m p o => some (W32.bits ⟨11#4, 0#6, d, a, 0#5, m, (0#1 ++ BitVec.ofBool o ++ BitVec.ofBool p ++ 0#1)⟩, 4)
  | .vlds d a b m p o => some (W32.bits ⟨11#4, 1#6, d, a, b, m, (0#1 ++ BitVec.ofBool o ++ BitVec.ofBool p ++ 0#1)⟩, 4)
  | .vldx d a b m p o => some (W32.bits ⟨11#4, 2#6, d, a, b, m, (0#1 ++ BitVec.ofBool o ++ BitVec.ofBool p ++ 0#1)⟩, 4)
  | .vlseg d a n m p o => some (W32.bits ⟨11#4, 3#6, d, a, (0#2 ++ n), m, (0#1 ++ BitVec.ofBool o ++ BitVec.ofBool p ++ 0#1)⟩, 4)
  | .vlda d a m p => some (W32.bits ⟨11#4, 4#6, d, a, 0#5, m, (0#2 ++ BitVec.ofBool p ++ 0#1)⟩, 4)
  | .vst d a m p o => some (W32.bits ⟨11#4, 8#6, d, a, 0#5, m, (0#1 ++ BitVec.ofBool o ++ BitVec.ofBool p ++ 0#1)⟩, 4)
  | .vsts d a b m p o => some (W32.bits ⟨11#4, 9#6, d, a, b, m, (0#1 ++ BitVec.ofBool o ++ BitVec.ofBool p ++ 0#1)⟩, 4)
  | .vstx d a b m p o => some (W32.bits ⟨11#4, 10#6, d, a, b, m, (0#1 ++ BitVec.ofBool o ++ BitVec.ofBool p ++ 0#1)⟩, 4)
  | .vsseg d a n m p o => some (W32.bits ⟨11#4, 11#6, d, a, (0#2 ++ n), m, (0#1 ++ BitVec.ofBool o ++ BitVec.ofBool p ++ 0#1)⟩, 4)
  | .vstn d a b m n p o => some (W32.bits ⟨11#4, 12#6, d, a, b, m, (0#1 ++ BitVec.ofBool o ++ BitVec.ofBool p ++ BitVec.ofBool n)⟩, 4)
  | .vamo f d a b m p y => some (W32.bits ⟨11#4, (3#3 ++ f), d, a, b, m, (y ++ BitVec.ofBool p ++ 0#1)⟩, 4)
  | .mand d a b => some (W32.bits ⟨11#4, 32#6, (0#2 ++ d), (0#2 ++ a), (0#2 ++ b), 0#3, 0#4⟩, 4)
  | .mor d a b => some (W32.bits ⟨11#4, 33#6, (0#2 ++ d), (0#2 ++ a), (0#2 ++ b), 0#3, 0#4⟩, 4)
  | .mxor d a b => some (W32.bits ⟨11#4, 34#6, (0#2 ++ d), (0#2 ++ a), (0#2 ++ b), 0#3, 0#4⟩, 4)
  | .mandn d a b => some (W32.bits ⟨11#4, 35#6, (0#2 ++ d), (0#2 ++ a), (0#2 ++ b), 0#3, 0#4⟩, 4)
  | .mpopc d a => some (W32.bits ⟨11#4, 36#6, d, (0#2 ++ a), 0#5, 0#3, 0#4⟩, 4)
  | .mfirst d a => some (W32.bits ⟨11#4, 37#6, d, (0#2 ++ a), 0#5, 0#3, 0#4⟩, 4)
  | .vslideup d a b m f => some (W32.bits ⟨11#4, 40#6, d, a, b, m, (f ++ 0#2)⟩, 4)
  | .vslidedn d a b m f => some (W32.bits ⟨11#4, 41#6, d, a, b, m, (f ++ 0#2)⟩, 4)
  | .vgather d a b m => some (W32.bits ⟨11#4, 42#6, d, a, b, m, 0#4⟩, 4)
  | .vcompress d a m => some (W32.bits ⟨11#4, 43#6, d, a, 0#5, m, 0#4⟩, 4)
  | .vexpand d a m => some (W32.bits ⟨11#4, 44#6, d, a, 0#5, m, 0#4⟩, 4)
  | .vbcast d b m f => some (W32.bits ⟨11#4, 45#6, d, 0#5, b, m, (f ++ 0#2)⟩, 4)
  | .vmvx d a b f => some (W32.bits ⟨11#4, 46#6, d, a, b, 0#3, (f ++ 0#2)⟩, 4)
  | .vins d a b f => some (W32.bits ⟨11#4, 47#6, d, a, b, 0#3, (f ++ 0#2)⟩, 4)
  | .viota d a m => some (W32.bits ⟨11#4, 48#6, d, (0#2 ++ a), 0#5, m, 0#4⟩, 4)
  | .vmerge d a b m => some (W32.bits ⟨11#4, 49#6, d, a, b, m, 0#4⟩, 4)
  | .vperms d a b m f => some (W32.bits ⟨11#4, 50#6, d, a, b, m, (f ++ 0#2)⟩, 4)
  | .vbrev d a m => some (W32.bits ⟨11#4, 51#6, d, a, 0#5, m, 0#4⟩, 4)
  | .vsetl d a w s => some (W32.bits ⟨11#4, 56#6, d, a, (s ++ w), 0#3, 0#4⟩, 4)
  | .vspill d a b p => some (W32.bits ⟨11#4, 58#6, d, a, b, 0#3, (0#2 ++ BitVec.ofBool p ++ 0#1)⟩, 4)
  | .vfill d a b p => some (W32.bits ⟨11#4, 59#6, d, a, b, 0#3, (0#2 ++ BitVec.ofBool p ++ 0#1)⟩, 4)
  | .vhad d a isInt alt cv sat sh ot j nst => some (P64.bits ⟨9#6, nst ++ j ++ ot ++ sh ++ BitVec.ofBool sat ++ BitVec.ofBool cv ++ BitVec.ofBool alt ++ BitVec.ofBool isInt ++ 0#1, 0#22 ++ a ++ d⟩, 8)
  | .vloop a len => some (P64.bits ⟨8#6, 0#12 ++ len ++ a, 0#32⟩, 8)
  | .rnginit d a b => some (W32.bits ⟨13#4, 0#6, d, a, b, 0#3, 0#4⟩, 4)
  | .rawait d a => some (W32.bits ⟨13#4, 1#6, d, a, 0#5, 0#3, 0#4⟩, 4)
  | .rrels a => some (W32.bits ⟨13#4, 2#6, 0#5, a, 0#5, 0#3, 0#4⟩, 4)
  | .rngq d a s => some (W32.bits ⟨13#4, 3#6, d, a, 0#5, 0#3, (0#3 ++ BitVec.ofBool s)⟩, 4)
  | .tcset a b s => some (W32.bits ⟨13#4, 8#6, 0#5, a, b, s, 0#4⟩, 4)
  | .tcadd a b s => some (W32.bits ⟨13#4, 9#6, 0#5, a, b, s, 0#4⟩, 4)
  | .tcwait d a b s p => some (W32.bits ⟨13#4, 10#6, d, a, b, s, (0#3 ++ BitVec.ofBool p)⟩, 4)
  | .launch d a => some (W32.bits ⟨13#4, 16#6, d, a, 0#5, 0#3, 0#4⟩, 4)
  | .spawn d a => some (W32.bits ⟨13#4, 17#6, d, a, 0#5, 0#3, 0#4⟩, 4)
  | .ownacq d a => some (W32.bits ⟨13#4, 24#6, d, a, 0#5, 0#3, 0#4⟩, 4)
  | .ownrel d a => some (W32.bits ⟨13#4, 25#6, d, a, 0#5, 0#3, 0#4⟩, 4)
  | .routeset d a b => some (W32.bits ⟨13#4, 32#6, d, a, b, 0#3, 0#4⟩, 4)
  | .collab d a b => some (W32.bits ⟨13#4, 33#6, d, a, b, 0#3, 0#4⟩, 4)
  | .cpy a ch => some (P64.bits ⟨0#6, 0#22, 0#24 ++ ch ++ a⟩, 8)
  | .cpyTrg a ch t => some (P64.bits ⟨1#6, 0#22, 0#19 ++ t ++ ch ++ a⟩, 8)
  | .coll a => some (P64.bits ⟨2#6, 0#22, 0#27 ++ a⟩, 8)
  | .collTrg a t => some (P64.bits ⟨3#6, 0#22, 0#22 ++ t ++ a⟩, 8)
  | .smshape qd rows cols fmt => some (P64.bits ⟨16#6, 0#11 ++ BitVec.ofBool fmt ++ cols ++ rows ++ 0#4, 0#30 ++ qd⟩, 8)
  | .smld qd x y m p => some (P64.bits ⟨17#6, 0#18 ++ BitVec.ofBool p ++ m, 0#16 ++ y ++ x ++ 0#4 ++ qd⟩, 8)
  | .smst qd x y m p => some (P64.bits ⟨18#6, 0#18 ++ BitVec.ofBool p ++ m, 0#16 ++ y ++ x ++ 0#4 ++ qd⟩, 8)
  | .smmul qd qa qb m xm acc => some (P64.bits ⟨19#6, 0#17 ++ BitVec.ofBool acc ++ BitVec.ofBool xm ++ m, 0#26 ++ qb ++ qa ++ qd⟩, 8)
  | .smadd qd qa qb m xm neg => some (P64.bits ⟨20#6, 0#17 ++ BitVec.ofBool neg ++ BitVec.ofBool xm ++ m, 0#26 ++ qb ++ qa ++ qd⟩, 8)
  | .smtrn qd qa m => some (P64.bits ⟨21#6, 0#19 ++ m, 0#28 ++ qa ++ qd⟩, 8)
  | .smchol qd qa m xm mf => some (P64.bits ⟨22#6, 0#15 ++ mf ++ BitVec.ofBool xm ++ m, 0#28 ++ qa ++ qd⟩, 8)
  | .smlu qd qa x m xm mf => some (P64.bits ⟨23#6, 0#15 ++ mf ++ BitVec.ofBool xm ++ m, 0#21 ++ x ++ 0#2 ++ qa ++ qd⟩, 8)
  | .smsolve qd qa qb x m xm mode => some (P64.bits ⟨24#6, 0#16 ++ mode ++ BitVec.ofBool xm ++ m, 0#21 ++ x ++ qb ++ qa ++ qd⟩, 8)
  | .smget qa x m i j => some (P64.bits ⟨25#6, 0#12 ++ j ++ i ++ 0#1 ++ m, 0#21 ++ x ++ 0#2 ++ qa ++ 0#2⟩, 8)
  | .smput qd x m i j => some (P64.bits ⟨26#6, 0#12 ++ j ++ i ++ 0#1 ++ m, 0#21 ++ x ++ 0#4 ++ qd⟩, 8)
  | .rgalloc d qr qc atO orow oc => some (P64.bits ⟨32#6, 0#13 ++ oc ++ orow ++ BitVec.ofBool atO ++ qc ++ qr, 0#27 ++ d⟩, 8)
  | .rgfree a whole => some (P64.bits ⟨33#6, 0#21 ++ BitVec.ofBool whole, 0#22 ++ a ++ 0#5⟩, 8)
  | .rgload d a b => some (P64.bits ⟨34#6, 0#22, 0#17 ++ b ++ a ++ d⟩, 8)
  | .rgrun a => some (P64.bits ⟨35#6, 0#22, 0#22 ++ a ++ 0#5⟩, 8)
  | .rgwait d a s => some (P64.bits ⟨36#6, 0#19 ++ s, 0#22 ++ a ++ d⟩, 8)
  | .rgstop a => some (P64.bits ⟨37#6, 0#22, 0#22 ++ a ++ 0#5⟩, 8)
  | .rgstat d a => some (P64.bits ⟨38#6, 0#22, 0#22 ++ a ++ d⟩, 8)
  | .rgexp d a b => some (P64.bits ⟨39#6, 0#22, 0#17 ++ b ++ a ++ d⟩, 8)
  | .rgimp d a b => some (P64.bits ⟨40#6, 0#22, 0#17 ++ b ++ a ++ d⟩, 8)
  | .sbind a b => some (P64.bits ⟨41#6, 0#22, 0#17 ++ b ++ a ++ 0#5⟩, 8)
  | .rgsetc a b n allG grain => some (P64.bits ⟨42#6, 0#10 ++ grain ++ BitVec.ofBool allG ++ n, 0#17 ++ b ++ a ++ 0#5⟩, 8)
  | _ => none

/-- The instruction's bits as `tval` reports them (14 R389); zero for what has no encoding. -/
def Instr.bits (i : Instr) : Word := match i.encode with | some (w, _) => w | none => 0

/-- The instruction's length in bytes (08 R209). -/
def Instr.len (i : Instr) : Nat := match i.encode with | some (_, n) => n | none => 0

/-- The frop of OP (08 R229) at a grain, with the other fields of its word; NOPF fires nothing and is none. -/
def fropOf (g : GrainRef) (x : Word) : Option Instr :=
  let w : FropWord := ⟨x.extractLsb' 6 4, x.extractLsb' 10 4, x.extractLsb' 14 4, x.extractLsb' 18 5, x.extractLsb' 23 3, x.extractLsb' 26 3, x.extractLsb' 29 3, x.extractLsb' 32 16, x.extractLsb' 48 16⟩
  match fld x 0 6 with
  | 1 => some (.bfly g w)
  | 2 => some (.hadb g w)
  | 3 => some (.cmul g w)
  | 4 => some (.mac g w)
  | 5 => some (.smac g w)
  | 6 => some (.eop g w)
  | 7 => some (.mmul g w)
  | 8 => some (.madd g w)
  | 9 => some (.mred g w)
  | 10 => some (.bfps g w)
  | 11 => some (.cvt g w)
  | 12 => some (.scan g w)
  | 13 => some (.cmps g w)
  | 16 => some (.ldg g w)
  | 17 => some (.stg g w)
  | 18 => some (.ldp g w)
  | 19 => some (.stp g w)
  | 20 => some (.tas g w)
  | 24 => some (.req g w)
  | 25 => some (.rld g w)
  | 26 => some (.rst g w)
  | 27 => some (.rat g w)
  | 32 => some (.rout g w)
  | 33 => some (.merg g w)
  | 34 => some (.filt g w)
  | 35 => some (.dupl g w)
  | 36 => some (.cnt g w)
  | 37 => some (.mark g w)
  | 38 => some (.rdce g w)
  | 39 => some (.gate g w)
  | _ => none

/-- The 64-bit word of a frop (08 R228). -/
def fropBits (op : BitVec 6) (w : FropWord) : Word :=
  w.md ++ w.imm ++ w.mark ++ w.dim ++ w.dreg ++ w.outs ++ w.inb ++ w.ina ++ w.dtype ++ op

/-- OP of a frop (08 R229); `none` for the other rows. -/
def Instr.fropOp (i : Instr) : Option (BitVec 6) :=
  match i with
  | .bfly _ _ => some 1#6
  | .hadb _ _ => some 2#6
  | .cmul _ _ => some 3#6
  | .mac _ _ => some 4#6
  | .smac _ _ => some 5#6
  | .eop _ _ => some 6#6
  | .mmul _ _ => some 7#6
  | .madd _ _ => some 8#6
  | .mred _ _ => some 9#6
  | .bfps _ _ => some 10#6
  | .cvt _ _ => some 11#6
  | .scan _ _ => some 12#6
  | .cmps _ _ => some 13#6
  | .ldg _ _ => some 16#6
  | .stg _ _ => some 17#6
  | .ldp _ _ => some 18#6
  | .stp _ _ => some 19#6
  | .tas _ _ => some 20#6
  | .req _ _ => some 24#6
  | .rld _ _ => some 25#6
  | .rst _ _ => some 26#6
  | .rat _ _ => some 27#6
  | .rout _ _ => some 32#6
  | .merg _ _ => some 33#6
  | .filt _ _ => some 34#6
  | .dupl _ _ => some 35#6
  | .cnt _ _ => some 36#6
  | .mark _ _ => some 37#6
  | .rdce _ _ => some 38#6
  | .gate _ _ => some 39#6
  | _ => none

/-- The rows that are steps of a unit and not instructions of a strand (95). -/
def Instr.isEvent (i : Instr) : Bool :=
  match i with
  | .vloopStrip .. => true
  | .fetchFault .. => true
  | .illegalEncoding .. => true
  | .strandWake .. => true
  | .wfeTimeout .. => true
  | .vectorIssueCycle .. => true
  | .bankArbitrationCycle .. => true
  | .vldaGroupWrite .. => true
  | .vstnNotify .. => true
  | .xinvRetire .. => true
  | .regionServiceCycle .. => true
  | .frameChangeDone .. => true
  | .ringOutputPublishTimeout .. => true
  | .ringInputAcquire .. => true
  | .regionStopTimeout .. => true
  | .sluiceCommandStart .. => true
  | .sluiceChunk .. => true
  | .ringReserve .. => true
  | .armedCopyEnqueue .. => true
  | .pmigdbWrite .. => true
  | .pageMigrationStart .. => true
  | .pageMigrationChunk .. => true
  | .frameInvalidationRetire .. => true
  | .remoteAccessArrival .. => true
  | .remoteReleasePerform .. => true
  | .remoteResponseArrival .. => true
  | .tokenTransferComplete .. => true
  | .dispatchCycle .. => true
  | .queueAging .. => true
  | .imageLoadComplete .. => true
  | .blockStart .. => true
  | .blockRetire .. => true
  | .heldRecordEnqueue .. => true
  | .taskCommit .. => true
  | .preemptRequest .. => true
  | .preemptComplete .. => true
  | .resumeRequest .. => true
  | .blockResume .. => true
  | .evictRequest .. => true
  | .evictionComplete .. => true
  | .killWrite .. => true
  | .migrationCopyComplete .. => true
  | .flitTransmit .. => true
  | .flitReceive .. => true
  | .retrainComplete .. => true
  | .flitDeliveryTimeout .. => true
  | .collFlitReceive .. => true
  | .reducerStep .. => true
  | .abtReceive .. => true
  | .abtackReceive .. => true
  | .collTimeout .. => true
  | .lkkeyWrite .. => true
  | .spareTakeover .. => true
  | .checkpointStart .. => true
  | .checkpointComplete .. => true
  | .faultRecovery .. => true
  | .ownclaimWrite .. => true
  | .ownhandWrite .. => true
  | .ownerLinkTimeout .. => true
  | .hwsyncRead .. => true
  | .ihead .. => true
  | .ictrl .. => true
  | .itstamp .. => true
  | .icmpl .. => true
  | .iarg .. => true
  | .iend .. => true
  | .istatRead .. => true
  | .hirqWrite .. => true
  | .qcfgWrite .. => true
  | .imageTableWrite .. => true
  | .hostWindowWrite .. => true
  | .panControlWrite .. => true
  | .tcctlClear .. => true
  | .tcctlFreeze .. => true
  | .pwrlimWrite .. => true
  | .registerWrite .. => true
  | .powerLimiterSample .. => true
  | .thermalThrottle .. => true
  | .thermalTrip .. => true
  | .reset .. => true
  | .bootStepComplete .. => true
  | .attestationRequest .. => true
  | .patrolScrub .. => true
  | .errorLogPlace .. => true
  | .hostPortLinkDown .. => true
  | .hostReadCompletion .. => true
  | .quiescedReport .. => true
  | .contextCreate .. => true
  | .contextDestroy .. => true
  | .queueClear .. => true
  | _ => false

end Sys2Proof
end

