-- ==== Sys2Proof/Config.lean ====
section
/-! DEFINITION. What the part fixes (00 R1) and the free values: constants without a body, so that no proof sees a value of them. -/

namespace Sys2Proof.Config

/-- A free word, named by the model's free-value counter (log 4). -/
opaque freeWord : Nat → Word

/-- A free natural number, named by the free-value counter (log 4). -/
opaque freeNat : Nat → Nat

/-- The result of a special function (07 R207) where no enclosure tried settles its rounding, by function code, format width and operand bits (log 7). -/
opaque freeSfn : Nat → Nat → Nat → Nat

/-- Where the supervisor maps an image, by context and handle, and the 16-byte aligned top of a strand's stack over 16, by context and strand: the spec names the supervisor as their source (06 R160, log 16). -/
opaque imageVA : Nat → Nat → Word
opaque stackTop : Nat → Nat → Word

/-- The digests of the boot ROM and of the running firmware (19 R453): words 0 to 3 and 4 to 7 (log 24). -/
opaque deviceDigest : Nat → Word

/-- 00 R1: Shoal dies are dies 6 and 7, of profile B. -/
def shoal (die : Nat) : Bool := decide (6 ≤ die ∧ die < 8)

/-- 00 R1: bays of a die. -/
def baysOf (die : Nat) : Nat := if shoal die then 7 else 8

/-- 01 R33: the pan index 128 × die + 16 × bay + pan; bay 7 of dies 6 and 7 names no pan. -/
def panExists (p : Nat) : Bool := decide (p < 1024) && decide (p / 16 % 8 < baysOf (p / 128))

def dieOfPan (p : Nat) : Nat := p / 128

def bayOfPan (p : Nat) : Nat := p / 16

/-- 00 R1: bytes of a vector register. -/
def vlen (die : Nat) : Nat := if shoal die then 1024 else 2048

/-- 00 R1: lanes of a vector unit. -/
def lanes (die : Nat) : Nat := if shoal die then 16 else 32

/-- 15 R410: the highest KEYLIM. -/
def keylimMax : Nat := 2 ^ 48 - 1

end Sys2Proof.Config
end

