-- ==== Sys2Proof/Machine/Tbl.lean ====
section
/-! DEFINITION. Sparse tables in one canonical form: keys strictly rising, no entry equal to the default. -/

namespace Sys2Proof.Machine

/-- A table keyed by naturals; an unlisted key holds the default its accessor names. -/
abbrev Tbl (α : Type) := List (Nat × α)

/-- The entry of `k`, or the default. -/
def Tbl.get {α : Type} (d : α) (k : Nat) : Tbl α → α
  | [] => d
  | (j, x) :: t => if j = k then x else Tbl.get d k t

/-- A new entry before the first of a greater key. -/
def Tbl.ins {α : Type} (k : Nat) (v : α) : Tbl α → Tbl α
  | [] => [(k, v)]
  | (j, x) :: t => if j < k then (j, x) :: Tbl.ins k v t else (k, v) :: (j, x) :: t

/-- Write the entry of `k`, keeping the keys rising and listing no default. -/
def Tbl.put {α : Type} [DecidableEq α] (d : α) (k : Nat) (v : α) (t : Tbl α) : Tbl α :=
  let u := t.filter fun c => decide (c.1 ≠ k)
  if v = d then u else Tbl.ins k v u

/-- Every listed key is at least `lo`, keys rise strictly, and no entry is the default. -/
def Tbl.wfFrom {α : Type} [DecidableEq α] (d : α) (lo : Nat) : Tbl α → Bool
  | [] => true
  | (j, x) :: t => decide (lo ≤ j) && decide (x ≠ d) && Tbl.wfFrom d (j + 1) t

/-- The canonical form. -/
def Tbl.wf {α : Type} [DecidableEq α] (d : α) (t : Tbl α) : Bool := t.wfFrom d 0

/-- The keys listed. -/
def Tbl.keys {α : Type} (t : Tbl α) : List Nat := t.map (·.1)

/-- A set of naturals as a rising list. -/
abbrev NSet := List Nat

def NSet.mem (k : Nat) (s : NSet) : Bool := s.any (· == k)

def NSet.ins (k : Nat) : NSet → NSet
  | [] => [k]
  | j :: t => if j < k then j :: NSet.ins k t else if j = k then j :: t else k :: j :: t

def NSet.del (k : Nat) (s : NSet) : NSet := s.filter (· != k)

/-- Entry `i` of a list, or a default. -/
def nth {α : Type} (d : α) (l : List α) (i : Nat) : α := (l[i]?).getD d

/-- Replace entry `i` of a list by what `f` makes of it. -/
def upd {α : Type} (l : List α) (i : Nat) (f : α → α) : List α :=
  match l, i with
  | [], _ => []
  | x :: t, 0 => f x :: t
  | x :: t, j + 1 => x :: upd t j f

/-- The first index at which `p` holds. -/
def findIdx? {α : Type} (p : α → Bool) : List α → Option Nat
  | [] => none
  | x :: t => if p x then some 0 else (findIdx? p t).map (· + 1)

end Sys2Proof.Machine
end

