-- ==== Sys2Proof/Machine/State.lean ====
section
/-! DEFINITION. The state of one device of the domain: plain data, every piece the spec names, and the state after reset. -/

namespace Sys2Proof.Machine

/-- 06 R164. -/
inductive StrandSt where
  | idle | run | wait | trap | saved
  deriving DecidableEq, Repr

/-- What a strand in WAIT waits for (06 R164, 12 R366, R370). The instruction at `pc` is executed again on the wake. -/
inductive Wait where
  | none
  /-- WFE, since this `gtime` (09 R271) -/
  | latch (since : Nat)
  /-- RAWAIT (12 R355) -/
  | ring (id : Nat)
  /-- TCWAIT (12 R358) -/
  | counter (id t : Nat)
  /-- RGWAIT, RGSTOP: the slot leaves RUNNING (11 R315, R319), and its status word once it has; slot 4 while an RGFREE of the region is performed -/
  | slot (r i : Nat)
  | slotDone (w : Word)
  /-- a full channel queue (03 R80) -/
  | chan (ch : Nat)
  /-- OWNACQ (12 R366) -/
  | token (t : TokenReq)
  /-- COLL behind a pending COLL (12 R370) -/
  | coll (vs : Nat)
  deriving DecidableEq, Repr

/-- The line or bank word an LDACQ armed (09 R271): lines of 128 bytes, or bank words of 8. -/
inductive Monitor where
  | none
  | line (n : Nat)
  | bank (n : Nat)
  /-- a line of a peer (device, address over 128), of a host port, or of device registers -/
  | remote (dev n : Nat)
  | host (port n : Nat)
  | io (n : Nat)
  deriving DecidableEq, Repr

/-- 02 R64, R67: the image (element 0 in the low bits), valid length, dirty tag, and VLDA poison marks (10 R297) as (group, `tval`). -/
structure VReg where
  img : BitVec 16384 := 0
  vlb : Nat := 0
  dirty : Bool := false
  marks : List (Nat × Word) := []
  deriving DecidableEq, Repr

/-- 02 R66: shape word and slots, keyed 36 × lane + 6 × i + j. -/
structure QReg where
  shape : Word := 0x76
  slots : Tbl Word := []
  dirty : Bool := false
  deriving DecidableEq, Repr

/-- An entry of the vector queue (06 R165): the pipe and the element groups still to be granted (10 R287). -/
structure VqEntry where
  pipe : Nat
  groups : Nat
  deriving DecidableEq, Repr

/-- VLOOP state (10 R306, R308). -/
structure Loop where
  ndim : Nat
  regs : List Nat
  n0 : Nat
  cnt : List Nat
  es : List Int
  str : List Int
  vlmax : Nat
  base : List Word
  body : List (Word × Instr)
  idx : List Nat
  i0 : Nat
  /-- next body instruction of the strip; the strip is set up when it is entered at 0 -/
  pos : Nat
  /-- address of the first scalar instruction not yet retired -/
  resume : Word
  /-- a trap of a body instruction has stopped the replay -/
  stopped : Bool
  deriving DecidableEq, Repr

/-- Where a translated access goes (01 R13, R24, R25, R30). A remote address from 2^44 on is a physical address of this device, plus 2^44: the access goes to the owner of the token of its region (05 R152). -/
inductive Loc where
  | mem (pa : Nat)
  | remote (dev da : Nat)
  | host (port addr : Nat)
  | io (off : Nat)
  deriving DecidableEq, Repr

/-- Where a checked access goes: the key of a pan byte, or a translated location. -/
inductive Place where
  | pan (key : Nat)
  | at_ (l : Loc)
  deriving DecidableEq, Repr

/-- A pending VLDA (10 R297): elements (index, address, place) of one group, in order; the translations are held (01 R41). -/
structure VldaGroup where
  vd : Nat
  group : Nat
  sew : Nat
  elems : List (Nat × Word × Place)
  /-- answers to the group's accesses of peers and hosts, by ascending tag -/
  replies : List (Nat × RResp) := []
  deriving DecidableEq, Repr

/-- A pending VSTN notification (10 R298, 05 R132): its number, and `vcfg.scope` at the issue of its instruction. -/
structure Ntf where
  id : Nat
  sc : Nat
  va : Word
  loc : Loc
  add : Nat
  deriving DecidableEq, Repr

/-- A posted store of the strand (05 R147, R149); `fail` once its failure has returned. -/
structure Posted where
  tag : Nat
  dst : Nat
  pc : Word
  va : Word
  fail : Option Nat
  deriving DecidableEq, Repr

/-- A copy the strand issued that EXIT looks at (09 R273, 14 R393). -/
inductive CopySt where
  /-- CKIND 0, or its completion object failed: wait for the final publication -/
  | waiting
  /-- the completion-object check is still to come -/
  | unchecked
  | failed (status : Nat)
  deriving DecidableEq, Repr

structure CopyRef where
  id : Nat
  va : Word
  st : CopySt
  deriving DecidableEq, Repr

/-- A SPAWN under way (12 R365): it counts its child into a join record at a peer, or its record is held for room, under a number. -/
inductive Spawning where
  | counting (tag : Nat) (dw : List Word)
  | room (id : Nat)
  deriving DecidableEq, Repr

/-- One strand, or one management core. `weight` is its field of `vshare`; `ctxid` is formed of `ctx` and the context's class. -/
structure Strand where
  st : StrandSt := .idle
  resumeTo : StrandSt := .idle
  wait : Wait := .none
  pc : Word := 0
  sup : Bool := false
  g : Tbl Word := []
  v : Tbl VReg := []
  m : Tbl (BitVec 2048) := []
  mdirty : NSet := []
  q : Tbl QReg := []
  vcfg : Word := 0x43000
  acr : Word := 0x20
  fsr : Word := 0
  fidx : Tbl Word := []
  weight : Nat := 0
  tvec : Word := 0
  tcause : Word := 0
  tval : Word := 0
  tpc : Word := 0
  tstatus : Word := 0
  tsummary : Word := 0
  kill : Word := 0
  blockid : Word := 0
  blockcount : Word := 0
  ctx : Nat := 0
  latch : Bool := false
  monitor : Monitor := .none
  vq : List VqEntry := []
  loop : Option Loop := none
  vlda : List VldaGroup := []
  ntf : List Ntf := []
  watch : Tbl Word := []
  posted : List Posted := []
  copies : List CopyRef := []
  /-- answers to the outstanding accesses of the current instruction, by ascending tag -/
  replies : List (Nat × RResp) := []
  /-- the translations that the current instruction holds while its accesses of peers and hosts are under way (01 R41), by address -/
  held : List (Word × Place) := []
  /-- old values of the elements that a VAMO under way has performed (10 R299) -/
  amo : List Nat := []
  spawn : Option Spawning := none
  /-- a release under way waits for posted stores with tags below this (05 R146) -/
  relAt : Option Nat := none
  /-- the save area holds a record of every register of the running block (14 R398) -/
  saved : Bool := false
  block : Option Nat := none
  deriving DecidableEq, Repr

/-- 01 R38: a leaf entry of a translation cache. `size` is 16, 21 or 29, the log2 of what it maps; `va` the address divided by that. -/
structure TlbEnt where
  ctx : Nat
  size : Nat
  va : Nat
  leaf : Word
  deriving DecidableEq, Repr

/-- 01 R38: a table entry of a walk cache, read at `level` for the address prefix `va` (the bits above the level's index included). -/
structure WalkEnt where
  ctx : Nat
  level : Nat
  va : Nat
  entry : Word
  deriving DecidableEq, Repr

/-- 08 R211: a line of the instruction cache, by context and VA divided by 128. -/
structure ILine where
  ctx : Nat
  va : Nat
  data : BitVec 1024
  deriving DecidableEq, Repr

/-- 06 R166. -/
inductive ResSt where
  | absent | running | parked | evicting
  deriving DecidableEq, Repr

/-- A residency of a pan (06 R166) with its partition words (02 R58). -/
structure Residency where
  st : ResSt := .absent
  ctx : Nat := 0
  spbase : Word := 0
  splim : Word := 0
  deriving DecidableEq, Repr

/-- 02 R51, R52: the arbiter of a bank; ports V S E X are 0 1 2 3. `lastS` and `lastX` are the strand and the grain that ports S and X served last. -/
structure Bank where
  starve : Nat := 0
  lastPan : Nat := 3
  lastS : Nat := 3
  lastX : Nat := 255
  deriving DecidableEq, Repr

structure Pan where
  credit : List Int := [0, 0, 0, 0]
  lastZero : Nat := 3
  vlclamp : Word := 0x800
  rgclamp : Word := 0
  res : Tbl Residency := []
  tlb : List TlbEnt := []
  icache : List ILine := []
  banks : Tbl Bank := []
  deriving DecidableEq, Repr

/-- 03 R73: the state of a line in a bay cache slice. -/
inductive LineSt where
  | i | s | e | m
  deriving DecidableEq, Repr

/-- A bay: its translation caches, and the state of each line of its cache slice, by PA divided by 128 (03 R73). -/
structure Bay where
  tlb : List TlbEnt := []
  walk : List WalkEnt := []
  lines : Tbl LineSt := []
  deriving DecidableEq, Repr

/-- Who gave a command to a sluice engine (03 R80). -/
inductive CmdSrc where
  | strand (k : Nat)
  /-- a request packet: reply with RTAG when asked (03 R93) -/
  | grain (g : GrainRef) (rtag : Option Nat)
  | armed
  deriving DecidableEq, Repr

/-- An element of a chunk: its places and addresses. -/
structure Elem where
  src : Option Place
  dst : Place
  sva : Word
  dva : Word
  deriving DecidableEq, Repr

/-- What a chunk in progress does next (03 R88): its reads, the probes of peers that it writes to, its writes. -/
inductive Phase where
  | idle | reads | probes | writes
  deriving DecidableEq, Repr

/-- A queued copy: the sixteen dwords of its descriptor (03 R82) as read at acceptance. -/
structure Cmd where
  id : Nat
  ctx : Nat
  src : CmdSrc
  descVA : Word
  dw : List Word
  /-- a status known at acceptance (12 R352) -/
  bad : Option Nat
  running : Bool
  /-- next chunk (03 R88) and bytes published -/
  chunk : Nat
  count : Nat
  /-- reserved ring slot: ring key, slot number (03 R95) -/
  slot : Option (Nat × Nat)
  cancel : Bool
  block : Option Nat
  task : Option Nat
  /-- the mode its accesses are checked in (log 15) -/
  sup : Bool
  /-- bytes of the EK8 stream decoded so far (03 R86) -/
  spos : Nat
  /-- answers to the host and peer accesses of the chunk, by ascending tag -/
  replies : List (Nat × RResp)
  /-- the chunk in progress: its phase, the places its elements hold, the values read, and the number of its writes performed -/
  phase : Phase := .idle
  elems : List Elem := []
  vals : List Nat := []
  wrote : Nat := 0
  /-- the places that the words of an EK8 stream hold, by address -/
  held : List (Word × Place) := []
  deriving DecidableEq, Repr

structure Chan where
  q : List Cmd := []
  status : Nat := 0
  deriving DecidableEq, Repr

/-- 11 R326: a token is a payload with a 4-bit tag. -/
structure Token where
  tag : Nat
  val : Word
  deriving DecidableEq, Repr

/-- The grain's part of a slot (02 R63, 11 R324). Queues are N E S W L, 0 to 4; a set of ports is a number with these bits. -/
structure Grain where
  c : Tbl Word := []
  q : Tbl (List Token) := []
  /-- internal record entries, and the reset bitmap of SCAN -/
  inner : List Word := []
  bitmap : Nat := 0
  /-- markers inside the open chunk of SCAN, by the element they precede -/
  held : List (Nat × Token) := []
  /-- tokens of the last firing still to be emitted, with their ports (log 12) -/
  out : List (Nat × Token) := []
  /-- tokens for L that wait for room in its queue -/
  lin : List Token := []
  /-- remote accesses of this grain not answered (05 R150) -/
  waiting : NSet := []
  deriving DecidableEq, Repr

/-- 06 R168. -/
inductive SlotSt where
  | free | loaded | running | stopped | faulted
  deriving DecidableEq, Repr

/-- 11 R322, R323: a binding of a grain's L port to a ring. -/
structure Bind where
  grain : Nat
  out : Bool
  ring : Nat
  /-- reserved or acquired slot and the entries written -/
  slot : Option Nat
  pos : Nat
  /-- tokens of an acquired slot not yet delivered -/
  toks : List Token
  /-- answers to the reads of an acquired slot on a peer or host, by ascending tag -/
  replies : List (Nat × RResp)
  deriving DecidableEq, Repr

/-- 11 R312: a configuration image, its dwords as they stand in memory. -/
structure CfgImage where
  dw : List Word
  deriving DecidableEq, Repr

structure Slot where
  st : SlotSt := .free
  img : CfgImage := ⟨[]⟩
  step : Nat := 0
  /-- REPEAT runs still due (11 R324) -/
  due : Nat := 0
  /-- next nest index, i0 first -/
  idx : List Nat := [0, 0, 0, 0, 0, 0]
  nspent : Bool := false
  /-- generator-driven grains that have fired at the current index -/
  fired : NSet := []
  changing : Bool := false
  stopReq : Bool := false
  /-- stopped by pre-emption: restarts on resumption -/
  preempted : Bool := false
  flags : BitVec 9 := 0
  fault : Nat := 0
  fgrain : Nat := 0
  last : Nat := 0
  cause : Nat := 3
  grains : Tbl Grain := []
  binds : List Bind := []
  /-- the model's own: a number of the loaded image, by which armed accesses know it (11 R339) -/
  serial : Nat := 0
  deriving DecidableEq, Repr

/-- A region of a pan: residency index of its owner, rectangle in quads, service counter, four slots. -/
structure Region where
  res : Nat
  row : Nat
  col : Nat
  qr : Nat
  qc : Nat
  ptr : Nat
  slots : Tbl Slot
  deriving DecidableEq, Repr

/-- 03 R94. `filled` holds reserved slots filled and not yet published. -/
structure Ring where
  owner : Option Nat := none
  base : Word := 0
  lsz : Nat := 0
  nslot : Nat := 0
  scope : Nat := 0
  space : Bool := false
  psel : Nat := 0
  rd : Nat := 0
  wr : Nat := 0
  rsv : Nat := 0
  fault : Option Nat := none
  filled : NSet := []
  deriving DecidableEq, Repr

/-- A pending COLL (12 R369 to R371): its number, and the eight dwords of its descriptor. -/
structure Coll where
  id : Nat
  ctx : Nat
  key : Nat
  dw : List Word
  task : Option Nat
  sup : Bool
  /-- reserved slot of a ring completion object (03 R95) -/
  slot : Option Nat
  /-- it has ended with a status and a count of sets, and its completion is still to be published -/
  failed : Option (Nat × Nat) := none
  deriving DecidableEq, Repr

/-- A remote access of a grain with the frop's word (11 R339); it belongs to the context, and its slot's load has the number `serial`. -/
structure RemOp where
  pan : Nat
  ctx : Nat
  sup : Bool
  serial : Nat
  kind : RKind
  va : Word
  data : Word
  w : FropWord
  deriving DecidableEq, Repr

/-- What an armed operation does when it fires (12 R353, R369, 11 R339). -/
inductive ArmedOp where
  | copy (chan : Nat) (c : Cmd)
  | coll (c : Coll)
  | remote (g : GrainRef) (o : RemOp)
  deriving DecidableEq, Repr

structure Armed where
  t : Nat
  key : Nat
  /-- the block of the arming strand; none for a grain or a management core -/
  block : Option Nat
  op : ArmedOp
  deriving DecidableEq, Repr

/-- 03 R96. -/
structure Counter where
  c : Nat := 0
  owner : Option Nat := none
  fault : Option Nat := none
  armed : List Armed := []
  deriving DecidableEq, Repr

/-- Elements of a port's share of a set that have arrived, and the set that its CMARK names once it has. -/
structure Share where
  port : Nat
  elems : List Byte
  mark : Option Nat
  deriving DecidableEq, Repr

/-- An abort in progress (15 R420): the arriving link, and the links whose ABTACK is awaited. -/
structure AbortRec where
  group : Nat
  seq : Nat
  from_ : Option Nat
  links : List Nat
  deriving DecidableEq, Repr

/-- 12 R367, 15 R418, R420. Of the shares of one port, the first belongs to the first set from `set` on that takes the port. -/
structure VStream where
  owner : Option Nat := none
  dw : List Word := []
  seq : Nat := 0
  set : Nat := 0
  pend : Option Coll := none
  /-- fired armed collectives behind the pending one -/
  waitq : List Coll := []
  shares : List Share := []
  /-- elements of the current set already taken by reducer steps, forwarding or deliveries -/
  done : Nat := 0
  /-- reserved DELIVER slot -/
  slot : Option Nat := none
  /-- held flits of the next sequence (link, content) -/
  ahead : List (Nat × FlitBody) := []
  remembered : Option Nat := none
  aborts : List AbortRec := []
  /-- answers to the accesses of peers and hosts, by ascending tag, and the places held meanwhile -/
  replies : List (Nat × RResp) := []
  held : List (Word × Place) := []
  deriving DecidableEq, Repr

/-- A reducer step (15 R419): elements [first, first + n) of a set. -/
structure RStep where
  vs : Nat
  seq : Nat
  set : Nat
  first : Nat
  n : Nat
  deriving DecidableEq, Repr

/-- A page migration (01 R43 to R45). Frames are PA[38:16]; `c` is the cutover index. -/
structure Pmig where
  entryPA : Nat
  entry : Word
  old : Nat
  new : Nat
  prog : Nat
  c : Nat
  race : Bool
  invalidating : Bool
  deriving DecidableEq, Repr

structure Die where
  rsvBase : Nat := 0
  rsvLimit : Nat := 0
  tc : Tbl Word := []
  filt : Tbl Word := []
  freeze : Bool := false
  pmigQ : List Nat := []
  ovf : Bool := false
  pmig : Option Pmig := none
  inTlb : List TlbEnt := []
  inWalk : List WalkEnt := []
  /-- SHSTART 0, SHCLAIM 1, SHDISCc at 1 + c (13 R387) -/
  pred : Tbl Word := []
  shres : Word := 32
  shctl : Word := 1
  reducer : List RStep := []
  deriving DecidableEq, Repr

/-- A record in a queue (13 R375): its dwords (12 R359), a number, the kernel once its first block is placed, and the shadow task bound to it. -/
structure QRec where
  id : Nat
  dw : List Word
  kernel : Option Nat
  next : Nat
  bound : Option Nat
  /-- the argument entry that the record keeps from its aborted task (05 R139, 13 R459) -/
  prior : Option Nat := none
  /-- its image has been loaded and failed verification (13 R380) -/
  bad : Bool := false
  deriving DecidableEq, Repr

structure LQueue where
  cfg : Word := 0xFF000000000
  level : Nat := 0
  deficit : Int := 0
  since : Nat := 0
  recs : List QRec := []
  hist : List (List Word) := []
  shadow : Option Nat := none
  /-- records of the queue begun and not complete, for BARRIER (13 R375) -/
  begun : List Nat := []
  deriving DecidableEq, Repr

/-- What eviction keeps of a context's storage on a pan (14 R399): the partition words, the physical address of the eviction area that holds its images, and whether the pan is of profile B. -/
structure PanImage where
  spbase : Word
  splim : Word
  area : Nat
  shoal : Bool
  deriving DecidableEq, Repr

/-- 06 R156, R160, R167, 13 R459. -/
structure Ctx where
  troot : Word
  lclass : Nat
  psize : Nat
  argBase : Word
  argN : Nat
  argLast : Nat
  argHeld : NSet
  stub : Word
  /-- physical addresses of the save area and the eviction area (14 R398, R399) -/
  saveBase : Nat
  evictBase : Nat
  /-- images of pans evicted with no block of the context there, oldest first, with the number its regions are kept under -/
  away : List (Nat × PanImage)
  deriving DecidableEq, Repr

structure Kernel where
  rid : Nat
  queue : Nat
  ctx : Nat
  dw : List Word
  /-- the sixteen header dwords of the image (08 R237) -/
  hdr : List Word
  nblk : Nat
  pans : Nat
  strands : Nat
  slots : Nat
  placed : Nat
  retired : Nat
  killed : Bool
  arg : Nat
  task : Option Nat
  /-- its front has completed with PLACE before its last block (13 R382) -/
  unplaced : Bool := false
  deriving DecidableEq, Repr

/-- 06 R162. -/
inductive BlockSt where
  | placed | running | parked | evicted | moving | ending | killed
  deriving DecidableEq, Repr

structure Block where
  kernel : Nat
  ctx : Nat
  idx : Nat
  st : BlockSt
  die : Nat
  bay : Nat
  /-- its pans in order; an evicted pan has a number of its own (`vpan`) -/
  pans : List Nat
  /-- where its strands are: `pans`, or numbers of their own while another block has its pans -/
  home : List Nat
  /-- the model's own: the number of its places in the save and eviction areas, no other block of the context has it (log 29) -/
  area : Nat
  mig : Bool
  preempt : Bool
  resume : Bool
  killOnResume : Bool
  /-- a migration request waits (14 R404), and its target pans once taken -/
  migReq : Bool
  target : List Nat
  /-- images of its evicted pans, by pan of the block -/
  saved : List (Nat × PanImage)
  deriving DecidableEq, Repr

/-- An ordered or shadow task (05 R134 to R144). -/
structure Task where
  kernel : Nat
  queue : Nat
  die : Nat
  shadow : Bool
  /-- direct mode (05 R141) -/
  direct : Bool
  /-- timestamp and record order (05 R136) -/
  ts : Nat
  ord : Nat
  buf : List Host.Cell
  /-- its buffered lines, each with the die that buffers it, plus 1 (05 R140) -/
  lines : Tbl Nat
  rsig : BitVec 8192
  wsig : BitVec 8192
  /-- rings that its regions have changed, as they were (05 R137) -/
  rings : List (Nat × Ring)
  /-- launch records to enqueue at commit: queue, dwords, join target of a SPAWN -/
  recs : List (Nat × List Word × Option Word)
  /-- the predicted record of a shadow task (13 R383), its kernel's blocks having all retired -/
  pred : List Word
  finished : Bool
  /-- dies that have received a block of it (05 R140) -/
  dies : NSet := []
  deriving DecidableEq, Repr

/-- An ingress port (13 R379): tokens taken so far. -/
structure Ingress where
  words : List Word := []
  active : Bool := false
  count : Nat := 0
  status : Nat := 0
  deriving DecidableEq, Repr

/-- 19 R456. -/
structure LogEnt where
  time : Nat
  source : Nat
  cls : Nat
  addr : Word
  info : Word
  deriving DecidableEq, Repr

/-- A resident image (13 R380). -/
structure CachedImg where
  handle : Nat
  hdr : List Word
  stale : Bool
  used : Nat
  deriving DecidableEq, Repr

/-- What leaves through a host port, in issue order (15 R422). -/
inductive HostOut where
  | write (port addr size : Nat) (data : Word)
  | msix (port vector : Nat)
  | error (port : Nat)
  /-- what a host's own read of its register space returns (01 R32, 13 R379) -/
  | answer (port : Nat) (v : Word)
  deriving DecidableEq, Repr

/-- An attestation report (19 R453): the digests of the boot ROM and of the firmware, those of the resident images, and the nonce. -/
structure Report where
  port : Nat
  device : List Word
  images : List (List Word)
  nonce : List Byte
  deriving DecidableEq, Repr

structure Harbour where
  windows : Tbl Word := []
  images : Tbl Word := []
  cache : List CachedImg := []
  loads : List Nat := []
  ingress : Tbl Ingress := []
  owner : Nat := 0
  hpend : Bool := false
  portUp : Tbl Bool := []
  downTimer : Bool := false
  bootStep : Nat := 0
  bootFail : Bool := false
  throttled : NSet := []
  withheld : Bool := false
  tripped : Bool := false
  log : List LogEnt := []
  logPending : List LogEnt := []
  elost : Word := 0
  colltmo : Word := 100000
  inroot : Word := 0
  /-- the root word of the management cores (log 8) -/
  fwRoot : Word := 0
  domtab : Tbl Word := []
  devid : Nat := 0
  hostOut : List HostOut := []
  /-- ports with host writes not yet confirmed complete (15 R422) -/
  unconfirmed : NSet := []
  reports : List Report := []
  /-- words of SRAM other than the banks that an uncorrectable error has poisoned (02 R62, R63): source number and index -/
  sramPoison : List (Nat × Nat) := []
  /-- records whose wait for room has been logged (13 R380) -/
  waitLogged : NSet := []
  deriving DecidableEq, Repr

/-- A fabric link (15 R408 to R414). Replay entries keep the flit as sent; its plaintext is the same structure. -/
structure Link where
  up : Bool := false
  keylim : Nat := 2 ^ 48 - 1
  txLseq : Nat := 0
  txSlot : Bool := false
  txCtr : Nat := 0
  slotRdy : Bool := false
  rxExp : Nat := 0
  rxSlot : Bool := false
  rxCtr : Nat := 0
  fails : Nat := 0
  retraining : Bool := false
  badRetrains : Nat := 0
  waiting : List Flit := []
  replay : List Flit := []
  /-- replay entries still to be sent again -/
  resend : Nat := 0
  /-- an acknowledgement or NAK to carry on the next flit -/
  ackDue : Option (Bool × Nat) := none
  stalled : Bool := false
  nak : Word := 0
  replayed : Word := 0
  retrains : Word := 0
  /-- flits accepted from the link and not yet handled above it -/
  arrived : List Flit := []
  deriving DecidableEq, Repr

/-- What is done to a join record in a peer's memory (06 R171, R172, 12 R363, R365). -/
inductive JoinKind where
  /-- the dispatcher counts a child in, and then enqueues it: queue, dwords, and the join record whose continuation it is -/
  | add (q : Nat) (dw : List Word) (parent : Option Word)
  /-- the count of a strand's SPAWN; the answer goes to the strand's outstanding access of this tag -/
  | spawn (tag : Nat)
  /-- the decrement of a completed kernel -/
  | dec
  /-- the continuation is read -/
  | cont
  /-- ERR is set -/
  | err
  deriving DecidableEq, Repr

/-- A join record under way at a peer: the context, the record's address, the words read so far and, where a compare-and-swap of dword 0 is out, the word it writes. -/
structure JoinOp where
  id : Nat
  ctx : Nat
  va : Word
  dev : Nat
  da : Nat
  kind : JoinKind
  got : List Word
  swap : Option Word
  deriving DecidableEq, Repr

/-- Who waits for an outstanding remote or host access. -/
inductive Requester where
  | strand (k : Nat)
  | posted (k : Nat)
  /-- the first pending VLDA group of a strand, or its first notification -/
  | vlda (k : Nat)
  | ntf (k : Nat)
  /-- a frop and its word: 0 LDG, 1 STG or a ring entry, 2 RLD or RAT, 3 RST (11 R323, R338, R339) -/
  | grain (g : GrainRef) (kind : Nat) (w : FropWord)
  /-- an input binding of a slot (11 R323) -/
  | bind (r slot i : Nat)
  /-- a command of a channel -/
  | chan (ch id : Nat)
  /-- the pending collective of a stream -/
  | coll (vs : Nat)
  /-- another device's access that this home has forwarded (05 R152) -/
  | forward (m : RMsg)
  /-- a join record of a peer, by the number of the operation -/
  | join (id : Nat)
  deriving DecidableEq, Repr

structure Request where
  tag : Nat
  who : Requester
  msg : Option RMsg
  /-- host address of a host read: port, address, size -/
  host : Option (Nat × Nat × Nat)
  va : Word
  deriving DecidableEq, Repr

structure Fabric where
  issued : Tbl Nat := []
  applied : Tbl Nat := []
  /-- posted stores that have been applied here: source and tag (05 R147) -/
  stored : List (Nat × Nat) := []
  requests : List Request := []
  joins : List JoinOp := []
  inbound : List RMsg := []
  outbox : List RMsg := []
  responses : List (Nat × Nat × RResp) := []
  /-- regions of other devices whose token this device holds: (home device, region) -/
  owned : List (Nat × Nat) := []
  /-- home regions whose token has come back: the table lists them too (05 R151, log 18) -/
  back : NSet := []
  /-- home regions whose token is away: region, owner device plus 1 -/
  away : Tbl Nat := []
  /-- transfers of tokens under way that this device has asked for -/
  moving : List TokenReq := []
  deriving DecidableEq, Repr

/-- An invalidation in progress (01 R39, R40). -/
inductive InvKind where
  | all
  | ctx (c : Nat)
  | va (c : Nat) (va : Nat)
  | inbound (da : Nat)
  deriving DecidableEq, Repr

structure Inv where
  id : Nat
  kind : InvKind
  key : Nat
  done : Bool
  deriving DecidableEq, Repr

structure Sched where
  dieptr : Nat := 0
  lptr : Tbl Nat := []
  shptr : Nat := 0
  /-- records held for room in their queues (05 R138, 12 R363), with a number where a SPAWN waits for it (12 R365) -/
  held : List (Nat × List Word × Option Nat) := []
  /-- fired armed copies that wait for channel room (12 R353) -/
  fired : List (Nat × Cmd) := []
  /-- fired armed remote accesses still to issue (11 R339) -/
  firedRem : List (GrainRef × RemOp) := []
  /-- the ordered tasks that have committed: timestamp, and lines written (05 R144) -/
  commits : List (Nat × NSet) := []
  deriving DecidableEq, Repr

/-- A checkpoint (15 R424): what a resumed job sees exactly as at T. -/
structure Snapshot where
  time : Nat
  mem : List Host.Cell
  poison : NSet
  rings : Tbl Ring
  counters : Tbl Counter
  owned : List (Nat × Nat)
  away : Tbl Nat
  back : NSet
  streams : Tbl VStream
  sched : Sched
  blocks : Tbl (Option Block)
  kernels : Tbl (Option Kernel)
  queues : Tbl LQueue
  strands : Tbl Strand
  regions : Tbl (Option Region)
  chans : Tbl Chan
  contexts : Tbl (Option Ctx)
  deriving DecidableEq, Repr

structure Ckpt where
  active : Bool := false
  quiesced : Bool := false
  reports : NSet := []
  streaming : Bool := false
  cut : Option Snapshot := none
  /-- the complete checkpoints kept, latest first (15 R424) -/
  kept : List Snapshot := []
  deriving DecidableEq, Repr

/-- One turn of the machine: a strand's next instruction, an event, one of the three events that a machine without named turns takes by itself, or the replacement of a cached translation or line. -/
inductive Turn where
  | strand (k : Nat)
  | event (i : Instr)
  | wake (k : Nat)
  | strip (k : Nat)
  | issue (pan : Nat)
  | dropTlb (pan i : Nat)
  | dropBayTlb (bay i : Nat)
  | dropLine (pan i : Nat)
  /-- firmware sets the reserved range of a die (01 R14) -/
  | reserve (die base limit : Nat)
  /-- the host of a port reads an offset of the port's register space (01 R35) -/
  | hostRead (port off : Nat)
  deriving DecidableEq, Repr

structure State where
  mem : List Host.Cell
  poison : NSet
  panMem : List Host.Cell
  panPoison : NSet
  strands : Tbl Strand
  pans : Tbl Pan
  bays : Tbl Bay
  dies : Tbl Die
  chans : Tbl Chan
  regions : Tbl (Option Region)
  rings : Tbl Ring
  counters : Tbl Counter
  streams : Tbl VStream
  queues : Tbl LQueue
  contexts : Tbl (Option Ctx)
  kernels : Tbl (Option Kernel)
  blocks : Tbl (Option Block)
  tasks : Tbl (Option Task)
  links : Tbl Link
  sched : Sched
  harbour : Harbour
  fabric : Fabric
  ckpt : Ckpt
  invs : List Inv
  pwrlim : Nat
  gtime : Nat
  /-- the model's own: number of the next free value (log 4) -/
  free : Nat
  /-- the model's own: number of the next command, kernel, block, task, request (log 5) -/
  nextId : Nat
  /-- the model's own: the turns to come (log 5) -/
  turns : List Turn
  /-- the model's own: the strand that is executing (log 5) -/
  cur : Nat
  deriving DecidableEq, Repr

/-- What stops a step. -/
inductive Fault where
  /-- raised by `step` alone, when the device has tripped (19 R454) and no reset is among the coming turns: safe, the hardware does nothing but wait for a reset -/
  | tripped
  deriving DecidableEq, Repr

/-- What the model declines. -/
inductive Refusal where
  /-- raised by an arm of `exec` that has no meaning yet: safe -/
  | notModelled (mnemonic : String)
  deriving DecidableEq, Repr

/-- A management core at reset (log 1): supervisor mode, and the context number of no context. -/
def mgmtReset : Strand := { sup := true, ctx := 0xFFFF }

/-- The machine right after reset (19 R453): an entry that a table does not list is at its reset value; the management cores are listed. -/
def State.reset : State where
  mem := []
  poison := []
  panMem := []
  panPoison := []
  strands := [(4096, mgmtReset), (4097, mgmtReset), (4098, mgmtReset), (4099, mgmtReset)]
  pans := []
  bays := []
  dies := []
  chans := []
  regions := []
  rings := []
  counters := []
  streams := []
  queues := []
  contexts := []
  kernels := []
  blocks := []
  tasks := []
  links := []
  sched := {}
  harbour := {}
  fabric := {}
  ckpt := {}
  invs := []
  pwrlim := 4800
  gtime := 0
  free := 0
  nextId := 0
  turns := []
  cur := 0

end Sys2Proof.Machine
end

