-- ==== Sys2Proof/Machine/Effect.lean ====
section
/-! DEFINITION. The primitive updates of the state, and the sequential notation in which every meaning is written: a meaning reads the state and emits updates; the next state is the old one with the emitted updates applied in order. -/

namespace Sys2Proof.Machine

/-- Every change a meaning makes is a list of these. -/
inductive Upd where
  | memByte (a : Nat) (v : Byte)
  | poison (g : Nat) (on : Bool)
  | panByte (a : Nat) (v : Byte)
  | panPoison (w : Nat) (on : Bool)
  | strand (k : Nat) (v : Strand)
  | pan (k : Nat) (v : Pan)
  | bay (k : Nat) (v : Bay)
  | die (k : Nat) (v : Die)
  | chan (k : Nat) (v : Chan)
  | region (k : Nat) (v : Option Region)
  | ring (k : Nat) (v : Ring)
  | counter (k : Nat) (v : Counter)
  | stream (k : Nat) (v : VStream)
  | queue (k : Nat) (v : LQueue)
  | context (k : Nat) (v : Option Ctx)
  | kernel (k : Nat) (v : Option Kernel)
  | block (k : Nat) (v : Option Block)
  | task (k : Nat) (v : Option Task)
  | link (k : Nat) (v : Link)
  | sched (v : Sched)
  | harbour (v : Harbour)
  | fabric (v : Fabric)
  | ckpt (v : Ckpt)
  | invs (v : List Inv)
  /-- 19 R452: the limit only falls -/
  | lowerPower (w : Nat)
  | gtime (n : Nat)
  | nextFree
  | nextId
  | turns (t : List Turn)
  | cur (k : Nat)
  /-- the save engine's write of an area of device memory (14 R398, R399): the bytes [base, base + n) become those listed, and zero -/
  | memRange (base n : Nat) (cells : List Host.Cell)
  /-- 15 R426, 19 R453: device memory and its poison as a checkpoint or the boot sequence leaves them -/
  | restoreMem (m : List Host.Cell) (p : NSet)
  /-- 06 R166, R167: the bytes [key, key + n) of pan memory read zero -/
  | panZero (key n : Nat)
  /-- 19 R453: everything back to its reset value but the model's own fields -/
  | hardReset
  deriving DecidableEq, Repr

/-- 01 R13: a device physical address has 39 bits. -/
def memLimit : Nat := 2 ^ 39

/-- The key of byte `a` of the pan space of pan index `p` (01 R11): 2^23 × p + a. -/
def panKey (p a : Nat) : Nat := 8388608 * p + a

/-- The pan of a pan-memory key exists (00 R1). -/
def panKeyOk (a : Nat) : Bool := Config.panExists (a / 8388608)

/-- Write cells onto a memory; addresses that device memory does not have are passed over. -/
def putCells (m t : List Host.Cell) : List Host.Cell :=
  m.foldl (fun t c => if c.1 < memLimit then Tbl.put 0 c.1 c.2 t else t) t

/-- Write the cells of `m` onto an empty memory, which gives the canonical form. -/
def canonMem (m : List Host.Cell) : List Host.Cell := putCells m []

def canonSet (l : NSet) : NSet := l.foldl (fun t g => NSet.ins g t) []

/-- What one primitive update does. -/
def Upd.apply (u : Upd) (s : State) : State :=
  match u with
  | .memByte a v => if a < memLimit then { s with mem := Tbl.put 0 a v s.mem } else s
  | .poison g on => { s with poison := if on then NSet.ins g s.poison else NSet.del g s.poison }
  | .panByte a v => if panKeyOk a then { s with panMem := Tbl.put 0 a v s.panMem } else s
  | .panPoison w on => { s with panPoison := if on then NSet.ins w s.panPoison else NSet.del w s.panPoison }
  | .strand k v => { s with strands := Tbl.put {} k v s.strands }
  | .pan k v => { s with pans := Tbl.put {} k v s.pans }
  | .bay k v => { s with bays := Tbl.put {} k v s.bays }
  | .die k v => { s with dies := Tbl.put {} k v s.dies }
  | .chan k v => { s with chans := Tbl.put {} k v s.chans }
  | .region k v => { s with regions := Tbl.put none k v s.regions }
  | .ring k v => { s with rings := Tbl.put {} k v s.rings }
  | .counter k v => { s with counters := Tbl.put {} k v s.counters }
  | .stream k v => { s with streams := Tbl.put {} k v s.streams }
  | .queue k v => { s with queues := Tbl.put {} k v s.queues }
  | .context k v => { s with contexts := Tbl.put none k v s.contexts }
  | .kernel k v => { s with kernels := Tbl.put none k v s.kernels }
  | .block k v => { s with blocks := Tbl.put none k v s.blocks }
  | .task k v => { s with tasks := Tbl.put none k v s.tasks }
  | .link k v => { s with links := Tbl.put {} k v s.links }
  | .sched v => { s with sched := v }
  | .harbour v => { s with harbour := v }
  | .fabric v => { s with fabric := v }
  | .ckpt v => { s with ckpt := v }
  | .invs v => { s with invs := v }
  | .lowerPower w => { s with pwrlim := min s.pwrlim w }
  | .gtime n => { s with gtime := n }
  | .nextFree => { s with free := s.free + 1 }
  | .nextId => { s with nextId := s.nextId + 1 }
  | .turns t => { s with turns := t }
  | .cur k => { s with cur := k }
  | .memRange base n cells => { s with mem := putCells cells (s.mem.filter fun c => decide (c.1 < base ∨ base + n ≤ c.1)) }
  | .restoreMem m p => { s with mem := canonMem m, poison := canonSet p }
  | .panZero key n => { s with
      panMem := s.panMem.filter fun c => decide (c.1 < key ∨ key + n ≤ c.1)
      panPoison := s.panPoison.filter fun w => decide (8 * w < key ∨ key + n ≤ 8 * w) }
  | .hardReset => { State.reset with free := s.free, nextId := s.nextId, turns := s.turns, cur := s.cur }

/-- Apply updates, the newest first in the list. -/
def applyAll : List Upd → State → State
  | [], s => s
  | u :: us, s => u.apply (applyAll us s)

/-- The state a meaning sees, and the updates it has emitted, newest first. -/
structure Work where
  s : State
  log : List Upd

/-- A trap raised by an instruction (14 R388 to R390): cause, `tval`, and the set of causes raised as a sum of powers of two. -/
structure TrapInfo where
  cause : Nat
  tval : Word
  causes : Nat
  deriving DecidableEq, Repr

/-- A meaning ends early: with a trap, at another address than the instruction's where `addr` gives one, before which only the updates `keep` stand; or with just these updates. -/
inductive Abort where
  | trap (t : TrapInfo) (addr : Option Word) (keep : List Upd)
  | stop (log : List Upd)

/-- A meaning in sequential notation. -/
abbrev M := StateT Work (Except Abort)

/-- The state as the meaning has made it so far. -/
def gs : M State := do return (← get).s

/-- Perform one primitive update. -/
def emit (u : Upd) : M Unit := modify fun w => ⟨u.apply w.s, u :: w.log⟩

/-- Raise a trap of one cause. -/
def trap {α : Type} (cause : Nat) (tval : Word) : M α := throw (.trap ⟨cause, tval, 2 ^ cause⟩ none [])

/-- End the instruction here with no update at all: the strand stays at it. -/
def stall {α : Type} : M α := throw (.stop [])

/-- End the instruction here with only these updates. -/
def stallWith {α : Type} (us : List Upd) : M α := throw (.stop us)

/-- End the instruction here with the updates emitted so far. -/
def finish {α : Type} : M α := do throw (.stop (← get).log)

/-- Raise a trap that keeps the updates made so far (10 R299). -/
def trapHere {α : Type} (cause : Nat) (tval : Word) : M α := do throw (.trap ⟨cause, tval, 2 ^ cause⟩ none (← get).log)

/-- Raise a trap whose `tpc` is another address (10 R306). -/
def trapFrom {α : Type} (addr : Word) (cause : Nat) (tval : Word) : M α := throw (.trap ⟨cause, tval, 2 ^ cause⟩ (some addr) [])

/-- Raise a trap that keeps only the updates that `m` makes on the state as it was before the instruction. -/
def trapWith {α : Type} (s : State) (cause : Nat) (tval : Word) (m : M Unit) : M α :=
  match m ⟨s, []⟩ with
  | .ok (_, w) => throw (.trap ⟨cause, tval, 2 ^ cause⟩ none w.log)
  | .error e => throw e

/-- Perform `m` as an instruction of its own: its updates stand as its end leaves them, and the end is the answer. -/
def attempt (m : M Unit) : M (Option Abort) := fun w =>
  match m ⟨w.s, []⟩ with
  | .ok (_, x) => .ok (none, ⟨x.s, x.log ++ w.log⟩)
  | .error (.stop log) => .ok (some (.stop []), ⟨applyAll log w.s, log ++ w.log⟩)
  | .error (.trap t a keep) => .ok (some (.trap t a []), ⟨applyAll keep w.s, keep ++ w.log⟩)

/-- A fresh free word (log 4). -/
def freshWord : M Word := do
  let n := (← gs).free
  emit .nextFree
  return Config.freeWord n

/-- A fresh free number (log 4). -/
def freshNat : M Nat := do
  let n := (← gs).free
  emit .nextFree
  return Config.freeNat n

/-- A fresh identifier (log 5). -/
def freshId : M Nat := do
  let n := (← gs).nextId
  emit .nextId
  return n

/-- Loop over a list while threading the state of the meaning. -/
def each {α : Type} : List α → (α → M Unit) → M Unit
  | [], _ => pure ()
  | x :: xs, f => do f x; each xs f

/-- Collect the results of a meaning over a list. -/
def collect {α β : Type} : List α → (α → M β) → M (List β)
  | [], _ => pure []
  | x :: xs, f => do
    let y ← f x
    let ys ← collect xs f
    return y :: ys

end Sys2Proof.Machine
end

