-- ==== Sys2Proof/Machine/Ops.lean ====
section
/-! DEFINITION. The named operations over the state: accessors, registers, the error log, ending and killing a block, discarding a shadow task, and taking an exception and returning from it (14 R388 to R393, R400, R401). -/

namespace Sys2Proof.Machine

/-! Accessors: every read of a table goes through one of these. -/

def State.strand (s : State) (k : Nat) : Strand := s.strands.get {} k
def State.pan (s : State) (p : Nat) : Pan := s.pans.get {} p
def State.bay (s : State) (y : Nat) : Bay := s.bays.get {} y
def State.die (s : State) (d : Nat) : Die := s.dies.get {} d
def State.chan (s : State) (c : Nat) : Chan := s.chans.get {} c
def State.region (s : State) (r : Nat) : Option Region := s.regions.get none r
def State.ring (s : State) (r : Nat) : Ring := s.rings.get {} r
def State.counter (s : State) (c : Nat) : Counter := s.counters.get {} c
def State.stream (s : State) (v : Nat) : VStream := s.streams.get {} v
def State.queue (s : State) (q : Nat) : LQueue := s.queues.get {} q
def State.context (s : State) (c : Nat) : Option Ctx := s.contexts.get none c
def State.kernel (s : State) (k : Nat) : Option Kernel := s.kernels.get none k
def State.block (s : State) (b : Nat) : Option Block := s.blocks.get none b
def State.task (s : State) (t : Nat) : Option Task := s.tasks.get none t
def State.link (s : State) (n : Nat) : Link := s.links.get {} n

/-- The byte of device memory at a physical address (01 R13). -/
def State.byte (s : State) (pa : Nat) : Byte := Tbl.get 0 pa s.mem

/-- The byte of pan memory at a key (`panKey`). -/
def State.panByte (s : State) (a : Nat) : Byte := Tbl.get 0 a s.panMem

/-! Positions (01 R33). -/

/-- Management cores have the keys from 4096. -/
def isMgmt (k : Nat) : Bool := decide (4096 ≤ k)
def panOf (k : Nat) : Nat := k / 4
def dieOf (k : Nat) : Nat := k / 512
def bayOf (k : Nat) : Nat := k / 64
/-- Profile B (00 R1). -/
def isShoal (k : Nat) : Bool := !isMgmt k && Config.shoal (dieOf k)

/-! Registers (09 R239). -/

def Strand.gpr (st : Strand) (r : BitVec 5) : Word := if r = 0#5 then 0 else st.g.get 0 r.toNat
def Strand.setG (st : Strand) (r : BitVec 5) (v : Word) : Strand :=
  if r = 0#5 then st else { st with g := Tbl.put 0 r.toNat v st.g }

/-! Reads and writes in a meaning. -/

def curKey : M Nat := do return (← gs).cur
def getStrand (k : Nat) : M Strand := do return (← gs).strand k
def me : M Strand := do return (← gs).strand (← curKey)
def modStrand (k : Nat) (f : Strand → Strand) : M Unit := do emit (.strand k (f (← getStrand k)))
def modMe (f : Strand → Strand) : M Unit := do modStrand (← curKey) f
def modPan (p : Nat) (f : Pan → Pan) : M Unit := do emit (.pan p (f ((← gs).pan p)))
def modBay (p : Nat) (f : Bay → Bay) : M Unit := do emit (.bay p (f ((← gs).bay p)))
def modDie (d : Nat) (f : Die → Die) : M Unit := do emit (.die d (f ((← gs).die d)))
def modChan (c : Nat) (f : Chan → Chan) : M Unit := do emit (.chan c (f ((← gs).chan c)))
def modRing (r : Nat) (f : Ring → Ring) : M Unit := do emit (.ring r (f ((← gs).ring r)))
def modCounter (c : Nat) (f : Counter → Counter) : M Unit := do emit (.counter c (f ((← gs).counter c)))
def modStream (c : Nat) (f : VStream → VStream) : M Unit := do emit (.stream c (f ((← gs).stream c)))
def modQueue (q : Nat) (f : LQueue → LQueue) : M Unit := do emit (.queue q (f ((← gs).queue q)))
def modLink (q : Nat) (f : Link → Link) : M Unit := do emit (.link q (f ((← gs).link q)))
def modHarbour (f : Harbour → Harbour) : M Unit := do emit (.harbour (f (← gs).harbour))
def modFabric (f : Fabric → Fabric) : M Unit := do emit (.fabric (f (← gs).fabric))
def modSched (f : Sched → Sched) : M Unit := do emit (.sched (f (← gs).sched))
def modCkpt (f : Ckpt → Ckpt) : M Unit := do emit (.ckpt (f (← gs).ckpt))
def modBlock (b : Nat) (f : Block → Block) : M Unit := do emit (.block b (((← gs).block b).map f))
def modKernel (b : Nat) (f : Kernel → Kernel) : M Unit := do emit (.kernel b (((← gs).kernel b).map f))
def modTask (b : Nat) (f : Task → Task) : M Unit := do emit (.task b (((← gs).task b).map f))
def modContext (b : Nat) (f : Ctx → Ctx) : M Unit := do emit (.context b (((← gs).context b).map f))
def modRegion (r : Nat) (f : Region → Region) : M Unit := do emit (.region r (((← gs).region r).map f))

/-- A slot of a region (06 R168); FREE where nothing is recorded. -/
def Region.slot (r : Region) (i : Nat) : Slot := r.slots.get {} i
def modSlot (r i : Nat) (f : Slot → Slot) : M Unit :=
  modRegion r fun x => { x with slots := Tbl.put {} i (f (x.slot i)) x.slots }
def State.slot (s : State) (r i : Nat) : Slot := match s.region r with | some x => x.slot i | none => {}

/-- Read and write a general register of the executing strand. -/
def rg (r : BitVec 5) : M Word := do return (← me).gpr r
def wg (r : BitVec 5) (v : Word) : M Unit := modMe (·.setG r v)

/-- The instruction fetched next is the one after this one (08 R209). -/
def next (len : Nat) : M Unit := modMe fun st => { st with pc := st.pc + word len }

/-- 19 R456: an error entry, to be placed in TIME order. -/
def logErr (source cls : Nat) (addr info : Word) : M Unit := do
  let t := (← gs).gtime
  modHarbour fun h => { h with logPending := h.logPending ++ [⟨t, source, cls, addr, info⟩] }

/-- 19 R456: the source number of a strand, of a pan's engine or of the Harbour die. -/
def srcOf (k : Nat) : Nat := if isMgmt k then 0xF000 else dieOf k * 256 + k / 4 % 128

/-! Blocks. -/

/-- The strands of a block (06 R159). -/
def State.blockStrands (s : State) (b : Block) : List Nat :=
  let n := match s.kernel b.kernel with | some k => k.strands | none => 0
  b.home.flatMap fun p => (List.range n).map fun i => 4 * p + i

/-- The residency index of a context on a pan (06 R166). -/
def State.resOf (s : State) (pan ctx : Nat) : Option Nat :=
  (List.range 4).find? fun i =>
    let r := (s.pan pan).res.get {} i
    decide (r.st ≠ .absent) && decide (r.ctx = ctx)

/-- The regions of a context on a pan, by key; from 65536 on, the regions kept under a number of an evicted pan. -/
def State.regionsOf (s : State) (pan ctx : Nat) : List Nat :=
  if 65536 ≤ pan then ((List.range 16).map (16 * pan + ·)).filter fun r => (s.region r).isSome else
  match s.resOf pan ctx with
  | none => []
  | some i => ((List.range 16).map (16 * pan + ·)).filter fun r =>
      match s.region r with | some x => decide (x.res = i) | none => false

/-- The task of a block, while it is uncommitted (05 R134). -/
def State.taskOfBlock (s : State) (b : Option Nat) : Option Nat :=
  match b.bind s.block with
  | none => none
  | some b => (s.kernel b.kernel).bind fun k => k.task.bind fun t => (s.task t).map fun _ => t

def State.taskOf (s : State) (k : Nat) : Option Nat := s.taskOfBlock (s.strand k).block

/-- The strand's block belongs to an unclaimed shadow task (05 R143). -/
def State.shadowOf (s : State) (k : Nat) : Option Nat :=
  (s.taskOf k).bind fun t => (s.task t).bind fun x => if x.shadow then some t else none

/-- 11 R320: a slot is at an innermost iteration boundary when no generator-driven grain has fired at the current index, and every grain has finished its firing. -/
def Slot.atBoundary (x : Slot) : Bool := x.fired.isEmpty && x.grains.all fun g => g.2.out.isEmpty && g.2.waiting.isEmpty

/-- The number of dword `i` of the slot's configuration image. -/
def Slot.dw (x : Slot) (i : Nat) : Word := nth 0 x.img.dw i

/-- The frame of the current step (11 R312). -/
def Slot.frame (x : Slot) : Nat := fld (x.dw (4 + x.step)) 0 4

def SlotSt.code : SlotSt → Nat
  | .free => 0
  | .loaded => 1
  | .running => 2
  | .stopped => 3
  | .faulted => 4

/-- The status word of a slot (11 R319). -/
def Slot.word (x : Slot) : Word :=
  Sys2Proof.word (x.flags.toNat * 2 ^ 31 + x.frame * 2 ^ 27 + x.step % 32 * 2 ^ 22 + x.fgrain % 256 * 2 ^ 14 + x.fault % 64 * 2 ^ 8 + x.last % 8 * 32 + x.cause % 4 * 8 + x.st.code)

/-- A slot leaves RUNNING, and the strands that wait for it see it so (11 R315). -/
def leaveRunning (r i : Nat) (f : Slot → Slot) : M Unit := do
  modSlot r i fun x => { f x with stopReq := false, preempted := false }
  let w := ((← gs).slot r i).word
  each ((← gs).strands.map (·.1)) fun k => modStrand k fun st => if st.wait = .slot r i then { st with wait := .slotDone w } else st

/-- Stop a RUNNING slot at its next boundary, as RGSTOP does (06 R168, 11 R320); a stop by pre-emption is no end of the run. -/
def stopSlot (r i : Nat) (preempt : Bool) : M Unit := do
  let x := (← gs).slot r i
  if x.st = .running then
    if x.atBoundary then
      if preempt then modSlot r i fun x => { x with st := .stopped, stopReq := false, preempted := true }
      else leaveRunning r i fun x => { x with st := .stopped, last := 4 }
    else modSlot r i fun x => { x with stopReq := true, preempted := preempt }

/-- Stop every RUNNING slot of a context on a pan. -/
def stopRegions (pan ctx : Nat) (preempt : Bool) : M Unit := do
  each ((← gs).regionsOf pan ctx) fun r => each [0, 1, 2, 3] fun i => stopSlot r i preempt

/-- Answers to accesses of an instruction that has ended are dropped. -/
def dropRequests (k : Nat) : M Unit :=
  modFabric fun f => { f with requests := f.requests.filter fun r => r.who != .strand k }

/-- 06 R164, R162: a strand passes to IDLE, and its block to ENDING with its last strand. -/
def endStrand (k : Nat) : M Unit := do
  let st ← getStrand k
  modStrand k fun st => { st with st := .idle, wait := .none, loop := none, replies := [], held := [], amo := [], spawn := none, relAt := none }
  dropRequests k
  match st.block with
  | none => pure ()
  | some b =>
    match (← gs).block b with
    | none => pure ()
    | some blk =>
      let s ← gs
      if (s.blockStrands blk).all (fun j => decide (j = k) || decide ((s.strand j).st = .idle)) then
        modBlock b fun x => { x with st := .ending }

/-- Cancel the commands of a block at their next chunk boundaries (03 R91), fired copies that wait for room in their channels included. -/
def cancelCmds (pan b : Nat) : M Unit := do
  each (List.range 8) fun i => modChan (8 * pan + i) fun c =>
    { c with q := c.q.map fun x => if x.block = some b then { x with cancel := true } else x }
  modSched fun x => { x with fired := x.fired.map fun y => if y.2.block = some b then (y.1, { y.2 with cancel := true }) else y }

/-- The commands of a block whose task is undone leave their channels (05 R139, R143): they are between chunks, or in one whose writes go to the dropped buffer, and publish nothing. -/
def dropCmds (b : Nat) : M Unit := do
  each ((← gs).chans.map (·.1)) fun ch => do
    let ids := (((← gs).chan ch).q.filter fun c => decide (c.block = some b)).map (·.id)
    if !ids.isEmpty then
      modChan ch fun c => { c with q := c.q.filter fun x => decide (x.block ≠ some b) }
      modFabric fun f => { f with requests := f.requests.filter fun r => match r.who with | .chan c id => !(decide (c = ch) && ids.contains id) | _ => true }
  modSched fun x => { x with fired := x.fired.filter fun y => decide (y.2.block ≠ some b) }

/-- Drop the armed operations that `p` names (14 R401, 12 R353). -/
def dropArmed (p : Armed → Bool) : M Unit := do
  each ((← gs).counters.map (·.1)) fun id => modCounter id fun c => { c with armed := c.armed.filter fun a => !p a }

/-- A loop is running and has not been stopped by a trap (10 R306, R308). -/
def Strand.looping (st : Strand) : Bool := match st.loop with | some l => !l.stopped | none => false

/-- The words of a delivered trap (14 R390, R391). A running loop stops, with the address of the first scalar instruction not yet retired (10 R308). -/
def Strand.takeTrap (st : Strand) (cause : Nat) (tv addr : Word) (causes : Nat) : Strand :=
  let vlp := if st.looping then 4 else 0
  let kb := if cause = 0x10 then 8 else fld st.tstatus 3 1 * 8
  { st with
    tcause := word cause
    tval := tv
    tpc := addr
    tsummary := word (causes % 2 ^ 18)
    tstatus := word (kb + vlp + 2 + (if st.sup then 1 else 0))
    sup := true
    pc := word (fld st.tvec 2 62 * 4)
    st := .trap
    wait := .none
    replies := []
    held := []
    amo := []
    spawn := none
    relAt := none
    loop := st.loop.map fun l => if l.stopped then l else { l with stopped := true, resume := st.pc } }

/-! Residencies (06 R166, R177). -/

/-- The clamps for the smallest latency class resident; none leaves the widest. -/
def clampsFor (l : List Nat) : Nat × Nat :=
  match l.foldl min 3 with
  | 0 => (128, 4096)
  | 1 => (1024, 65536)
  | 2 => (2048, 1048576)
  | _ => (2048, 0)

/-- Both clamps follow the contexts resident on the pan (06 R177). -/
def setClamps (pan : Nat) : M Unit := do
  let s : State ← gs
  let ls := [0, 1, 2, 3].filterMap fun i =>
    let r := (s.pan pan).res.get {} i
    if r.st = .absent then none else (s.context r.ctx).map (·.lclass)
  let c := clampsFor ls
  modPan pan fun p => { p with vlclamp := word c.1, rgclamp := word c.2 }

/-- A residency ends. -/
def makeAbsent (pan res : Nat) : M Unit := do
  modPan pan fun p => { p with res := Tbl.put {} res {} p.res }
  setClamps pan

/-- The blocks of the machine. -/
def State.blockList (s : State) : List (Nat × Block) := s.blocks.filterMap fun x => x.2.map fun b => (x.1, b)

/-- Free the pans, commands and regions of a task's blocks, with the argument entry unless its record keeps it, and forget its kernel (05 R139, R143, 13 R386, R459). A partition that another block of the context uses stays. -/
def dropKernel (kid : Nat) (dropPartitions keepArg : Bool) : M Unit := do
  match (← gs).kernel kid with
  | none => pure ()
  | some kern =>
    each ((← gs).blocks.map (·.1)) fun b => do
      match (← gs).block b with
      | some blk =>
        if blk.kernel = kid then
          each ((← gs).blockStrands blk) fun k => do
            dropRequests k
            modStrand k fun st => { st with st := .idle, wait := .none, block := none, loop := none, vq := [], vlda := [], ntf := [], replies := [], held := [], amo := [], spawn := none, relAt := none, copies := [] }
          dropCmds b
          each blk.pans fun p => do
            each ((← gs).regionsOf p blk.ctx) fun r => emit (.region r none)
            match (← gs).resOf p blk.ctx with
            | some i =>
              if dropPartitions && !((← gs).blockList.any fun x => decide (x.1 ≠ b) && decide (x.2.ctx = blk.ctx) && x.2.pans.contains p) then makeAbsent p i
            | none => pure ()
          emit (.block b none)
      | none => pure ()
    if !keepArg then modContext kern.ctx fun c => { c with argHeld := NSet.del kern.arg c.argHeld }
    emit (.kernel kid none)

/-- 13 R386, R387: discard a shadow task with a cause code. A record bound to it returns to ordinary dispatch (13 R385). -/
def discardShadow (t code : Nat) : M Unit := do
  match (← gs).task t with
  | none => pure ()
  | some x =>
    if x.shadow then
      dropKernel x.kernel true false
      each x.rings fun r => emit (.ring r.1 r.2)
      emit (.task t none)
      modQueue x.queue fun q => { q with shadow := none, recs := q.recs.map fun r => if r.bound = some t then { r with bound := none } else r }
      modDie x.die fun d => { d with pred := Tbl.put 0 (1 + code) (d.pred.get 0 (1 + code) + 1) d.pred }

/-- The address of the next instruction in program order that has not retired: in a running loop that of the body (10 R307, 14 R401). -/
def Strand.nextPc (st : Strand) : Word :=
  match st.loop with
  | some l => if l.stopped then st.pc else (nth (st.pc, .eret) l.body l.pos).1
  | none => st.pc

/-- 14 R391 for KILL: the trap words of one strand of a killed block; while K = 1 the strand ends instead (14 R392). -/
def deliverKill (k : Nat) : M Unit := do
  let st ← getStrand k
  if st.st = .idle then pure ()
  else if bitOf st.tstatus 3 then
    logErr (srcOf k) 3 st.pc 0x10
    endStrand k
  else
    modStrand k fun st => { st.takeTrap 0x10 0 st.nextPc (2 ^ 0x10) with vq := [], latch := true }
    dropRequests k

/-- 14 R400 to R402: a write of 1 to a strand's `kill` word kills its block. -/
def killBlock (b : Nat) : M Unit := do
  match (← gs).block b with
  | none => pure ()
  | some blk =>
    let ks := (← gs).blockStrands blk
    each ks fun k => modStrand k fun st => { st with kill := 1, latch := true }
    if blk.preempt || decide (blk.st = .placed) || decide (blk.st = .parked) || decide (blk.st = .moving) || decide (blk.st = .evicted) then
      modBlock b fun x => { x with killOnResume := true, resume := decide (x.st = .parked) || x.resume || x.preempt }
    else if decide (blk.st = .running) || decide (blk.st = .killed) then
      modBlock b fun x => { x with st := .killed, migReq := false, target := [] }
      modKernel blk.kernel fun x => { x with killed := true }
      dropArmed fun a => decide (a.block = some b)
      each blk.pans fun p => do
        stopRegions p blk.ctx false
        cancelCmds p b
      each ks deliverKill

/-- A kill aimed at a strand: its block, or a shadow task's discard, or the core itself where there is no block. -/
def killStrand (k : Nat) : M Unit := do
  match (← gs).shadowOf k with
  | some t => discardShadow t 4
  | none =>
    match (← getStrand k).block with
    | some b => killBlock b
    | none =>
      modStrand k fun st => { st with kill := 1, latch := true }
      dropArmed fun a => a.block.isNone && decide (a.key = k)
      deliverKill k

/-- 14 R404 step 1: the strand waits at its instruction for a target. -/
def migrationRequest (b : Nat) : M Unit := modBlock b fun x => { x with migReq := true }

/-- The image of the strand's kernel is migratable (08 R237 MIG, 14 R391). -/
def State.migratable (s : State) (k : Nat) : Bool :=
  match (s.strand k).block.bind s.block with
  | some b => (match s.kernel b.kernel with | some x => bitOf (nth 0 x.hdr 1) 16 | none => false)
  | none => false

/-- TAKING AN EXCEPTION (14 R391, R392): the one operation by which a trap of strand `k` is delivered. A double trap is logged in two entries, with its address and with its `tval` (log 37). -/
def deliver (k : Nat) (t : TrapInfo) (addr : Word) : M Unit := do
  let st ← getStrand k
  match (← gs).shadowOf k with
  | some x => discardShadow x 4
  | none =>
    if bitOf st.tstatus 3 then
      logErr (srcOf k) 3 t.tval (word t.cause)
      endStrand k
    else if t.cause = 2 ∧ (← gs).migratable k = true then
      match st.block with
      | some b => migrationRequest b
      | none => pure ()
    else if t.cause ≠ 0x10 ∧ st.sup = true ∧ bitOf st.tstatus 1 = true then
      logErr (srcOf k) 3 addr (word t.cause)
      logErr (srcOf k) 3 t.tval (word t.cause)
      killStrand k
    else
      modStrand k fun st => st.takeTrap t.cause t.tval addr t.causes
      dropRequests k

/-- The loop as a return to `target` leaves it: replayed from the body instruction that trapped, else ended (10 R308). -/
def Strand.loopAfter (st : Strand) (target : Word) : Option Loop :=
  match st.loop with
  | some l => if l.stopped && decide ((nth (0, .eret) l.body l.pos).1 = target) then some { l with stopped := false } else none
  | none => none

/-- RETURNING FROM AN EXCEPTION (09 R266, 14 R392): restore the mode, clear IN, and go to `tpc`, or back into a stopped loop. -/
def Strand.returnTrap (st : Strand) : Strand :=
  { st with
    pc := match st.loopAfter st.tpc with | some l => l.resume | none => st.tpc
    loop := st.loopAfter st.tpc
    sup := bitOf st.tstatus 0
    tstatus := word (fld st.tstatus 3 1 * 8 + fld st.tstatus 2 1 * 4 + fld st.tstatus 0 1)
    st := .run }

/-- The strand can issue (06 R164): it is in RUN, or in its handler. -/
def Strand.issues (st : Strand) : Bool := decide (st.st = .run) || decide (st.st = .trap)

/-- Deliver a trap at an address. -/
def trapAt (k : Nat) (t : TrapInfo) (addr : Word) (s : State) : Host.Outcome State Fault Refusal :=
  match deliver k t addr ⟨s, []⟩ with
  | .ok (_, w) => .next (applyAll w.log s)
  | .error _ => .next s

/-- Turn a meaning into an outcome: its updates, the updates of an early end, or the delivery of its trap on the state as it was (every trap is precise, 14 R388). A trap of a scalar instruction while a loop runs is held (10 R308): the strand stays at it. -/
def runAs (k : Nat) (m : M Unit) (s : State) : Host.Outcome State Fault Refusal :=
  match m ⟨s, []⟩ with
  | .ok (_, w) => .next (applyAll w.log s)
  | .error (.stop log) => .next (applyAll log s)
  | .error (.trap t addr keep) =>
    if (s.strand k).looping then .next s else trapAt k t (addr.getD (s.strand k).pc) (applyAll keep s)

/-- An instruction of the executing strand. -/
def run (m : M Unit) (s : State) : Host.Outcome State Fault Refusal := runAs s.cur m s

end Sys2Proof.Machine
end

