-- ==== Sys2Proof/Machine/Operands.lean ====
section
/-! DEFINITION. Operand forms: type codes (08 R214, 09 R240), vector elements, masks and register groups (02 R64, R65, 10 R283, R284), and the operand forms of class 4 (08 R220). -/

namespace Sys2Proof.Machine

/-! Integer type codes 0 to 7 (08 R214). -/

/-- Width in bits of an integer type code. -/
def tyW (t : Nat) : Nat := 8 * 2 ^ (t % 4)
def tySigned (t : Nat) : Bool := decide (t < 4)

/-- Width in bytes of any type code (08 R214; 0xE has 2 bytes and 0xF has 8 in frame-op words, 11 R338). -/
def tyBytes (t : Nat) : Nat :=
  if t < 8 then 2 ^ (t % 4) else nth 8 [8, 4, 2, 2, 1, 1, 2, 8] (t - 8)

/-- The exact integer of the low `w` bits. -/
def intOf (signed : Bool) (w : Nat) (x : Nat) : Int := if signed then sext x w else ((x % 2 ^ w : Nat) : Int)

/-- The low `w` bits of an integer. -/
def lowBits (w : Nat) (i : Int) : Nat := (i % (2 ^ w : Nat)).toNat

/-- 09 R240: Src. -/
def srcI (t : Nat) (x : Word) : Int := intOf (tySigned t) (tyW t) x.toNat

/-- 09 R240: Dst, extended to 64 bits. -/
def dstW (t : Nat) (v : Int) : Word := wordI (intOf (tySigned t) (tyW t) (lowBits (tyW t) v))

/-- The range of an integer type (00 R7, Sat). -/
def minInt (signed : Bool) (w : Nat) : Int := if signed then -(2 ^ (w - 1) : Nat) else 0
def maxInt (signed : Bool) (w : Nat) : Int := if signed then (2 ^ (w - 1) : Nat) - 1 else (2 ^ w : Nat) - 1

/-- 00 R7: Sat, and whether it clamped. -/
def satI (signed : Bool) (w : Nat) (x : Int) : Int × Bool :=
  if x < minInt signed w then (minInt signed w, true)
  else if maxInt signed w < x then (maxInt signed w, true) else (x, false)

/-- 07 R184: FxShift with XRM codes 0 TRN, 1 RHU, 2 RNE, 3 RTO. -/
def fxShift (x : Int) (s mode : Nat) : Int :=
  if s = 0 then x else
  let q := x / (2 ^ s : Nat)
  let r := x % (2 ^ s : Nat)
  let half : Int := (2 ^ (s - 1) : Nat)
  match mode with
  | 0 => q
  | 1 => if half ≤ r then q + 1 else q
  | 2 => if half < r ∨ (r = half ∧ q % 2 = 1) then q + 1 else q
  | _ => if r ≠ 0 ∧ q % 2 = 0 then q + 1 else q

/-! `vcfg` (10 R279) and `acr` (07 R182). -/

def Strand.vl (st : Strand) : Nat := fld st.vcfg 0 12
/-- SEW in bytes. -/
def Strand.sew (st : Strand) : Nat := 2 ^ fld st.vcfg 12 2
def Strand.vscope (st : Strand) : Nat := fld st.vcfg 16 3
def mkVcfg (vl sewLog scope : Nat) : Word := word (scope * 65536 + sewLog * 4096 + vl)
def Strand.frm (st : Strand) : Nat := fld st.acr 0 3
def Strand.xrm (st : Strand) : Nat := fld st.acr 4 2

/-! Vector elements (02 R64): element `i` of width `w` of a register image. -/

def imgGet (img : BitVec 16384) (off n : Nat) : Nat := img.toNat / 2 ^ (8 * off) % 2 ^ (8 * n)

def imgSet (img : BitVec 16384) (off n v : Nat) : BitVec 16384 :=
  BitVec.ofNat 16384 (img.toNat - imgGet img off n * 2 ^ (8 * off) + (v % 2 ^ (8 * n)) * 2 ^ (8 * off))

def Strand.vreg (st : Strand) (r : Nat) : VReg := st.v.get {} r

def roundUp8 (n : Nat) : Nat := (n + 7) / 8 * 8

/-- 02 R67: write bytes [off, off + n) of a register; VLB and the dirty tag follow. -/
def VReg.write (v : VReg) (off n x : Nat) : VReg :=
  { v with img := imgSet v.img off n x, vlb := max v.vlb (roundUp8 (off + n)), dirty := true }

/-- Element `i` of width `w` of the group that starts at register `r` (10 R284). -/
def Strand.velem (st : Strand) (vlen r w i : Nat) : Nat :=
  imgGet (st.vreg ((r + i * w / vlen) % 32)).img (i * w % vlen) w

def Strand.setVelem (st : Strand) (vlen r w i x : Nat) : Strand :=
  let k := (r + i * w / vlen) % 32
  { st with v := Tbl.put {} k ((st.vreg k).write (i * w % vlen) w x) st.v }

/-- Write the listed elements of a group. -/
def Strand.setElems (st : Strand) (vlen r w : Nat) (xs : List (Nat × Nat)) : Strand :=
  xs.foldl (fun st x => st.setVelem vlen r w x.1 x.2) st

/-! Masks (02 R65, 10 R283). -/

def Strand.mreg (st : Strand) (m : Nat) : BitVec 2048 := st.m.get 0 m

/-- m0 reads as all ones when it is a mask. -/
def Strand.maskBit (st : Strand) (m i : Nat) : Bool := decide (m = 0) || (st.mreg m).getLsbD i

/-- The active elements of a masked instruction: below `n` with their mask bit set. -/
def Strand.active (st : Strand) (m n : Nat) : List Nat := (List.range n).filter (st.maskBit m)

def bitsOf (l : List Nat) : Nat := l.foldl (fun a i => a + 2 ^ i) 0

/-- Write a mask register whole. -/
def Strand.setMask (st : Strand) (m : Nat) (v : BitVec 2048) : Strand :=
  { st with m := Tbl.put 0 m v st.m, mdirty := NSet.ins m st.mdirty }

/-- 10 R283, mask destination: active elements take their bit, inactive ones below VL keep theirs, the rest become 0. -/
def Strand.writeMask (st : Strand) (md m n : Nat) (p : Nat → Bool) : Strand :=
  let old := st.mreg md
  st.setMask md (BitVec.ofNat 2048 (bitsOf ((List.range n).filter fun i => if st.maskBit m i then p i else old.getLsbD i)))

/-! VLEN, VLMAX and VLDA poison marks. -/

/-- Bytes of a vector register of strand `k` (00 R1). -/
def vlenOf (k : Nat) : Nat := Config.vlen (dieOf k)
def lanesOf (k : Nat) : Nat := Config.lanes (dieOf k)

/-- 10 R280: VLMAX under an element width, from MAXB of the pan (06 R176). -/
def State.vlmax (s : State) (k sew : Nat) : Nat := min (vlenOf k) (fld (s.pan (panOf k)).vlclamp 0 12) / sew

/-- 10 R287: bytes of an element group. -/
def groupBytes (k : Nat) : Nat := vlenOf k / 8

/-- 10 R297: the mark of the group that holds byte `off` of a register. -/
def Strand.markAt (st : Strand) (k r off : Nat) : Option Word :=
  ((st.vreg r).marks.find? fun x => x.1 == off / groupBytes k).map (·.2)

/-- 10 R297: the listed elements of a group of registers that lie in marked groups, with the `tval` of their POISON. The strand stays while one of the groups is still to be written. -/
def markedElems (r w : Nat) (is : List Nat) : M (List (Nat × Word)) := do
  let k ← curKey
  let st ← me
  let vlen := vlenOf k
  let place := fun i => ((r + i * w / vlen) % 32, i * w % vlen)
  if is.any (fun i => st.vlda.any fun g => g.vd == (place i).1 && g.group == (place i).2 / groupBytes k) then stall
  return is.filterMap fun i => (st.markAt k (place i).1 (place i).2).map fun a => (i, a)

/-- Reading the listed elements of a group of registers: POISON at a marked group (10 R297), and a stall while the group is still to be written. -/
def useElems (r w : Nat) (is : List Nat) : M Unit := do
  match ← markedElems r w is with
  | x :: _ => trap 7 x.2
  | [] => pure ()

/-- Writing the listed elements: waits for pending VLDA groups (10 R297). -/
def defElems (r w : Nat) (is : List Nat) : M Unit := do
  let k ← curKey
  let st ← me
  let vlen := vlenOf k
  if is.any (fun i => st.vlda.any fun g => g.vd == (r + i * w / vlen) % 32 && g.group == i * w % vlen / groupBytes k) then stall

/-- 10 R297: a write of every element of a marked group clears its mark. -/
def Strand.clearMarks (st : Strand) (k r w : Nat) (is : List Nat) : Strand :=
  let gb := groupBytes k
  let vlen := vlenOf k
  let regs := (List.range 8).map fun j => (r + j) % 32
  regs.foldl (fun st x =>
    let vr := st.vreg x
    if vr.marks.isEmpty then st else
    let keep := vr.marks.filter fun mk => !((List.range (gb / w)).all fun e =>
      is.any fun i => (r + i * w / vlen) % 32 == x && i * w % vlen == mk.1 * gb + e * w)
    { st with v := Tbl.put {} x { vr with marks := keep } st.v }) st

/-- Write the listed elements of the executing strand's register group (10 R283, R284). -/
def putElems (r w : Nat) (xs : List (Nat × Nat)) : M Unit := do
  let k ← curKey
  defElems r w (xs.map (·.1))
  modMe fun st => (st.setElems (vlenOf k) r w xs).clearMarks k r w (xs.map (·.1))

/-- 08 R220: the last source of a class 4 instruction. -/
inductive Src2 where
  | vec (r : Nat)
  | scalar (x : Nat)
  | imm (i : Int)

/-- FORM 0 vector, 1 scalar, 2 immediate, signed or unsigned (08 R220, 10 R288). -/
def src2 (f : BitVec 2) (b : BitVec 5) (unsignedImm : Bool) : M Src2 := do
  match f.toNat with
  | 0 => return .vec b.toNat
  | 1 => return .scalar (← rg b).toNat
  | _ => return .imm (if unsignedImm then (b.toNat : Int) else sext b.toNat 5)

/-- The bits of element `i` of a last source at `w` bytes. -/
def Src2.bits (x : Src2) (st : Strand) (vlen w i : Nat) : Nat :=
  match x with
  | .vec r => st.velem vlen r w i
  | .scalar v => v % 2 ^ (8 * w)
  | .imm v => lowBits (8 * w) v

/-- The register elements a last source reads. -/
def Src2.use (x : Src2) (w : Nat) (is : List Nat) : M Unit :=
  match x with
  | .vec r => useElems r w is
  | _ => pure ()

end Sys2Proof.Machine
end

