-- ==== Sys2Proof/Machine/Flags.lean ====
section
/-! DEFINITION. Flags: the sticky flags of `fsr`, the lowest-element words `fidx.*` (00 R7, 07 R185, R186, R188). -/

namespace Sys2Proof.Machine

/-- Flags as a set of bits numbered as in `fsr` (07 R185). -/
abbrev Fl := Nat

def flNV : Fl := 1
def flDZ : Fl := 2
def flOF : Fl := 4
def flUF : Fl := 8
def flNX : Fl := 16
def flSAT : Fl := 32
def flSING : Fl := 64
def flNSPD : Fl := 128
def flMODOV : Fl := 256

/-- Union of two flag sets. -/
def flOr (a b : Fl) : Fl := a ||| b

def flHas (f : Fl) (bit : Nat) : Bool := f.testBit bit

/-- The `fidx` word that serves a flag (07 R186). -/
def fidxOf (bit : Nat) : Nat := if bit < 6 then bit else if bit < 8 then 6 else 7

/-- 07 R186: SetFlag on one `fidx` word. -/
def fidxSet (w : Word) (e : Nat) : Word :=
  if bitOf w 31 then (if e < fld w 0 12 then word (2 ^ 31 + e) else w) else word (2 ^ 31 + e)

/-- 00 R7: SetFlag for every flag of a set, with the element that raised them. -/
def Strand.raise (st : Strand) (f : Fl) (e : Nat) : Strand :=
  let st := { st with fsr := st.fsr ||| word (f % 512) }
  (List.range 9).foldl (fun st b =>
    if flHas f b then { st with fidx := Tbl.put 0 (fidxOf b) (fidxSet (st.fidx.get 0 (fidxOf b)) e) st.fidx } else st) st

/-- Flags of a scalar instruction: element 0 (09 R242). -/
def flag (f : Fl) : M Unit := if f = 0 then pure () else modMe (·.raise f 0)

/-- Flags of the elements of a vector instruction (10 R286). -/
def flagElems (fs : List (Nat × Fl)) : M Unit :=
  modMe fun st => fs.foldl (fun st x => if x.2 = 0 then st else st.raise x.2 x.1) st

/-- 07 R188: a flag set enters the exception mask. -/
def inXm (f : Fl) : Bool := flHas f 0 || flHas f 1 || flHas f 2 || flHas f 3 || flHas f 5 || flHas f 8

/-- 07 R188: write the exception mask of an `.xm` instruction. -/
def putXm (xm : Bool) (m : BitVec 3) (fs : List (Nat × Fl)) : M Unit :=
  if xm then modMe fun st => st.setMask m.toNat (BitVec.ofNat 2048 (bitsOf (((fs.filter fun x => inXm x.2).map (·.1)).foldl (fun a i => NSet.ins i a) []))) else pure ()

end Sys2Proof.Machine
end

