-- ==== Sys2Proof/Machine/Store.lean ====
section
/-! DEFINITION. Storage as its home performs accesses: device memory with poison and page-migration cutover (01 R44, 03 R76), pan memory with its banks and partitions (02 R47 to R62), the signatures of ordered and shadow tasks (05 R135, R139, R144), and the hooks of a write: monitors and revalidation. -/

namespace Sys2Proof.Machine

/-! Device memory. -/

/-- 01 R44, R45: while a migration runs, an access that arrives with an address in the old frame acts at the new frame when its chunk is below the cutover index. -/
def State.home (s : State) (pa : Nat) : Nat :=
  match s.dies.findSome? fun d => d.2.pmig.bind fun m => if pa / 65536 = m.old ∧ pa % 65536 / 4096 < m.c then some m else none with
  | some m => m.new * 65536 + pa % 65536
  | none => pa

/-- 05 R155: while a migration runs, a byte of the new frame is the location of the byte at the same offset of the old frame; task buffers and signatures name it by the latter. -/
def State.canon (s : State) (pa : Nat) : Nat :=
  match s.dies.findSome? fun d => d.2.pmig.bind fun m => if pa / 65536 = m.new then some m else none with
  | some m => m.old * 65536 + pa % 65536
  | none => pa

def State.physByte (s : State) (pa : Nat) : Nat := (s.byte (s.home pa)).toNat

/-- `n` bytes at a physical address, little-endian (00 R5). -/
def State.physRead (s : State) (pa : Nat) : Nat → Nat
  | 0 => 0
  | n + 1 => s.physByte pa + 256 * s.physRead (pa + 1) n

/-- 03 R76: a 64-byte granule touched by [pa, pa + n) is poisoned. -/
def State.poisonedAt (s : State) (pa n : Nat) : Bool :=
  (List.range ((pa % 64 + n + 63) / 64)).any fun i => NSet.mem ((s.home ((pa / 64 + i) * 64)) / 64) s.poison

/-! Task buffers and signatures (05 R134, R135). -/

/-- Insert a byte into a buffer, rising by address. -/
def bufPut (a : Nat) (v : Byte) : List Host.Cell → List Host.Cell
  | [] => [(a, v)]
  | (b, w) :: t => if b < a then (b, w) :: bufPut a v t else if b = a then (a, v) :: t else (a, v) :: (b, w) :: t

def bufGet (a : Nat) : List Host.Cell → Option Byte
  | [] => none
  | (b, w) :: t => if b = a then some w else bufGet a t

/-- 05 R135: the four hash functions. -/
def sigHash (l : Nat) (k : Nat) : Nat :=
  l * nth 0 [0x9E3779B1, 0x85EBCA77, 0xC2B2AE3D, 0x27D4EB2F] k % 2 ^ 32 / 2 ^ 19

def sigIns (sig : BitVec 8192) (l : Nat) : BitVec 8192 :=
  [0, 1, 2, 3].foldl (fun s k => s ||| BitVec.ofNat 8192 (2 ^ sigHash l k)) sig

def sigHit (sig : BitVec 8192) (l : Nat) : Bool := [0, 1, 2, 3].all fun k => sig.getLsbD (sigHash l k)

/-- 05 R136: the commit order of timestamp, queue and record. -/
def commitBefore (ts queue ord ts' queue' ord' : Nat) : Bool :=
  decide (ts < ts') || (decide (ts = ts') && (decide (queue < queue') || (decide (queue = queue') && decide (ord < ord'))))

/-- 05 R136: task `a` is before task `b` in commit order. -/
def Task.before (a b : Task) : Bool := commitBefore a.ts a.queue a.ord b.ts b.queue b.ord

/-- The uncommitted ordered tasks, claimed ones included. -/
def State.orderedTasks (s : State) : List (Nat × Task) :=
  s.tasks.filterMap fun x => match x.2 with | some t => if t.shadow then none else some (x.1, t) | none => none

/-- A record whose aborted task is still to be started again is before a task (05 R136, R139); `q` is its queue, its timestamp is dword 2 (12 R359). -/
def QRec.before (q : Nat) (r : QRec) (x : Task) : Bool := r.prior.isSome && commitBefore (nth 0 r.dw 2).toNat q r.id x.ts x.queue x.ord

/-- 05 R136, R141: no ordered task is earlier, one that is aborted and not yet restarted included. -/
def State.isOldest (s : State) (t : Nat) : Bool :=
  match s.task t with
  | some x => (s.orderedTasks.all fun y => y.1 == t || !(y.2.before x)) && s.queues.all fun q => q.2.recs.all fun r => !(r.before q.1 x)
  | none => true

/-- A record goes back into its queue, in record order (05 R136). -/
def putRec (r : QRec) : List QRec → List QRec
  | [] => [r]
  | x :: t => if x.id < r.id then x :: putRec r t else r :: x :: t

/-- 05 R139, R137: an aborted task is undone and its record returns to its queue, to start from its entry. -/
def abortTask (t : Nat) : M Unit := do
  match (← gs).task t with
  | none => pure ()
  | some x =>
    match (← gs).kernel x.kernel with
    | none => pure ()
    | some kern =>
      dropKernel x.kernel false true
      each x.rings fun r => emit (.ring r.1 r.2)
      emit (.task t none)
      let now := (← gs).gtime
      modQueue x.queue fun q => { q with
        recs := putRec { id := kern.rid, dw := kern.dw, kernel := none, next := 0, bound := none, prior := some kern.arg } (q.recs.filter fun r => r.id != kern.rid)
        since := if q.recs.isEmpty then now else q.since
        begun := q.begun.filter (· != kern.rid) }

/-- 05 R141, R144: what a performed write to a line does to the tasks that have read it; `by_` is the direct-mode ordered task that writes. -/
def revalidate (line : Nat) (by_ : Option Nat) : M Unit := do
  each ((← gs).tasks.map (·.1)) fun t => do
    match (← gs).task t with
    | some x =>
      if some t ≠ by_ ∧ sigHit x.rsig line = true then
        if x.shadow then discardShadow t 5
        else match by_.bind (← gs).task with
          | some y => if y.before x && !x.direct then abortTask t else pure ()
          | none => pure ()
    | none => pure ()

/-- 09 R271: a write of another party sets the latch of every strand that monitors the line or bank word. -/
def wakeMonitors (m : Monitor) (writer : Option Nat) : M Unit := do
  each ((← gs).strands.map (·.1)) fun k => do
    if some k ≠ writer ∧ ((← gs).strand k).monitor = m then modStrand k fun st => { st with latch := true }

/-- Write bytes to device memory at their homes, lowest first. -/
def putBytes (pa : Nat) : List Byte → M Unit
  | [] => pure ()
  | b :: bs => do
    emit (.memByte ((← gs).home pa) b)
    putBytes (pa + 1) bs

/-- 03 R76: granules that a write of [pa, pa + n) covers whole lose their poison. -/
def clearPoison (pa n : Nat) : M Unit := do
  let first := (pa + 63) / 64
  let last := (pa + n) / 64
  each ((List.range (last - first)).map (first + ·)) fun g => do
    let h := (← gs).home (g * 64) / 64
    if NSet.mem h (← gs).poison then emit (.poison h false) else pure ()

/-- A write performed at its home: the bytes, the poison of whole granules, the monitors and the tasks that read the lines. -/
def physWrite (writer by_ : Option Nat) (pa : Nat) (bs : List Byte) : M Unit := do
  putBytes pa bs
  clearPoison pa bs.length
  each ((List.range ((pa % 128 + bs.length + 127) / 128)).map (pa / 128 + ·)) fun l => do
    wakeMonitors (.line ((← gs).home (l * 128) / 128)) writer
    revalidate ((← gs).canon (l * 128) / 128) by_

/-! Pan memory: the pan view, and the local view of a grain (02 R48). -/

/-- 00 R7: Fold8. -/
def fold8 (w : Nat) : Nat := (w % 256) ^^^ (w / 256 % 256) ^^^ (w / 65536 % 16)

/-- 02 R48: the pan word of local word `l` of grain `b`. -/
def panWordOf (b l : Nat) : Nat := l * 256 + ((b % 256) ^^^ (l % 256) ^^^ (l / 256 % 16))

def State.panRead (s : State) (key : Nat) : Nat → Nat
  | 0 => 0
  | n + 1 => (s.panByte key).toNat + 256 * s.panRead (key + 1) n

/-- 02 R62: a bank word touched by [key, key + n) is poisoned. -/
def State.panPoisonedAt (s : State) (key n : Nat) : Bool :=
  (List.range ((key % 8 + n + 7) / 8)).any fun i => NSet.mem (key / 8 + i) s.panPoison

def putPanBytes (key : Nat) : List Byte → M Unit
  | [] => pure ()
  | b :: bs => do
    emit (.panByte key b)
    putPanBytes (key + 1) bs

/-- A write performed at its banks: a full 8-byte word loses its poison; monitors on its words (09 R271). -/
def panWrite (writer : Option Nat) (key : Nat) (bs : List Byte) : M Unit := do
  putPanBytes key bs
  let first := (key + 7) / 8
  let last := (key + bs.length) / 8
  each ((List.range (last - first)).map (first + ·)) fun w => do
    if NSet.mem w (← gs).panPoison then emit (.panPoison w false) else pure ()
  each ((List.range ((key % 8 + bs.length + 7) / 8)).map (key / 8 + ·)) fun w => wakeMonitors (.bank w) writer

/-- 02 R58, R59: every word of [a, a + n) of the pan space lies in the context's partition on the pan. -/
def State.inPartition (s : State) (pan ctx a n : Nat) : Bool :=
  match s.resOf pan ctx with
  | none => false
  | some i =>
    let r := (s.pan pan).res.get {} i
    let base := fld r.spbase 8 12
    let lim := fld r.splim 8 13
    (List.range ((a % 8 + n + 7) / 8)).all fun j =>
      let l := (a / 8 + j) / 256 % 4096
      decide (base ≤ l) && decide (l < lim)

end Sys2Proof.Machine
end

