-- ==== Sys2Proof/Machine/Xlate.lean ====
section
/-! DEFINITION. Translation: entries, walks, caches, checks in their order, windows, domain and inbound translation (01 R9 to R42, 15 R457). -/

namespace Sys2Proof.Machine

/-! Entry fields (01 R17 to R20). -/

def lfKind (e : Word) : Nat := fld e 2 2
def lfR (e : Word) : Bool := bitOf e 4
def lfW (e : Word) : Bool := bitOf e 5
def lfX (e : Word) : Bool := bitOf e 6
def lfU (e : Word) : Bool := bitOf e 7
def lfTM (e : Word) : Bool := bitOf e 8
def lfSP (e : Word) : Bool := bitOf e 9
def lfPLC (e : Word) : Nat := fld e 10 4
def lfMA (e : Word) : Nat := fld e 14 2

/-- 01 R18: a well-formed table entry. -/
def tableOk (e : Word) : Bool :=
  bitOf e 0 && !bitOf e 1 && decide (fld e 2 14 = 0) && decide (fld e 39 25 = 0)

/-- 01 R19, R20, R36: a well-formed leaf at level 0 or 1. -/
def leafOk (level : Nat) (e : Word) : Bool :=
  bitOf e 0 && bitOf e 1 && decide (lfMA e < 2) && !(lfW e && !lfR e) &&
  (decide (level = 0) || (decide (level = 1) && decide (lfKind e = 0) && !lfSP e && decide (fld e 16 13 = 0))) &&
  match lfKind e with
  | 0 => decide (fld e 39 25 = 0) && (decide (lfPLC e = 0) || (decide (8 ≤ lfPLC e) && decide (fld e 36 3 = lfPLC e - 8)))
  | 1 => !bitOf e 63 && decide (lfMA e = 0) && decide (lfPLC e = 0)
  | 2 => decide (fld e 58 6 = 0) && !lfX e && !lfTM e && decide (lfPLC e = 0) && decide (lfMA e = 1)
  | _ => decide (fld e 32 32 = 0) && !lfX e && !lfU e && !lfTM e && !lfSP e && decide (lfPLC e = 0) && decide (lfMA e = 1)

/-- The low bit of the page field whose five low bits a span fixes (01 R21): FRAME and DPN from 16, WPAGE from 26. -/
def pageLo (e : Word) : Nat := if lfKind e = 2 then 26 else 16

/-- 01 R21: a leaf of a span is malformed unless its page agrees with VA[20:16]. -/
def spanOk (e : Word) (va : Nat) : Bool := !lfSP e || decide (fld e (pageLo e) 5 = va / 65536 % 32)

/-- The translation a well-formed leaf gives: a page, a span with its page bits cleared, or a block. -/
def tlbOf (ctx level va : Nat) (e : Word) : TlbEnt :=
  if level = 1 then ⟨ctx, 29, va / 2 ^ 29, e⟩
  else if lfSP e then ⟨ctx, 21, va / 2 ^ 21, e &&& ~~~ word (31 * 2 ^ pageLo e)⟩
  else ⟨ctx, 16, va / 2 ^ 16, e⟩

/-- 01 R15: shift and width of the index of a level. -/
def levelShift (level : Nat) : Nat := if level = 3 then 55 else if level = 2 then 42 else if level = 1 then 29 else 16
def levelIndex (level va : Nat) : Nat := va / 2 ^ levelShift level % (if level = 3 then 512 else 8192)

/-- A cache of bounded size: room, or a free choice of what is replaced (log 4). -/
def insertCapped {α : Type} (cap : Nat) (l : List α) (x : α) : M (List α) := do
  if l.length < cap then return l ++ [x]
  else
    let i := (← freshNat) % cap
    return upd l i fun _ => x

/-- Where a walk stores what it reads: a bay's caches with a pan's, a die's inbound caches, or nowhere. -/
inductive Walker where
  | pan (p : Nat)
  | inbound (d : Nat)
  | nowhere
  deriving DecidableEq, Repr

def Walker.walkHit (w : Walker) (s : State) (ctx level va : Nat) : Option Word :=
  let look := fun (l : List WalkEnt) => (l.find? fun e => e.ctx == ctx && e.level == level && e.va == va / 2 ^ levelShift level).map (·.entry)
  match w with
  | .pan p => look (s.bay (p / 16)).walk
  | .inbound d => look (s.die d).inWalk
  | .nowhere => none

def Walker.keepWalk (w : Walker) (e : WalkEnt) : M Unit := do
  match w with
  | .pan p => do
    let l ← insertCapped 256 ((← gs).bay (p / 16)).walk e
    modBay (p / 16) fun b => { b with walk := l }
  | .inbound d => modDie d fun x => { x with inWalk := x.inWalk ++ [e] }
  | .nowhere => pure ()

def covers (e : TlbEnt) (ctx va : Nat) : Bool := e.ctx == ctx && e.va == va / 2 ^ e.size

def Walker.leafHit (w : Walker) (s : State) (ctx va : Nat) : Option TlbEnt :=
  match w with
  | .pan p =>
    match (s.pan p).tlb.find? fun e => covers e ctx va with
    | some e => some e
    | none => (s.bay (p / 16)).tlb.find? fun e => covers e ctx va
  | .inbound d => (s.die d).inTlb.find? fun e => covers e ctx va
  | .nowhere => none

def Walker.keepLeaf (w : Walker) (e : TlbEnt) : M Unit := do
  match w with
  | .pan p => do
    if !((← gs).bay (p / 16)).tlb.contains e then
      let l ← insertCapped 2048 ((← gs).bay (p / 16)).tlb e
      modBay (p / 16) fun b => { b with tlb := l }
    if !((← gs).pan p).tlb.contains e then
      let l ← insertCapped 128 ((← gs).pan p).tlb e
      modPan p fun x => { x with tlb := l }
  | .inbound d => if ((← gs).die d).inTlb.contains e then pure () else modDie d fun x => { x with inTlb := x.inTlb ++ [e] }
  | .nowhere => pure ()

/-- 01 R15 to R21, R38: the walk from the table at `base`; the answer is a leaf translation, or the failure of the walk. Invalid and malformed entries are not cached. -/
def walkFrom (w : Walker) (ctx va : Nat) : Nat → Nat → M (Option TlbEnt)
  | level, base => do
    let entry ← match w.walkHit (← gs) ctx level va with
      | some e => pure e
      | none => do
        let s ← gs
        pure (word (s.physRead (base + 8 * levelIndex level va) 8))
    if (decide (level ≤ 1) && bitOf entry 0 && bitOf entry 1) then
      if leafOk level entry && spanOk entry va then
        let t := tlbOf ctx level va entry
        w.keepLeaf t
        return some t
      else return none
    else match level with
      | 0 => return none
      | l + 1 =>
        if tableOk entry then
          if (w.walkHit (← gs) ctx (l + 1) va).isNone then w.keepWalk ⟨ctx, l + 1, va / 2 ^ levelShift (l + 1), entry⟩
          walkFrom w ctx va l (fld entry 16 23 * 65536)
        else return none

/-- Look up, or walk from, the root word (01 R16, R27). -/
def lookup (w : Walker) (ctx : Nat) (root : Word) (va : Nat) : M (Option TlbEnt) := do
  match w.leafHit (← gs) ctx va with
  | some e => do w.keepLeaf e; return some e
  | none => walkFrom w ctx va 3 (fld root 12 27 * 4096)

/-! Checks (01 R22). -/

/-- The kind of an access, as the checks look at it; `cached` marks accesses that need a cached line (05 R152). -/
structure Acc where
  rd : Bool
  wr : Bool
  fetch : Bool := false
  cached : Bool := false

def accLoad : Acc := { rd := true, wr := false }
def accStore : Acc := { rd := false, wr := true }
def accRmw : Acc := { rd := true, wr := true }
def accFetch : Acc := { rd := false, wr := false, fetch := true, cached := true }

/-- 15 R457: membership of this device's domain; the own id is always a member. -/
def State.member (s : State) (dev : Nat) : Bool :=
  decide (dev = s.harbour.devid) || bitOf (s.harbour.domtab.get 0 (dev / 64)) (dev % 64)

/-- 01 R14: the frame, of 2^size bytes at `pa`, touches the reserved range of its die: the pair holds physical addresses, the base and the first address behind the range (log 2). -/
def State.reserved (s : State) (pa size : Nat) : Bool :=
  let d := s.die (pa / 2 ^ 36)
  decide (pa < d.rsvLimit) && decide (d.rsvBase < pa + 2 ^ size)

/-- 01 R29, R31: the check of a host window. -/
def State.windowOk (s : State) (win wpage : Nat) (a : Acc) : Bool :=
  let w1 := s.harbour.windows.get 0 (2 * win + 1)
  bitOf w1 0 && decide (wpage < fld w1 32 32) && (!a.rd || bitOf w1 1) && (!a.wr || bitOf w1 2)

/-- 05 R151: this device owns the token of a region. -/
def State.ownsToken (s : State) (home region : Nat) : Bool :=
  if home = s.harbour.devid then decide (s.fabric.away.get 0 region = 0) else s.fabric.owned.contains (home, region)

/-- The host page of a host leaf at an address (01 R30, R21). -/
def hostPage (t : TlbEnt) (va : Nat) : Nat := fld t.leaf 26 32 + (va % 2 ^ t.size) / 65536

/-- The location a translation gives (01 R13, R24, R25, R30); a home region whose token is away is reached at its owner (05 R152). -/
def State.locOf (s : State) (t : TlbEnt) (va : Nat) : Loc :=
  match lfKind t.leaf with
  | 0 =>
    let pa := fld t.leaf 16 23 * 65536 + va % 2 ^ t.size
    let owner := s.fabric.away.get 0 (pa / 2 ^ 21)
    if lfTM t.leaf && decide (owner ≠ 0) then .remote (owner - 1) (2 ^ 44 + pa) else .mem pa
  | 1 => .remote (fld t.leaf 44 19) (fld t.leaf 16 28 * 65536 + va % 2 ^ t.size)
  | 2 =>
    let win := fld t.leaf 16 10
    let w0 := s.harbour.windows.get 0 (2 * win)
    let w1 := s.harbour.windows.get 0 (2 * win + 1)
    .host (fld w1 3 1) ((fld w0 16 48 * 65536 + hostPage t va * 65536 + va % 65536) % 2 ^ 64)
  | _ => .io (fld t.leaf 16 16 * 65536 + va % 65536)

/-- The token-managed region of a translation (01 R26). -/
def State.regionOf (s : State) (t : TlbEnt) (va : Nat) : Nat × Nat :=
  match s.locOf t va with
  | .mem pa => (s.harbour.devid, pa / 2 ^ 21)
  | .remote dev da => if 2 ^ 44 ≤ da then (s.harbour.devid, (da - 2 ^ 44) / 2 ^ 21) else (dev, da / 2 ^ 21)
  | _ => (0, 0)

/-- 01 R22: the first failing row, as a trap cause. -/
def State.check (s : State) (sup : Bool) (a : Acc) (t : TlbEnt) (va : Nat) : Option Nat :=
  let e := t.leaf
  let kind := lfKind e
  if !sup && !lfU e then some 5
  else if sup && a.fetch && lfU e then some 5
  else if a.fetch && (!lfX e || decide (kind ≠ 0)) then some 5
  else if a.rd && !lfR e then some 5
  else if a.wr && !lfW e then some 5
  else if a.rd && a.wr && decide (2 ≤ kind) then some 5
  else if decide (kind = 0) && lfU e && s.reserved (fld e 16 23 * 65536) t.size then some 5
  else if decide (kind = 2) && !s.windowOk (fld e 16 10) (hostPage t va) a then some 5
  else if decide (kind = 1) && !s.member (fld e 44 19) then some 5
  else if a.cached && lfTM e && !(s.ownsToken (s.regionOf t va).1 (s.regionOf t va).2) then some 6
  else none

/-- The root word of a context; the context number of no context has its own, for the management cores (log 8). -/
def State.rootOf (s : State) (ctx : Nat) : Word := match s.context ctx with | some c => c.troot | none => if ctx = 0xFFFF then s.harbour.fwRoot else 0

/-- Who makes an access: the unit whose caches serve it, its context and its mode (01 R38). -/
structure Who where
  pan : Option Nat
  ctx : Nat
  sup : Bool

def Who.walker (w : Who) : Walker := match w.pan with | some p => .pan p | none => .nowhere

/-- The strand's own accesses. -/
def whoIs (k : Nat) : M Who := do
  let st ← getStrand k
  return ⟨if isMgmt k then none else some (panOf k), st.ctx, st.sup⟩

/-- An access's translation and checks (00 R7, Probe; 01 R9, R22): a trap cause, or the translation. -/
def probe (w : Who) (va : Word) (a : Acc) : M (Except Nat TlbEnt) := do
  if !w.sup && bitOf va 63 then return .error 5
  match ← lookup w.walker w.ctx ((← gs).rootOf w.ctx) va.toNat with
  | none => return .error 4
  | some t =>
    match (← gs).check w.sup a t va.toNat with
    | some c => return .error c
    | none => return .ok t

/-- 01 R27: inbound translation of a domain address: a local leaf's physical address, or the failure cause for the source. -/
def inboundXlate (da : Nat) (rd wr : Bool) : M (Except Nat Nat) := do
  let w := Walker.inbound (da / 2 ^ 36 % 8)
  match ← lookup w 0x10000 (← gs).harbour.inroot (da % 2 ^ 44) with
  | none => return .error 4
  | some t =>
    if lfKind t.leaf ≠ 0 then return .error 4
    else if (rd && !lfR t.leaf) || (wr && !lfW t.leaf) then return .error 5
    else return .ok (fld t.leaf 16 23 * 65536 + da % 2 ^ t.size)

/-- 14 R394: watchpoints of a strand on [va, va + n), by kind bit 0 load, 1 store, 2 fetch. -/
def Strand.watched (st : Strand) (va : Word) (n : Nat) (a : Acc) : Bool :=
  [0, 1].any fun i =>
    let w := st.watch.get 0 i
    ((a.rd && bitOf w 0) || (a.wr && bitOf w 1) || (a.fetch && bitOf w 2)) &&
    (decide (va.toNat / 512 = fld w 9 55) || decide ((va.toNat + n - 1) / 512 = fld w 9 55))

end Sys2Proof.Machine
end

