-- ==== Sys2Proof/Machine/Cache.lean ====
section
/-! DEFINITION. The bay cache slices and the traffic they make (03 R72 to R75, R77, R78): the state of lines, the counting of data that moves, and the access of a requester that has passed its checks. Data keeps one value, that of device memory: a slice holds no older copy once an access has been performed (log 34). -/

namespace Sys2Proof.Machine

/-! Counters (03 R77, R78). -/

/-- 03 R77: counter `n` of a die; the entries of the die for itself are RZ. -/
def tcOwn (d n : Nat) : Bool := decide (n = 2 + d) || decide (n = 10 + d)

/-- 03 R78: the filter of counter `n` lets traffic of a context through. -/
def Die.counts (x : Die) (n ctx : Nat) : Bool :=
  let f := x.filt.get 0 n
  !x.freeze && (!bitOf f 16 || decide (fld f 0 16 = ctx))

/-- Bytes of a context's data are counted by counter `n` of die `d`. -/
def count (d n ctx bytes : Nat) : M Unit := modDie d fun x =>
  if tcOwn d n || !x.counts n ctx then x else { x with tc := Tbl.put 0 n (x.tc.get 0 n + word bytes) x.tc }

/-- 03 R78: bytes cross the package network from one die to another, counted where they enter and where they leave it. -/
def carry (src dst ctx bytes : Nat) : M Unit := do
  if src ≠ dst then
    count src (2 + dst) ctx bytes
    count dst (10 + src) ctx bytes

/-- The context number of write-backs, transfers between slices, migration and the save engine (03 R78). -/
def noCtx : Nat := 0xFFFF

/-- Bytes are read from the stack of die `h` for a requester on die `d` (none: the Harbour die, which no counter names). -/
def stackRead (d : Option Nat) (h ctx bytes : Nat) : M Unit := do
  match d with
  | none => pure ()
  | some d => do
    if d = h then count h 0 ctx bytes
    carry h d ctx bytes

/-- Bytes are written to the stack of die `h` by a requester on die `d`. -/
def stackWrite (d : Option Nat) (h ctx bytes : Nat) : M Unit := do
  match d with
  | none => pure ()
  | some d => do
    if d = h then count h 1 ctx bytes
    carry d h ctx bytes

/-! Lines (03 R73): 128 bytes, 16 ways; the set of a line is its number modulo 4,096 (log 39). -/

def Bay.line (y : Bay) (l : Nat) : LineSt := y.lines.get .i l

def setLine (y l : Nat) (st : LineSt) : M Unit := modBay y fun b => { b with lines := Tbl.put .i l st b.lines }

/-- The die of a line's home (03 R72), and the die of a bay. -/
def lineDie (l : Nat) : Nat := l / 2 ^ 29
def bayDie (y : Nat) : Nat := y / 8

/-- A line in M is written back to its home (03 R73). -/
def writeBack (y l : Nat) : M Unit := do
  if ((← gs).bay y).line l = .m then stackWrite (some (bayDie y)) (lineDie l) noCtx 128

/-- Slice `y` gives up its copy of a line. -/
def dropCopy (y l : Nat) : M Unit := do
  writeBack y l
  setLine y l .i

/-- The slices that hold a line. -/
def State.sharers (s : State) (l : Nat) : List Nat := (s.bays.filter fun b => decide (b.2.line l ≠ .i)).map (·.1)

/-- A line has room in its set of slice `y`, where need be after the eviction of one of its 16 lines: which one is open, a free choice. -/
def makeRoom (y l : Nat) : M Unit := do
  let set := (((← gs).bay y).lines.filter fun x => decide (x.1 % 4096 = l % 4096)).map (·.1)
  if 16 ≤ set.length then dropCopy y (nth 0 set ((← freshNat) % 16))

/-- Slice `y` fetches a line it does not hold, for a read or in order to write it: from the slice that holds it in E or M (log 39), else from its home. A read leaves an owner's copy shared and the home up to date; a write invalidates the other copies. -/
def fetchLine (y ctx l : Nat) (wr : Bool) : M Unit := do
  makeRoom y l
  let s : State ← gs
  let others := (s.sharers l).filter (· ≠ y)
  match others.find? fun z => decide ((s.bay z).line l = .m) || decide ((s.bay z).line l = .e) with
  | some z => do
    carry (bayDie z) (bayDie y) noCtx 128
    if !wr then writeBack z l
  | none => stackRead (some (bayDie y)) (lineDie l) ctx 128
  each others fun z => setLine z l (if wr then .i else .s)
  setLine y l (if wr then .m else if others.isEmpty then .e else .s)

/-- A cached access of a requester of bay `y` (03 R73): a write needs the line in E or M. -/
def touchSlice (y ctx l : Nat) (wr : Bool) : M Unit := do
  let s : State ← gs
  match (s.bay y).line l with
  | .m => pure ()
  | .e => if wr then setLine y l .m else pure ()
  | .s =>
    if wr then
      each ((s.sharers l).filter (· ≠ y)) fun z => setLine z l .i
      setLine y l .m
    else pure ()
  | .i => fetchLine y ctx l wr

/-- An access performed at the home of a line (03 R74), by a requester on die `d`: a dirty copy is written back first, and a write invalidates every copy. -/
def touchHome (d : Option Nat) (ctx l n : Nat) (rd wr : Bool) : M Unit := do
  each ((← gs).sharers l) fun z => do
    if wr then dropCopy z l
    else
      writeBack z l
      setLine z l .s
  if rd then stackRead d (lineDie l) ctx n
  if wr then stackWrite d (lineDie l) ctx n

/-- 05 R152, 03 R73: the translation lets a slice hold the line. -/
def State.cacheable (s : State) (t : TlbEnt) (va : Nat) : Bool :=
  decide (lfMA t.leaf = 0) && (!lfTM t.leaf || s.ownsToken (s.regionOf t va).1 (s.regionOf t va).2)

/-- 01 R44: the redirect slot of a page migration holds the frame of `pa`: no slice takes a line of it. -/
def State.pageHeld (s : State) (pa : Nat) : Bool := s.dies.any fun d => match d.2.pmig with | some m => decide (pa / 65536 = m.old ∨ pa / 65536 = m.new) | none => false

/-- An access to `n` bytes of device memory at `pa` that has passed its checks: `cached` says that a slice may hold the line; a sluice engine (`eng`) uses its bay's slice only where that already holds it. -/
def touchMem (pan : Option Nat) (ctx : Nat) (eng cached : Bool) (pa n : Nat) (rd wr : Bool) : M Unit := do
  let l := (← gs).home pa / 128
  match pan with
  | some p =>
    if cached && !(← gs).pageHeld pa && (!eng || decide (((← gs).bay (p / 16)).line l ≠ .i)) then touchSlice (p / 16) ctx l wr
    else touchHome (some (p / 128)) ctx l n rd wr
  | none => touchHome none ctx l n rd wr

/-- The location of an access that has passed its checks. Where it is device memory, the access takes its way through the slices: the write part of an access that a task buffers (`held`) makes none before the commit (05 R134). -/
def arrive (w : Who) (eng held : Bool) (t : TlbEnt) (va : Word) (n : Nat) (a : Acc) : M Loc := do
  let s : State ← gs
  let l := s.locOf t va.toNat
  match l with
  | .mem pa => touchMem w.pan w.ctx eng (s.cacheable t va.toNat) pa n (a.rd || a.fetch) (a.wr && !held)
  | _ => pure ()
  return l

/-- The translation and checks of an access, and its location. -/
def reach (w : Who) (eng held : Bool) (va : Word) (n : Nat) (a : Acc) : M (Except Nat Loc) := do
  match ← probe w va a with
  | .error c => return .error c
  | .ok t => return .ok (← arrive w eng held t va n a)

/-- Every slice gives up its copies of the lines [l, l + n). -/
def flushLines (l n : Nat) : M Unit := do
  each ((← gs).bays.map (·.1)) fun y => do
    each ((((← gs).bay y).lines.filter fun x => decide (l ≤ x.1 ∧ x.1 < l + n)).map (·.1)) (dropCopy y)

end Sys2Proof.Machine
end

