-- ==== Sys2Proof/Machine/Fetch.lean ====
section
/-! DEFINITION. Instruction fetch through the per-pan instruction cache, and the decode order (08 R209 to R211). -/

namespace Sys2Proof.Machine

/-- The 128-byte line of device memory that holds `pa`. -/
def State.physLine (s : State) (pa : Nat) : BitVec 1024 := BitVec.ofNat 1024 (s.physRead (pa / 128 * 128) 128)

/-- Fetch one halfword (08 R210, R211): the trap cause, or the halfword. The line is filled at a miss. -/
def fetch16 (k : Nat) (va : Word) : M (Except Nat Nat) := do
  let w ← whoIs k
  match ← probe w va accFetch with
  | .error c => return .error c
  | .ok t =>
    if (← getStrand k).watched va 2 accFetch then return .error 0xD
    let off := va.toNat % 128
    let line := va.toNat / 128
    let s : State ← gs
    let hit : Option (BitVec 1024) := match w.pan with
      | some p => ((s.pan p).icache.find? fun (l : ILine) => l.ctx == w.ctx && l.va == line).map (·.data)
      | none => none
    match hit with
    | some d => return .ok (d.toNat / 2 ^ (8 * off) % 65536)
    | none =>
      match ← arrive w false false t va 128 accFetch with
      | .mem pa =>
        if (← gs).poisonedAt pa 2 then return .error 7
        let d := (← gs).physLine pa
        let whole := !(← gs).poisonedAt (pa / 128 * 128) 128
        match w.pan with
        | some p => if whole then modPan p fun x => { x with icache := x.icache ++ [⟨w.ctx, line, d⟩] }
        | none => pure ()
        return .ok (d.toNat / 2 ^ (8 * off) % 65536)
      | _ => return .error 5

/-- What the decode order of 08 R210 finds at `pc`. -/
inductive Fetched where
  | inst (i : Instr)
  | fault (cause : Nat) (tval : Word)
  | illegal (bits : Word)
  deriving DecidableEq, Repr

def fetchWord (k : Nat) (pc : Word) (lo : Nat) (off : Nat) : M (Except (Nat × Word) Nat) := do
  match ← fetch16 k (pc + word off) with
  | .error c => return .error (c, pc + word off)
  | .ok h => return .ok (lo + h * 2 ^ (8 * off))

/-- 08 R210, at an address. -/
def fetchAt (k : Nat) (pc : Word) : M Fetched := do
  if bitOf pc 0 then return .fault 3 pc
  match ← fetchWord k pc 0 0 with
  | .error (c, v) => return .fault c v
  | .ok h0 =>
    if h0 % 2 = 0 then
      match decodeBits (word h0) with
      | some (i, _) => return .inst i
      | none => return .illegal (word h0)
    else
      match ← fetchWord k pc h0 2 with
      | .error (c, v) => return .fault c v
      | .ok w =>
        if w % 16 = 15 then
          if !popAssigned (BitVec.ofNat 6 (w / 16)) then return .illegal (word w)
          match ← fetchWord k pc w 4 with
          | .error (c, v) => return .fault c v
          | .ok w1 =>
            match ← fetchWord k pc w1 6 with
            | .error (c, v) => return .fault c v
            | .ok w2 =>
              match decodeBits (word w2) with
              | some (i, _) => return .inst i
              | none => return .illegal (word w2)
        else
          match decodeBits (word w) with
          | some (i, _) => return .inst i
          | none => return .illegal (word w)

/-- The instruction that strand `k` fetches next. -/
def fetchDecode (k : Nat) : M Fetched := do fetchAt k (← getStrand k).pc

end Sys2Proof.Machine
end

