-- ==== Sys2Proof/Machine/Fp.lean ====
section
/-! DEFINITION. Floating-point arithmetic on exact dyadic numbers, rounded once (07 R179 to R183, R190 to R192, 09 R249 to R253). A result is its bits and the flags it raises. -/

namespace Sys2Proof.Machine

/-- 07 R179: a floating-point format. -/
structure Fmt where
  ebits : Nat
  fbits : Nat
  bias : Nat
  kf8 : Bool
  deriving DecidableEq, Repr

def fp64 : Fmt := ⟨11, 52, 1023, false⟩
def fp32 : Fmt := ⟨8, 23, 127, false⟩
def fp16 : Fmt := ⟨5, 10, 15, false⟩
def bf16 : Fmt := ⟨8, 7, 127, false⟩
def kf8s : Fmt := ⟨4, 3, 8, true⟩
def kf8w : Fmt := ⟨5, 2, 16, true⟩

/-- The format of a type code 8 to 13 (08 R214). -/
def fmtOf (t : Nat) : Fmt := nth fp64 [fp64, fp32, fp16, bf16, kf8s, kf8w] (t - 8)

def Fmt.width (f : Fmt) : Nat := 1 + f.ebits + f.fbits

/-- The exponent of the least subnormal. -/
def Fmt.emin (f : Fmt) : Int := 1 - (f.bias : Int) - (f.fbits : Int)

/-- A value: a NaN, signalling or quiet, an infinity, or (-1)^neg × m × 2^e. -/
inductive FV where
  | nan (sig : Bool)
  | inf (neg : Bool)
  | fin (neg : Bool) (m : Nat) (e : Int)
  deriving DecidableEq, Repr

/-- 07 R179 to R181. -/
def Fmt.unpack (f : Fmt) (x : Nat) : FV :=
  let neg := decide (x / 2 ^ (f.width - 1) % 2 = 1)
  let ex := x / 2 ^ f.fbits % 2 ^ f.ebits
  let fr := x % 2 ^ f.fbits
  if f.kf8 && decide (x % 256 = 0x80) then .nan false
  else if !f.kf8 && decide (ex = 2 ^ f.ebits - 1) then
    if fr = 0 then .inf neg else .nan (decide (fr < 2 ^ (f.fbits - 1)))
  else if ex = 0 then .fin neg fr f.emin
  else .fin neg (2 ^ f.fbits + fr) (f.emin + (ex : Int) - 1)

def Fmt.sign (f : Fmt) (neg : Bool) : Nat := if neg then 2 ^ (f.width - 1) else 0

/-- The canonical NaN (07 R180, R181). -/
def Fmt.qnan (f : Fmt) : Nat := if f.kf8 then 0x80 else (2 ^ f.ebits - 1) * 2 ^ f.fbits + 2 ^ (f.fbits - 1)

/-- An infinite result; KF8 delivers its NaN (07 R181). -/
def Fmt.infCode (f : Fmt) (neg : Bool) : Nat := if f.kf8 then 0x80 else f.sign neg + (2 ^ f.ebits - 1) * 2 ^ f.fbits

def Fmt.maxMag (f : Fmt) : Nat := if f.kf8 then 2 ^ (f.ebits + f.fbits) - 1 else (2 ^ f.ebits - 1) * 2 ^ f.fbits - 1

def Fmt.maxCode (f : Fmt) (neg : Bool) : Nat := f.sign neg + f.maxMag

def Fmt.zeroCode (f : Fmt) (neg : Bool) : Nat := if f.kf8 then 0 else f.sign neg

/-- The number of bits of `n`; 0 has none. -/
def bitLen (n : Nat) : Nat := if n = 0 then 0 else Nat.log2 n + 1

/-- 07 R183: round m × 2^-sh to an integer in a mode 0 RNE, 1 RTZ, 2 RDN, 3 RUP, 4 RNA, 5 RTO; whether it was inexact. -/
def roundShift (mode : Nat) (neg : Bool) (m : Nat) (sh : Int) : Nat × Bool :=
  if sh ≤ 0 then (m * 2 ^ (-sh).toNat, false) else
  let d := 2 ^ sh.toNat
  let q := m / d
  let r := m % d
  let up := match mode with
    | 0 => decide (d < 2 * r) || (decide (2 * r = d) && decide (q % 2 = 1))
    | 1 => false
    | 2 => neg && decide (r ≠ 0)
    | 3 => !neg && decide (r ≠ 0)
    | 4 => decide (d ≤ 2 * r)
    | _ => decide (r ≠ 0) && decide (q % 2 = 0)
  (if up then q + 1 else q, decide (r ≠ 0))

/-- 07 R183: what an overflow delivers. -/
def Fmt.overflow (f : Fmt) (mode : Nat) (neg : Bool) : Nat × Fl :=
  let inf := match mode with
    | 0 => true
    | 4 => true
    | 2 => neg
    | 3 => !neg
    | _ => false
  (if inf then f.infCode neg else f.maxCode neg, flOr flOF flNX)

/-- 07 R183: Round of (-1)^neg × m × 2^e. -/
def Fmt.round (f : Fmt) (mode : Nat) (neg : Bool) (m : Nat) (e : Int) : Nat × Fl :=
  if m = 0 then (f.zeroCode neg, 0) else
  let low : Int := (bitLen m : Int) - 1 + e - f.fbits
  let q := max low f.emin
  let r := roundShift mode neg m (q - e)
  let full := (roundShift mode neg m (low - e)).1
  let tiny := decide (low < f.emin - 1) || (decide (low = f.emin - 1) && decide (full < 2 ^ (f.fbits + 1)))
  let mag := r.1 + (q - f.emin).toNat * 2 ^ f.fbits
  if f.maxMag < mag then f.overflow mode neg
  else
    (if mag = 0 then f.zeroCode neg else f.sign neg + mag,
     if r.2 then (if tiny then flOr flUF flNX else flNX) else 0)

/-- Round an exact sum; `zneg` is the sign of a zero. -/
def Fmt.roundI (f : Fmt) (mode : Nat) (n : Int) (e : Int) (zneg : Bool) : Nat × Fl :=
  f.round mode (if n = 0 then zneg else decide (n < 0)) n.natAbs e

def signed (neg : Bool) (m : Nat) : Int := if neg then -(m : Int) else (m : Int)

/-- The exact sum of two finite values, with its exponent. -/
def dyAdd (a : Int × Int) (b : Int × Int) : Int × Int :=
  let e := min a.2 b.2
  (a.1 * 2 ^ (a.2 - e).toNat + b.1 * 2 ^ (b.2 - e).toNat, e)

def FV.isNan (x : FV) : Bool := match x with | .nan _ => true | _ => false
def FV.isSig (x : FV) : Bool := match x with | .nan s => s | _ => false
def FV.isInf (x : FV) : Bool := match x with | .inf _ => true | _ => false
def FV.isZero (x : FV) : Bool := match x with | .fin _ m _ => decide (m = 0) | _ => false
def FV.sgn (x : FV) : Bool := match x with | .nan _ => false | .inf n => n | .fin n _ _ => n
def FV.neg (x : FV) : FV := match x with | .nan s => .nan s | .inf n => .inf (!n) | .fin n m e => .fin (!n) m e

def flIf (b : Bool) (f : Fl) : Fl := if b then f else 0

/-- Addition (09 R249). -/
def Fmt.add (f : Fmt) (mode : Nat) (a b : FV) : Nat × Fl :=
  match a, b with
  | .fin na ma ea, .fin nb mb eb =>
    let s := dyAdd (signed na ma, ea) (signed nb mb, eb)
    f.roundI mode s.1 s.2 (if na = nb then na else decide (mode = 2))
  | .inf na, .inf nb => if na = nb then (f.infCode na, 0) else (f.qnan, flNV)
  | .inf na, .fin _ _ _ => (f.infCode na, 0)
  | .fin _ _ _, .inf nb => (f.infCode nb, 0)
  | a, b => (f.qnan, flIf (a.isSig || b.isSig) flNV)

/-- Multiplication (09 R249). -/
def Fmt.mul (f : Fmt) (mode : Nat) (a b : FV) : Nat × Fl :=
  if a.isNan || b.isNan then (f.qnan, flIf (a.isSig || b.isSig) flNV)
  else match a, b with
    | .fin na ma ea, .fin nb mb eb => f.round mode (na != nb) (ma * mb) (ea + eb)
    | a, b => if a.isZero || b.isZero then (f.qnan, flNV) else (f.infCode (a.sgn != b.sgn), 0)

/-- Round(c + a × b), rounded once (09 R248, R249). -/
def Fmt.fma (f : Fmt) (mode : Nat) (a b c : FV) : Nat × Fl :=
  let bad := (a.isZero && b.isInf) || (a.isInf && b.isZero)
  if bad then (f.qnan, flNV)
  else if a.isNan || b.isNan || c.isNan then (f.qnan, flIf (a.isSig || b.isSig || c.isSig) flNV)
  else match a, b, c with
    | .fin na ma ea, .fin nb mb eb, .fin nc mc ec =>
      let np := na != nb
      let s := dyAdd (signed np (ma * mb), ea + eb) (signed nc mc, ec)
      f.roundI mode s.1 s.2 (if np = nc then np else decide (mode = 2))
    | .fin _ _ _, .fin _ _ _, c => (f.infCode c.sgn, 0)
    | a, b, c =>
      let np := a.sgn != b.sgn
      if c.isInf && (c.sgn != np) then (f.qnan, flNV) else (f.infCode np, 0)

/-- Division (09 R249). The quotient carries a sticky bit below every rounding position. -/
def Fmt.div (f : Fmt) (mode : Nat) (a b : FV) : Nat × Fl :=
  match a, b with
  | .fin na ma ea, .fin nb mb eb =>
    if mb = 0 then (if ma = 0 then (f.qnan, flNV) else (f.infCode (na != nb), flDZ))
    else
      let k := bitLen mb + f.fbits + 4 - bitLen ma
      let q := ma * 2 ^ k / mb
      let r := ma * 2 ^ k % mb
      f.round mode (na != nb) (2 * q + (if r = 0 then 0 else 1)) (ea - k - eb - 1)
  | .inf _, .inf _ => (f.qnan, flNV)
  | .inf na, .fin nb _ _ => (f.infCode (na != nb), 0)
  | .fin na _ _, .inf nb => (f.zeroCode (na != nb), 0)
  | a, b => (f.qnan, flIf (a.isSig || b.isSig) flNV)

/-- The integer square root, bit by bit from bit `b - 1` down. -/
def isqrtFrom : Nat → Nat → Nat → Nat
  | 0, _, r => r
  | b + 1, n, r => isqrtFrom b n (if (r + 2 ^ b) * (r + 2 ^ b) ≤ n then r + 2 ^ b else r)

def isqrt (n : Nat) : Nat := isqrtFrom (bitLen n / 2 + 1) n 0

/-- Square root (09 R249). -/
def Fmt.sqrt (f : Fmt) (mode : Nat) (a : FV) : Nat × Fl :=
  match a with
  | .nan s => (f.qnan, flIf s flNV)
  | .inf n => if n then (f.qnan, flNV) else (f.infCode false, 0)
  | .fin n m e =>
    if m = 0 then (f.zeroCode n, 0)
    else if n then (f.qnan, flNV)
    else
      let k0 := 2 * (f.fbits + 4)
      let k := if (e - k0) % 2 = 0 then k0 else k0 + 1
      let x := m * 2 ^ k
      let s := isqrt x
      f.round mode false (2 * s + (if s * s = x then 0 else 1)) ((e - k) / 2 - 1)

/-- a < b for values that are no NaN; the zeros are equal. -/
def FV.lt (a b : FV) : Bool :=
  match a, b with
  | .fin na ma ea, .fin nb mb eb => decide (0 < (dyAdd (signed nb mb, eb) (signed (!na) ma, ea)).1)
  | .inf na, .inf nb => na && !nb
  | .inf na, _ => na
  | _, .inf nb => !nb
  | _, _ => false

/-- The order of FMIN and FMAX: −0 below +0 (09 R250). -/
def FV.below (a b : FV) : Bool := a.lt b || (a.isZero && b.isZero && a.sgn && !b.sgn)

/-- FMIN and FMAX (09 R250). -/
def Fmt.minmax (f : Fmt) (wantMax : Bool) (x y : Nat) : Nat × Fl :=
  let a := f.unpack x
  let b := f.unpack y
  let fl := flIf (a.isSig || b.isSig) flNV
  let xs := x % 2 ^ f.width
  let ys := y % 2 ^ f.width
  if a.isNan && b.isNan then (f.qnan, fl)
  else if a.isNan then (ys, fl)
  else if b.isNan then (xs, fl)
  else if wantMax then (if a.below b then ys else xs, fl)
  else (if b.below a then ys else xs, fl)

/-- FCMP with c: 0 eq, 1 lt, 2 le, 3 un (09 R251). -/
def Fmt.cmp (f : Fmt) (c : Nat) (x y : Nat) : Bool × Fl :=
  let a := f.unpack x
  let b := f.unpack y
  if a.isNan || b.isNan then
    (decide (c = 3), flIf (a.isSig || b.isSig || decide (c = 1) || decide (c = 2)) flNV)
  else match c with
    | 0 => (!a.lt b && !b.lt a, 0)
    | 1 => (a.lt b, 0)
    | 2 => (!b.lt a, 0)
    | _ => (false, 0)

/-- The class word (09 R252). -/
def Fmt.classOf (f : Fmt) (x : Nat) : Nat :=
  match f.unpack x with
  | .nan s => if s then 256 else 512
  | .inf n => if n then 1 else 128
  | .fin n m _ =>
    if m = 0 then (if n then 8 else 16)
    else if m < 2 ^ f.fbits then (if n then 4 else 32)
    else if n then 2 else 64

/-- A float operation on encodings, by number: 0 add, 1 subtract, 2 multiply, 3 divide. -/
def Fmt.arith (f : Fmt) (op mode : Nat) (x y : Nat) : Nat × Fl :=
  let a := f.unpack x
  let b := f.unpack y
  match op with
  | 0 => f.add mode a b
  | 1 => f.add mode a b.neg
  | 2 => f.mul mode a b
  | _ => f.div mode a b

/-- 07 R190: to an integer of width `w`. -/
def toInt (sg : Bool) (w mode : Nat) (a : FV) : Nat × Fl :=
  match a with
  | .nan _ => (0, flNV)
  | .inf n => (lowBits w (if n then minInt sg w else maxInt sg w), flNV)
  | .fin n m e =>
    let r := roundShift mode n m (-e)
    let v := signed n r.1
    let c := satI sg w v
    (lowBits w c.1, if c.2 then flNV else flIf r.2 flNX)

/-- 07 R191: a finite value into a format, saturating or not. -/
def Fmt.fromFin (f : Fmt) (sat : Bool) (mode : Nat) (neg : Bool) (m : Nat) (e : Int) : Nat × Fl :=
  let r := f.round mode neg m e
  if sat && flHas r.2 2 then (f.maxCode neg, flSAT) else r

/-- 07 R191, R192: a value into a format. -/
def Fmt.fromFV (f : Fmt) (sat : Bool) (mode : Nat) (a : FV) : Nat × Fl :=
  match a with
  | .nan s => (f.qnan, flIf s flNV)
  | .inf n => if f.kf8 then (if sat then (f.maxCode n, flSAT) else (f.qnan, flNV)) else (f.infCode n, 0)
  | .fin n m e => f.fromFin sat mode n m e

/-- 07 R190 to R192, 09 R253: conversion between type codes 0 to 13. -/
def convert (st dt : Nat) (sat : Bool) (mode : Nat) (x : Nat) : Nat × Fl :=
  if 8 ≤ st then
    let a := (fmtOf st).unpack x
    if dt < 8 then toInt (tySigned dt) (tyW dt) mode a
    else if st = dt then
      (if a.isNan then ((fmtOf dt).qnan, flIf a.isSig flNV) else (x % 2 ^ (fmtOf dt).width, 0))
    else (fmtOf dt).fromFV sat mode a
  else
    let i := intOf (tySigned st) (tyW st) x
    (fmtOf dt).fromFin sat mode (decide (i < 0)) i.natAbs 0

end Sys2Proof.Machine
end

