-- ==== Sys2Proof/Machine/Issue.lean ====
section
/-! DEFINITION. The issue of an instruction of a strand: what it waits for (06 R164, R165, 10 R307), the privilege and profile checks (08 R227, 14 R389), and its retirement. -/

namespace Sys2Proof.Machine

/-- The general registers that a captured body instruction reads or writes (10 R307). -/
def bodyGprs (i : Instr) : List (BitVec 5) :=
  let f1 := fun (f : BitVec 2) (b : BitVec 5) => if f = 1#2 then [b] else []
  match i with
  | .vadd _ _ b _ _ f => f1 f b
  | .vsub _ _ b _ _ f => f1 f b
  | .vmul _ _ b _ _ f => f1 f b
  | .vmulh _ _ b _ _ f => f1 f b
  | .vwmul _ _ b _ _ f => f1 f b
  | .vwmac _ _ b _ _ f => f1 f b
  | .vmac _ _ b _ _ f => f1 f b
  | .vdiv _ _ b _ _ _ f => f1 f b
  | .vrem _ _ b _ _ _ f => f1 f b
  | .vmin _ _ b _ _ f => f1 f b
  | .vmax _ _ b _ _ f => f1 f b
  | .vand _ _ b _ _ f => f1 f b
  | .vor _ _ b _ _ f => f1 f b
  | .vxor _ _ b _ _ f => f1 f b
  | .vsll _ _ b _ _ f => f1 f b
  | .vsrl _ _ b _ _ f => f1 f b
  | .vsra _ _ b _ _ f => f1 f b
  | .vnshr _ _ b _ _ _ f => f1 f b
  | .vsadd _ _ b _ _ _ f => f1 f b
  | .vssub _ _ b _ _ _ f => f1 f b
  | .vcmp _ _ _ b _ _ f => f1 f b
  | .vfadd _ _ b _ _ _ f => f1 f b
  | .vfsub _ _ b _ _ _ f => f1 f b
  | .vfmul _ _ b _ _ _ f => f1 f b
  | .vfdiv _ _ b _ _ _ f => f1 f b
  | .vfma _ _ b _ _ _ f => f1 f b
  | .vfms _ _ b _ _ _ f => f1 f b
  | .vfnma _ _ b _ _ _ f => f1 f b
  | .vfmin _ _ b _ _ _ f => f1 f b
  | .vfmax _ _ b _ _ _ f => f1 f b
  | .vld _ a _ _ _ => [a]
  | .vlds _ a b _ _ _ => [a, b]
  | .vldx _ a _ _ _ _ => [a]
  | .vlseg _ a _ _ _ _ => [a]
  | .vlda _ a _ _ => [a]
  | .vst _ a _ _ _ => [a]
  | .vsts _ a b _ _ _ => [a, b]
  | .vstx _ a _ _ _ _ => [a]
  | .vsseg _ a _ _ _ _ => [a]
  | .vstn _ a b _ n _ _ => if n then [a, b] else [a]
  | .vamo _ _ a _ _ _ _ => [a]
  | .mpopc d _ => [d]
  | .mfirst d _ => [d]
  | .vslideup _ _ b _ f => f1 f b
  | .vslidedn _ _ b _ f => f1 f b
  | .vbcast _ b _ f => f1 f b
  | .vmvx d _ b f => d :: f1 f b
  | .vins _ a b f => a :: f1 f b
  | .vperms _ _ b _ f => f1 f b
  | _ => []

/-- While a loop runs it owns its named registers and the registers of its body (10 R307). -/
def Strand.owns (st : Strand) (r : BitVec 5) : Bool :=
  match st.loop with
  | none => false
  | some l => !l.stopped && decide (r ≠ 0#5) &&
      (l.regs.contains r.toNat || l.body.any fun x => (bodyGprs x.2).contains r)

/-- A scalar instruction that reads or writes these registers can issue now. -/
def Strand.canIssue (st : Strand) (rs : List (BitVec 5)) : Bool := st.issues && !(rs.any st.owns)

/-- Issue of a scalar instruction: the strand stays at it while it cannot. -/
def issue (rs : List (BitVec 5)) : M Unit := do
  if (← me).canIssue rs then pure () else stall

/-- Issue of a scalar instruction that accesses memory or what the loop's body uses too: it comes after the whole loop in program order (10 R307, 04 R119), and stays while one runs (log 40). -/
def issueMem (rs : List (BitVec 5)) : M Unit := do
  issue rs
  if (← me).looping then stall

/-- The instructions' bits as `tval` gives them (14 R389). -/
def raiseBits {α : Type} (cause : Nat) (i : Instr) : M α := trap cause i.bits

/-- Issue of an instruction that profile M lacks (08 R227). -/
def issueOn (i : Instr) (rs : List (BitVec 5)) : M Unit := do
  issueMem rs
  if isMgmt (← curKey) then raiseBits 1 i

/-- Issue of a privileged instruction (14 R388: PRIV). -/
def issuePriv (i : Instr) (rs : List (BitVec 5)) : M Unit := do
  issue rs
  if !(← me).sup then raiseBits 0xA i

/-- Issue of a vector or small-matrix instruction: a running loop (10 R307), profile, and room in the vector queue (06 R165). -/
def issueVec (i : Instr) (rs : List (BitVec 5)) : M Unit := do
  issueOn i rs
  if decide (16 ≤ (← me).vq.length) then stall

/-- The write of a result and the advance to the next instruction. -/
def retire (d : BitVec 5) (v : Word) (len : Nat) : M Unit :=
  modMe fun st => { st.setG d v with pc := st.pc + word len }

/-- The same with the flags that the instruction raised (09 R242). -/
def retireF (d : BitVec 5) (r : Word × Fl) (len : Nat) : M Unit :=
  modMe fun st => { (if r.2 = 0 then st.setG d r.1 else (st.setG d r.1).raise r.2 0) with pc := st.pc + word len }

/-- The next instruction is fetched at `target`. -/
def jump (target : Word) : M Unit := modMe fun st => { st with pc := target }

/-- The element groups of `vl` elements of `w` bytes (10 R287). -/
def groupsOf (k vl w : Nat) : Nat := (vl * w + groupBytes k - 1) / groupBytes k

/-- The pipes of the datapath (10 R287): 0 main, 1 divide, 2 memory, 3 special functions. -/
def enqueueVec (pipe groups : Nat) : M Unit :=
  if groups = 0 then pure () else modMe fun st => { st with vq := st.vq ++ [⟨pipe, groups⟩] }

/-- A vector instruction: issue, effect at its place in program order (log 6), its entry in the vector queue, and the advance past its word. -/
def vec (i : Instr) (pipe : Nat) (core : M Unit) : M Unit := do
  issueVec i (bodyGprs i)
  let k ← curKey
  let st ← me
  core
  enqueueVec pipe (groupsOf k st.vl st.sew)
  next 4

end Sys2Proof.Machine
end

