-- ==== Sys2Proof/Machine/Launch.lean ====
section
/-! DEFINITION. Launch records (12 R359), the launch queues as they receive records (13 R374, R375), the predictor's history, prediction and comparison (13 R383, R385), and the starting of image loads (13 R380). -/

namespace Sys2Proof.Machine

/-! Fields of a launch record (12 R359). -/

def dwAt (dw : List Word) (i : Nat) : Word := nth 0 dw i
def recQueue (dw : List Word) : Nat := fld (dwAt dw 0) 52 9
def recEntry (dw : List Word) : Nat := fld (dwAt dw 0) 48 3
def recImage (dw : List Word) : Nat := fld (dwAt dw 0) 0 48
def recCkind (dw : List Word) : Nat := fld (dwAt dw 1) 55 2
def recNargs (dw : List Word) : Nat := fld (dwAt dw 1) 51 4
def recSpec (dw : List Word) : Bool := bitOf (dwAt dw 1) 50
def recOrdered (dw : List Word) : Bool := bitOf (dwAt dw 1) 49
def recBarrier (dw : List Word) : Bool := bitOf (dwAt dw 1) 48
def recSlots (dw : List Word) : Nat := fld (dwAt dw 1) 41 7
def recStrands (dw : List Word) : Nat := fld (dwAt dw 1) 38 3
def recPans (dw : List Word) : Nat := fld (dwAt dw 1) 33 5
def recNblk (dw : List Word) : Nat := fld (dwAt dw 1) 0 33
def recArgs (dw : List Word) : List Word := dw.drop 5

/-! Fields of `QCFG` (13 R374). -/

def LQueue.ctx (q : LQueue) : Nat := fld q.cfg 48 16
def LQueue.en (q : LQueue) : Bool := bitOf q.cfg 47
def LQueue.hostok (q : LQueue) : Bool := bitOf q.cfg 46
def LQueue.ordered (q : LQueue) : Bool := bitOf q.cfg 45
def LQueue.specok (q : LQueue) : Bool := bitOf q.cfg 44
def LQueue.aff (q : LQueue) : Nat := fld q.cfg 36 8
def LQueue.weight (q : LQueue) : Nat := fld q.cfg 32 4
def LQueue.prio (q : LQueue) : Nat := fld q.cfg 28 3
def LQueue.cap (q : LQueue) : Nat := fld q.cfg 0 16

/-- 03 R87: CMPL breaks the layout of its CKIND; an 8-byte progress word (CKIND 1) or a counter (CKIND 2). -/
def cmplBad (ckind : Nat) (c : Word) : Bool :=
  match ckind with
  | 0 => decide (c ≠ 0)
  | 1 => decide (fld c 0 3 ≠ 0)
  | 2 => decide (fld c 48 16 ≠ 0) || decide (fld c 13 3 ≠ 0)
  | _ => false

/-- 12 R348: a counter identifier names a counter of the context. -/
def State.ownsCounter (s : State) (ctx id : Nat) : Bool := decide ((s.counter id).owner = some ctx)
def State.ownsRing (s : State) (ctx id : Nat) : Bool := decide ((s.ring id).owner = some ctx)

/-- 12 R359: the record is malformed, for the queue it names and a context. -/
def State.recMalformed (s : State) (ctx : Nat) (dw : List Word) : Bool :=
  let c := dwAt dw 3
  decide (fld (dwAt dw 0) 61 3 ≠ 0) || bitOf (dwAt dw 0) 51 || decide (fld (dwAt dw 1) 57 7 ≠ 0) ||
  decide (5 < recEntry dw) || decide (16 < recPans dw) || decide (4 < recStrands dw) || decide (64 < recSlots dw) ||
  decide (14 < recNargs dw) || decide (2 ^ 32 < recNblk dw) ||
  (recOrdered dw != (s.queue (recQueue dw)).ordered) ||
  (if recCkind dw = 3 then decide (fld c 0 6 ≠ 0) else cmplBad (recCkind dw) c) ||
  decide (fld (dwAt dw 4) 0 6 ≠ 0) ||
  (decide (recCkind dw = 2) && !s.ownsCounter ctx (fld c 0 13))

/-- 12 R360: the queue is bound to the context and is not firmware's. -/
def State.queueUsable (s : State) (ctx q : Nat) : Bool := decide ((s.queue q).ctx = ctx) && decide ((s.queue q).prio ≠ 7)

/-! The predictor (13 R383, R385). A history entry is dwords 0 and 1 and the argument words. -/

def histKey (h : List Word) : Nat × Nat := (recImage h, recEntry h)

/-- The period of a history, newest last. -/
def periodOf (hist : List (List Word)) : Option Nat :=
  let r := hist.reverse
  [1, 2, 3, 4, 5, 6, 7, 8].find? fun p => decide (2 * p ≤ r.length) &&
    (List.range p).all fun k => decide (histKey (nth [] r k) = histKey (nth [] r (k + p)))

/-- The match rule of argument slot `i` (08 R237 MATCH). -/
def matchRule (hdr3 : Word) (i : Nat) : Nat := fld hdr3 (2 * i) 2

/-- The predicted record: dwords 0 and 1 and argument words. -/
def predictOf (hist : List (List Word)) (hdr3 : Nat → Word) : Option (List Word) :=
  (periodOf hist).map fun p =>
    let r := hist.reverse
    let x := nth [] r (p - 1)
    let y := nth [] r (2 * p - 1)
    let h := hdr3 (recImage x)
    [dwAt x 0, dwAt x 1] ++ (List.range (x.length - 2)).map fun i =>
      if matchRule h i = 1 then dwAt x (i + 2) + (dwAt x (i + 2) - dwAt y (i + 2)) else dwAt x (i + 2)

/-- 13 R380: the usable cached image of a handle. -/
def State.resident (s : State) (h : Nat) : Option CachedImg := s.harbour.cache.find? fun c => c.handle == h && !c.stale

def State.hdrOf (s : State) (h i : Nat) : Word := match s.resident h with | some c => dwAt c.hdr i | none => 0

/-- 13 R385: record `dw` matches the prediction `q`, under the MATCH word of the image that the shadow task runs. -/
def matchesPred (hdr3 : Word) (q dw : List Word) : Bool :=
  recSpec dw && decide (recImage dw = recImage q) && decide (recEntry dw = recEntry q) && decide (recNblk dw = recNblk q) &&
  decide (recPans dw = recPans q) && decide (recStrands dw = recStrands q) && decide (recSlots dw = recSlots q) &&
  decide (recNargs dw = recNargs q) && (recBarrier dw == recBarrier q) &&
  (List.range (recNargs q)).all fun i => decide (matchRule hdr3 i = 2) || decide (dwAt dw (i + 5) = dwAt q (i + 2))

/-! Images (13 R380). -/

/-- The valid image-table entry of a handle: its source address. -/
def State.imageSrc (s : State) (h : Nat) : Option Nat :=
  (s.harbour.images.findSome? fun x =>
    if x.1 % 2 = 0 ∧ bitOf x.2 48 = true ∧ fld x.2 0 48 = h then some (fld (s.harbour.images.get 0 (x.1 + 1)) 0 39) else none)

/-- A handle is named by a queued record or an unretired kernel. -/
def State.imageBusy (s : State) (h : Nat) : Bool :=
  (s.queues.any fun q => q.2.recs.any fun r => decide (recImage r.dw = h)) ||
  s.kernels.any fun k => match k.2 with | some x => decide (recImage x.dw = h) | none => false

/-- A load can be given room: with the loads under way and the images that cannot be evicted, the cache holds less than 256. -/
def State.imageRoom (s : State) : Bool :=
  decide ((s.harbour.cache.countP fun c => s.imageBusy c.handle) + s.harbour.loads.length < 256)

/-- Start the loads that queued records need, up to 4 at once; the wait of a record that finds no room is logged once. -/
def kickLoads : M Unit := do
  let rs := (← gs).queues.flatMap fun q => q.2.recs.filter fun r => r.kernel.isNone && !r.bad
  each rs fun r => do
    let s ← gs
    let h := recImage r.dw
    if (s.resident h).isNone && !s.harbour.loads.contains h && (s.imageSrc h).isSome then
      if s.imageRoom then
        if s.harbour.loads.length < 4 then modHarbour fun x => { x with loads := x.loads ++ [h] }
      else if !NSet.mem r.id s.harbour.waitLogged then
        modHarbour fun x => { x with waitLogged := NSet.ins r.id x.waitLogged }
        logErr 0xF000 7 (word h) 0

/-! Receiving a record. -/

/-- A record enters its queue, where there is room: comparison with the shadow task, history, image load. -/
def enqueueRec (q : Nat) (dw : List Word) : M Unit := do
  let id ← freshId
  let bound ← match ((← gs).queue q).shadow with
    | none => pure none
    | some t =>
      if ((← gs).queue q).recs.any fun r => r.bound = some t then pure none
      else match (← gs).task t with
        | none => pure none
        | some x =>
          if matchesPred (match (← gs).kernel x.kernel with | some k => dwAt k.hdr 3 | none => 0) x.pred dw then pure (some t)
          else do
            discardShadow t 1
            pure none
  let now := (← gs).gtime
  modQueue q fun x => { x with
    recs := x.recs ++ [{ id := id, dw := dw, kernel := none, next := 0, bound := bound }]
    since := if x.recs.isEmpty then now else x.since
    hist := (x.hist ++ [[dwAt dw 0, dwAt dw 1] ++ (recArgs dw).take (recNargs dw)]).drop (x.hist.length + 1 - 16) }
  kickLoads

def State.queueFull (s : State) (q : Nat) : Bool := decide ((s.queue q).cap ≤ (s.queue q).recs.length)

/-- 05 R138, 12 R363, R365: enqueue, or hold for room behind the records already held for the queue. -/
def enqueueOrHold (q : Nat) (dw : List Word) : M Unit := do
  let s ← gs
  if s.queueFull q || s.sched.held.any (fun x => decide (x.1 = q)) then
    modSched fun x => { x with held := x.held ++ [(q, dw, none)] }
  else enqueueRec q dw

end Sys2Proof.Machine
end

