-- ==== Sys2Proof/Machine/Registers.lean ====
section
/-! DEFINITION. The device register space (01 R33, R34) and its registers: who may write each, and what a write does. -/

namespace Sys2Proof.Machine

/-- 01 R34, 06 R176, 02 R58: a firmware write of a pan control word. -/
def panControl (pan off : Nat) (v : Word) : M Unit :=
  if !Config.panExists pan then pure ()
  else if off = 0 then modPan pan fun p => { p with vlclamp := word (max 8 (fld v 0 12)) }
  else if off = 8 then modPan pan fun p => { p with rgclamp := word (fld v 0 21) }
  else if 0x10 ≤ off ∧ off < 0x50 then
    let k := (off - 0x10) / 0x10
    modPan pan fun p =>
      let r := p.res.get {} k
      let r := if off % 0x10 = 0 then { r with spbase := word (fld v 8 12 * 256) } else { r with splim := word (min 4096 (fld v 8 13) * 256) }
      { p with res := Tbl.put {} k r p.res }
  else if 0x50 ≤ off ∧ off < 0x70 ∧ bitOf v 0 = true then killStrand (4 * pan + (off - 0x50) / 8)
  else pure ()

/-- 01 R34: reading a pan control word. -/
def State.panControlWord (s : State) (pan off : Nat) : Word :=
  if !Config.panExists pan then 0
  else if off = 0 then (s.pan pan).vlclamp
  else if off = 8 then (s.pan pan).rgclamp
  else if 0x10 ≤ off ∧ off < 0x50 then
    let r := (s.pan pan).res.get {} ((off - 0x10) / 0x10)
    if off % 0x10 = 0 then r.spbase else r.splim
  else if 0x50 ≤ off ∧ off < 0x70 then (s.strand (4 * pan + (off - 0x50) / 8)).kill
  else 0

/-- 03 R77, R79: a read of a traffic counter, with every transfer so far counted. -/
def Die.tcRead (x : Die) (d n : Nat) : Word := if tcOwn d n then 0 else x.tc.get 0 n

/-- 13 R374: `QSTAT`. -/
def LQueue.stat (q : LQueue) : Word :=
  word (q.level % 8 * 2 ^ 60 + (q.deficit % 65536).toNat * 2 ^ 32 + q.recs.length % 65536)

/-- 01 R43: `PMIGSTAT`. -/
def Die.pmigStat (d : Die) : Word :=
  word ((if d.ovf then 2 ^ 32 else 0) + (if d.pmig.isSome then 15 else 16) * 65536 + d.pmigQ.length)

/-- 15 R414: a link page. -/
def Link.reg (l : Link) (off : Nat) : Word :=
  match off with
  | 0 => word l.keylim
  | 0x08 => word (l.rxExp * 2 ^ 20 + l.txLseq * 2 ^ 8 + (if l.slotRdy then 8 else 0) + (if l.rxSlot then 4 else 0) + (if l.txSlot then 2 else 0) + (if l.up then 1 else 0))
  | 0x10 => l.nak
  | 0x18 => l.replayed
  | 0x20 => l.retrains
  | _ => 0

/-- 15 R457: a word of the domain table; the own bit reads 1. -/
def State.domWord (s : State) (i : Nat) : Word :=
  s.harbour.domtab.get 0 i ||| (if s.harbour.devid / 64 = i then word (2 ^ (s.harbour.devid % 64)) else 0)

/-- A read of the device register space at a multiple of 8 (01 R33). -/
def regRead (off : Nat) : M Word := do
  let s : State ← gs
  if 0x10000 ≤ off ∧ off < 0x12000 then
    let q := s.queue ((off - 0x10000) / 16)
    return if off % 16 = 0 then q.cfg else q.stat
  else if 0x20000 ≤ off ∧ off < 0x20800 then
    let d := s.die ((off - 0x20000) / 0x100)
    let o := off % 0x100
    return if o < 0x50 then (if o = 0x10 then 0 else d.pred.get 0 (if o < 0x10 then o / 8 else o / 8 - 1))
      else if o = 0x50 then d.shres else if o = 0x58 then d.shctl else 0
  else if 0x30000 ≤ off ∧ off < 0x40000 then
    let i := (off - 0x30000) / 0x40
    return if Config.panExists i then (s.strand (4 * i + off % 0x40 / 0x10)).watch.get 0 (off % 0x10 / 8) else 0
  else if 0x50000 ≤ off ∧ off < 0x50300 then return (s.link ((off - 0x50000) / 0x40)).reg (off % 0x40)
  else if off = 0x60000 then return s.harbour.colltmo
  else if off = 0x70000 then return word s.pwrlim
  else if off = 0x70200 then return s.harbour.elost
  else if off = 0x70300 then return s.harbour.inroot
  else if 0x80000 ≤ off ∧ off < 0x90000 then return s.domWord ((off - 0x80000) / 8)
  else if 0x90000 ≤ off ∧ off < 0x94000 then return s.harbour.windows.get 0 ((off - 0x90000) / 8)
  else if 0xA0000 ≤ off ∧ off < 0xB0000 then return s.harbour.images.get 0 ((off - 0xA0000) / 8)
  else if 0x100000 ≤ off ∧ off < 0x200000 then
    let d := (off - 0x100000) / 0x20000
    let o := (off - 0x100000) % 0x20000
    if o < 0xB0 then return (s.die d).tcRead d (o / 8)
    else if 0x100 ≤ o ∧ o < 0x1B0 then return (s.die d).filt.get 0 ((o - 0x100) / 8)
    else if o = 0x200 then return if (s.die d).freeze then 1 else 0
    else if o = 0x10008 then return (s.die d).pmigStat
    else return 0
  else if 0x200000 ≤ off ∧ off < 0x240000 then return s.panControlWord ((off - 0x200000) / 0x100) (off % 0x100)
  else return 0

/-! Writes. -/

/-- A refused write is logged (class 7, 19 R456). -/
def logRefused (off : Nat) (v : Word) : M Unit := logErr 0xF000 7 (word off) v

/-- The writable bits of `QCFG` (13 R374). -/
def qcfgMask : Word := 0xFFFFFFFF7000FFFF

/-- A task of the queue is unretired, claimed and shadow tasks included. -/
def State.queueBusy (s : State) (q : Nat) : Bool :=
  !(s.queue q).recs.isEmpty || (s.kernels.any fun k => match k.2 with | some x => decide (x.queue = q) | none => false)

/-- 13 R374, R386: a firmware write of `QCFG`. -/
def qcfgWrite (q : Nat) (v : Word) : M Unit := do
  let old := ((← gs).queue q).cfg
  let v := v &&& qcfgMask
  let locked := decide (fld old 48 16 ≠ fld v 48 16) || (bitOf old 45 != bitOf v 45) || (bitOf old 44 != bitOf v 44)
  if locked && (← gs).queueBusy q then logRefused (0x10000 + 16 * q) v
  else
    match ((← gs).queue q).shadow with
    | some t => discardShadow t 7
    | none => pure ()
    modQueue q fun x => { x with cfg := v, level := if fld old 28 3 = fld v 28 3 then x.level else fld v 28 3 }

/-- 15 R410, R414: no key switch is unacknowledged, so the other transmit slot is idle. -/
def Link.idleSlot (l : Link) : Bool := !(l.replay.any fun f => match f.body with | .keysw _ => true | _ => false)

/-- 15 R414: writing 1 to `LKKEY` loads the idle slot at both ends. -/
def lkkeyWrite (n : Nat) (v : Word) : M Unit :=
  if bitOf v 0 then modLink n fun l => if l.idleSlot then { l with slotRdy := true } else l else pure ()

/-- 15 R414: firmware writes of a link page. -/
def linkWrite (n off : Nat) (v : Word) : M Unit :=
  match off with
  | 0 => modLink n fun l => { l with keylim := fld v 0 48 }
  | 0x10 => modLink n fun l => { l with nak := v }
  | 0x18 => modLink n fun l => { l with replayed := v }
  | 0x20 => modLink n fun l => { l with retrains := v }
  | 0x28 => lkkeyWrite n v
  | _ => pure ()

/-- 03 R77: the traffic page. -/
def tcClear (d : Nat) : M Unit := modDie d fun x => { x with tc := [] }
def tcFreeze (d : Nat) (on : Bool) : M Unit := modDie d fun x => { x with freeze := on }
def trafficWrite (d o : Nat) (v : Word) : M Unit :=
  if o < 0xB0 then (if tcOwn d (o / 8) then pure () else modDie d fun x => { x with tc := Tbl.put 0 (o / 8) v x.tc })
  else if 0x100 ≤ o ∧ o < 0x1B0 then modDie d fun x => { x with filt := Tbl.put 0 ((o - 0x100) / 8) (word (fld v 0 17)) x.filt }
  else if o = 0x200 then do
    if bitOf v 1 then tcClear d
    tcFreeze d (bitOf v 0)
  else pure ()

/-- 01 R43: a doorbell write queues a descriptor, or sets OVF. -/
def pmigdb (d : Nat) (v : Word) : M Unit := modDie d fun x =>
  if x.pmigQ.length < 16 then { x with pmigQ := x.pmigQ ++ [fld v 5 34 * 32] } else { x with ovf := true }

/-- 19 R454: the limit only falls; a raise is ignored and logged. -/
def pwrlimWrite (v : Word) : M Unit := do
  if (← gs).pwrlim < fld v 0 16 then logRefused 0x70000 v
  else emit (.lowerPower (fld v 0 16))

/-- 15 R422. -/
def hirqWrite (port : Nat) (v : Word) : M Unit := modHarbour fun h => { h with hostOut := h.hostOut ++ [.msix port (fld v 0 6)] }

/-- 13 R387: firmware writes of a predictor page. -/
def predWrite (d o : Nat) (v : Word) : M Unit :=
  if o = 0x50 then modDie d fun x => { x with shres := word (fld v 0 10) }
  else if o = 0x58 then modDie d fun x => { x with shctl := word (fld v 0 1) }
  else if o < 0x50 ∧ o ≠ 0x10 then modDie d fun x => { x with pred := Tbl.put 0 (if o < 0x10 then o / 8 else o / 8 - 1) v x.pred }
  else pure ()

/-- 14 R394. -/
def watchWrite (i o : Nat) (v : Word) : M Unit :=
  if Config.panExists i then
    modStrand (4 * i + o / 0x10) fun st => { st with watch := Tbl.put 0 (o % 0x10 / 8) (word (fld v 9 55 * 512 + fld v 0 3)) st.watch }
  else pure ()

/-- A write of the device register space: by firmware, or by a supervisor through an io leaf (01 R33). Firmware's write of a host window is ignored and logged (19 R452). -/
def regWrite (fw : Bool) (off : Nat) (v : Word) : M Unit :=
  if 0x10000 ≤ off ∧ off < 0x12000 then
    (if fw ∧ off % 16 = 0 then qcfgWrite ((off - 0x10000) / 16) v else pure ())
  else if 0x20000 ≤ off ∧ off < 0x20800 then (if fw then predWrite ((off - 0x20000) / 0x100) (off % 0x100) v else pure ())
  else if 0x30000 ≤ off ∧ off < 0x40000 then watchWrite ((off - 0x30000) / 0x40) (off % 0x40) v
  else if 0x50000 ≤ off ∧ off < 0x50300 then (if fw then linkWrite ((off - 0x50000) / 0x40) (off % 0x40) v else pure ())
  else if off = 0x60000 then (if fw then modHarbour fun h => { h with colltmo := word (fld v 0 32) } else pure ())
  else if off = 0x60100 then hirqWrite 0 v
  else if off = 0x60108 then hirqWrite 1 v
  else if off = 0x70000 then pwrlimWrite v
  else if off = 0x70200 then modHarbour fun h => { h with elost := v }
  else if off = 0x70300 then modHarbour fun h => { h with inroot := word (fld v 12 27 * 4096) }
  else if 0x80000 ≤ off ∧ off < 0x90000 then
    (if fw then modHarbour fun h => { h with domtab := Tbl.put 0 ((off - 0x80000) / 8) v h.domtab } else pure ())
  else if 0x90000 ≤ off ∧ off < 0x94000 then (if fw then logRefused off v else pure ())
  else if 0x100000 ≤ off ∧ off < 0x200000 then
    let d := (off - 0x100000) / 0x20000
    let o := (off - 0x100000) % 0x20000
    if o < 0x10000 then trafficWrite d o v
    else if o = 0x10000 then pmigdb d v
    else if o = 0x10008 then (if bitOf v 32 then modDie d fun x => { x with ovf := false } else pure ())
    else pure ()
  else if 0x200000 ≤ off ∧ off < 0x240000 then
    (if fw then panControl ((off - 0x200000) / 0x100) (off % 0x100) v else logRefused off v)
  else pure ()

end Sys2Proof.Machine
end

