-- ==== Sys2Proof/Machine/Send.lean ====
section
/-! DEFINITION. Accesses that leave for the fabric or a host port, the traffic they make (03 R77), and the update of join records in a peer's memory (05 R145, 06 R171, 12 R363, R365). -/

namespace Sys2Proof.Machine

def kindReads (k : RKind) : Bool := match k with | .store => false | _ => true
def kindWrites (k : RKind) : Bool := match k with | .load => false | _ => true

/-- The context that owns a region, and that of a command of a channel. -/
def State.regionCtx (s : State) (r : Nat) : Nat := match s.region r with | some x => ((s.pan (r / 16)).res.get {} x.res).ctx | none => noCtx
def State.cmdCtx (s : State) (ch id : Nat) : Nat := match (s.chan ch).q.find? fun c => decide (c.id = id) with | some c => c.ctx | none => noCtx

/-- The die and the context of who makes a remote or host access (03 R78); a management core has no die. -/
def State.traffic (s : State) (who : Requester) : Option Nat × Nat :=
  let strand := fun (k : Nat) => (if isMgmt k then none else some (dieOf k), (s.strand k).ctx)
  match who with
  | .strand k => strand k
  | .posted k => strand k
  | .vlda k => strand k
  | .ntf k => strand k
  | .grain g _ _ => (some (g.region / 16 / 128), s.regionCtx g.region)
  | .bind r _ _ => (some (r / 16 / 128), s.regionCtx r)
  | .chan ch id => (some (ch / 8 / 128), s.cmdCtx ch id)
  | .coll vs => (match (s.stream vs).pend with | some c => strand c.key | none => (none, noCtx))
  | .forward m => (none, m.ctx)
  | .join id => (none, match s.fabric.joins.find? fun j => decide (j.id = id) with | some j => j.ctx | none => noCtx)

/-- Bytes counted for a requester by a fabric or host counter: 18 TCFABIN, 19 TCFABOUT, 20 TCHOSTIN, 21 TCHOSTOUT. -/
def countFor (w : Option Nat × Nat) (n bytes : Nat) : M Unit := match w.1 with | some d => count d n w.2 bytes | none => pure ()

/-- The tags of the outstanding posted stores to a device that touch a line of [a, a + n) (05 R147). -/
def State.sameLine (s : State) (dev a n : Nat) (via : Option Nat) : List Nat :=
  s.fabric.requests.filterMap fun r => match r.msg with
    | some m => if m.posted && decide (m.dst = dev) && decide (m.via = via) && decide (a / 128 ≤ (m.addr + m.size - 1) / 128) && decide (m.addr / 128 ≤ (a + n - 1) / 128)
        then some r.tag else none
    | none => none

/-- An access of a peer, or of the owner of a token that is away (05 R152), leaves; its answer is awaited. Its data is sourced from the requester's die (03 R77). -/
def sendRemote (who : Requester) (va : Word) (dev da n : Nat) (kind : RKind) (data cmp : Word) (posted : Bool) (rel : Option Nat) : M Unit := do
  let s : State ← gs
  let tag ← freshId
  let via := if 2 ^ 44 ≤ da then some s.harbour.devid else none
  let a := if 2 ^ 44 ≤ da then da - 2 ^ 44 else da
  let w := s.traffic who
  let m : RMsg := { src := s.harbour.devid, dst := dev, tag := tag, addr := a, size := n, kind := kind, data := data, cmp := cmp, posted := posted, rel := rel
                    ctx := w.2, after := s.sameLine dev a n via, via := via }
  modFabric fun f => { f with requests := f.requests ++ [⟨tag, who, some m, none, va⟩], outbox := f.outbox ++ [m] }
  if kindWrites kind then countFor w 19 n

/-- A read of host memory leaves; a zero-length one orders the writes before it (15 R422). -/
def sendHost (who : Requester) (va : Word) (port addr n : Nat) : M Unit := do
  let tag ← freshId
  modFabric fun f => { f with requests := f.requests ++ [⟨tag, who, none, some (port, addr, n), va⟩] }

/-- 15 R422: a write to host memory leaves in issue order; strands other than `writer` that monitor its line are woken (09 R271). -/
def hostWrite (w : Option Nat × Nat) (writer : Option Nat) (port addr n data : Nat) : M Unit := do
  modHarbour fun h => { h with hostOut := h.hostOut ++ [.write port addr n (word data)], unconfirmed := NSet.ins port h.unconfirmed }
  countFor w 21 n
  wakeMonitors (.host port (addr / 128)) writer

/-- 05 R148: the count of posted stores issued to a device. -/
def State.issuedTo (s : State) (dev : Nat) : Nat := s.fabric.issued.get 0 dev

/-- 05 R146: a posted store with a tag below `bound`, to a device other than `target`, has not been answered. -/
def State.postedBefore (s : State) (bound : Nat) (target : Option Nat) : Bool :=
  s.fabric.requests.any fun r => match r.msg with | some m => m.posted && decide (r.tag < bound) && decide (some m.dst ≠ target) | none => false

/-! Join records in a peer's memory. -/

/-- 12 R362, R365: what a join record's first two dwords let a party be counted into it. -/
def joinOpen (d0 d1 : Nat) : Bool := decide (d0 / 2 ^ 33 = 0) && decide (d1 = 0) && decide (d0 % 2 ^ 32 ≠ 0) && decide (d0 % 2 ^ 32 ≠ 2 ^ 32 - 1)

def setJoin (j : JoinOp) : M Unit := modFabric fun f => { f with joins := f.joins.map fun x => if x.id = j.id then j else x }
def endJoin (j : JoinOp) : M Unit := modFabric fun f => { f with joins := f.joins.filter fun x => decide (x.id ≠ j.id) }

/-- The next word of the record is asked for. -/
def joinLoad (j : JoinOp) : M Unit := do
  setJoin j
  let i := (if j.kind = .cont then 2 else 0) + j.got.length
  sendRemote (.join j.id) (j.va + word (8 * i)) j.dev (j.da + 8 * i) 8 .load 0 0 false none

/-- Dword 0 is exchanged for `v`, if it still is as it was read; the atomic is a release and an acquire (06 R171). -/
def joinSwap (j : JoinOp) (v : Word) : M Unit := do
  setJoin { j with swap := some v }
  sendRemote (.join j.id) j.va j.dev j.da 8 .cas v (nth 0 j.got 0) false (some ((← gs).issuedTo j.dev))

/-- An operation on a join record at a peer begins. -/
def startJoin (ctx : Nat) (va : Word) (dev da : Nat) (kind : JoinKind) : M Unit := do
  let id ← freshId
  let j : JoinOp := ⟨id, ctx, va, dev, da, kind, [], none⟩
  modFabric fun f => { f with joins := f.joins ++ [j] }
  joinLoad j

/-- 12 R363: a continuation has failed: ERR is set in its join record, and the failure is logged. -/
def joinError (ctx : Nat) (va : Word) : M Unit := do
  match ← reach ⟨none, ctx, false⟩ false false va 8 accRmw with
  | .ok (.mem pa) => do
    physWrite none none (pa + 4) (bytesOf ((← gs).physByte (pa + 4) ||| 1) 1)
    logErr 0xF000 7 va 0
  | .ok (.remote dev da) => startJoin ctx va dev da .err
  | _ => logErr 0xF000 7 va 0

/-- The operation ends: a count is reported, a child enqueued, a failure logged. -/
def joinEnds (j : JoinOp) (ok : Bool) : M Unit := do
  endJoin j
  match j.kind with
  | .add q dw parent => if ok then enqueueOrHold q dw else (match parent with | some va => joinError j.ctx va | none => logErr 0xF000 7 j.va 1)
  | .spawn tag => do
    match (← gs).fabric.requests.find? fun r => decide (r.tag = tag) with
    | some r => do
      modFabric fun f => { f with requests := f.requests.filter fun x => decide (x.tag ≠ tag) }
      match r.who with
      | .strand k => modStrand k fun st => { st with replies := st.replies ++ [(tag, .value (if ok then 1 else 0))] }
      | _ => pure ()
    | none => pure ()
  | _ => if ok then pure () else logErr 0xF000 7 j.va 0

/-- The continuation has been read: it is enqueued as LAUNCH enqueues; otherwise ERR is to be set (12 R363). A continuation with a join record of its own is counted in by the caller, `count`. -/
def joinContinues (j : JoinOp) (count : Nat → List Word → M Unit) : M Unit := do
  let s : State ← gs
  let dw := j.got
  if s.recMalformed j.ctx dw || !s.queueUsable j.ctx (recQueue dw) then joinLoad { j with kind := .err, got := [] }
  else
    endJoin j
    if recCkind dw ≠ 3 then enqueueOrHold (recQueue dw) dw else count (recQueue dw) dw

/-- The next step of an operation on a join record, with the answer to its last access. -/
def joinStep (j : JoinOp) (r : RResp) (count : Nat → List Word → M Unit) : M Unit := do
  match r with
  | .value v => do
    match j.swap with
    | some n =>
      if v = nth 0 j.got 0 then
        match j.kind with
        | .dec => if fld n 0 32 = 0 then (if fld v 0 32 = 0 then joinEnds j false else joinLoad { j with kind := .cont, got := [], swap := none }) else joinEnds j true
        | .err => joinEnds j false
        | _ => joinEnds j true
      else joinLoad { j with got := [], swap := none }
    | none => do
      let j := { j with got := j.got ++ [v] }
      let d0 := nth 0 j.got 0
      match j.kind with
      | .dec => joinSwap j (if fld d0 0 32 = 0 then d0 ||| word (2 ^ 32) else d0 - 1)
      | .err => joinSwap j (d0 ||| word (2 ^ 32))
      | .cont => if j.got.length < 5 ∨ j.got.length < 5 + recNargs j.got then joinLoad j else joinContinues j count
      | _ =>
        if j.got.length < 2 then joinLoad j
        else if joinOpen d0.toNat (nth 0 j.got 1).toNat then joinSwap j (d0 + 1)
        else joinEnds j false
  | _ => joinEnds j false

end Sys2Proof.Machine
end

