-- ==== Sys2Proof/Machine/Tasks.lean ====
section
/-! DEFINITION. Ordered and shadow tasks as their accesses meet them: the buffered view, the commit, and irrevocable operations (05 R134 to R144). -/

namespace Sys2Proof.Machine

/-- The task's buffer is in use: it is uncommitted and not in direct mode (05 R141). -/
def State.buffering (s : State) (tk : Option Nat) : Option Task :=
  (tk.bind s.task).bind fun t => if t.direct then none else some t

/-- 05 R134: a byte as a party of the task reads it. -/
def State.viewByte (s : State) (tk : Option Nat) (pa : Nat) : Nat :=
  match s.buffering tk with
  | some t => (match bufGet (s.canon pa) t.buf with | some b => b.toNat | none => s.physByte pa)
  | none => s.physByte pa

def State.viewRead (s : State) (tk : Option Nat) (pa : Nat) : Nat → Nat
  | 0 => 0
  | n + 1 => s.viewByte tk pa + 256 * s.viewRead tk (pa + 1) n

/-- Poison met by a read of [pa, pa + n): not where the task's own bytes are read. -/
def State.viewPoisoned (s : State) (tk : Option Nat) (pa n : Nat) : Bool :=
  s.poisonedAt pa n &&
  match s.buffering tk with
  | some t => !((List.range n).all fun i => (bufGet (s.canon (pa + i)) t.buf).isSome)
  | none => true

/-- The lines of [pa, pa + n), as buffers and signatures name them. -/
def State.linesOf (s : State) (pa n : Nat) : List Nat := (List.range ((pa % 128 + n + 127) / 128)).map fun i => s.canon ((pa / 128 + i) * 128) / 128

/-- 05 R135: a read enters the read signature. -/
def markRead (tk : Option Nat) (pa n : Nat) : M Unit := do
  let s : State ← gs
  match tk, s.buffering tk with
  | some t, some _ => modTask t fun x => { x with rsig := (s.linesOf pa n).foldl sigIns x.rsig }
  | _, _ => pure ()

/-- A performed read of device memory by a party (05 R134). -/
def memRead (tk : Option Nat) (pa n : Nat) : M Nat := do
  let v := (← gs).viewRead tk pa n
  markRead tk pa n
  return v

/-- 05 R138: the commit event of a task: every buffered byte is written, every read signature tested (`by_` is the task, where it has a place in the commit order), and the lines that the die of each buffers are sent to their homes. -/
def commitBytes (x : Task) (by_ : Option Nat) : M Unit := do
  let ctx := ((← gs).queue x.queue).ctx
  each x.buf fun c => putBytes c.1 [c.2]
  each x.lines fun e => do
    let l := e.1
    each [2 * l, 2 * l + 1] fun g =>
      if (List.range 64).all fun i => (bufGet (g * 64 + i) x.buf).isSome then clearPoison (g * 64) 64 else pure ()
    let h := (← gs).home (l * 128) / 128
    touchHome (some (e.2 - 1)) ctx h ((List.range 128).countP fun i => (bufGet (l * 128 + i) x.buf).isSome) false true
    wakeMonitors (.line h) none
    revalidate l by_

/-- 06 R171, 12 R365: the increment that a child's SPAWN makes on its join record in this device's memory; the answer is whether the child may be enqueued. -/
def joinCount (writer tk : Option Nat) (pa : Nat) : M Bool := do
  let c ← memRead tk pa 8
  if joinOpen c (← memRead tk (pa + 8) 8) then
    physWrite writer none pa (bytesOf (c % 2 ^ 32 + 1) 4)
    return true
  else return false

/-- The dispatcher counts a child into the join record at a virtual address of a context, and then enqueues it: at once in this device's memory; an access of a peer follows its answer (05 R145). `parent` is the join record whose continuation the child is. -/
def joinIncrement (ctx : Nat) (q : Nat) (dw : List Word) (va : Word) (parent : Option Word) : M Unit := do
  let failed : M Unit := match parent with | some p => joinError ctx p | none => logErr 0xF000 7 va 1
  match ← reach ⟨none, ctx, false⟩ false false va 8 accRmw with
  | .ok (.mem pa) => if ← joinCount none none pa then enqueueOrHold q dw else failed
  | .ok (.remote dev da) => startJoin ctx va dev da (.add q dw parent)
  | _ => failed

/-- 05 R138: a task commits what it holds and goes on in direct mode. `ordered` is false for a claim by an unordered record, whose commit has no place in the order (05 R144). -/
def commitTask (t : Nat) (ordered : Bool) : M Unit := do
  match (← gs).task t with
  | none => pure ()
  | some x =>
    let ctx := ((← gs).queue x.queue).ctx
    commitBytes x (if ordered then some t else none)
    if ordered then modSched fun y => { y with commits := y.commits ++ [(x.ts, x.lines.map (·.1))] }
    modTask t fun x => { x with buf := [], lines := [], recs := [], direct := true }
    each x.recs fun r => do
      match r.2.2 with
      | none => enqueueOrHold r.1 r.2.1
      | some va => joinIncrement ctx r.1 r.2.1 va none

/-- 05 R141, R143: leave buffered mode; a shadow task is discarded with a cause code, a task that is not the oldest waits. -/
def leaveBuffer (tk : Option Nat) (code : Nat) : M Unit := do
  match tk, (← gs).buffering tk with
  | some t, some x =>
    if x.shadow then
      discardShadow t code
      finish
    else if (← gs).isOldest t then commitTask t true
    else stall
  | _, _ => pure ()

def irrevocable (tk : Option Nat) : M Unit := leaveBuffer tk 3

/-- Lines buffered on a die (05 R140), and by one task there. -/
def Task.linesOn (x : Task) (d : Nat) : Nat := x.lines.countP fun l => decide (l.2 = d + 1)
def State.dieLines (s : State) (d : Nat) : Nat := s.tasks.foldl (fun a x => a + match x.2 with | some t => t.linesOn d | none => 0) 0

/-- 05 R140: one more line, written by a party on die `d`, fits the task and the die's commit store. -/
def State.lineFits (s : State) (x : Task) (d l : Nat) : Bool :=
  decide (x.lines.get 0 l ≠ 0) || (decide (x.linesOn d < 262144) && decide (s.dieLines d < 1048576))

/-- A write of [pa, pa + n) by a party on die `d` would have to leave buffered mode (05 R141). -/
def State.overflows (s : State) (tk : Option Nat) (d pa n : Nat) : Bool :=
  match s.buffering tk with
  | some x => !((s.linesOf pa n).all (s.lineFits x d))
  | none => false

/-- A performed write of device memory by a party on die `d`: buffered, or at its home. -/
def memWrite (d : Nat) (writer tk : Option Nat) (pa : Nat) (bs : List Byte) : M Unit := do
  if (← gs).overflows tk d pa bs.length then leaveBuffer tk 2
  let s : State ← gs
  match tk, s.buffering tk with
  | some t, some _ =>
    modTask t fun x => { x with
      buf := (List.range bs.length).foldl (fun b i => bufPut (s.canon (pa + i)) (nth 0 bs i) b) x.buf
      lines := (s.linesOf pa bs.length).foldl (fun l i => if l.get 0 i ≠ 0 then l else Tbl.put 0 i (d + 1) l) x.lines
      wsig := (s.linesOf pa bs.length).foldl sigIns x.wsig }
  | some t, none => physWrite writer (if (s.task t).isSome then some t else none) pa bs
  | none, _ => physWrite writer none pa bs

end Sys2Proof.Machine
end

