-- ==== Sys2Proof/Machine/Access.lean ====
section
/-! DEFINITION. Accesses of strands: the checks of a scalar access (09 R255), and how an access is performed at each kind of location: device memory, pan memory, peers, hosts, device registers (01 R24, R25, R30, 05 R145 to R149, 15 R422). -/

namespace Sys2Proof.Machine

/-! Peers and hosts. -/

/-- The accesses of one instruction to peers and hosts: issue them together, wait for every answer, and go on with the answers in order. The translations `hs` are held meanwhile (01 R41). -/
def askAll (k n : Nat) (hs : List (Word × Place)) (send : M Unit) : M (List RResp) := do
  if n = 0 then return []
  let st ← getStrand k
  if (← gs).fabric.requests.any fun r => r.who = .strand k then stall
  if st.replies.length = n then
    modStrand k fun st => { st with replies := [], held := [] }
    return st.replies.map (·.2)
  modStrand k fun st => { st with replies := [], held := hs }
  send
  finish

/-- The translations of an instruction that asks its peers and hosts one after another are held (01 R41). -/
def hold (k : Nat) (hs : List (Word × Place)) : M Unit := do
  modStrand k fun st => { st with held := hs }

/-- The answers so far to the accesses of an instruction; none while one is outstanding. -/
def answers (k : Nat) : M (List RResp) := do
  if (← gs).fabric.requests.any fun r => r.who = .strand k then stall
  return (← getStrand k).replies.map (·.2)

/-- A returned value, or the trap of a failed access (05 R149, 15 R415). -/
def respValue (va : Word) (r : RResp) : M Nat :=
  match r with
  | .value v => return v.toNat
  | .ack => return 0
  | .fault c => trap c va
  | .lost => trap 7 va
  | .atHome => trap 7 va

/-- 05 R147, R148: a posted store of strand `k`; it stalls at the port at the limit. -/
def postStore (k dev da n : Nat) (va : Word) (data : Nat) (rel : Bool) : M Unit := do
  let s : State ← gs
  let open_ := s.fabric.requests.countP fun r => match r.msg with | some m => m.posted && decide (m.dst = dev) | none => false
  if 2 ^ 31 - 1 ≤ open_ then stall
  let i := s.issuedTo dev
  let tag := s.nextId
  sendRemote (.posted k) va dev da n .store (word data) 0 true (if rel then some i else none)
  modFabric fun f => { f with issued := Tbl.put 0 dev ((i + 1) % 2 ^ 32) f.issued }
  modStrand k fun st => { st with posted := st.posted ++ [⟨tag, dev, st.pc, va, none⟩] }

/-- 05 R149: the posted-store failures that have returned: the first issued is raised at this instruction, the others are logged. -/
def raisePosted (k : Nat) (s0 : State) : M Unit := do
  let st ← getStrand k
  let bad := st.posted.filter fun p => p.fail.isSome
  match bad with
  | [] => pure ()
  | p :: rest =>
    trapWith s0 (p.fail.getD 5) p.va do
      modStrand k fun st => { st with posted := st.posted.filter fun p => p.fail.isNone }
      each rest fun q => logErr (srcOf k) 3 q.va (word (q.fail.getD 0))

/-- 05 R146, R149: a domain-scope release waits for the acknowledgement of every posted store that happens-before it, but of those to its own target. Which stores of other parties do is not followed: it waits for all that the device had issued when the release first came up (log 41). `s0` is the state before the instruction. -/
def domainRelease (k : Nat) (s0 : State) (target : Option Nat) : M Unit := do
  let st := s0.strand k
  if s0.postedBefore (st.relAt.getD s0.nextId) target then
    match st.relAt with
    | some _ => stall
    | none => stallWith [.strand k { st with relAt := some s0.nextId }]
  if st.relAt.isSome then modStrand k fun st => { st with relAt := none }
  raisePosted k s0

/-- 15 R422: a release on a host page waits for the writes through the other port, confirmed by a zero-length read there. -/
def hostRelease (k port : Nat) (hs : List (Word × Place)) : M Unit := do
  let other := 1 - port
  if NSet.mem other (← gs).harbour.unconfirmed then
    let _ ← askAll k 1 hs (sendHost (.strand k) 0 other 0 0)
    modHarbour fun h => { h with unconfirmed := NSet.del other h.unconfirmed }

/-! Scalar accesses. -/

/-- 05 R131: bytes that a pending VLDA of the strand is still to read. -/
def Place.meets (p : Place) (n : Nat) (q : Place) (m : Nat) : Bool :=
  match p, q with
  | .pan a, .pan b => decide (a < b + m ∧ b < a + n)
  | .at_ (.mem a), .at_ (.mem b) => decide (a < b + m ∧ b < a + n)
  | .at_ (.remote d a), .at_ (.remote e b) => decide (d = e ∧ a < b + m ∧ b < a + n)
  | .at_ (.host d a), .at_ (.host e b) => decide (d = e ∧ a < b + m ∧ b < a + n)
  | _, _ => false

/-- A pending VLDA of the strand is still to read some of the `n` bytes at a place. -/
def Strand.pendingAt (st : Strand) (p : Place) (n : Nat) : Bool := st.vlda.any fun g => g.elems.any fun e => p.meets n e.2.2 g.sew

/-- 05 R131, 04 R115: an access waits until the pending VLDAs of its strand have read the bytes it touches. -/
def waitVlda (k : Nat) (p : Place) (n : Nat) : M Unit := do
  if (← getStrand k).pendingAt p n then stall

/-- The place that an access under way holds (01 R41): its checks are not made again. -/
def Strand.holds (st : Strand) (va : Word) : Option Place := (st.held.find? fun h => decide (h.1 = va)).map (·.2)

/-- The checks of 09 R255, in order, up to the permissions. -/
def scalarReach (k : Nat) (va : Word) (n : Nat) (pan : Bool) (a : Acc) : M Place := do
  match (← getStrand k).holds va with
  | some p => return p
  | none => pure ()
  if va.toNat % n ≠ 0 then trap 3 va
  if pan then
    if fld va 23 41 ≠ 0 then trap 0xB va
    if isMgmt k || !(← gs).inPartition (panOf k) (← getStrand k).ctx va.toNat n then trap 5 va
    return .pan (panKey (panOf k) va.toNat)
  else
    let s : State ← gs
    match ← reach (← whoIs k) false (s.buffering (s.taskOf k)).isSome va n a with
    | .error c => trap c va
    | .ok l =>
      match l with
      | .io _ => if n ≠ 8 then trap 3 va
      | _ => pure ()
      return .at_ l

/-- Poison and watchpoints (02 R62, 03 R76, 14 R394); a store narrower than its 8-byte word merges. -/
def scalarTail (k : Nat) (va : Word) (n : Nat) (a : Acc) (p : Place) : M Unit := do
  let s : State ← gs
  let consumes := a.rd || decide (n < 8)
  match p with
  | .pan key => if consumes && s.panPoisonedAt key n then trap 7 va
  | .at_ (.mem pa) => if consumes && s.viewPoisoned (s.taskOf k) pa n then trap 7 va
  | .at_ _ => pure ()
  match p with
  | .at_ _ => if (s.strand k).watched va n a then trap 0xD va
  | .pan _ => pure ()

/-- The value a load reads at a checked place. -/
def loadPlace (k : Nat) (va : Word) (n : Nat) (p : Place) : M Nat := do
  scalarTail k va n accLoad p
  waitVlda k p n
  let tk := (← gs).taskOf k
  match p with
  | .pan key => return (← gs).panRead key n
  | .at_ (.mem pa) => memRead tk pa n
  | .at_ (.remote dev da) =>
    match ← askAll k 1 [(va, p)] (sendRemote (.strand k) va dev da n .load 0 0 false none) with
    | r :: _ => respValue va r
    | [] => stall
  | .at_ (.host port addr) =>
    match ← askAll k 1 [(va, p)] (sendHost (.strand k) va port addr n) with
    | r :: _ => respValue va r
    | [] => stall
  | .at_ (.io off) =>
    irrevocable tk
    return (← regRead off).toNat

/-- The value a scalar load reads. -/
def scalarRead (k : Nat) (va : Word) (n : Nat) (pan : Bool) : M Nat := do
  let p ← scalarReach k va n pan accLoad
  loadPlace k va n p

/-- 04 R104, R105, 05 R145: the scope at which an event on a place acts. -/
def effScope (p : Place) (sc : Nat) : Nat :=
  match p with
  | .pan _ => min sc 1
  | .at_ (.remote _ _) => if sc = 0 then 0 else 5
  | .at_ (.host _ _) => 4
  | .at_ (.io _) => 4
  | .at_ (.mem _) => sc

/-- What a release does before its write (04 R118, 05 R146, R149, 15 R422). -/
def releaseSide (k : Nat) (s0 : State) (va : Word) (p : Place) (sc : Nat) : M Unit := do
  if effScope p sc = 5 then
    domainRelease k s0 (match p with | .at_ (.remote dev _) => some dev | _ => none)
  match p with
  | .at_ (.host port _) => hostRelease k port [(va, p)]
  | _ => pure ()

/-- A scalar store, plain or a release at a scope. -/
def scalarWrite (k : Nat) (va : Word) (n : Nat) (pan : Bool) (v : Nat) (rel : Option Nat) : M Unit := do
  let s0 : State ← gs
  let p ← scalarReach k va n pan accStore
  scalarTail k va n accStore p
  waitVlda k p n
  match rel with
  | some sc => releaseSide k s0 va p sc
  | none => pure ()
  let tk := (← gs).taskOf k
  match p with
  | .pan key => panWrite (some k) key (bytesOf v n)
  | .at_ (.mem pa) => memWrite (dieOf k) (some k) tk pa (bytesOf v n)
  | .at_ (.remote dev da) =>
    irrevocable tk
    postStore k dev da n va (v % 2 ^ (8 * n)) rel.isSome
  | .at_ (.host port addr) =>
    irrevocable tk
    hostWrite ((← gs).traffic (.strand k)) (some k) port addr n (v % 2 ^ (8 * n))
  | .at_ (.io off) =>
    irrevocable tk
    regWrite (isMgmt k) off (word v)
    wakeMonitors (.io (off / 128)) (some k)

/-! Atomics (09 R259). -/

/-- The new value of an AMO by function 0 to 7, on `n` bytes, and its flags. -/
def amoNew (fn : Nat) (sg : Bool) (n old b : Nat) : Nat × Fl :=
  let w := 8 * n
  let x := old % 2 ^ w
  let y := b % 2 ^ w
  match fn with
  | 0 => ((x + y) % 2 ^ w, 0)
  | 1 => (x &&& y, 0)
  | 2 => (x ||| y, 0)
  | 3 => (x ^^^ y, 0)
  | 4 => (lowBits w (min (intOf sg w x) (intOf sg w y)), 0)
  | 5 => (lowBits w (max (intOf sg w x) (intOf sg w y)), 0)
  | 6 => (y, 0)
  | _ => (if n = 4 then fp32 else fp64).arith 0 0 x y

/-- An RMW as the fabric and the homes perform it: the function, its data and, for a compare-and-swap, the value compared. -/
structure Rmw where
  kind : RKind
  data : Nat
  cmp : Nat

/-- The new value, where there is a write part (04 R122), and the flags. -/
def Rmw.new (r : Rmw) (n old : Nat) : Option Nat × Fl :=
  match r.kind with
  | .amo fn sg => let x := amoNew fn sg n old r.data; (some x.1, x.2)
  | .cas => (if old % 2 ^ (8 * n) = r.cmp % 2 ^ (8 * n) then some (r.data % 2 ^ (8 * n)) else none, 0)
  | .store => (some (r.data % 2 ^ (8 * n)), 0)
  | .load => (none, 0)

/-- A scalar atomic: the old value and the flags; `rel` is the scope of its release part. -/
def scalarRmw (k : Nat) (va : Word) (n : Nat) (pan : Bool) (r : Rmw) (rel : Option Nat) : M (Nat × Fl) := do
  let s0 : State ← gs
  let p ← scalarReach k va n pan accRmw
  scalarTail k va n accRmw p
  waitVlda k p n
  let s1 : State ← gs
  let tk := s1.taskOf k
  -- 04 R122: a compare-and-swap that fails has no release part
  let fails := match p with
    | .pan key => (r.new n (s1.panRead key n)).1.isNone
    | .at_ (.mem pa) => (r.new n (s1.viewRead tk pa n)).1.isNone
    | .at_ _ => false
  match rel with
  | some sc => if !fails && ((s0.strand k).holds va).isNone then releaseSide k s0 va p sc
  | none => pure ()
  match p with
  | .pan key =>
    let old := (← gs).panRead key n
    let x := r.new n old
    match x.1 with
    | some v => panWrite (some k) key (bytesOf v n)
    | none => pure ()
    return (old, x.2)
  | .at_ (.mem pa) =>
    let old ← memRead tk pa n
    let x := r.new n old
    match x.1 with
    | some v => memWrite (dieOf k) (some k) tk pa (bytesOf v n)
    | none => pure ()
    return (old, x.2)
  | .at_ (.remote dev da) =>
    irrevocable tk
    let i := (← gs).issuedTo dev
    match ← askAll k 1 [(va, p)] (sendRemote (.strand k) va dev da n r.kind (word r.data) (word r.cmp) false (rel.map fun _ => i)) with
    | x :: _ => do
      let old ← respValue va x
      return (old, (r.new n old).2)
    | [] => stall
  | _ => trap 5 va

end Sys2Proof.Machine
end

