-- ==== Sys2Proof/Machine/Sfn.lean ====
section
/-! DEFINITION. The special functions of VSFN (07 R207): the correctly rounded value of the exact function, from enclosing intervals of rising precision. An interval (lo, hi) at precision p encloses a positive real between lo × 2^-p and hi × 2^-p. -/

namespace Sys2Proof.Machine

/-- An enclosure at the precision of its context. -/
abbrev Ivl := Nat × Nat

def ceilDiv (a b : Nat) : Nat := (a + b - 1) / b

def ivMul (p : Nat) (x y : Ivl) : Ivl := (x.1 * y.1 / 2 ^ p, ceilDiv (x.2 * y.2) (2 ^ p))
def ivDivN (x : Ivl) (n : Nat) : Ivl := (x.1 / n, ceilDiv x.2 n)
def ivAdd (x y : Ivl) : Ivl := (x.1 + y.1, x.2 + y.2)
def ivSub (x y : Ivl) : Ivl := (x.1 - y.2, x.2 - y.1)
def ivDiv (p : Nat) (x y : Ivl) : Ivl := (x.1 * 2 ^ p / y.2, ceilDiv (x.2 * 2 ^ p) y.1)

/-- The exact number m × 2^e at precision `p`. -/
def ivOf (p m : Nat) (e : Int) : Ivl :=
  if 0 ≤ e + p then (m * 2 ^ (e + p).toNat, m * 2 ^ (e + p).toNat)
  else (m / 2 ^ (-(e + p)).toNat, ceilDiv m (2 ^ (-(e + p)).toNat))

/-- The terms t, t·y/(k+1), t·y²/((k+1)(k+2)), … summed; for y below 1 the rest is at most the last term. -/
def expTerms (p : Nat) (y : Ivl) : Nat → Nat → Ivl → Ivl → Ivl
  | 0, _, t, acc => (acc.1, acc.2 + t.2)
  | n + 1, k, t, acc =>
    let t' := ivDivN (ivMul p t y) (k + 1)
    expTerms p y n (k + 1) t' (ivAdd acc t')

/-- e^y - 1 for y in [0, 1). -/
def ivExpm1 (p : Nat) (y : Ivl) : Ivl := expTerms p y (p / 2 + 8) 1 y y

/-- Σ z^(2k+1)/(2k+1) from a first power, z² at most 1/9. -/
def atanhTerms (p : Nat) (z2 : Ivl) : Nat → Nat → Ivl → Ivl → Ivl
  | 0, _, t, acc => (acc.1, acc.2 + 2 * t.2)
  | n + 1, k, t, acc =>
    let t' := ivMul p t z2
    atanhTerms p z2 n (k + 2) t' (ivAdd acc (ivDivN t' (k + 2)))

def ivAtanh (p : Nat) (z : Ivl) : Ivl := atanhTerms p (ivMul p z z) (p / 2 + 8) 1 z z

/-- ln 2 = 2 artanh(1/3). -/
def ivLn2 (p : Nat) : Ivl :=
  let x := ivAtanh p (ivDivN (2 ^ p, 2 ^ p) 3)
  (2 * x.1, 2 * x.2)

/-- An alternating series of decreasing terms: `step` makes the next term; the rest is below the last term. -/
def altTerms (step : Nat → Ivl → Ivl) (out : Nat → Ivl → Ivl) : Nat → Nat → Bool → Ivl → Ivl → Ivl
  | 0, _, _, t, acc => (acc.1 - t.2, acc.2 + t.2)
  | n + 1, k, neg, t, acc =>
    let t' := step k t
    let o := out k t'
    altTerms step out n (k + 2) (!neg) t' (if neg then ivSub acc o else ivAdd acc o)

/-- arctan(1/n). -/
def ivAtanInv (p n : Nat) : Ivl :=
  let t := ivDivN (2 ^ p, 2 ^ p) n
  altTerms (fun _ t => ivDivN t (n * n)) (fun k t => ivDivN t (k + 2)) (p / 2 + 8) 1 true t t

/-- π = 16 arctan(1/5) − 4 arctan(1/239). -/
def ivPi (p : Nat) : Ivl :=
  let a := ivAtanInv p 5
  let b := ivAtanInv p 239
  ivSub (16 * a.1, 16 * a.2) (4 * b.1, 4 * b.2)

/-- sin θ for θ in (0, π/2]. -/
def ivSin (p : Nat) (t : Ivl) : Ivl :=
  let t2 := ivMul p t t
  altTerms (fun k x => ivDivN (ivMul p x t2) ((k + 1) * (k + 2))) (fun _ x => x) (p / 2 + 8) 1 true t t

/-- An enclosure of a real that is no multiple of 2^-p / 2, rounded to nearest in a format, when both ends round alike. -/
def Fmt.settle (f : Fmt) (neg : Bool) (p : Nat) (x : Ivl) : Option (Nat × Fl) :=
  let a := f.round 0 neg (2 * x.1 + 1) (-(p : Int) - 1)
  let b := f.round 0 neg (2 * x.2 - 1) (-(p : Int) - 1)
  if x.1 < x.2 ∧ a = b then some a else none

/-- Evaluate at rising precision. -/
def Fmt.refine (f : Fmt) (neg : Bool) (g : Nat → Ivl) : Nat → Nat → Option (Nat × Fl)
  | 0, _ => none
  | n + 1, p => match f.settle neg p (g p) with | some r => some r | none => f.refine neg g n (2 * p)

/-- 2^x for a finite x that is no integer. -/
def ivExp2 (neg : Bool) (m : Nat) (e : Int) (p : Nat) : Ivl × Int :=
  let d := 2 ^ (-e).toNat
  let q := m / d
  let r := m % d
  let n : Int := if neg then -(q : Int) - 1 else q
  let y := ivMul p (ivOf p (if neg then d - r else r) e) (ivLn2 p)
  let x := ivExpm1 p y
  ((x.1 + 2 ^ p, x.2 + 2 ^ p), n)

/-- log2 of 2^k × g, g = c / 2^b in [3/4, 3/2): sign and magnitude. -/
def ivLog2 (p c b : Nat) (k : Int) : Bool × Ivl :=
  let o := 2 ^ b
  let small := decide (c < o)
  let z := ((if small then o - c else c - o) * 2 ^ p / (c + o), ceilDiv ((if small then o - c else c - o) * 2 ^ p) (c + o))
  let l := ivDiv p (ivAtanh p z) (ivLn2 p)
  let l := (2 * l.1, 2 * l.2)
  let kk := k.natAbs * 2 ^ p
  if k = 0 then (small, l)
  else if decide (k < 0) = small then (small, (kk + l.1, kk + l.2))
  else (decide (k < 0), (kk - l.2, kk - l.1))

/-- tanh of a positive m × 2^e below 64. -/
def ivTanh (m : Nat) (e : Int) (p : Nat) : Ivl :=
  if 2 * m < 2 ^ (-e).toNat ∧ e < 0 then
    let x := ivExpm1 p (ivOf p m (e + 1))
    (x.1 * 2 ^ p / (x.1 + 2 ^ (p + 1)), ceilDiv (x.2 * 2 ^ p) (x.2 + 2 ^ (p + 1)))
  else
    let s := ivExpm1 p (ivOf p m (e - 7))
    let sq := (List.range 8).foldl (fun (x : Ivl) _ => ivMul p x x) (s.1 + 2 ^ p, s.2 + 2 ^ p)
    ((sq.1 - 2 ^ p) * 2 ^ p / (sq.1 + 2 ^ p), ceilDiv ((sq.2 - 2 ^ p) * 2 ^ p) (sq.2 + 2 ^ p))

/-- The first precision: the format's, and the places that a small value starts below the point. -/
def Fmt.startPrec (f : Fmt) (small : Int) : Nat := 2 * f.fbits + 48 + (-small).toNat

/-- sin(π r) for 0 < r = n / d < 1/2 or its equal, d a power of two 2^b. -/
def Fmt.sinFrac (f : Fmt) (neg : Bool) (n b : Nat) : Option (Nat × Fl) :=
  if n = 0 then some (f.zeroCode neg, 0)
  else if 2 * n = 2 ^ b then some (f.round 0 neg 1 0)
  else f.refine neg (fun p => ivSin p (ivMul p (ivOf p n (-(b : Int))) (ivPi p))) 6 (f.startPrec ((bitLen n : Int) - b))

/-- 07 R207 by function code 0 exp2, 1 log2, 2 reciprocal, 3 reciprocal square root, 4 sinpi, 5 cospi, 6 tanh. -/
def Fmt.sfn? (f : Fmt) (fn : Nat) (a : FV) : Option (Nat × Fl) :=
  match a with
  | .nan s => some (f.qnan, flIf s flNV)
  | .inf n =>
    match fn with
    | 0 => some (if n then (f.zeroCode false, 0) else (f.infCode false, 0))
    | 1 => some (if n then (f.qnan, flNV) else (f.infCode false, 0))
    | 2 => some (f.zeroCode n, 0)
    | 3 => some (if n then (f.qnan, flNV) else (f.zeroCode false, 0))
    | 6 => some (f.round 0 n 1 0)
    | _ => some (f.qnan, flNV)
  | .fin n m e =>
    let b := (-e).toNat
    match fn with
    | 0 =>
      if m = 0 then some (f.round 0 false 1 0)
      else if 2 ^ 15 ≤ m * 2 ^ e.toNat / 2 ^ b then some (if n then f.round 0 false 1 (-(2 ^ 15)) else f.overflow 0 false)
      else if m % 2 ^ b = 0 then
        some (f.round 0 false 1 (signed n (m / 2 ^ b * 2 ^ e.toNat)))
      else
        refineAt f (ivExp2 n m e 8).2 (fun p => (ivExp2 n m e p).1) 6 (f.startPrec 0)
    | 1 =>
      if m = 0 then some (f.infCode true, flDZ)
      else if n then some (f.qnan, flNV)
      else
        let l := bitLen m - 1
        let k : Int := e + l
        if m = 2 ^ l then some (f.roundI 0 k 0 false)
        else
          let up := decide (3 * 2 ^ l ≤ 2 * m)
          let kk := if up then k + 1 else k
          let bb := if up then l + 1 else l
          let sg := (ivLog2 8 m bb kk).1
          f.refine sg (fun p => (ivLog2 p m bb kk).2) 6 (f.startPrec (if kk = 0 then -(f.fbits : Int) else 0))
    | 2 => some (f.div 0 (.fin false 1 0) a)
    | 3 =>
      if m = 0 then some (f.infCode n, flDZ)
      else if n then some (f.qnan, flNV)
      else
        let m2 := if e % 2 = 0 then m else 2 * m
        let e2 := if e % 2 = 0 then e else e - 1
        let k := bitLen m2 + f.fbits + 4
        let q := isqrt (2 ^ (2 * k) / m2)
        some (f.round 0 false (2 * q + (if q * q * m2 = 2 ^ (2 * k) then 0 else 1)) (-(k : Int) - 1 - e2 / 2))
    | 4 =>
      let d := 2 ^ b
      let r := m * 2 ^ e.toNat % (2 * d)
      if r % d = 0 then some (f.zeroCode n, 0)
      else
        let r1 := r % d
        f.sinFrac (n != decide (d < r)) (if d < 2 * r1 then d - r1 else r1) b
    | 5 =>
      let d := 2 ^ b
      let r := m * 2 ^ e.toNat % (2 * d)
      let r1 := if d < r then 2 * d - r else r
      if 2 * r1 = d then some (f.zeroCode false, 0)
      else
        let neg := decide (d < 2 * r1)
        let r2 := if neg then d - r1 else r1
        f.sinFrac neg (d - 2 * r2) (b + 1)
    | _ =>
      if m = 0 then some (f.zeroCode n, 0)
      else if 64 ≤ m / 2 ^ b * 2 ^ e.toNat then some (f.sign n + (f.round 0 false 1 0).1, flNX)
      else f.refine n (ivTanh m e) 6 (f.startPrec (e + bitLen m))
where
  /-- An enclosure times 2^k, settled. -/
  refineAt (f : Fmt) (k : Int) (g : Nat → Ivl) : Nat → Nat → Option (Nat × Fl)
    | 0, _ => none
    | n + 1, p =>
      let x := g p
      let a := f.round 0 false (2 * x.1 + 1) (k - p - 1)
      let b := f.round 0 false (2 * x.2 - 1) (k - p - 1)
      if x.1 < x.2 ∧ a = b then some a else refineAt f k g n (2 * p)

/-- VSFN on the bits of an element; where no enclosure of the precisions tried settles the rounding, a free value of R207's function, inexact (log 7). -/
def Fmt.sfn (f : Fmt) (fn : Nat) (x : Nat) : Nat × Fl :=
  match f.sfn? fn (f.unpack x) with
  | some r => r
  | none => (Config.freeSfn fn f.width x % 2 ^ f.width, flNX)

end Sys2Proof.Machine
end

