-- ==== Sys2Proof/Machine/Scalar.lean ====
section
/-! DEFINITION. Scalar integer instructions: class 0 (09 R243 to R245), class 1 (09 R246, R247) and their 16-bit forms (08 R225). -/

namespace Sys2Proof.Machine

/-- The low W bits of a source (09 R244: pa, pb). -/
def low (t : Nat) (x : Word) : Nat := x.toNat % 2 ^ tyW t

/-- The result of a bit pattern. -/
def dstN (t n : Nat) : Word := dstW t (n : Int)

def addV (t : Nat) (a b : Word) : Word := dstW t (srcI t a + srcI t b)
def subV (t : Nat) (a b : Word) : Word := dstW t (srcI t a - srcI t b)
def andV (t : Nat) (a b : Word) : Word := dstN t (low t a &&& low t b)
def orV (t : Nat) (a b : Word) : Word := dstN t (low t a ||| low t b)
def xorV (t : Nat) (a b : Word) : Word := dstN t (low t a ^^^ low t b)
def andnV (t : Nat) (a b : Word) : Word := dstN t (low t a &&& (2 ^ tyW t - 1 - low t b))
def sllV (t : Nat) (a b : Word) : Word := dstN t (low t a * 2 ^ (low t b % tyW t))
def srlV (t : Nat) (a b : Word) : Word := dstN t (low t a / 2 ^ (low t b % tyW t))
def sraV (t : Nat) (a b : Word) : Word := dstW t (intOf true (tyW t) (low t a) / (2 ^ (low t b % tyW t) : Nat))
def rorV (t : Nat) (a b : Word) : Word :=
  dstN t (low t a / 2 ^ (low t b % tyW t) + low t a % 2 ^ (low t b % tyW t) * 2 ^ (tyW t - low t b % tyW t))
def sltV (t : Nat) (a b : Word) : Word := if srcI t a < srcI t b then 1 else 0
def minV (t : Nat) (a b : Word) : Word := dstW t (min (srcI t a) (srcI t b))
def maxV (t : Nat) (a b : Word) : Word := dstW t (max (srcI t a) (srcI t b))
def mulV (t : Nat) (a b : Word) : Word := dstW t (srcI t a * srcI t b)
def mulhV (t : Nat) (a b : Word) : Word := dstW t (srcI t a * srcI t b / (2 ^ tyW t : Nat))

/-- 07 R193, 09 R244: the quotient truncated toward zero; every bit set for a divisor of 0. -/
def divI (a b : Int) : Int := if b = 0 then -1 else a.tdiv b
def remI (a b : Int) : Int := if b = 0 then a else a - b * a.tdiv b
def divV (t : Nat) (a b : Word) : Word := dstW t (divI (srcI t a) (srcI t b))
def remV (t : Nat) (a b : Word) : Word := dstW t (remI (srcI t a) (srcI t b))

/-- 09 R245: DZ when the divisor is 0. -/
def dzFl (t : Nat) (b : Word) : Fl := if srcI t b = 0 then flDZ else 0

/-- The bits of an `n`-bit pattern, the least significant first. -/
def bitList (n x : Nat) : List Bool := (List.range n).map x.testBit
def ofBits (l : List Bool) : Nat := l.foldr (fun b a => (if b then 1 else 0) + 2 * a) 0

def clzN (w x : Nat) : Nat := ((bitList w x).reverse.takeWhile (!·)).length
def ctzN (w x : Nat) : Nat := ((bitList w x).takeWhile (!·)).length
def popcN (w x : Nat) : Nat := ((bitList w x).filter id).length
def brevN (w x : Nat) : Nat := ofBits (bitList w x).reverse
def bswapN (n x : Nat) : Nat := ((List.range n).map fun j => x / 2 ^ (8 * j) % 256 * 2 ^ (8 * (n - 1 - j))).foldl (· + ·) 0

def clzV (t : Nat) (a : Word) : Word := dstN t (clzN (tyW t) (low t a))
def ctzV (t : Nat) (a : Word) : Word := dstN t (ctzN (tyW t) (low t a))
def popcV (t : Nat) (a : Word) : Word := dstN t (popcN (tyW t) (low t a))
def brevV (t : Nat) (a : Word) : Word := dstN t (brevN (tyW t) (low t a))
def bswapV (t : Nat) (a : Word) : Word := dstN t (bswapN (tyBytes t) (low t a))
def extV (t : Nat) (a : Word) : Word := dstN t (low t a)

/-- A binary operation of class 0. -/
def alu2 (f : Nat → Word → Word → Word) (d a b : BitVec 5) (t : BitVec 3) : M Unit := do
  issue [d, a, b]
  retire d (f t.toNat (← rg a) (← rg b)) 4

/-- A unary operation of class 0. -/
def alu1 (f : Nat → Word → Word) (d a : BitVec 5) (t : BitVec 3) : M Unit := do
  issue [d, a]
  retire d (f t.toNat (← rg a)) 4

/-- DIV and REM, with their flag. -/
def aluDiv (f : Nat → Word → Word → Word) (d a b : BitVec 5) (t : BitVec 3) : M Unit := do
  issue [d, a, b]
  let y ← rg b
  retireF d (f t.toNat (← rg a) y, dzFl t.toNat y) 4

/-- An immediate operation of class 1 (09 R246). -/
def aluI (f : Word → Word) (d a : BitVec 5) : M Unit := do
  issue [d, a]
  retire d (f (← rg a)) 4

/-- A 16-bit form on x and y (08 R225). -/
def aluH (f : Word → Word → Word) (x y : BitVec 5) : M Unit := do
  issue [x, y]
  retire x (f (← rg x) (← rg y)) 2

def aluHI (f : Word → Word) (x : BitVec 5) : M Unit := do
  issue [x]
  retire x (f (← rg x)) 2

/-- imm12 sign-extended (09 R246). -/
def imm12 (i : BitVec 12) : Word := i.signExtend 64

def execAdd (d a b : BitVec 5) (t : BitVec 3) (s : State) : Host.Outcome State Fault Refusal := run (alu2 addV d a b t) s
def execSub (d a b : BitVec 5) (t : BitVec 3) (s : State) : Host.Outcome State Fault Refusal := run (alu2 subV d a b t) s
def execAnd (d a b : BitVec 5) (t : BitVec 3) (s : State) : Host.Outcome State Fault Refusal := run (alu2 andV d a b t) s
def execOr (d a b : BitVec 5) (t : BitVec 3) (s : State) : Host.Outcome State Fault Refusal := run (alu2 orV d a b t) s
def execXor (d a b : BitVec 5) (t : BitVec 3) (s : State) : Host.Outcome State Fault Refusal := run (alu2 xorV d a b t) s
def execAndn (d a b : BitVec 5) (t : BitVec 3) (s : State) : Host.Outcome State Fault Refusal := run (alu2 andnV d a b t) s
def execSll (d a b : BitVec 5) (t : BitVec 3) (s : State) : Host.Outcome State Fault Refusal := run (alu2 sllV d a b t) s
def execSrl (d a b : BitVec 5) (t : BitVec 3) (s : State) : Host.Outcome State Fault Refusal := run (alu2 srlV d a b t) s
def execSra (d a b : BitVec 5) (t : BitVec 3) (s : State) : Host.Outcome State Fault Refusal := run (alu2 sraV d a b t) s
def execRor (d a b : BitVec 5) (t : BitVec 3) (s : State) : Host.Outcome State Fault Refusal := run (alu2 rorV d a b t) s
def execSlt (d a b : BitVec 5) (t : BitVec 3) (s : State) : Host.Outcome State Fault Refusal := run (alu2 sltV d a b t) s
def execMin (d a b : BitVec 5) (t : BitVec 3) (s : State) : Host.Outcome State Fault Refusal := run (alu2 minV d a b t) s
def execMax (d a b : BitVec 5) (t : BitVec 3) (s : State) : Host.Outcome State Fault Refusal := run (alu2 maxV d a b t) s
def execMul (d a b : BitVec 5) (t : BitVec 3) (s : State) : Host.Outcome State Fault Refusal := run (alu2 mulV d a b t) s
def execMulh (d a b : BitVec 5) (t : BitVec 3) (s : State) : Host.Outcome State Fault Refusal := run (alu2 mulhV d a b t) s
def execDiv (d a b : BitVec 5) (t : BitVec 3) (s : State) : Host.Outcome State Fault Refusal := run (aluDiv divV d a b t) s
def execRem (d a b : BitVec 5) (t : BitVec 3) (s : State) : Host.Outcome State Fault Refusal := run (aluDiv remV d a b t) s
def execClz (d a : BitVec 5) (t : BitVec 3) (s : State) : Host.Outcome State Fault Refusal := run (alu1 clzV d a t) s
def execCtz (d a : BitVec 5) (t : BitVec 3) (s : State) : Host.Outcome State Fault Refusal := run (alu1 ctzV d a t) s
def execPopc (d a : BitVec 5) (t : BitVec 3) (s : State) : Host.Outcome State Fault Refusal := run (alu1 popcV d a t) s
def execBrev (d a : BitVec 5) (t : BitVec 3) (s : State) : Host.Outcome State Fault Refusal := run (alu1 brevV d a t) s
def execBswap (d a : BitVec 5) (t : BitVec 3) (s : State) : Host.Outcome State Fault Refusal := run (alu1 bswapV d a t) s
def execSext (d a : BitVec 5) (t : BitVec 3) (s : State) : Host.Outcome State Fault Refusal := run (alu1 extV d a t) s
def execZext (d a : BitVec 5) (t : BitVec 3) (s : State) : Host.Outcome State Fault Refusal := run (alu1 extV d a t) s

/-- SEL (09 R244): all 64 bits of g_a when g_d ≠ 0, else of g_b. -/
def selV (d a b : Word) : Word := if d ≠ 0 then a else b
def execSel (d a b : BitVec 5) (_ : BitVec 3) (s : State) : Host.Outcome State Fault Refusal := run (do
  issue [d, a, b]
  retire d (selV (← rg d) (← rg a) (← rg b)) 4) s

def execAddi (d a : BitVec 5) (i : BitVec 12) (s : State) : Host.Outcome State Fault Refusal := run (aluI ((· + imm12 i)) d a) s
def execAndi (d a : BitVec 5) (i : BitVec 12) (s : State) : Host.Outcome State Fault Refusal := run (aluI ((· &&& imm12 i)) d a) s
def execOri (d a : BitVec 5) (i : BitVec 12) (s : State) : Host.Outcome State Fault Refusal := run (aluI ((· ||| imm12 i)) d a) s
def execXori (d a : BitVec 5) (i : BitVec 12) (s : State) : Host.Outcome State Fault Refusal := run (aluI ((· ^^^ imm12 i)) d a) s
def execSlti (d a : BitVec 5) (i : BitVec 12) (s : State) : Host.Outcome State Fault Refusal := run (aluI (fun x => if x.slt (imm12 i) then 1 else 0) d a) s
def execSlli (d a : BitVec 5) (n : BitVec 6) (s : State) : Host.Outcome State Fault Refusal := run (aluI (fun x => x <<< n.toNat) d a) s
def execSrli (d a : BitVec 5) (n : BitVec 6) (s : State) : Host.Outcome State Fault Refusal := run (aluI (fun x => x >>> n.toNat) d a) s
def execSrai (d a : BitVec 5) (n : BitVec 6) (s : State) : Host.Outcome State Fault Refusal := run (aluI (fun x => x.sshiftRight n.toNat) d a) s

/-- 09 R247: SignExtend(imm17) × 2^12. -/
def upper (i : BitVec 17) : Word := i.signExtend 64 <<< 12
def execLdhi (d : BitVec 5) (i : BitVec 17) (s : State) : Host.Outcome State Fault Refusal := run (do
  issue [d]
  retire d (upper i) 4) s
def execAddpc (d : BitVec 5) (i : BitVec 17) (s : State) : Host.Outcome State Fault Refusal := run (do
  issue [d]
  retire d ((← me).pc + upper i) 4) s

def execAddH (y x : BitVec 5) (s : State) : Host.Outcome State Fault Refusal := run (aluH (· + ·) x y) s
def execSubH (y x : BitVec 5) (s : State) : Host.Outcome State Fault Refusal := run (aluH (· - ·) x y) s
def execAndH (y x : BitVec 5) (s : State) : Host.Outcome State Fault Refusal := run (aluH (· &&& ·) x y) s
def execOrH (y x : BitVec 5) (s : State) : Host.Outcome State Fault Refusal := run (aluH (· ||| ·) x y) s
def execXorH (y x : BitVec 5) (s : State) : Host.Outcome State Fault Refusal := run (aluH (· ^^^ ·) x y) s
def execAddiH (i : BitVec 6) (x : BitVec 5) (s : State) : Host.Outcome State Fault Refusal := run (aluHI (fun v => v + i.signExtend 64) x) s
def execSlliH (i : BitVec 6) (x : BitVec 5) (s : State) : Host.Outcome State Fault Refusal := run (aluHI (fun v => v <<< i.toNat) x) s
def execSrliH (i : BitVec 6) (x : BitVec 5) (s : State) : Host.Outcome State Fault Refusal := run (aluHI (fun v => v >>> i.toNat) x) s

end Sys2Proof.Machine
end

