-- ==== Sys2Proof/Machine/VecInt.lean ====
section
/-! DEFINITION. Vector integer arithmetic (10 R288), integer compares (10 R289) and integer reductions (10 R293). Each instruction has its effect on the registers, which a VLOOP replay shares, and its meaning. -/

namespace Sys2Proof.Machine

/-- An issue check that fails (10 R284): ILL with `tval` 0. -/
def illAtIssue {α : Type} : M α := trap 1 0

/-- 10 R284: a group of `g` registers starts at a multiple of `g`. -/
def needGroup (r : BitVec 5) (g : Nat) : M Unit := if r.toNat % g ≠ 0 then illAtIssue else pure ()

/-- The elements an instruction acts on: an `.xm` one is unmasked (07 R188). -/
def actElems (xm : Bool) (m : BitVec 3) : M (List Nat) := do
  let st ← me
  return st.active (if xm then 0 else m.toNat) st.vl

/-- An element-by-element instruction: element widths of the destination and of the first source, whether it reads the old destination, and what it does with the bits of a, b and the old element. Sources are read before anything is written (10 R283). -/
def mapElems (wd wa : Nat) (d a : BitVec 5) (b : Src2) (m : BitVec 3) (xm old : Bool) (f : Nat → Nat → Nat → Nat × Fl) : M Unit := do
  let k ← curKey
  let st ← me
  let w := st.sew
  let is ← actElems xm m
  useElems a.toNat wa is
  b.use w is
  if old then useElems d.toNat wd is
  let n := vlenOf k
  let rs := is.map fun i => (i, f (st.velem n a.toNat wa i) (b.bits st n w i) (st.velem n d.toNat wd i))
  putElems d.toNat wd (rs.map fun r => (r.1, r.2.1))
  flagElems (rs.map fun r => (r.1, r.2.2))
  putXm xm m (rs.map fun r => (r.1, r.2.2))

/-- An integer instruction of R288 at one element width: `f` on the exact values a, b and the old element, with W; the result is taken modulo 2^W. -/
def intOp (d a b : BitVec 5) (m : BitVec 3) (xm z : Bool) (form : BitVec 2) (old uimm : Bool) (f : Nat → Int → Int → Int → Int × Fl) : M Unit := do
  let w := (← me).sew
  let x ← src2 form b uimm
  mapElems w w d a x m xm old fun p q c =>
    let r := f (8 * w) (intOf (!z) (8 * w) p) (intOf (!z) (8 * w) q) (intOf (!z) (8 * w) c)
    (lowBits (8 * w) r.1, r.2)

/-- A widening multiply (10 R284, R288): the destination group has elements of 2W bits. -/
def widenOp (d a b : BitVec 5) (m : BitVec 3) (z : Bool) (form : BitVec 2) (acc : Bool) : M Unit := do
  let w := (← me).sew
  if w = 8 then illAtIssue
  needGroup d 2
  let x ← src2 form b false
  mapElems (2 * w) w d a x m false acc fun p q c =>
    (lowBits (16 * w) (intOf (!z) (8 * w) p * intOf (!z) (8 * w) q + (if acc then intOf (!z) (16 * w) c else 0)), 0)

/-- A shift (10 R288): the count is b mod W. -/
def shiftOp (d a b : BitVec 5) (m : BitVec 3) (form : BitVec 2) (f : Nat → Nat → Nat → Nat) : M Unit := do
  let w := (← me).sew
  let x ← src2 form b true
  mapElems w w d a x m false false fun p q _ => (f (8 * w) p (q % (8 * w)) % 2 ^ (8 * w), 0)

/-- A result and whether it was clamped (10 R288). -/
def satFl (r : Int × Bool) : Int × Fl := (r.1, if r.2 then flSAT else 0)

def vaddC (d a b : BitVec 5) (m : BitVec 3) (w : Bool) (f : BitVec 2) : M Unit := intOp d a b m false w f false false fun _ x y _ => (x + y, 0)
def vsubC (d a b : BitVec 5) (m : BitVec 3) (w : Bool) (f : BitVec 2) : M Unit := intOp d a b m false w f false false fun _ x y _ => (x - y, 0)
def vmulC (d a b : BitVec 5) (m : BitVec 3) (w : Bool) (f : BitVec 2) : M Unit := intOp d a b m false w f false false fun _ x y _ => (x * y, 0)
def vmulhC (d a b : BitVec 5) (m : BitVec 3) (w : Bool) (f : BitVec 2) : M Unit := intOp d a b m false w f false false fun n x y _ => (x * y / (2 ^ n : Nat), 0)
def vwmulC (d a b : BitVec 5) (m : BitVec 3) (w : Bool) (f : BitVec 2) : M Unit := widenOp d a b m w f false
def vwmacC (d a b : BitVec 5) (m : BitVec 3) (w : Bool) (f : BitVec 2) : M Unit := widenOp d a b m w f true
def vmacC (d a b : BitVec 5) (m : BitVec 3) (w : Bool) (f : BitVec 2) : M Unit := intOp d a b m false w f true false fun _ x y c => (c + x * y, 0)
def vdivC (d a b : BitVec 5) (m : BitVec 3) (w x : Bool) (f : BitVec 2) : M Unit :=
  intOp d a b m x w f false false fun _ x y _ => (divI x y, if y = 0 then flDZ else 0)
def vremC (d a b : BitVec 5) (m : BitVec 3) (w x : Bool) (f : BitVec 2) : M Unit :=
  intOp d a b m x w f false false fun _ x y _ => (remI x y, if y = 0 then flDZ else 0)
def vminC (d a b : BitVec 5) (m : BitVec 3) (w : Bool) (f : BitVec 2) : M Unit := intOp d a b m false w f false false fun _ x y _ => (min x y, 0)
def vmaxC (d a b : BitVec 5) (m : BitVec 3) (w : Bool) (f : BitVec 2) : M Unit := intOp d a b m false w f false false fun _ x y _ => (max x y, 0)

/-- A bitwise instruction (10 R288). -/
def bitOp (d a b : BitVec 5) (m : BitVec 3) (form : BitVec 2) (f : Nat → Nat → Nat) : M Unit := do
  let w := (← me).sew
  let x ← src2 form b false
  mapElems w w d a x m false false fun p q _ => (f p q, 0)

def vandC (d a b : BitVec 5) (m : BitVec 3) (_ : Bool) (f : BitVec 2) : M Unit := bitOp d a b m f (· &&& ·)
def vorC (d a b : BitVec 5) (m : BitVec 3) (_ : Bool) (f : BitVec 2) : M Unit := bitOp d a b m f (· ||| ·)
def vxorC (d a b : BitVec 5) (m : BitVec 3) (_ : Bool) (f : BitVec 2) : M Unit := bitOp d a b m f (· ^^^ ·)
def vsllC (d a b : BitVec 5) (m : BitVec 3) (_ : Bool) (f : BitVec 2) : M Unit := shiftOp d a b m f fun _ x n => x * 2 ^ n
def vsrlC (d a b : BitVec 5) (m : BitVec 3) (_ : Bool) (f : BitVec 2) : M Unit := shiftOp d a b m f fun _ x n => x / 2 ^ n
def vsraC (d a b : BitVec 5) (m : BitVec 3) (_ : Bool) (f : BitVec 2) : M Unit :=
  shiftOp d a b m f fun w x n => lowBits w (sext x w / (2 ^ n : Nat))
def vsaddC (d a b : BitVec 5) (m : BitVec 3) (w x : Bool) (f : BitVec 2) : M Unit :=
  intOp d a b m x w f false false fun n x y _ => satFl (satI (!w) n (x + y))
def vssubC (d a b : BitVec 5) (m : BitVec 3) (w x : Bool) (f : BitVec 2) : M Unit :=
  intOp d a b m x w f false false fun n x y _ => satFl (satI (!w) n (x - y))

/-- VNSHR: the source group has elements of 2W bits; the count is b mod 2W (10 R284, R288). -/
def vnshrC (d a b : BitVec 5) (m : BitVec 3) (z x : Bool) (f : BitVec 2) : M Unit := do
  let st ← me
  let w := st.sew
  if w = 8 then illAtIssue
  needGroup a 2
  let y ← src2 f b true
  mapElems w (2 * w) d a y m x false fun p q _ =>
    let r := satFl (satI (!z) (8 * w) (fxShift (intOf (!z) (16 * w) p) (q % (16 * w)) st.xrm))
    (lowBits (8 * w) r.1, r.2)

/-- VCMP: c is 0 eq, 1 ne, 2 lt, 3 le (10 R289). -/
def vcmpC (c : BitVec 2) (d : BitVec 3) (a b : BitVec 5) (m : BitVec 3) (z : Bool) (f : BitVec 2) : M Unit := do
  let k ← curKey
  let st ← me
  let w := st.sew
  let x ← src2 f b false
  let is ← actElems false m
  useElems a.toNat w is
  x.use w is
  let n := vlenOf k
  modMe fun s => s.writeMask d.toNat m.toNat st.vl fun i =>
    let p := intOf (!z) (8 * w) (st.velem n a.toNat w i)
    let q := intOf (!z) (8 * w) (x.bits st n w i)
    match c.toNat with
    | 0 => decide (p = q)
    | 1 => decide (p ≠ q)
    | 2 => decide (p < q)
    | _ => decide (p ≤ q)

/-- One step of an integer reduction, by VRED.op: 0 sum, 1 min, 2 max, 3 and, 4 or, 5 xor. -/
def redStep (o : Nat) (sg : Bool) (w acc x : Nat) : Nat :=
  match o with
  | 0 => (acc + x) % 2 ^ w
  | 1 => lowBits w (min (intOf sg w acc) (intOf sg w x))
  | 2 => lowBits w (max (intOf sg w acc) (intOf sg w x))
  | 3 => acc &&& x
  | 4 => acc ||| x
  | _ => acc ^^^ x

/-- VRED (10 R293). -/
def vredC (o : BitVec 3) (d a b : BitVec 5) (m : BitVec 3) (z : Bool) : M Unit := do
  let k ← curKey
  let st ← me
  let w := st.sew
  if st.vl = 0 then pure ()
  else
    let is ← actElems false m
    useElems a.toNat w is
    useElems b.toNat w [0]
    let n := vlenOf k
    putElems d.toNat w [(0, (is.map (st.velem n a.toNat w)).foldl (redStep o.toNat (!z) (8 * w)) (st.velem n b.toNat w 0))]

def execVadd (d a b : BitVec 5) (m : BitVec 3) (w : Bool) (f : BitVec 2) (s : State) : Host.Outcome State Fault Refusal := run (vec (.vadd d a b m w f) 0 (vaddC d a b m w f)) s
def execVsub (d a b : BitVec 5) (m : BitVec 3) (w : Bool) (f : BitVec 2) (s : State) : Host.Outcome State Fault Refusal := run (vec (.vsub d a b m w f) 0 (vsubC d a b m w f)) s
def execVmul (d a b : BitVec 5) (m : BitVec 3) (w : Bool) (f : BitVec 2) (s : State) : Host.Outcome State Fault Refusal := run (vec (.vmul d a b m w f) 0 (vmulC d a b m w f)) s
def execVmulh (d a b : BitVec 5) (m : BitVec 3) (w : Bool) (f : BitVec 2) (s : State) : Host.Outcome State Fault Refusal := run (vec (.vmulh d a b m w f) 0 (vmulhC d a b m w f)) s
def execVwmul (d a b : BitVec 5) (m : BitVec 3) (w : Bool) (f : BitVec 2) (s : State) : Host.Outcome State Fault Refusal := run (vec (.vwmul d a b m w f) 0 (vwmulC d a b m w f)) s
def execVwmac (d a b : BitVec 5) (m : BitVec 3) (w : Bool) (f : BitVec 2) (s : State) : Host.Outcome State Fault Refusal := run (vec (.vwmac d a b m w f) 0 (vwmacC d a b m w f)) s
def execVmac (d a b : BitVec 5) (m : BitVec 3) (w : Bool) (f : BitVec 2) (s : State) : Host.Outcome State Fault Refusal := run (vec (.vmac d a b m w f) 0 (vmacC d a b m w f)) s
def execVmin (d a b : BitVec 5) (m : BitVec 3) (w : Bool) (f : BitVec 2) (s : State) : Host.Outcome State Fault Refusal := run (vec (.vmin d a b m w f) 0 (vminC d a b m w f)) s
def execVmax (d a b : BitVec 5) (m : BitVec 3) (w : Bool) (f : BitVec 2) (s : State) : Host.Outcome State Fault Refusal := run (vec (.vmax d a b m w f) 0 (vmaxC d a b m w f)) s
def execVand (d a b : BitVec 5) (m : BitVec 3) (w : Bool) (f : BitVec 2) (s : State) : Host.Outcome State Fault Refusal := run (vec (.vand d a b m w f) 0 (vandC d a b m w f)) s
def execVor (d a b : BitVec 5) (m : BitVec 3) (w : Bool) (f : BitVec 2) (s : State) : Host.Outcome State Fault Refusal := run (vec (.vor d a b m w f) 0 (vorC d a b m w f)) s
def execVxor (d a b : BitVec 5) (m : BitVec 3) (w : Bool) (f : BitVec 2) (s : State) : Host.Outcome State Fault Refusal := run (vec (.vxor d a b m w f) 0 (vxorC d a b m w f)) s
def execVsll (d a b : BitVec 5) (m : BitVec 3) (w : Bool) (f : BitVec 2) (s : State) : Host.Outcome State Fault Refusal := run (vec (.vsll d a b m w f) 0 (vsllC d a b m w f)) s
def execVsrl (d a b : BitVec 5) (m : BitVec 3) (w : Bool) (f : BitVec 2) (s : State) : Host.Outcome State Fault Refusal := run (vec (.vsrl d a b m w f) 0 (vsrlC d a b m w f)) s
def execVsra (d a b : BitVec 5) (m : BitVec 3) (w : Bool) (f : BitVec 2) (s : State) : Host.Outcome State Fault Refusal := run (vec (.vsra d a b m w f) 0 (vsraC d a b m w f)) s
def execVdiv (d a b : BitVec 5) (m : BitVec 3) (w x : Bool) (f : BitVec 2) (s : State) : Host.Outcome State Fault Refusal := run (vec (.vdiv d a b m w x f) 1 (vdivC d a b m w x f)) s
def execVrem (d a b : BitVec 5) (m : BitVec 3) (w x : Bool) (f : BitVec 2) (s : State) : Host.Outcome State Fault Refusal := run (vec (.vrem d a b m w x f) 1 (vremC d a b m w x f)) s
def execVsadd (d a b : BitVec 5) (m : BitVec 3) (w x : Bool) (f : BitVec 2) (s : State) : Host.Outcome State Fault Refusal := run (vec (.vsadd d a b m w x f) 0 (vsaddC d a b m w x f)) s
def execVssub (d a b : BitVec 5) (m : BitVec 3) (w x : Bool) (f : BitVec 2) (s : State) : Host.Outcome State Fault Refusal := run (vec (.vssub d a b m w x f) 0 (vssubC d a b m w x f)) s
def execVnshr (d a b : BitVec 5) (m : BitVec 3) (w x : Bool) (f : BitVec 2) (s : State) : Host.Outcome State Fault Refusal := run (vec (.vnshr d a b m w x f) 0 (vnshrC d a b m w x f)) s
def execVcmp (c : BitVec 2) (d : BitVec 3) (a b : BitVec 5) (m : BitVec 3) (w : Bool) (f : BitVec 2) (s : State) : Host.Outcome State Fault Refusal := run (vec (.vcmp c d a b m w f) 0 (vcmpC c d a b m w f)) s
def execVred (o : BitVec 3) (d a b : BitVec 5) (m : BitVec 3) (w : Bool) (s : State) : Host.Outcome State Fault Refusal := run (vec (.vred o d a b m w) 0 (vredC o d a b m w)) s

end Sys2Proof.Machine
end

