-- ==== Sys2Proof/Machine/VecFp.lean ====
section
/-! DEFINITION. Vector floating-point arithmetic, compares, conversion, special functions and float reductions (10 R289 to R293, 07 R203). -/

namespace Sys2Proof.Machine

/-- The type code of the format of SEW and ALT (10 R290); ALT = 1 under SEW 4 or 8 fails the issue check (08 R220). -/
def fcode (w : Nat) (alt : Bool) : M Nat :=
  match w with
  | 8 => if alt then illAtIssue else pure 8
  | 4 => if alt then illAtIssue else pure 9
  | 2 => pure (if alt then 11 else 10)
  | _ => pure (if alt then 13 else 12)

/-- An integer exactly in a format. -/
def Fmt.ofInt (f : Fmt) (i : Int) : Nat := (f.round 0 (decide (i < 0)) i.natAbs 0).1

/-- The last source of a float instruction: FORM 2 is converted to the format (10 R290). -/
def fsrc2 (f : Fmt) (form : BitVec 2) (b : BitVec 5) : M Src2 := do
  match ← src2 form b false with
  | .imm i => return .scalar (f.ofInt i)
  | x => return x

/-- A float instruction of R290 on the bits of a, b and the old element. -/
def fpOp (d a b : BitVec 5) (m : BitVec 3) (alt xm : Bool) (form : BitVec 2) (old : Bool) (g : Fmt → Nat → Nat → Nat → Nat → Nat × Fl) : M Unit := do
  let st ← me
  let w := st.sew
  let f := fmtOf (← fcode w alt)
  let x ← fsrc2 f form b
  mapElems w w d a x m xm old fun p q c => g f st.frm p q c

def vfaddC (d a b : BitVec 5) (m : BitVec 3) (w x : Bool) (f : BitVec 2) : M Unit := fpOp d a b m w x f false fun t md p q _ => t.arith 0 md p q
def vfsubC (d a b : BitVec 5) (m : BitVec 3) (w x : Bool) (f : BitVec 2) : M Unit := fpOp d a b m w x f false fun t md p q _ => t.arith 1 md p q
def vfmulC (d a b : BitVec 5) (m : BitVec 3) (w x : Bool) (f : BitVec 2) : M Unit := fpOp d a b m w x f false fun t md p q _ => t.arith 2 md p q
def vfdivC (d a b : BitVec 5) (m : BitVec 3) (w x : Bool) (f : BitVec 2) : M Unit := fpOp d a b m w x f false fun t md p q _ => t.arith 3 md p q

/-- A float instruction of one source. -/
def fpUn (d a : BitVec 5) (m : BitVec 3) (alt xm : Bool) (g : Fmt → Nat → Nat → Nat × Fl) : M Unit := do
  let st ← me
  let w := st.sew
  let f := fmtOf (← fcode w alt)
  mapElems w w d a (.imm 0) m xm false fun p _ _ => g f st.frm p

def vfsqrtC (d a : BitVec 5) (m : BitVec 3) (w x : Bool) : M Unit := fpUn d a m w x fun t md p => t.sqrt md (t.unpack p)
def vfmaC (d a b : BitVec 5) (m : BitVec 3) (w x : Bool) (f : BitVec 2) : M Unit :=
  fpOp d a b m w x f true fun t md p q c => t.fma md (t.unpack p) (t.unpack q) (t.unpack c)
def vfmsC (d a b : BitVec 5) (m : BitVec 3) (w x : Bool) (f : BitVec 2) : M Unit :=
  fpOp d a b m w x f true fun t md p q c => t.fma md (t.unpack p) (t.unpack q) (t.unpack c).neg
def vfnmaC (d a b : BitVec 5) (m : BitVec 3) (w x : Bool) (f : BitVec 2) : M Unit :=
  fpOp d a b m w x f true fun t md p q c => t.fma md (t.unpack p).neg (t.unpack q) (t.unpack c)
def vfminC (d a b : BitVec 5) (m : BitVec 3) (w x : Bool) (f : BitVec 2) : M Unit := fpOp d a b m w x f false fun t _ p q _ => t.minmax false p q
def vfmaxC (d a b : BitVec 5) (m : BitVec 3) (w x : Bool) (f : BitVec 2) : M Unit := fpOp d a b m w x f false fun t _ p q _ => t.minmax true p q

def vfclassC (d a : BitVec 5) (m : BitVec 3) (w : Bool) : M Unit := do
  if (← me).sew = 1 then illAtIssue
  fpUn d a m w false fun t _ p => (t.classOf p, 0)

/-- VFCMP: c is 0 eq, 1 lt, 2 le, 3 un (10 R289, 09 R251). -/
def vfcmpC (c : BitVec 2) (d : BitVec 3) (a b : BitVec 5) (m : BitVec 3) (alt : Bool) : M Unit := do
  let k ← curKey
  let st ← me
  let w := st.sew
  let f := fmtOf (← fcode w alt)
  let is ← actElems false m
  useElems a.toNat w is
  useElems b.toNat w is
  let n := vlenOf k
  let r := fun i => f.cmp c.toNat (st.velem n a.toNat w i) (st.velem n b.toNat w i)
  modMe fun s => s.writeMask d.toNat m.toNat st.vl fun i => (r i).1
  flagElems (is.map fun i => (i, (r i).2))

/-- 10 R284: the size of the group of a converted destination. -/
def cvtGroup (dt w : Nat) : Nat := max 1 (tyBytes dt / w)

/-- VFCVT (10 R291). -/
def vfcvtC (d a : BitVec 5) (v : BitVec 4) (u : Bool) (m : BitVec 3) (alt xm : Bool) : M Unit := do
  let st ← me
  let w := st.sew
  let src ← fcode w alt
  needGroup d (cvtGroup v.toNat w)
  mapElems (tyBytes v.toNat) w d a (.imm 0) m xm false fun p _ _ => convert src v.toNat u st.frm p

/-- VSFN (10 R292): SEW 4 and 8 with ALT 0. -/
def vsfnC (d a n : BitVec 5) (m : BitVec 3) (alt xm : Bool) : M Unit := do
  let w := (← me).sew
  if decide (w < 4) || alt then illAtIssue
  fpUn d a m false xm fun t _ p => t.sfn n.toNat p

/-- 07 R203, VFREDO: additions in ascending order, with the flags of each by element. -/
def redOrdered (f : Fmt) (mode : Nat) (acc : Nat) : List (Nat × Nat) → Nat × List (Nat × Fl)
  | [] => (acc, [])
  | (i, x) :: xs =>
    let r := f.arith 0 mode acc x
    let t := redOrdered f mode r.1 xs
    (t.1, (i, r.2) :: t.2)

/-- 07 R203: one level of the tree; a pair raises its flags on its lower index (10 R293). -/
def pairUp (f : Fmt) (mode : Nat) : List (Nat × Nat) → List (Nat × Nat) × List (Nat × Fl)
  | (i, x) :: (_, y) :: t =>
    let r := f.arith 0 mode x y
    let q := pairUp f mode t
    ((i, r.1) :: q.1, (i, r.2) :: q.2)
  | _ => ([], [])

/-- The tree of 2^levels elements, each with its lowest element index. -/
def redTree (f : Fmt) (mode : Nat) : Nat → List (Nat × Nat) → Nat × List (Nat × Fl)
  | 0, t => ((nth (0, 0) t 0).2, [])
  | n + 1, t =>
    let p := pairUp f mode t
    let r := redTree f mode n p.1
    (r.1, p.2 ++ r.2)

/-- A float reduction into element 0 (10 R293). -/
def fpRed (d a b : BitVec 5) (m : BitVec 3) (alt xm : Bool) (g : Fmt → Nat → Nat → Nat → (Nat → Option Nat) → Nat × List (Nat × Fl)) : M Unit := do
  let k ← curKey
  let st ← me
  let w := st.sew
  let f := fmtOf (← fcode w alt)
  if st.vl = 0 then putXm xm m []
  else
    let is ← actElems xm m
    useElems a.toNat w is
    useElems b.toNat w [0]
    let n := vlenOf k
    let r := g f st.frm st.vl (st.velem n b.toNat w 0) fun i => if is.contains i then some (st.velem n a.toNat w i) else none
    putElems d.toNat w [(0, r.1)]
    flagElems r.2
    putXm xm m r.2

def vfredoC (d a b : BitVec 5) (m : BitVec 3) (w x : Bool) : M Unit := fpRed d a b m w x fun f mode vl init el =>
  redOrdered f mode init ((List.range vl).filterMap fun i => (el i).map fun v => (i, v))

/-- The final addition of the initial value raises its flags on element 0. -/
def vfredtC (d a b : BitVec 5) (m : BitVec 3) (w x : Bool) : M Unit := fpRed d a b m w x fun f mode vl init el =>
  let levels := bitLen (vl - 1)
  let t := redTree f mode levels ((List.range (2 ^ levels)).map fun i => (i, if i < vl then (el i).getD (f.zeroCode true) else f.zeroCode true))
  let z := f.arith 0 mode init t.1
  (z.1, t.2 ++ [(0, z.2)])

def execVfadd (d a b : BitVec 5) (m : BitVec 3) (w x : Bool) (f : BitVec 2) (s : State) : Host.Outcome State Fault Refusal := run (vec (.vfadd d a b m w x f) 0 (vfaddC d a b m w x f)) s
def execVfsub (d a b : BitVec 5) (m : BitVec 3) (w x : Bool) (f : BitVec 2) (s : State) : Host.Outcome State Fault Refusal := run (vec (.vfsub d a b m w x f) 0 (vfsubC d a b m w x f)) s
def execVfmul (d a b : BitVec 5) (m : BitVec 3) (w x : Bool) (f : BitVec 2) (s : State) : Host.Outcome State Fault Refusal := run (vec (.vfmul d a b m w x f) 0 (vfmulC d a b m w x f)) s
def execVfdiv (d a b : BitVec 5) (m : BitVec 3) (w x : Bool) (f : BitVec 2) (s : State) : Host.Outcome State Fault Refusal := run (vec (.vfdiv d a b m w x f) 1 (vfdivC d a b m w x f)) s
def execVfma (d a b : BitVec 5) (m : BitVec 3) (w x : Bool) (f : BitVec 2) (s : State) : Host.Outcome State Fault Refusal := run (vec (.vfma d a b m w x f) 0 (vfmaC d a b m w x f)) s
def execVfms (d a b : BitVec 5) (m : BitVec 3) (w x : Bool) (f : BitVec 2) (s : State) : Host.Outcome State Fault Refusal := run (vec (.vfms d a b m w x f) 0 (vfmsC d a b m w x f)) s
def execVfnma (d a b : BitVec 5) (m : BitVec 3) (w x : Bool) (f : BitVec 2) (s : State) : Host.Outcome State Fault Refusal := run (vec (.vfnma d a b m w x f) 0 (vfnmaC d a b m w x f)) s
def execVfmin (d a b : BitVec 5) (m : BitVec 3) (w x : Bool) (f : BitVec 2) (s : State) : Host.Outcome State Fault Refusal := run (vec (.vfmin d a b m w x f) 0 (vfminC d a b m w x f)) s
def execVfmax (d a b : BitVec 5) (m : BitVec 3) (w x : Bool) (f : BitVec 2) (s : State) : Host.Outcome State Fault Refusal := run (vec (.vfmax d a b m w x f) 0 (vfmaxC d a b m w x f)) s
def execVfsqrt (d a : BitVec 5) (m : BitVec 3) (w x : Bool) (s : State) : Host.Outcome State Fault Refusal := run (vec (.vfsqrt d a m w x) 1 (vfsqrtC d a m w x)) s
def execVfclass (d a : BitVec 5) (m : BitVec 3) (w : Bool) (s : State) : Host.Outcome State Fault Refusal := run (vec (.vfclass d a m w) 0 (vfclassC d a m w)) s
def execVfcmp (c : BitVec 2) (d : BitVec 3) (a b : BitVec 5) (m : BitVec 3) (w : Bool) (s : State) : Host.Outcome State Fault Refusal := run (vec (.vfcmp c d a b m w) 0 (vfcmpC c d a b m w)) s
def execVfcvt (d a : BitVec 5) (v : BitVec 4) (u : Bool) (m : BitVec 3) (w x : Bool) (s : State) : Host.Outcome State Fault Refusal := run (vec (.vfcvt d a v u m w x) 0 (vfcvtC d a v u m w x)) s
def execVsfn (d a n : BitVec 5) (m : BitVec 3) (w x : Bool) (s : State) : Host.Outcome State Fault Refusal := run (vec (.vsfn d a n m w x) 3 (vsfnC d a n m w x)) s
def execVfredo (d a b : BitVec 5) (m : BitVec 3) (w x : Bool) (s : State) : Host.Outcome State Fault Refusal := run (vec (.vfredo d a b m w x) 0 (vfredoC d a b m w x)) s
def execVfredt (d a b : BitVec 5) (m : BitVec 3) (w x : Bool) (s : State) : Host.Outcome State Fault Refusal := run (vec (.vfredt d a b m w x) 0 (vfredtC d a b m w x)) s

end Sys2Proof.Machine
end

