-- ==== Sys2Proof/Machine/VecPerm.lean ====
section
/-! DEFINITION. Mask instructions (10 R300), permutes and moves (10 R301, R302), VSETL (10 R281, R282), and VHAD (10 R303, R304). A mask register named as an operand is its stored content; `m0` is all ones only in the m field (02 R65). -/

namespace Sys2Proof.Machine

/-- The mask whose bits below `n` are given, and no other. -/
def maskOf (n : Nat) (p : Nat → Bool) : BitVec 2048 := BitVec.ofNat 2048 (bitsOf ((List.range n).filter p))

/-- A mask logic instruction (10 R300). -/
def maskOp (d a b : BitVec 3) (f : Bool → Bool → Bool) : M Unit :=
  modMe fun st => st.setMask d.toNat (maskOf st.vl fun i => f ((st.mreg a.toNat).getLsbD i) ((st.mreg b.toNat).getLsbD i))

def mandC (d a b : BitVec 3) : M Unit := maskOp d a b fun x y => x && y
def morC (d a b : BitVec 3) : M Unit := maskOp d a b fun x y => x || y
def mxorC (d a b : BitVec 3) : M Unit := maskOp d a b fun x y => x != y
def mandnC (d a b : BitVec 3) : M Unit := maskOp d a b fun x y => x && !y

/-- The set bits of a mask register below VL, rising. -/
def Strand.setBits (st : Strand) (a : BitVec 3) : List Nat := (List.range st.vl).filter (st.mreg a.toNat).getLsbD

def mpopcC (d : BitVec 5) (a : BitVec 3) : M Unit := do wg d (word ((← me).setBits a).length)
def mfirstC (d : BitVec 5) (a : BitVec 3) : M Unit := do
  match (← me).setBits a with
  | i :: _ => wg d (word i)
  | [] => wg d (word (2 ^ 64 - 1))

/-- The offset or index of R301, read unsigned. -/
def offOf (f : BitVec 2) (b : BitVec 5) : M Nat := do
  if f = 1#2 then return (← rg b).toNat else return b.toNat

/-- A permute: destination element and the source element or value that each receives. -/
inductive Pick where
  | elem (i : Nat)
  | val (x : Nat)

def Pick.src? (p : Pick) : Option Nat := match p with | .elem i => some i | .val _ => none

def permute (d a : BitVec 5) (xs : List (Nat × Pick)) : M Unit := do
  let k ← curKey
  let st ← me
  let w := st.sew
  let n := vlenOf k
  useElems a.toNat w (xs.filterMap fun x => x.2.src?)
  putElems d.toNat w (xs.map fun x => (x.1, match x.2 with | .elem i => st.velem n a.toNat w i | .val v => v))

def vslideupC (d a b : BitVec 5) (m : BitVec 3) (f : BitVec 2) : M Unit := do
  let k ← offOf f b
  let is ← actElems false m
  permute d a ((is.filter fun i => decide (k ≤ i)).map fun i => (i, .elem (i - k)))

/-- 10 R280: VLMAX for this instruction. -/
def curVlmax : M Nat := do return (← gs).vlmax (← curKey) (← me).sew

def vslidednC (d a b : BitVec 5) (m : BitVec 3) (f : BitVec 2) : M Unit := do
  let k ← offOf f b
  let is ← actElems false m
  let n ← curVlmax
  permute d a (is.map fun i => (i, if i + k < n then .elem (i + k) else .val 0))

def vgatherC (d a b : BitVec 5) (m : BitVec 3) : M Unit := do
  let is ← actElems false m
  let st ← me
  let k ← curKey
  let n ← curVlmax
  useElems b.toNat st.sew is
  permute d a (is.map fun i => (i, if st.velem (vlenOf k) b.toNat st.sew i < n then .elem (st.velem (vlenOf k) b.toNat st.sew i) else .val 0))

/-- Pair the elements of a list with their positions. -/
def enumFrom {α : Type} (n : Nat) : List α → List (Nat × α)
  | [] => []
  | x :: xs => (n, x) :: enumFrom (n + 1) xs

def vcompressC (d a : BitVec 5) (m : BitVec 3) : M Unit := do
  let is ← actElems false m
  permute d a ((enumFrom 0 is).map fun x => (x.1, .elem x.2))

def vexpandC (d a : BitVec 5) (m : BitVec 3) : M Unit := do
  let is ← actElems false m
  permute d a ((enumFrom 0 is).map fun x => (x.2, .elem x.1))

def vbcastC (d b : BitVec 5) (m : BitVec 3) (f : BitVec 2) : M Unit := do
  let is ← actElems false m
  let x ← src2 f b false
  let st ← me
  permute d 0 (is.map fun i => (i, .val (x.bits st 0 st.sew i)))

/-- VMVX: sign-extended to 64 bits; ignores VL. -/
def vmvxC (d a b : BitVec 5) (f : BitVec 2) : M Unit := do
  let k ← offOf f b
  let st ← me
  let w := st.sew
  if k < (← curVlmax) then
    useElems a.toNat w [k]
    let n := vlenOf (← curKey)
    wg d (wordI (sext (st.velem n a.toNat w k) (8 * w)))
  else wg d 0

def vinsC (d a b : BitVec 5) (f : BitVec 2) : M Unit := do
  let k ← offOf f b
  let st ← me
  if k < (← curVlmax) then putElems d.toNat st.sew [(k, (← rg a).toNat % 2 ^ (8 * st.sew))]

def viotaC (d : BitVec 5) (a m : BitVec 3) : M Unit := do
  let is ← actElems false m
  let st ← me
  permute d 0 (is.map fun i => (i, .val (((List.range i).filter (st.mreg a.toNat).getLsbD).length % 2 ^ (8 * st.sew))))

/-- VMERGE: every element below VL; the selector `m0` takes vb. -/
def vmergeC (d a b : BitVec 5) (m : BitVec 3) : M Unit := do
  let k ← curKey
  let st ← me
  let w := st.sew
  let n := vlenOf k
  let is := List.range st.vl
  useElems a.toNat w (is.filter fun i => !st.maskBit m.toNat i)
  useElems b.toNat w (is.filter (st.maskBit m.toNat))
  putElems d.toNat w (is.map fun i => (i, st.velem n (if st.maskBit m.toNat i then b else a).toNat w i))

/-- 10 R302, R304: VL must be a power of two. -/
def pow2 (n : Nat) : Bool := decide (n = 2 ^ (bitLen n - 1))

/-- The lowest `l` bits of `i` reversed. -/
def revBits (l i : Nat) : Nat := (List.range l).foldl (fun a j => a + (if i.testBit j then 2 ^ (l - 1 - j) else 0)) 0

/-- A fixed permutation of the VL elements, written where the destination is active (10 R302). -/
def permAll (d a : BitVec 5) (m : BitVec 3) (bad : Nat → Bool) (dst : Nat → Nat → Nat) : M Unit := do
  let st ← me
  let n := st.vl
  if n = 0 then pure ()
  else if !pow2 n || bad (bitLen n - 1) then trap 0xB (word n)
  else permute d a ((List.range n).filterMap fun i =>
    if st.maskBit m.toNat (dst n i) then some (dst n i, .elem i) else none)

def vpermsC (d a b : BitVec 5) (m : BitVec 3) (f : BitVec 2) : M Unit := do
  let k ← offOf f b
  permAll d a m (fun l => decide (l < k)) fun n i => i % 2 ^ k * (n / 2 ^ k) + i / 2 ^ k

def vbrevC (d a : BitVec 5) (m : BitVec 3) : M Unit := permAll d a m (fun _ => false) fun n i => revBits (bitLen n - 1) i

/-! VSETL. -/

/-- 10 R282. -/
def execVsetl (d a : BitVec 5) (w : BitVec 2) (sc : BitVec 3) (s : State) : Host.Outcome State Fault Refusal := run (do
  issueOn (.vsetl d a w sc) [d, a]
  if (← me).looping then stall
  let k ← curKey
  let vl := min (← rg a).toNat ((← gs).vlmax k (2 ^ w.toNat))
  modMe fun st => { st with vcfg := mkVcfg vl w.toNat sc.toNat }
  retire d (word vl) 4) s

/-! VHAD. -/

/-- One stage at distance h (10 R304): the pairs (i, i + h) with that bit of i clear. -/
def hadStage (f : Nat → Nat → (Nat × Fl) × (Nat × Fl)) (h : Nat) (xs : List Nat) : List Nat × List (Nat × Fl) :=
  let pr := fun i => f (nth 0 xs (i - i / h % 2 * h)) (nth 0 xs (i - i / h % 2 * h + h))
  ((List.range xs.length).map fun i => if i / h % 2 = 0 then (pr i).1.1 else (pr i).2.1,
   (List.range xs.length).filterMap fun i => if i / h % 2 = 0 then some (i, flOr (pr i).1.2 (pr i).2.2) else none)

def hadStages (f : Nat → Nat → (Nat × Fl) × (Nat × Fl)) (j : Nat) : Nat → List Nat → List Nat × List (Nat × Fl)
  | 0, xs => (xs, [])
  | n + 1, xs =>
    let r := hadStages f j n xs
    let q := hadStage f (2 ^ (j + n)) r.1
    (q.1, r.2 ++ q.2)

/-- 10 R303, R304. -/
def vhadC (d a : BitVec 5) (isInt alt cv sat : Bool) (sh : BitVec 5) (ot j nst : BitVec 4) : M Unit := do
  let k ← curKey
  let st ← me
  let w := st.sew
  let src ← fcode w alt
  if isInt && cv && (decide (8 ≤ ot.toNat) || decide (w < tyBytes ot.toNat)) then illAtIssue
  let wd := if cv then tyBytes ot.toNat else w
  if cv then needGroup d (cvtGroup ot.toNat w)
  let n := st.vl
  if n = 0 then pure ()
  else if !pow2 n || decide (n < 2 ^ (j.toNat + nst.toNat)) then trap 0xB (word n)
  else
    useElems a.toNat w (List.range n)
    let xs := (List.range n).map (st.velem (vlenOf k) a.toNat w)
    let fm := fmtOf src
    let pair := fun x y =>
      if isInt then (((x + y) % 2 ^ (8 * w), 0), ((x + 2 ^ (8 * w) - y) % 2 ^ (8 * w), 0))
      else (fm.arith 0 st.frm x y, fm.arith 1 st.frm x y)
    let r := hadStages pair j.toNat nst.toNat xs
    let out := fun (x : Nat) =>
      if !cv then (x, 0)
      else if isInt then
        let y := fxShift (intOf true (8 * w) x) sh.toNat st.xrm
        if sat then let z := satFl (satI (tySigned ot.toNat) (tyW ot.toNat) y); (lowBits (8 * wd) z.1, z.2)
        else (lowBits (8 * wd) y, 0)
      else convert src ot.toNat sat st.frm x
    let os := enumFrom 0 (r.1.map out)
    putElems d.toNat wd (os.map fun x => (x.1, x.2.1))
    flagElems (r.2 ++ os.map fun x => (x.1, x.2.2))

def execVhad (d a : BitVec 5) (isInt alt cv sat : Bool) (sh : BitVec 5) (ot j nst : BitVec 4) (s : State) : Host.Outcome State Fault Refusal :=
  run (do
    vec (.vhad d a isInt alt cv sat sh ot j nst) 0 (vhadC d a isInt alt cv sat sh ot j nst)
    next 4) s

def execMand (d a b : BitVec 3) (s : State) : Host.Outcome State Fault Refusal := run (vec (.mand d a b) 0 (mandC d a b)) s
def execMor (d a b : BitVec 3) (s : State) : Host.Outcome State Fault Refusal := run (vec (.mor d a b) 0 (morC d a b)) s
def execMxor (d a b : BitVec 3) (s : State) : Host.Outcome State Fault Refusal := run (vec (.mxor d a b) 0 (mxorC d a b)) s
def execMandn (d a b : BitVec 3) (s : State) : Host.Outcome State Fault Refusal := run (vec (.mandn d a b) 0 (mandnC d a b)) s
def execMpopc (d : BitVec 5) (a : BitVec 3) (s : State) : Host.Outcome State Fault Refusal := run (vec (.mpopc d a) 0 (mpopcC d a)) s
def execMfirst (d : BitVec 5) (a : BitVec 3) (s : State) : Host.Outcome State Fault Refusal := run (vec (.mfirst d a) 0 (mfirstC d a)) s
def execVslideup (d a b : BitVec 5) (m : BitVec 3) (f : BitVec 2) (s : State) : Host.Outcome State Fault Refusal := run (vec (.vslideup d a b m f) 0 (vslideupC d a b m f)) s
def execVslidedn (d a b : BitVec 5) (m : BitVec 3) (f : BitVec 2) (s : State) : Host.Outcome State Fault Refusal := run (vec (.vslidedn d a b m f) 0 (vslidednC d a b m f)) s
def execVperms (d a b : BitVec 5) (m : BitVec 3) (f : BitVec 2) (s : State) : Host.Outcome State Fault Refusal := run (vec (.vperms d a b m f) 0 (vpermsC d a b m f)) s
def execVgather (d a b : BitVec 5) (m : BitVec 3) (s : State) : Host.Outcome State Fault Refusal := run (vec (.vgather d a b m) 0 (vgatherC d a b m)) s
def execVmerge (d a b : BitVec 5) (m : BitVec 3) (s : State) : Host.Outcome State Fault Refusal := run (vec (.vmerge d a b m) 0 (vmergeC d a b m)) s
def execVcompress (d a : BitVec 5) (m : BitVec 3) (s : State) : Host.Outcome State Fault Refusal := run (vec (.vcompress d a m) 0 (vcompressC d a m)) s
def execVexpand (d a : BitVec 5) (m : BitVec 3) (s : State) : Host.Outcome State Fault Refusal := run (vec (.vexpand d a m) 0 (vexpandC d a m)) s
def execVbrev (d a : BitVec 5) (m : BitVec 3) (s : State) : Host.Outcome State Fault Refusal := run (vec (.vbrev d a m) 0 (vbrevC d a m)) s
def execVbcast (d b : BitVec 5) (m : BitVec 3) (f : BitVec 2) (s : State) : Host.Outcome State Fault Refusal := run (vec (.vbcast d b m f) 0 (vbcastC d b m f)) s
def execVmvx (d a b : BitVec 5) (f : BitVec 2) (s : State) : Host.Outcome State Fault Refusal := run (vec (.vmvx d a b f) 0 (vmvxC d a b f)) s
def execVins (d a b : BitVec 5) (f : BitVec 2) (s : State) : Host.Outcome State Fault Refusal := run (vec (.vins d a b f) 0 (vinsC d a b f)) s
def execViota (d : BitVec 5) (a m : BitVec 3) (s : State) : Host.Outcome State Fault Refusal := run (vec (.viota d a m) 0 (viotaC d a m)) s

end Sys2Proof.Machine
end

