-- ==== Sys2Proof/Machine/VecMem.lean ====
section
/-! DEFINITION. Vector memory instructions (10 R294 to R299): addresses, the all-or-nothing checks, loads, stores, atomics, the later reads of VLDA and the notifications of VSTN. -/

namespace Sys2Proof.Machine

/-- One access of a vector memory instruction: element, field, address. -/
structure VAcc where
  e : Nat
  j : Nat
  va : Word
  deriving DecidableEq, Repr

/-- A cause raised by an access, with its `tval`. -/
abbrev Raised := List (Nat × Word)

/-- The order of the causes of rank 4 (14 R389). -/
def rank4 : List Nat := [3, 0xB, 4, 5, 6, 7, 0xD]

/-- 14 R389, 10 R295: the first cause in rank order, with the address of its lowest element; every cause is recorded. -/
def raiseAll (rs : Raised) : M Unit :=
  match rank4.find? fun c => rs.any fun r => decide (r.1 = c) with
  | none => pure ()
  | some c =>
    throw (.trap ⟨c, ((rs.find? fun r => decide (r.1 = c)).map (·.2)).getD 0, bitsOf ((rs.map (·.1)).foldl (fun a i => NSet.ins i a) [])⟩ none [])

/-- The checks of one access of `n` bytes but poison (10 R295, 01 R11, R22, R25, 14 R394): the causes, and the place where there are none; `na` marks accesses that allocate no line (10 R298). A place that the instruction holds is not checked again (01 R41). -/
def vcheck (k : Nat) (va : Word) (n : Nat) (pan : Bool) (a : Acc) (na : Bool) : M (Raised × Option Place) := do
  match (← getStrand k).holds va with
  | some p => return ([], some p)
  | none => pure ()
  let al : Raised := if va.toNat % n ≠ 0 then [(3, va)] else []
  if pan then
    if fld va 23 41 ≠ 0 then return (al ++ [(0xB, va)], none)
    if !(← gs).inPartition (panOf k) (← getStrand k).ctx va.toNat n then return (al ++ [(5, va)], none)
    return (al, some (.pan (panKey (panOf k) va.toNat)))
  else
    let w : Raised := if (← getStrand k).watched va n a then [(0xD, va)] else []
    let s : State ← gs
    match ← reach (← whoIs k) na (s.buffering (s.taskOf k)).isSome va n a with
    | .error c => return (al ++ [(c, va)] ++ w, none)
    | .ok (.io _) => return (al ++ [(5, va)] ++ w, none)
    | .ok l => return (al ++ w, some (.at_ l))

/-- An access with its place. -/
abbrev Placed := VAcc × Place

/-- The bytes of one storage word or granule of `size` bytes at `base` that the accesses of an element group write. -/
def coveredBy (xs : List Placed) (n size base : Nat) (pan : Bool) : Bool :=
  (List.range size).all fun i => xs.any fun x =>
    match x.2 with
    | .pan key => pan && decide (key ≤ base + i ∧ base + i < key + n)
    | .at_ (.mem pa) => !pan && decide (pa ≤ base + i ∧ base + i < pa + n)
    | _ => false

/-- 02 R62, 03 R76, 10 R295: a store that writes only a part of a poisoned word, the group's bytes merged (02 R56); an atomic reads it in any case. -/
def State.storePoison (s : State) (tk : Option Nat) (group : List Placed) (n : Nat) (rmw : Bool) (x : Placed) : Bool :=
  match x.2 with
  | .pan key => s.panPoisonedAt key n && (rmw || !coveredBy group n 8 (key / 8 * 8) true)
  | .at_ (.mem pa) => s.viewPoisoned tk pa n && (rmw || !coveredBy group n 8 (pa / 8 * 8) false)
  | .at_ _ => false

/-- The accesses of the element group of an element (10 R287). -/
def sameGroup (k w : Nat) (xs : List Placed) (e : Nat) : List Placed := xs.filter fun x => x.1.e * w / groupBytes k == e * w / groupBytes k

/-- What an instruction holds while its accesses are under way. -/
def heldOf (ps : List Placed) : List (Word × Place) := ps.map fun x => (x.1.va, x.2)

/-- The checks of every access, as one step; `ahead` are causes ranked ahead of every element (10 R298), and those of its registers (10 R297). -/
def vcheckAll (k : Nat) (xs : List VAcc) (n : Nat) (pan rmw : Bool) (a : Acc) (na : Bool) (ahead : Raised) : M (List Placed) := do
  let rs ← collect xs fun x => vcheck k x.va n pan a na
  let ps := (xs.zip rs).filterMap fun x => x.2.2.map fun p => (x.1, p)
  let s : State ← gs
  let tk := s.taskOf k
  let poison := if a.wr && (s.strand k).held.isEmpty then ps.filterMap fun x => if s.storePoison tk (sameGroup k n ps x.1.e) n rmw x then some (7, x.1.va) else none else []
  raiseAll (ahead ++ rs.flatMap (·.1) ++ poison)
  return ps

/-! Peers and hosts. -/

def Place.isFar (p : Place) : Bool := match p with | .at_ (.remote _ _) => true | .at_ (.host _ _) => true | _ => false

/-- A load of a peer or a host leaves. -/
def sendLoad (who : Requester) (va : Word) (n : Nat) (p : Place) : M Unit :=
  match p with
  | .at_ (.remote dev da) => sendRemote who va dev da n .load 0 0 false none
  | .at_ (.host port addr) => sendHost who va port addr n
  | _ => pure ()

/-- 10 R295: the failed answers of remote loads, as causes. -/
def respRaised (va : Word) (r : RResp) : Raised :=
  match r with
  | .fault c => [(c, va)]
  | .lost => [(7, va)]
  | .atHome => [(7, va)]
  | _ => []

def respBits (r : RResp) : Nat := match r with | .value v => v.toNat | _ => 0

/-- A place of the device is read: the value and whether it was poisoned. -/
def readPlace (tk : Option Nat) (n : Nat) (p : Place) : M (Nat × Bool) := do
  let s : State ← gs
  match p with
  | .pan key => return (s.panRead key n, s.panPoisonedAt key n)
  | .at_ (.mem pa) => do
    let v ← memRead tk pa n
    return (v, s.viewPoisoned tk pa n)
  | _ => return (0, false)

/-- The values of the accesses, answers of peers and hosts merged in; poison is a cause (10 R295). -/
def readAll (tk : Option Nat) (n : Nat) : List Placed → List RResp → M (List (VAcc × Nat) × Raised)
  | [], _ => return ([], [])
  | x :: xs, rs => do
    if x.2.isFar then
      let r := rs.headD .lost
      let t ← readAll tk n xs rs.tail
      return ((x.1, respBits r) :: t.1, respRaised x.1.va r ++ t.2)
    else
      let v ← readPlace tk n x.2
      let t ← readAll tk n xs rs
      return ((x.1, v.1) :: t.1, (if v.2 then [(7, x.1.va)] else []) ++ t.2)

/-- A vector load (10 R295): field j of element i goes to register d + j. -/
def vload (d : BitVec 5) (xs : List VAcc) (pan : Bool) (fields : Nat) (ahead : Raised) : M Unit := do
  let k ← curKey
  let w := (← me).sew
  let ps ← vcheckAll k xs w pan false accLoad false ahead
  each ps fun x => waitVlda k x.2 w
  let far := ps.filter fun x => x.2.isFar
  let rs ← askAll k far.length (heldOf ps) (each far fun x => sendLoad (.strand k) x.1.va w x.2)
  let r ← readAll ((← gs).taskOf k) w ps rs
  raiseAll r.2
  each (List.range fields) fun j =>
    putElems (d.toNat + j) w ((r.1.filter fun x => x.1.j == j).map fun x => (x.1.e, x.2 % 2 ^ (8 * w)))

/-- 05 R146, R149, 15 R422: what the release part of a vector access at `vcfg.scope` does before its writes. -/
def vrelease (k : Nat) (s0 : State) (ps : List Placed) : M Unit := do
  let sc := (← getStrand k).vscope
  if ps.any fun x => effScope x.2 sc = 5 then
    let devs := ps.filterMap fun x => if effScope x.2 sc = 5 then some (match x.2 with | .at_ (.remote d _) => some d | _ => none) else none
    domainRelease k s0 (match devs with | o :: r => if r.all fun y => y == o then o else none | [] => none)
  each [0, 1] fun port => if ps.any fun x => (match x.2 with | .at_ (.host p _) => p == port | _ => false) then hostRelease k port (heldOf ps) else pure ()

/-- One element is written at its place. -/
def writePlace (k : Nat) (tk : Option Nat) (n : Nat) (x : Placed) (v : Nat) (rel : Bool) : M Unit := do
  match x.2 with
  | .pan key => panWrite (some k) key (bytesOf v n)
  | .at_ (.mem pa) => memWrite (dieOf k) (some k) tk pa (bytesOf v n)
  | .at_ (.remote dev da) =>
    irrevocable tk
    postStore k dev da n x.1.va v rel
  | .at_ (.host port addr) =>
    irrevocable tk
    hostWrite ((← gs).traffic (.strand k)) (some k) port addr n v
  | .at_ (.io _) => pure ()

/-- Words and granules that an element group has written whole lose their poison (02 R62, 03 R76). -/
def healGroup (tk : Option Nat) (n : Nat) (group : List Placed) : M Unit :=
  each group fun x => do
    let s : State ← gs
    match x.2 with
    | .pan key => if NSet.mem (key / 8) s.panPoison && coveredBy group n 8 (key / 8 * 8) true then emit (.panPoison (key / 8) false) else pure ()
    | .at_ (.mem pa) =>
      if (s.buffering tk).isNone && s.poisonedAt pa n && coveredBy group n 64 (pa / 64 * 64) false then clearPoison (pa / 64 * 64) 64 else pure ()
    | .at_ _ => pure ()

/-- A vector store: the elements in ascending order, so that a byte of several elements takes the highest (02 R56, 04 R101). -/
def vstore (s0 : State) (xs : List VAcc) (val : VAcc → Nat) (pan rel na : Bool) (ahead : Raised) : M (List Placed) := do
  let k ← curKey
  let w := (← me).sew
  let ps ← vcheckAll k xs w pan false accStore na ahead
  each ps fun x => waitVlda k x.2 w
  if rel then vrelease k s0 ps
  let tk := (← gs).taskOf k
  each ps fun x => writePlace k tk w x (val x.1 % 2 ^ (8 * w)) rel
  if !(← gs).poison.isEmpty || !(← gs).panPoison.isEmpty then
    each ((List.range 8).map fun g => ps.filter fun x => x.1.e * w / groupBytes k == g) (healGroup tk w)
  return ps

/-! Addresses (10 R294). -/

def unitAccs (base : Word) (w fields : Nat) (is : List Nat) : List VAcc :=
  is.flatMap fun i => (List.range fields).map fun j => ⟨i, j, base + word ((i * fields + j) * w)⟩

def strideAccs (base stride : Word) (is : List Nat) : List VAcc := is.map fun i => ⟨i, 0, base + word i * stride⟩

def indexAccs (base : Word) (idx : Nat → Nat) (is : List Nat) : List VAcc := is.map fun i => ⟨i, 0, base + word (idx i)⟩

/-- The marks that an instruction's reads of a register meet, as causes (10 R297, 14 R389). -/
def marksOf (r w : Nat) (is : List Nat) : M Raised := do return (← markedElems r w is).map fun x => (7, x.2)

def vldC (d a : BitVec 5) (m : BitVec 3) (p _ : Bool) : M Unit := do
  vload d (unitAccs (← rg a) (← me).sew 1 (← actElems false m)) p 1 []
def vldsC (d a b : BitVec 5) (m : BitVec 3) (p _ : Bool) : M Unit := do
  vload d (strideAccs (← rg a) (← rg b) (← actElems false m)) p 1 []

/-- The accesses that an index register names (10 R294), and the marks met in it; an element whose index is marked has no address. -/
def indexed (a b : BitVec 5) (is : List Nat) : M (List VAcc × Raised) := do
  let st ← me
  let bad ← markedElems b.toNat st.sew is
  let n := vlenOf (← curKey)
  return (indexAccs (← rg a) (st.velem n b.toNat st.sew) (is.filter fun i => !(bad.any fun x => x.1 == i)), bad.map fun x => (7, x.2))

def vldxC (d a b : BitVec 5) (m : BitVec 3) (p _ : Bool) : M Unit := do
  let x ← indexed a b (← actElems false m)
  vload d x.1 p 1 x.2

/-- 10 R296: registers d to d + n − 1. -/
def needFields (d : BitVec 5) (n : BitVec 3) : M Unit := if 31 < d.toNat + n.toNat then illAtIssue else pure ()

def vlsegC (d a : BitVec 5) (n m : BitVec 3) (p _ : Bool) : M Unit := do
  needFields d n
  vload d (unitAccs (← rg a) (← me).sew (n.toNat + 1) (← actElems false m)) p (n.toNat + 1) []

/-- Data elements of a store (VLDA marks met by it raise POISON, 10 R297). -/
def vdata (d : BitVec 5) : M (VAcc → Nat) := do
  let st ← me
  let n := vlenOf (← curKey)
  return fun x => st.velem n (d.toNat + x.j) st.sew x.e

def vstC (s0 : State) (d a : BitVec 5) (m : BitVec 3) (p o : Bool) : M Unit := do
  let is ← actElems false m
  let bad ← marksOf d.toNat (← me).sew is
  let _ ← vstore s0 (unitAccs (← rg a) (← me).sew 1 is) (← vdata d) p o false bad
def vstsC (s0 : State) (d a b : BitVec 5) (m : BitVec 3) (p o : Bool) : M Unit := do
  let is ← actElems false m
  let bad ← marksOf d.toNat (← me).sew is
  let _ ← vstore s0 (strideAccs (← rg a) (← rg b) is) (← vdata d) p o false bad
def vstxC (s0 : State) (d a b : BitVec 5) (m : BitVec 3) (p o : Bool) : M Unit := do
  let is ← actElems false m
  let x ← indexed a b is
  let bad ← marksOf d.toNat (← me).sew is
  let _ ← vstore s0 x.1 (← vdata d) p o false (bad ++ x.2)
def vssegC (s0 : State) (d a : BitVec 5) (n m : BitVec 3) (p o : Bool) : M Unit := do
  needFields d n
  let is ← actElems false m
  let w := (← me).sew
  let bad ← collect (List.range (n.toNat + 1)) fun j => marksOf (d.toNat + j) w is
  let _ ← vstore s0 (unitAccs (← rg a) (← me).sew (n.toNat + 1) is) (← vdata d) p o false bad.flatten

/-- VSTN (10 R298): with `.ntf` one notification for each element group with active elements. -/
def vstnC (s0 : State) (d a b : BitVec 5) (m : BitVec 3) (n p o : Bool) : M Unit := do
  let k ← curKey
  let w := (← me).sew
  let is ← actElems false m
  let bad ← marksOf d.toNat w is
  let ntf := n && !is.isEmpty
  let pw ← rg b
  let pr ← if ntf then vcheck k pw 8 false accRmw false else pure ([], none)
  let pp := match pr.2 with
    | some (.at_ (.mem pa)) => if (s0.viewPoisoned (s0.taskOf k) pa 8) then [(7, pw)] else []
    | _ => []
  let _ ← vstore s0 (unitAccs (← rg a) w 1 is) (← vdata d) p o true (pr.1 ++ pp ++ bad)
  match pr.2 with
  | some (.at_ l) =>
    if ntf then
      let id ← freshId
      let gs := (List.range 8).map fun g => (is.filter fun i => i * w / groupBytes k == g).length
      modStrand k fun st => { st with ntf := st.ntf ++ (gs.filter (· ≠ 0)).map fun c => ⟨id, st.vscope, pw, l, c⟩ }
  | _ => pure ()

/-- VLDA (10 R297): the probes now, the element loads later. -/
def vldaC (d a : BitVec 5) (m : BitVec 3) (p : Bool) : M Unit := do
  let k ← curKey
  let w := (← me).sew
  let is ← actElems false m
  defElems d.toNat w is
  let ps ← vcheckAll k (unitAccs (← rg a) w 1 is) w p false { accLoad with cached := true } false []
  let groups := (List.range 8).map fun g => (g, ps.filter fun x => x.1.e * w / groupBytes k == g)
  modStrand k fun st => { st with vlda := st.vlda ++ (groups.filter fun g => !g.2.isEmpty).map fun g =>
    ⟨d.toNat, g.1, w, g.2.map fun x => (x.1.e, x.1.va, x.2), []⟩ }

/-- VLDA_GROUP_WRITE: the loads of the first pending group of strand `k`, and the writing of the group, or its poison mark (10 R297). -/
def execVldaGroupWrite (k : Nat) (s : State) : Host.Outcome State Fault Refusal := runAs k (do
  match ((← gs).strand k).vlda with
  | [] => pure ()
  | g :: rest =>
    let ps : List Placed := g.elems.map fun e => (⟨e.1, 0, e.2.1⟩, e.2.2)
    let far := ps.filter fun x => x.2.isFar
    if (← gs).fabric.requests.any fun r => r.who = .vlda k then stall
    if g.replies.length < far.length then
      modStrand k fun st => { st with vlda := { g with replies := [] } :: rest }
      each far fun (x : Placed) => sendLoad (.vlda k) x.1.va g.sew x.2
      finish
    let r ← readAll ((← gs).taskOf k) g.sew ps (g.replies.map (·.2))
    match r.2 with
    | [] =>
      let xs := r.1.map fun x => (x.1.e, x.2 % 2 ^ (8 * g.sew))
      modStrand k fun st => (({ st with vlda := rest } : Strand).setElems (vlenOf k) g.vd g.sew xs).clearMarks k g.vd g.sew (xs.map (·.1))
    | (_, va) :: _ =>
      modStrand k fun st =>
        let v := st.vreg g.vd
        { st with vlda := rest, v := Tbl.put {} g.vd { v with marks := (v.marks.filter fun x => x.1 != g.group) ++ [(g.group, va)] } st.v }) s

/-- VSTN_NOTIFY: the next addition to a progress word, a release RMW (05 R132); at scope 5 it waits for the posted stores up to its own instruction's (05 R146). -/
def execVstnNotify (k : Nat) (s : State) : Host.Outcome State Fault Refusal := runAs k (do
  match ((← gs).strand k).ntf with
  | [] => pure ()
  | n :: rest =>
    let s1 : State ← gs
    let tk := s1.taskOf k
    if effScope (.at_ n.loc) n.sc = 5 && s1.postedBefore n.id (match n.loc with | .remote dev _ => some dev | _ => none) then stall
    match n.loc with
    | .mem pa =>
      let c ← memRead tk pa 8
      modStrand k fun st => { st with ntf := rest }
      memWrite (dieOf k) none tk pa (bytesOf ((c + n.add) % 2 ^ 64) 8)
    | .remote dev da =>
      if s1.fabric.requests.any fun r => r.who = .ntf k then stall
      irrevocable tk
      sendRemote (.ntf k) n.va dev da 8 (.amo 0 false) (word n.add) 0 false (some (s1.issuedTo dev))
    | _ => modStrand k fun st => { st with ntf := rest }) s

/-! VAMO (10 R299). -/

/-- The answer to the access of a peer that a VAMO under way has made; none while there is none, and then it is made. -/
def amoAnswer (k : Nat) (send : M Unit) : M RResp := do
  match (← getStrand k).replies with
  | r :: _ => do
    modStrand k fun st => { st with replies := [] }
    return r.2
  | [] => do
    send
    finish

/-- The elements from the first not yet performed on, in ascending order; their old values gather in the strand. A failed answer ends it (10 R299). -/
def amoAll (k : Nat) (tk : Option Nat) (w : Nat) (mk : VAcc → Rmw) (rel : Bool) : List Placed → M (Option (Nat × Word))
  | [] => return none
  | x :: xs => do
    let r := mk x.1
    match x.2 with
    | .at_ (.remote dev da) => do
      let s1 : State ← gs
      match ← amoAnswer k (sendRemote (.strand k) x.1.va dev da w r.kind (word r.data) 0 false (if rel then some (s1.issuedTo dev) else none)) with
      | .value v => do
        modStrand k fun st => { st with amo := st.amo ++ [v.toNat] }
        amoAll k tk w mk rel xs
      | .fault c => return some (c, x.1.va)
      | _ => return some (7, x.1.va)
    | p => do
      let old := (← readPlace tk w p).1
      match (r.new w old).1 with
      | some v => writePlace k tk w x v false
      | none => pure ()
      modStrand k fun st => { st with amo := st.amo ++ [old % 2 ^ (8 * w)] }
      amoAll k tk w mk rel xs

def vamoC (s0 : State) (fn : BitVec 3) (d a b : BitVec 5) (m : BitVec 3) (p : Bool) (y : BitVec 2) : M Unit := do
  let k ← curKey
  let st ← me
  let w := st.sew
  if w < 4 then illAtIssue
  if s0.fabric.requests.any fun r => r.who = .strand k then stall
  let is ← actElems false m
  let x ← indexed a b is
  let bad ← marksOf d.toNat w is
  let data ← vdata d
  let ps ← vcheckAll k x.1 w p true accRmw false (bad ++ x.2)
  each ps fun x => waitVlda k x.2 w
  let rel := decide (2 ≤ y.toNat)
  if st.held.isEmpty then
    if rel then vrelease k s0 ps
    if ps.any fun x => x.2.isFar then
      irrevocable ((← gs).taskOf k)
      hold k (heldOf ps)
  let mk := fun (x : VAcc) => (⟨.amo fn.toNat true, data x, 0⟩ : Rmw)
  let bad ← amoAll k ((← gs).taskOf k) w mk rel (ps.drop st.amo.length)
  let rs := (ps.zip (← getStrand k).amo).map fun x => (x.1.1.e, x.2, ((mk x.1.1).new w x.2).2)
  modStrand k fun st => { st with amo := [], held := [] }
  putElems d.toNat w (rs.map fun x => (x.1, x.2.1))
  flagElems (rs.map fun x => (x.1, x.2.2))
  match bad with
  | some (c, va) => trapHere c va
  | none => pure ()

def execVld (d a : BitVec 5) (m : BitVec 3) (p o : Bool) (s : State) : Host.Outcome State Fault Refusal := run (vec (.vld d a m p o) 2 (vldC d a m p o)) s
def execVlds (d a b : BitVec 5) (m : BitVec 3) (p o : Bool) (s : State) : Host.Outcome State Fault Refusal := run (vec (.vlds d a b m p o) 2 (vldsC d a b m p o)) s
def execVldx (d a b : BitVec 5) (m : BitVec 3) (p o : Bool) (s : State) : Host.Outcome State Fault Refusal := run (vec (.vldx d a b m p o) 2 (vldxC d a b m p o)) s
def execVlseg (d a : BitVec 5) (n m : BitVec 3) (p o : Bool) (s : State) : Host.Outcome State Fault Refusal := run (vec (.vlseg d a n m p o) 2 (vlsegC d a n m p o)) s
def execVlda (d a : BitVec 5) (m : BitVec 3) (p : Bool) (s : State) : Host.Outcome State Fault Refusal := run (vec (.vlda d a m p) 2 (vldaC d a m p)) s
def execVst (d a : BitVec 5) (m : BitVec 3) (p o : Bool) (s : State) : Host.Outcome State Fault Refusal := run (vec (.vst d a m p o) 2 (vstC s d a m p o)) s
def execVsts (d a b : BitVec 5) (m : BitVec 3) (p o : Bool) (s : State) : Host.Outcome State Fault Refusal := run (vec (.vsts d a b m p o) 2 (vstsC s d a b m p o)) s
def execVstx (d a b : BitVec 5) (m : BitVec 3) (p o : Bool) (s : State) : Host.Outcome State Fault Refusal := run (vec (.vstx d a b m p o) 2 (vstxC s d a b m p o)) s
def execVsseg (d a : BitVec 5) (n m : BitVec 3) (p o : Bool) (s : State) : Host.Outcome State Fault Refusal := run (vec (.vsseg d a n m p o) 2 (vssegC s d a n m p o)) s
def execVstn (d a b : BitVec 5) (m : BitVec 3) (n p o : Bool) (s : State) : Host.Outcome State Fault Refusal := run (vec (.vstn d a b m n p o) 2 (vstnC s d a b m n p o)) s
def execVamo (f : BitVec 3) (d a b : BitVec 5) (m : BitVec 3) (p : Bool) (y : BitVec 2) (s : State) : Host.Outcome State Fault Refusal := run (vec (.vamo f d a b m p y) 2 (vamoC s f d a b m p y)) s

end Sys2Proof.Machine
end

