-- ==== Sys2Proof/Machine/VecLoop.lean ====
section
/-! DEFINITION. VLOOP: the descriptor, the capture of the body, and the strips (10 R305 to R308). -/

namespace Sys2Proof.Machine

/-- What a capturable instruction does and in which pipe; none for what VLOOP refuses (10 R306). -/
def vectorBody (i : Instr) (s0 : State) : Option (Nat × M Unit) :=
  match i with
  | .vadd d a b m w f => some (0, vaddC d a b m w f)
  | .vsub d a b m w f => some (0, vsubC d a b m w f)
  | .vmul d a b m w f => some (0, vmulC d a b m w f)
  | .vmulh d a b m w f => some (0, vmulhC d a b m w f)
  | .vwmul d a b m w f => some (0, vwmulC d a b m w f)
  | .vwmac d a b m w f => some (0, vwmacC d a b m w f)
  | .vmac d a b m w f => some (0, vmacC d a b m w f)
  | .vdiv d a b m w x f => some (1, vdivC d a b m w x f)
  | .vrem d a b m w x f => some (1, vremC d a b m w x f)
  | .vmin d a b m w f => some (0, vminC d a b m w f)
  | .vmax d a b m w f => some (0, vmaxC d a b m w f)
  | .vand d a b m w f => some (0, vandC d a b m w f)
  | .vor d a b m w f => some (0, vorC d a b m w f)
  | .vxor d a b m w f => some (0, vxorC d a b m w f)
  | .vsll d a b m w f => some (0, vsllC d a b m w f)
  | .vsrl d a b m w f => some (0, vsrlC d a b m w f)
  | .vsra d a b m w f => some (0, vsraC d a b m w f)
  | .vnshr d a b m w x f => some (0, vnshrC d a b m w x f)
  | .vsadd d a b m w x f => some (0, vsaddC d a b m w x f)
  | .vssub d a b m w x f => some (0, vssubC d a b m w x f)
  | .vcmp c d a b m w f => some (0, vcmpC c d a b m w f)
  | .vfcmp c d a b m w => some (0, vfcmpC c d a b m w)
  | .vfadd d a b m w x f => some (0, vfaddC d a b m w x f)
  | .vfsub d a b m w x f => some (0, vfsubC d a b m w x f)
  | .vfmul d a b m w x f => some (0, vfmulC d a b m w x f)
  | .vfdiv d a b m w x f => some (1, vfdivC d a b m w x f)
  | .vfsqrt d a m w x => some (1, vfsqrtC d a m w x)
  | .vfma d a b m w x f => some (0, vfmaC d a b m w x f)
  | .vfms d a b m w x f => some (0, vfmsC d a b m w x f)
  | .vfnma d a b m w x f => some (0, vfnmaC d a b m w x f)
  | .vfmin d a b m w x f => some (0, vfminC d a b m w x f)
  | .vfmax d a b m w x f => some (0, vfmaxC d a b m w x f)
  | .vfclass d a m w => some (0, vfclassC d a m w)
  | .vfcvt d a v u m w x => some (0, vfcvtC d a v u m w x)
  | .vsfn d a n m w x => some (3, vsfnC d a n m w x)
  | .vred o d a b m w => some (0, vredC o d a b m w)
  | .vfredo d a b m w x => some (0, vfredoC d a b m w x)
  | .vfredt d a b m w x => some (0, vfredtC d a b m w x)
  | .vld d a m p o => some (2, vldC d a m p o)
  | .vlds d a b m p o => some (2, vldsC d a b m p o)
  | .vldx d a b m p o => some (2, vldxC d a b m p o)
  | .vlseg d a n m p o => some (2, vlsegC d a n m p o)
  | .vlda d a m p => some (2, vldaC d a m p)
  | .vst d a m p o => some (2, vstC s0 d a m p o)
  | .vsts d a b m p o => some (2, vstsC s0 d a b m p o)
  | .vstx d a b m p o => some (2, vstxC s0 d a b m p o)
  | .vsseg d a n m p o => some (2, vssegC s0 d a n m p o)
  | .vstn d a b m n p o => some (2, vstnC s0 d a b m n p o)
  | .vamo f d a b m p y => some (2, vamoC s0 f d a b m p y)
  | .mand d a b => some (0, mandC d a b)
  | .mor d a b => some (0, morC d a b)
  | .mxor d a b => some (0, mxorC d a b)
  | .mandn d a b => some (0, mandnC d a b)
  | .mpopc d a => some (0, mpopcC d a)
  | .mfirst d a => some (0, mfirstC d a)
  | .vslideup d a b m f => some (0, vslideupC d a b m f)
  | .vslidedn d a b m f => some (0, vslidednC d a b m f)
  | .vgather d a b m => some (0, vgatherC d a b m)
  | .vcompress d a m => some (0, vcompressC d a m)
  | .vexpand d a m => some (0, vexpandC d a m)
  | .vbcast d b m f => some (0, vbcastC d b m f)
  | .vmvx d a b f => some (0, vmvxC d a b f)
  | .vins d a b f => some (0, vinsC d a b f)
  | .viota d a m => some (0, viotaC d a m)
  | .vmerge d a b m => some (0, vmergeC d a b m)
  | .vperms d a b m f => some (0, vpermsC d a b m f)
  | .vbrev d a m => some (0, vbrevC d a m)
  | .vhad d a n t c u h o j k => some (0, vhadC d a n t c u h o j k)
  | _ => none

/-- Read `n` bytes by a strand, as 8-byte words; `at_` gives a cause's address from its word's. `rs` are the answers of peers and hosts still to be used; the rest is returned. -/
def readWords (k : Nat) (va : Word) (n : Nat) (at_ : Word → Word) (ahead : Raised) (rs : List RResp) : M (List Word × List RResp) := do
  let xs := (List.range (n / 8)).map fun i => (⟨i, 0, va + word (8 * i)⟩ : VAcc)
  let cs ← collect xs fun x => vcheck k x.va 8 false accLoad false
  raiseAll (ahead ++ (cs.flatMap (·.1)).map fun r => (r.1, at_ r.2))
  let ps := (xs.zip cs).filterMap fun x => x.2.2.map fun p => (x.1, p)
  let far := ps.filter fun x => x.2.isFar
  each ps fun x => waitVlda k x.2 8
  match far[rs.length]? with
  | some x => do
    let held := (← getStrand k).held
    hold k (held ++ (heldOf ps).filter fun h => !(held.contains h))
    sendLoad (.strand k) x.1.va 8 x.2
    finish
  | none => pure ()
  let r ← readAll ((← gs).taskOf k) 8 ps rs
  raiseAll (r.2.map fun x => (x.1, at_ x.2))
  return (r.1.map fun x => word x.2, rs.drop far.length)

/-- The answers an instruction has waited for are used up. -/
def dropReplies (k : Nat) : M Unit := do
  if !(← getStrand k).replies.isEmpty then modStrand k fun st => { st with replies := [], held := [] }

/-- Read the `n` bytes of a descriptor by its strand: a load of the whole, so that every cause has the descriptor's address (09 R255). -/
def descRead (k : Nat) (va : Word) (n align : Nat) : M (List Word) := do
  let r ← readWords k va n (fun _ => va) (if va.toNat % align ≠ 0 then [(3, va)] else []) (← answers k)
  dropReplies k
  return r.1

/-- The same where each cause has the address that failed (12 R352, R360). -/
def recordRead (k : Nat) (va : Word) (n : Nat) : M (List Word) := do
  let r ← readWords k va n id [] (← answers k)
  dropReplies k
  return r.1

/-! The descriptor (10 R305). -/

def ldNdim (dw : List Word) : Nat := fld (nth 0 dw 0) 0 3
def ldNreg (dw : List Word) : Nat := fld (nth 0 dw 0) 3 3
def ldReg (dw : List Word) (r : Nat) : Nat := fld (nth 0 dw 0) (5 * r + 11) 5
/-- Half-word `p` of 32 bits, counted from dword `d`. -/
def ldHalf (dw : List Word) (d p : Nat) : Nat := fld (nth 0 dw (d + p / 2)) (p % 2 * 32) 32
/-- CNTk, k from 1 to 5. -/
def ldCnt (dw : List Word) (k : Nat) : Nat := ldHalf dw 2 (k - 1)
def ldEs (dw : List Word) (r : Nat) : Nat := ldHalf dw 5 r
def ldStr (dw : List Word) (r k : Nat) : Nat := ldHalf dw 8 (5 * r + k - 1)

/-- 10 R306: the conditions that raise RANGE. -/
def loopBad (dw : List Word) : Bool :=
  let nd := ldNdim dw
  let nr := ldNreg dw
  let named := (List.range nr).map (ldReg dw)
  decide (fld (nth 0 dw 0) 41 23 ≠ 0) || decide (fld (nth 0 dw 0) 6 5 ≠ 0) || decide (fld (nth 0 dw 1) 48 16 ≠ 0) ||
  decide (fld (nth 0 dw 4) 32 32 ≠ 0) || decide (nth 0 dw 23 ≠ 0) ||
  decide (nd = 0 ∨ nd = 7) || decide (6 < nr) ||
  named.contains 0 || ((List.range nr).any fun i => (List.range i).any fun j => decide (ldReg dw i = ldReg dw j)) ||
  ((List.range 6).any fun r => decide (nr ≤ r) && (decide (ldReg dw r ≠ 0) || decide (ldEs dw r ≠ 0))) ||
  ([1, 2, 3, 4, 5].any fun k => decide (nd ≤ k) && decide (ldCnt dw k ≠ 0)) ||
  ((List.range 6).any fun r => [1, 2, 3, 4, 5].any fun k => (decide (nr ≤ r) || decide (nd ≤ k)) && decide (ldStr dw r k ≠ 0))

/-- Capture `n` instructions from an address (10 R306), and the address after them. -/
def capture (k : Nat) (s0 : State) : Nat → Word → M (List (Word × Instr) × Word)
  | 0, pc => return ([], pc)
  | n + 1, pc => do
    match ← fetchAt k pc with
    | .fault c v => trapFrom pc c v
    | .illegal w => trapFrom pc 1 w
    | .inst i =>
      if (vectorBody i s0).isNone then trapFrom pc 1 i.bits
      let t ← capture k s0 n (pc + word i.len)
      return ((pc, i) :: t.1, t.2)

/-- VLOOP (10 R305, R306). -/
def execVloop (a len : BitVec 5) (s : State) : Host.Outcome State Fault Refusal := run (do
  issueOn (.vloop a len) [a]
  if (← me).looping then stall
  let k ← curKey
  let va ← rg a
  let dw ← descRead k va 192 64
  if loopBad dw then trap 0xB va
  let st ← me
  let b ← capture k s (len.toNat + 1) (st.pc + 8)
  let nd := ldNdim dw
  let nr := ldNreg dw
  let regs := (List.range nr).map (ldReg dw)
  let cnt := (List.range (nd - 1)).map fun i => ldCnt dw (i + 1)
  let n0 := fld (nth 0 dw 1) 0 48
  if n0 = 0 ∨ cnt.any (· == 0) = true then modMe fun st => { st with loop := none, pc := b.2 }
  else
    let vm := (← gs).vlmax k st.sew
    modMe fun st => { st with
      pc := b.2
      loop := some {
        ndim := nd, regs := regs, n0 := n0, cnt := cnt
        es := (List.range nr).map fun r => sext (ldEs dw r) 32
        str := (List.range nr).flatMap fun r => (List.range (nd - 1)).map fun j => sext (ldStr dw r (j + 1)) 32
        vlmax := vm
        base := regs.map fun r => st.g.get 0 r
        body := b.1, idx := cnt.map fun _ => 0, i0 := 0, pos := 0, resume := b.2, stopped := false } }) s

/-- A named register of the strip (10 R306). -/
def Loop.regVal (l : Loop) (r : Nat) : Word :=
  let steps := (List.range (l.ndim - 1)).map fun j => ((nth 0 l.idx j : Nat) : Int) * nth 0 l.str (r * (l.ndim - 1) + j)
  nth 0 l.base r + wordI ((l.i0 : Int) * nth 0 l.es r + steps.foldl (· + ·) 0)

/-- The strip's VL and named registers. -/
def Strand.enterStrip (st : Strand) (l : Loop) : Strand :=
  let vl := min (l.n0 - l.i0) l.vlmax
  (enumFrom 0 l.regs).foldl (fun st x => st.setG (BitVec.ofNat 5 x.2) (l.regVal x.1))
    { st with vcfg := mkVcfg vl (fld st.vcfg 12 2) st.vscope }

/-- The next index, i1 innermost; none after the last (10 R306). -/
def nextIdx : List Nat → List Nat → Option (List Nat)
  | i :: is, c :: cs => if i + 1 < c then some ((i + 1) :: is) else (nextIdx is cs).map (0 :: ·)
  | _, _ => none

/-- The loop after its strip of `vl` elements; none at its end. -/
def Loop.after (l : Loop) (vl : Nat) : Option Loop :=
  if l.i0 + vl < l.n0 then some { l with i0 := l.i0 + vl, pos := 0 }
  else (nextIdx l.idx l.cnt).map fun x => { l with idx := x, i0 := 0, pos := 0 }

/-- The body instructions still to issue in the strip; the answer is whether all were issued. -/
def stripRun (k : Nat) : List (Word × Instr) → M Bool
  | [] => return true
  | x :: xs => do
    let s : State ← gs
    let st := s.strand k
    match st.loop, vectorBody x.2 s with
    | some l, some (pipe, core) =>
      if 16 ≤ st.vq.length then return false
      match ← attempt (do core; enqueueVec pipe (groupsOf k st.vl st.sew)) with
      | none =>
        modStrand k fun st => { st with loop := some { l with pos := l.pos + 1 } }
        stripRun k xs
      | some (.trap t _ _) => do
        deliver k t x.1
        return false
      | some (.stop _) => return false
    | _, _ => return false

/-- VLOOP_STRIP: the strip is entered, and its body issued as far as the vector queue has room; the next strip, or the end, follows. -/
def execVloopStrip (k : Nat) (s : State) : Host.Outcome State Fault Refusal := runAs k (do
  let st ← getStrand k
  match st.loop with
  | none => pure ()
  | some l =>
    if l.stopped || decide (st.st ≠ .run ∧ st.st ≠ .wait ∧ st.st ≠ .trap) then pure ()
    else
      emit (.cur k)
      if l.pos = 0 then modStrand k (·.enterStrip l)
      if ← stripRun k (l.body.drop l.pos) then
        modStrand k fun st => { st with loop := st.loop.bind fun l => l.after st.vl }) s

end Sys2Proof.Machine
end

