-- ==== Sys2Proof/Machine/Engine.lean ====
section
/-! DEFINITION. Engines: nest descriptors and their checks (03 R82 to R87), completion objects (03 R88, 12 R349), rings (03 R94, R95), trigger counters and the operations armed on them (03 R96), and the acceptance of copies and collectives (12 R352, R370). -/

namespace Sys2Proof.Machine

/-! Status codes (03 R91). -/

def stMALFORMED : Nat := 1
def stALIGN : Nat := 2
def stRANGE : Nat := 3
def stPOISON : Nat := 7
def stDECODE : Nat := 8
def stPROFILE : Nat := 9
def stCANCELLED : Nat := 0xA
def stABORTED : Nat := 0xB

/-! The nest descriptor (03 R82). -/

def ndE (dw : List Word) : Nat := 2 ^ fld (dwAt dw 0) 0 2
def ndNdim (dw : List Word) : Nat := fld (dwAt dw 0) 2 3
def ndXf (dw : List Word) : Nat := fld (dwAt dw 0) 5 2
def ndDring (dw : List Word) : Bool := bitOf (dwAt dw 0) 7
def ndScope (dw : List Word) : Nat := fld (dwAt dw 0) 8 3
def ndCkind (dw : List Word) : Nat := fld (dwAt dw 0) 11 2
def ndSspc (dw : List Word) : Bool := bitOf (dwAt dw 0) 13
def ndDspc (dw : List Word) : Bool := bitOf (dwAt dw 0) 14
def ndSsel (dw : List Word) : Nat := fld (dwAt dw 0) 16 16
def ndDsel (dw : List Word) : Nat := fld (dwAt dw 0) 32 16
def ndCnt (dw : List Word) (k : Nat) : Nat := fld (dwAt dw (4 + k / 2)) (k % 2 * 32) 32
def ndSstr (dw : List Word) (k : Nat) : Int := sext (fld (dwAt dw (7 + k / 2)) (k % 2 * 32) 32) 32
def ndDstr (dw : List Word) (k : Nat) : Int := sext (fld (dwAt dw (10 + k / 2)) (k % 2 * 32) 32) 32
def ndDims (dw : List Word) : List Nat := List.range (min 6 (ndNdim dw))
def ndTotal (dw : List Word) : Nat := (ndDims dw).foldl (fun a k => a * ndCnt dw k) 1

/-- 03 R83: a pan selector's pan, of an engine on pan `own`. -/
def selPan (own sel : Nat) : Option Nat :=
  if sel / 32768 % 2 = 1 then some own
  else
    let p := sel % 8 * 128 + sel / 8 % 8 * 16 + sel / 64 % 16
    if Config.panExists p then some p else none

/-- Reserved bits of a selector, and of SELF (03 R83, R85). -/
def selBad (sel : Nat) : Bool := decide (sel / 1024 % 32 ≠ 0) || (decide (sel / 32768 % 2 = 1) && decide (sel % 1024 ≠ 0))

/-- 03 R87: CMPL of a copy or collective breaks the layout of its CKIND. -/
def cmplBreaks (ckind : Nat) (c : Word) : Bool := if ckind = 3 then decide (fld c 12 52 ≠ 0) else cmplBad ckind c

/-- The lowest address and the end of the elements' addresses, not reduced modulo 2^64. -/
def extent (dw : List Word) (base : Nat) (str : Nat → Int) : Int × Int :=
  let steps := (ndDims dw).map fun k => ((ndCnt dw k : Int) - 1) * str k
  (steps.foldl (fun a d => if d < 0 then a + d else a) (base : Int), steps.foldl (fun a d => if 0 < d then a + d else a) (base : Int) + (ndE dw : Int))

/-- 03 R85: a pan address bit [63:23] is nonzero at some element. -/
def extentOut (x : Int × Int) : Bool := decide (x.1 < 0 ∨ (2 ^ 23 : Nat) < x.2)

/-- 03 R85: the status of the first failing row, on an engine of pan `own`. Only the selector of a space that is a pan's is checked (log 43). -/
def descStatus (own : Nat) (dw : List Word) : Option Nat :=
  let nd := ndNdim dw
  let e := ndE dw
  let xf := ndXf dw
  let all := [0, 1, 2, 3, 4, 5]
  let sels := (if ndSspc dw then [ndSsel dw] else []) ++ (if ndDspc dw then [ndDsel dw] else [])
  let mal :=
    decide (fld (dwAt dw 0) 48 16 ≠ 0) || bitOf (dwAt dw 0) 15 || [13, 14, 15].any (fun i => decide (dwAt dw i ≠ 0)) ||
    decide (nd = 0 ∨ nd = 7) || decide (xf = 3) || decide (ndScope dw = 0 ∨ 6 ≤ ndScope dw) ||
    all.any (fun k => decide (nd ≤ k) && (decide (ndCnt dw k ≠ 0) || decide (ndSstr dw k ≠ 0) || decide (ndDstr dw k ≠ 0))) ||
    (ndDring dw && (decide (ndCkind dw ≠ 3) || decide (dwAt dw 3 ≠ 0) || ndDspc dw || decide (ndDsel dw ≠ 0))) ||
    sels.any selBad ||
    (decide (xf = 1) && (decide (nd < 2) || decide (256 < ndCnt dw 0) || decide (256 < ndCnt dw 1))) ||
    (decide (xf = 2) && (decide (e ≠ 1) || ndSspc dw || all.any (fun k => decide (ndSstr dw k ≠ 0)) || decide (ndTotal dw % 64 ≠ 0))) ||
    decide (2 ^ 40 ≤ ndTotal dw)
  let al := decide ((dwAt dw 2).toNat % (if xf = 2 then 4 else e) ≠ 0) || decide ((dwAt dw 3).toNat % e ≠ 0) ||
    all.any (fun k => decide (ndSstr dw k % (e : Int) ≠ 0) || decide (ndDstr dw k % (e : Int) ≠ 0))
  let some_ := decide (ndTotal dw ≠ 0)
  let rng := sels.any (fun x => (selPan own x).isNone) ||
    (some_ && ((ndSspc dw && extentOut (extent dw (dwAt dw 2).toNat (ndSstr dw))) || (ndDspc dw && extentOut (extent dw (dwAt dw 3).toNat (ndDstr dw)))))
  if mal then some stMALFORMED
  else if al then some stALIGN
  else if rng then some stRANGE
  else if xf = 2 ∧ Config.shoal (own / 128) = true then some stPROFILE
  else none

/-! Completion objects. -/

/-- An object's owner check (12 R349): the failing status; the progress word is probed as a store. -/
def objectFails (w : Who) (die ckind : Nat) (cmpl : Word) : M (Option Nat) := do
  if cmplBreaks ckind cmpl then return some stMALFORMED
  match ckind with
  | 0 => return none
  | 1 =>
    match ← probe w cmpl { accStore with cached := true } with
    | .error c => return some c
    | .ok t => return if lfKind t.leaf = 0 then none else some stRANGE
  | 2 => return if (← gs).ownsCounter w.ctx (fld cmpl 0 13) then none else some stRANGE
  | _ => return if (← gs).ownsRing w.ctx (die * 4096 + fld cmpl 0 12) then none else some stRANGE

/-- 03 R92. -/
def progressWord (fin : Bool) (status count : Nat) : Word := word ((if fin then 2 ^ 63 else 0) + status * 2 ^ 56 + count % 2 ^ 48)

/-- A release store of a progress word by an engine on die `d`; the access of a peer, where the token of its region has gone meanwhile, is followed by nobody. A word that no longer translates is not written, and nothing reports it (log 15). -/
def storeProgress (w : Who) (d : Nat) (tk : Option Nat) (va v : Word) : M Unit := do
  match ← reach w true ((← gs).buffering tk).isSome va 8 accStore with
  | .ok (.mem pa) => memWrite d none tk pa (bytesOf v.toNat 8)
  | .ok (.remote dev da) => do
    irrevocable tk
    sendRemote (.join (← freshId)) va dev da 8 .store v 0 false (some ((← gs).issuedTo dev))
  | _ => pure ()

/-- 05 R129, R146: a publication at scope 5 of an operation with number `id` waits for the posted stores that the device had issued before it. -/
def State.publishWaits (s : State) (id scope : Nat) : Bool := decide (scope = 5) && s.postedBefore id none

/-! Rings (03 R94, R95). Counters are modulo 2^32. -/

def ringRoom (r : Ring) : Bool := decide ((r.rsv + 2 ^ 32 - r.rd) % 2 ^ 32 < r.nslot)
def ringReady (r : Ring) : Bool := decide ((r.wr + 2 ^ 32 - r.rd) % 2 ^ 32 ≠ 0)
/-- The address of slot `s`. -/
def Ring.addr (r : Ring) (s : Nat) : Word := r.base + word (s % r.nslot * 2 ^ r.lsz)

/-- WR advances over every filled slot in slot order. -/
def advanceWr : Nat → Ring → Ring
  | 0, r => r
  | n + 1, r => if NSet.mem r.wr r.filled then advanceWr n { r with wr := (r.wr + 1) % 2 ^ 32, filled := NSet.del r.wr r.filled } else r

/-- A slot is filled, with the status of its producer. -/
def fillSlot (ring slot status : Nat) : M Unit := modRing ring fun r =>
  let r := { r with filled := NSet.ins slot r.filled, fault := if status ≠ 0 ∧ r.fault.isNone then some status else r.fault }
  advanceWr (r.filled.length + 1) r

/-- Reserve the next slot of a ring with room. -/
def reserveSlot (ring : Nat) : M (Option Nat) := do
  let r := (← gs).ring ring
  if ringRoom r then
    modRing ring fun r => { r with rsv := (r.rsv + 1) % 2 ^ 32 }
    return some r.rsv
  else return none

/-! Collective descriptors (12 R369) and router entries (12 R367). -/

def clVs (dw : List Word) : Nat := fld (dwAt dw 0) 0 12
def clDtype (dw : List Word) : Nat := fld (dwAt dw 0) 12 4
def clOp (dw : List Word) : Nat := fld (dwAt dw 0) 16 2
def clScope (dw : List Word) : Nat := fld (dwAt dw 0) 18 3
def clCkind (dw : List Word) : Nat := fld (dwAt dw 0) 21 2
def clSeq (dw : List Word) : Nat := fld (dwAt dw 1) 0 32
def clNelem (dw : List Word) : Nat := fld (dwAt dw 5) 0 32
def clKf8 (dw : List Word) : Bool := decide (clDtype dw = 0xC ∨ clDtype dw = 0xD)
/-- Bytes of a contribution element, and of a destination element (07 R204). -/
def clEs (dw : List Word) : Nat := tyBytes (clDtype dw)
def clEd (dw : List Word) : Nat := if clKf8 dw then 4 else clEs dw
def rtGroup (dw : List Word) : Nat := fld (dwAt dw 0) 0 16
def rtNset (dw : List Word) : Nat := fld (dwAt dw 0) 16 3 + 1
def rtRing (dw : List Word) : Nat := fld (dwAt dw 0) 32 15
def rtAction (dw : List Word) (j : Nat) : Nat := fld (dwAt dw (2 + j)) 32 2
def rtIn (dw : List Word) (j : Nat) : Nat := fld (dwAt dw (2 + j)) 0 13
def rtOut (dw : List Word) (j : Nat) : Nat := fld (dwAt dw (2 + j)) 16 13
/-- LOCAL is mask bit 12. -/
def hasLocal (mask : Nat) : Bool := mask.testBit 12
def rtSets (dw : List Word) : List Nat := List.range (rtNset dw)

/-- Serial order modulo 2^32: `a` is later than `b`. -/
def seqLater (a b : Nat) : Bool := decide (a ≠ b ∧ (a + 2 ^ 32 - b) % 2 ^ 32 < 2 ^ 31)

/-- 12 R370: the first failing row of the checks of a collective. -/
def collStatus (w : Who) (c : Coll) : M (Option Nat) := do
  let s : State ← gs
  let dw := c.dw
  let v := s.stream (clVs dw)
  let bound := !v.dw.isEmpty
  let sets := if bound then rtSets v.dw else []
  let mal :=
    decide (fld (dwAt dw 0) 23 41 ≠ 0) || decide (fld (dwAt dw 1) 32 32 ≠ 0) || decide (fld (dwAt dw 5) 32 32 ≠ 0) || decide (dwAt dw 6 ≠ 0) || decide (dwAt dw 7 ≠ 0) ||
    decide (clOp dw = 3) || !([2, 3, 9, 0xA, 0xB, 0xC, 0xD].contains (clDtype dw)) || decide (clScope dw = 0 ∨ 6 ≤ clScope dw) ||
    cmplBreaks (clCkind dw) (dwAt dw 2) || decide (clNelem dw = 0) ||
    (clKf8 dw && sets.any fun j => decide (rtAction v.dw j = 1) && decide (rtOut v.dw j ≠ 0)) ||
    (decide (dwAt dw 3 = 0) && sets.any fun j => hasLocal (rtIn v.dw j)) ||
    (decide (dwAt dw 4 = 0) && sets.any fun j => decide (rtAction v.dw j = 1) || hasLocal (rtOut v.dw j)) ||
    (bound && seqLater (clSeq dw) v.seq)
  if mal then return some stMALFORMED
  if bound && seqLater v.seq (clSeq dw) then return some stABORTED
  if !bound || decide (v.owner ≠ some c.ctx) then return some stRANGE
  match ← objectFails w (dieOf c.key) (clCkind dw) (dwAt dw 2) with
  | some x => return some x
  | none => pure ()
  if sets.any fun j => decide (rtAction v.dw j = 2) && decide (2 ^ (s.ring (rtRing v.dw)).lsz < clNelem dw * clEs dw) then return some stRANGE
  if decide ((dwAt dw 3).toNat % clEs dw ≠ 0) || decide ((dwAt dw 4).toNat % clEd dw ≠ 0) then return some stALIGN
  if dwAt dw 4 = 0 then return none
  match ← lookup w.walker w.ctx ((← gs).rootOf w.ctx) (dwAt dw 4).toNat with
  | some t => return if lfKind t.leaf = 0 then none else some 5
  | none => return none

/-! Trigger counters (03 R96). -/

def satisfied (c t : Nat) : Bool := decide ((c + 2 ^ 48 - t) % 2 ^ 48 < 2 ^ 47)

/-- Operations armed anywhere, a bound on what one update can set off. -/
def State.armedCount (s : State) : Nat := s.counters.foldl (fun a c => a + c.2.armed.length) 0

/-- The arming table of a die holds 2,048 operations. -/
def State.armedOn (s : State) (die : Nat) : Nat := s.counters.foldl (fun a c => if c.1 / 1024 = die then a + c.2.armed.length else a) 0

def Coll.who (c : Coll) : Who := ⟨if isMgmt c.key then none else some (panOf c.key), c.ctx, c.sup⟩

/-- A collective cannot act or complete yet: it has no slot of the ring that it completes at (03 R95), or its publication would have to wait (05 R129). -/
def collHeld (c : Coll) : M Bool := do
  if (← gs).publishWaits c.id (clScope c.dw) then return true
  if clCkind c.dw = 3 ∧ c.slot = none then return (← objectFails c.who (dieOf c.key) 3 (dwAt c.dw 2)).isNone
  return false

mutual

/-- 03 R96: an update of a counter, and the operations it fires, in arming order. `n` bounds the chain of firings. -/
def counterUpdate (n : Nat) (id : Nat) (f : Counter → Counter) : M Unit :=
  match n with
  | 0 => pure ()
  | n + 1 => do
    modCounter id f
    let c := (← gs).counter id
    modCounter id fun c => { c with armed := c.armed.filter fun a => !satisfied c.c a.t }
    each (c.armed.filter fun a => satisfied c.c a.t) fun a => fireOp n a.op

/-- An operation is handed to its engine, once. -/
def fireOp (n : Nat) (op : ArmedOp) : M Unit :=
  match n with
  | 0 => pure ()
  | n + 1 =>
    match op with
    | .copy ch c => modSched fun x => { x with fired := x.fired ++ [(ch, c)] }
    | .remote g o => modSched fun x => { x with firedRem := x.firedRem ++ [(g, o)] }
    | .coll c => do
      if ((← gs).stream (clVs c.dw)).pend.isSome then modStream (clVs c.dw) fun v => { v with waitq := v.waitq ++ [c] }
      else acceptColl n c

/-- 12 R370: an accepted collective is checked; a failure completes it at once, or once it has a slot of the ring that it completes at (03 R95) and its publication may be made. -/
def acceptColl (n : Nat) (c : Coll) : M Unit :=
  match n with
  | 0 => pure ()
  | n + 1 => do
    match ← collStatus c.who c with
    | none => modStream (clVs c.dw) fun v => { v with pend := some c }
    | some st =>
      if ← collHeld c then modStream (clVs c.dw) fun v => { v with pend := some { c with failed := some (st, 0) } }
      else finishColl n c st 0

/-- The completion object of a collective (12 R371); an object that is not usable is reported to the error log (12 R349). -/
def finishColl (n : Nat) (c : Coll) (status count : Nat) : M Unit :=
  match n with
  | 0 => pure ()
  | n + 1 => do
    match ← objectFails c.who (dieOf c.key) (clCkind c.dw) (dwAt c.dw 2) with
    | some _ => if status ≠ 0 then logErr (srcOf c.key) 4 (word (clVs c.dw)) (word status) else pure ()
    | none =>
      match clCkind c.dw with
      | 1 => storeProgress c.who (dieOf c.key) c.task (dwAt c.dw 2) (progressWord true status count)
      | 2 => counterUpdate n (fld (dwAt c.dw 2) 0 13) fun x =>
          { x with c := (x.c + fld (dwAt c.dw 2) 16 32) % 2 ^ 48, fault := if status ≠ 0 ∧ x.fault.isNone then some status else x.fault }
      | 3 => do
        let ring := dieOf c.key * 4096 + fld (dwAt c.dw 2) 0 12
        match c.slot with
        | some sl => fillSlot ring sl status
        | none =>
          match ← reserveSlot ring with
          | some sl => fillSlot ring sl status
          | none => logErr (srcOf c.key) 4 (word (clVs c.dw)) (word status)
      | _ => if status ≠ 0 then logErr (srcOf c.key) 4 (word (clVs c.dw)) (word status) else pure ()

end

/-- An update of a counter from outside. -/
def updateCounter (id : Nat) (f : Counter → Counter) : M Unit := do counterUpdate (4 * ((← gs).armedCount + 2)) id f

/-- 03 R96: add `a`, and set FAULT with the first failing status. -/
def addCounter (id a : Nat) (fault : Option Nat) : M Unit :=
  updateCounter id fun x => { x with c := (x.c + a) % 2 ^ 48, fault := if x.fault.isNone then fault else x.fault }

/-- Arm an operation: it fires at once when the threshold is passed; the strand stalls while the die's table is full. -/
def arm (id t key : Nat) (blk : Option Nat) (op : ArmedOp) : M Unit := do
  let s : State ← gs
  if satisfied (s.counter id).c t then fireOp (4 * (s.armedCount + 2)) op
  else if 2048 ≤ s.armedOn (id / 1024) then stall
  else modCounter id fun c => { c with armed := c.armed ++ [⟨t, key, blk, op⟩] }

/-! The end of a copy (03 R88). -/

/-- A token arrives at the L input of a grain (03 R93, 11 R323); it waits while the queue is full. -/
def Grain.putL (g : Grain) (t : Token) : Grain :=
  if g.lin.isEmpty && decide ((g.q.get [] 4).length < 8) then { g with q := Tbl.put [] 4 (g.q.get [] 4 ++ [t]) g.q } else { g with lin := g.lin ++ [t] }

/-- The reply of a request packet: one data token at the L port of the originating grain (03 R93). -/
def replyToken (g : GrainRef) (v : Word) : M Unit :=
  modSlot g.region g.slot fun x => { x with grains := Tbl.put {} g.grain ((x.grains.get {} g.grain).putL ⟨0, v⟩) x.grains }

/-- What EXIT has to know of a copy (09 R273, 14 R393). -/
def noteCopy (c : Cmd) (f : CopyRef → Option CopyRef) : M Unit :=
  match c.src with
  | .strand k => modStrand k fun st => { st with copies := st.copies.filterMap fun r => if r.id = c.id then f r else some r }
  | _ => pure ()

/-- The final publication of command `c` of channel `ch`, and its removal from the queue. -/
def finalPublish (ch : Nat) (c : Cmd) (usable : Bool) (status count : Nat) : M Unit := do
  let w : Who := ⟨some (ch / 8), c.ctx, c.sup⟩
  modChan ch fun x => { x with q := x.q.filter fun y => decide (y.id ≠ c.id) }
  let ck := ndCkind c.dw
  let cmpl := dwAt c.dw 1
  if usable && decide (ck ≠ 0) then
    noteCopy c fun _ => none
    match ck with
    | 1 => storeProgress w (ch / 8 / 128) c.task cmpl (progressWord true status count)
    | 2 => addCounter (fld cmpl 0 13) (fld cmpl 16 32) (if status = 0 then none else some status)
    | _ =>
      match c.slot with
      | some (ring, sl) => fillSlot ring sl status
      | none => pure ()
  else
    if status ≠ 0 then
      modChan ch fun x => { x with status := status }
      logErr (ch / 8 / 128 * 256 + ch / 8 % 128) 4 c.descVA (word status)
    noteCopy c fun r => if status = 0 then none else some { r with st := .failed status }
  match c.src with
  | .grain g (some tag) => replyToken g (word (tag * 2 ^ 46 + status))
  | _ => pure ()

end Sys2Proof.Machine
end

