-- ==== Sys2Proof/Machine/Commands.lean ====
section
/-! DEFINITION. Copies, rings, trigger counters, launches and ownership tokens, as strands use them (12 R348 to R366). -/

namespace Sys2Proof.Machine

/-! Names (12 R348). -/

def ringName (id : Word) : M Nat := if fld id 15 49 ≠ 0 then trap 0xB id else pure id.toNat
def counterName (id : Word) : M Nat := if fld id 13 51 ≠ 0 then trap 0xB id else pure id.toNat
def streamName (id : Word) : M Nat := if fld id 12 52 ≠ 0 then trap 0xB id else pure id.toNat

/-- A ring, and a counter, that the strand's context owns. -/
def ownRing (id : Word) : M Nat := do
  let n ← ringName id
  if !(← gs).ownsRing (← me).ctx n then trap 0xB id
  return n
def ownCounter (id : Word) : M Nat := do
  let n ← counterName id
  if !(← gs).ownsCounter (← me).ctx n then trap 0xB id
  return n

/-- The executing strand passes to WAIT (06 R164). -/
def waitFor (w : Wait) : M Unit := modMe fun st => { st with st := .wait, wait := w }

def myTask : M (Option Nat) := do return (← gs).taskOf (← curKey)

/-! Rings (12 R354 to R357). -/

/-- 03 R94: the setup record is malformed. -/
def ringBad (dw : List Word) : Bool :=
  let lsz := fld (dwAt dw 1) 0 5
  let nslot := fld (dwAt dw 1) 8 17
  let sc := fld (dwAt dw 1) 25 3
  decide (fld (dwAt dw 1) 45 19 ≠ 0) || decide (fld (dwAt dw 1) 5 3 ≠ 0) || decide (dwAt dw 2 ≠ 0) || decide (dwAt dw 3 ≠ 0) ||
  (bitOf (dwAt dw 1) 28 && selBad (fld (dwAt dw 1) 29 16)) ||
  decide (lsz < 3 ∨ 20 < lsz) || decide (nslot = 0 ∨ 65536 < nslot) || decide (sc = 0 ∨ 5 < sc) || decide ((dwAt dw 0).toNat % 2 ^ lsz ≠ 0)

def ringOf (ctx : Nat) (dw : List Word) : Ring :=
  { owner := some ctx, base := dwAt dw 0, lsz := fld (dwAt dw 1) 0 5, nslot := fld (dwAt dw 1) 8 17, scope := fld (dwAt dw 1) 25 3
    space := bitOf (dwAt dw 1) 28, psel := fld (dwAt dw 1) 29 16 }

/-- A region has a binding to the ring (11 R322). -/
def Region.binds (x : Region) (id : Nat) : Bool := x.slots.any fun s => s.2.binds.any fun b => decide (b.ring = id)
def State.ringBound (s : State) (id : Nat) : Bool :=
  s.regions.any fun r => match r.2 with | some x => x.binds id | none => false

/-- A router entry delivers to the ring (12 R367). -/
def State.ringDelivers (s : State) (id : Nat) : Bool :=
  s.streams.any fun v => !v.2.dw.isEmpty && decide (rtRing v.2.dw = id) && (rtSets v.2.dw).any fun j => decide (rtAction v.2.dw j = 2)

def State.ringBusy (s : State) (id : Nat) : Bool :=
  decide ((s.ring id).rsv ≠ (s.ring id).wr) || s.ringBound id || s.ringDelivers id

/-- RNGINIT (12 R354): the statuses are tested in the order of their table. -/
def execRnginit (d a b : BitVec 5) (s : State) : Host.Outcome State Fault Refusal := run (do
  issueOn (.rnginit d a b) [d, a, b]
  let k ← curKey
  let id ← ringName (← rg a)
  let va ← rg b
  let dw ← if va = 0 then pure [] else descRead k va 32 32
  irrevocable (← myTask)
  let ctx := (← me).ctx
  let r := (← gs).ring id
  if !dw.isEmpty && ringBad dw then retire d 1 4
  else if r.owner.isSome && decide (r.owner ≠ some ctx) then retire d 2 4
  else if r.owner.isSome && (← gs).ringBusy id then retire d 3 4
  else
    emit (.ring id (if dw.isEmpty then {} else ringOf ctx dw))
    retire d 0 4) s

/-- The slot word (12 R355). -/
def Ring.slotWord (r : Ring) : Word := word ((r.addr r.rd).toNat / 2 * 2 + (if r.fault.isSome then 1 else 0))

/-- RAWAIT (12 R355). -/
def execRawait (d a : BitVec 5) (s : State) : Host.Outcome State Fault Refusal := run (do
  issueOn (.rawait d a) [d, a]
  let id ← ownRing (← rg a)
  irrevocable (← myTask)
  let r := (← gs).ring id
  if ringReady r then retire d r.slotWord 4 else waitFor (.ring id)) s

/-- RRELS (12 R356): a release at the ring's SCOPE. -/
def execRrels (a : BitVec 5) (s : State) : Host.Outcome State Fault Refusal := run (do
  issueOn (.rrels a) [a]
  let g ← rg a
  let id ← ownRing g
  irrevocable (← myTask)
  let r := (← gs).ring id
  if r.rd = r.wr then trap 0xB g
  if r.scope = 5 then domainRelease (← curKey) s none
  modRing id fun r => { r with rd := (r.rd + 1) % 2 ^ 32 }
  next 4) s

/-- RNGQ (12 R357). -/
def execRngq (d a : BitVec 5) (sel : Bool) (s : State) : Host.Outcome State Fault Refusal := run (do
  issueOn (.rngq d a sel) [d, a]
  let r := (← gs).ring (← ownRing (← rg a))
  retire d (if sel then word ((if r.fault.isSome then 2 ^ 63 else 0) + r.fault.getD 0 % 128 * 2 ^ 56 + r.rsv) else word (r.wr * 2 ^ 32 + r.rd)) 4) s

/-! Trigger counters (12 R358). -/

/-- The release side of an update at a scope (05 R146). -/
def counterRelease (sc : BitVec 3) (s0 : State) : M Unit := do
  if sc.toNat = 5 then domainRelease (← curKey) s0 none

def execTcset (a b : BitVec 5) (sc : BitVec 3) (s : State) : Host.Outcome State Fault Refusal := run (do
  issueOn (.tcset a b sc) [a, b]
  let g ← rg a
  let v ← rg b
  let id ← counterName g
  let ctx := (← me).ctx
  let c := (← gs).counter id
  if c.owner.isSome && decide (c.owner ≠ some ctx) then trap 0xB g
  if fld v 48 15 ≠ 0 then trap 0xB v
  if bitOf v 63 && !c.armed.isEmpty then trap 0xB v
  irrevocable (← myTask)
  counterRelease sc s
  if bitOf v 63 then emit (.counter id {})
  else updateCounter id fun c => { c with owner := some ctx, c := fld v 0 48, fault := none }
  next 4) s

def execTcadd (a b : BitVec 5) (sc : BitVec 3) (s : State) : Host.Outcome State Fault Refusal := run (do
  issueOn (.tcadd a b sc) [a, b]
  let v ← rg b
  let id ← ownCounter (← rg a)
  if 2 ^ 32 ≤ v.toNat then trap 0xB v
  irrevocable (← myTask)
  counterRelease sc s
  addCounter id v.toNat none
  next 4) s

/-- The word that TCWAIT writes. -/
def Counter.read (c : Counter) : Word := word ((if c.fault.isSome then 2 ^ 63 else 0) + c.fault.getD 0 % 128 * 2 ^ 56 + c.c)

def execTcwait (d a b : BitVec 5) (sc : BitVec 3) (poll : Bool) (s : State) : Host.Outcome State Fault Refusal := run (do
  issueOn (.tcwait d a b sc poll) [d, a, b]
  let v ← rg b
  let id ← ownCounter (← rg a)
  if fld v 48 16 ≠ 0 then trap 0xB v
  irrevocable (← myTask)
  let c := (← gs).counter id
  if poll || satisfied c.c (fld v 0 48) then retire d c.read 4 else waitFor (.counter id (fld v 0 48))) s

/-! Launches (12 R359, R360, R365). -/

/-- The record at an address: its first five dwords, then its arguments (12 R359). -/
def launchRecord (k : Nat) (va : Word) : M (List Word) := do
  if va.toNat % 8 ≠ 0 then trap 3 va
  let h ← readWords k va 40 id [] (← answers k)
  let t ← if recNargs h.1 ≤ 14 then readWords k (va + 40) (8 * recNargs h.1) id [] h.2 else pure ([], h.2)
  dropReplies k
  return h.1 ++ t.1

/-- LAUNCH (12 R360). -/
def execLaunch (d a : BitVec 5) (s : State) : Host.Outcome State Fault Refusal := run (do
  issueOn (.launch d a) [d, a]
  let k ← curKey
  let dw ← launchRecord k (← rg a)
  let ctx := (← me).ctx
  let q := recQueue dw
  let tk ← myTask
  if (← gs).recMalformed ctx dw || decide (recCkind dw = 3) then retire d 1 4
  else if !(← gs).queueUsable ctx q then retire d 2 4
  else
    match tk, (← gs).buffering tk with
    | some t, some _ => do
      modTask t fun x => { x with recs := x.recs ++ [(q, dw, none)] }
      retire d 0 4
    | _, _ => do
      if (← gs).queueFull q then retire d 3 4
      else
        enqueueRec q dw
        retire d 0 4) s

/-- The counting of a child into its join record by the strand that spawns it, an AMO at device scope (12 R365). The count in a peer's memory follows the answers (05 R145, R149), and the strand waits for it. -/
def spawnCount (k : Nat) (va : Word) (dw : List Word) : M Bool := do
  let p ← scalarReach k va 8 false accRmw
  let tk := (← gs).taskOf k
  match p with
  | .at_ (.mem pa) => do
    if (← gs).viewPoisoned tk pa 16 then trap 7 va
    if ((← gs).strand k).watched va 16 accRmw then trap 0xD va
    let c ← memRead tk pa 8
    if joinOpen c (← memRead tk (pa + 8) 8) then
      memWrite (dieOf k) (some k) tk pa (bytesOf (c % 2 ^ 32 + 1) 4)
      return true
    else return false
  | .at_ (.remote dev da) => do
    let st ← getStrand k
    if st.watched va 16 accRmw then trap 0xD va
    let tag ← freshId
    modFabric fun f => { f with requests := f.requests ++ [⟨tag, .strand k, none, none, va⟩] }
    modStrand k fun st => { st with spawn := some (.counting tag dw), held := [(va, p)] }
    startJoin st.ctx va dev da (.spawn tag)
    finish
  | _ => trap 5 va

/-- A counted child is enqueued; while its queue is full the strand waits, and the record is held (12 R365). -/
def spawnEnqueue (d : BitVec 5) (dw : List Word) : M Unit := do
  let q := recQueue dw
  let s : State ← gs
  if s.queueFull q || s.sched.held.any (fun x => decide (x.1 = q)) then
    let id ← freshId
    modSched fun x => { x with held := x.held ++ [(q, dw, some id)] }
    modMe fun st => { st with spawn := some (.room id) }
  else
    enqueueRec q dw
    retire d 0 4

/-- SPAWN (12 R365). -/
def execSpawn (d a : BitVec 5) (s : State) : Host.Outcome State Fault Refusal := run (do
  issueOn (.spawn d a) [d, a]
  let k ← curKey
  match (← me).spawn with
  | some (.room id) =>
    if (← gs).sched.held.any fun x => decide (x.2.2 = some id) then stall
    modMe fun st => { st with spawn := none }
    retire d 0 4
  | some (.counting tag dw) =>
    if (← gs).fabric.requests.any fun r => decide (r.tag = tag) then stall
    let ok := (← me).replies.any fun r => r.2 == .value 1
    modMe fun st => { st with spawn := none, replies := [], held := [] }
    if ok then spawnEnqueue d dw else retire d 1 4
  | none =>
    let dw ← launchRecord k (← rg a)
    let ctx := (← me).ctx
    let q := recQueue dw
    let tk ← myTask
    if (← gs).recMalformed ctx dw || decide (recCkind dw ≠ 3) then retire d 1 4
    else if !(← gs).queueUsable ctx q then retire d 2 4
    else
      match tk, (← gs).buffering tk with
      | some t, some _ => do
        modTask t fun x => { x with recs := x.recs ++ [(q, dw, some (dwAt dw 3))] }
        retire d 0 4
      | _, _ => do
        if ← spawnCount k (dwAt dw 3) dw then spawnEnqueue d dw else retire d 1 4) s

/-! Ownership tokens (12 R366, 05 R151 to R153). -/

/-- The translation of an address of a token-managed region: a status, or the region's home device and number. -/
def tokenRegion (k : Nat) (va : Word) : M (Option (Nat × Nat)) := do
  match ← probe (← whoIs k) va accLoad with
  | .error c => trap c va
  | .ok t => do
    let s : State ← gs
    return if lfTM t.leaf && decide (lfKind t.leaf < 2) then some (s.regionOf t va.toNat) else none

/-- Ask for a transfer, and wait for it. -/
def awaitToken (t : TokenReq) : M Unit := do
  modFabric fun f => if f.moving.contains t then f else { f with moving := f.moving ++ [t] }
  waitFor (.token t)

/-- A transfer that the strand waited for has been made. -/
def arrived (t : TokenReq) : M Bool := do return decide ((← me).wait = .token t)

def endToken (d : BitVec 5) (st : Nat) : M Unit := do
  modMe fun x => { x with wait := .none }
  retire d (word st) 4

def execOwnacq (d a : BitVec 5) (s : State) : Host.Outcome State Fault Refusal := run (do
  issueOn (.ownacq d a) [d, a]
  let x ← tokenRegion (← curKey) (← rg a)
  irrevocable (← myTask)
  match x with
  | none => retire d 2 4
  | some r => do
    let s1 : State ← gs
    let t : TokenReq := ⟨r.1, r.2, s1.harbour.devid⟩
    if ← arrived t then endToken d 0
    else if s1.ownsToken r.1 r.2 then retire d 1 4
    else if 4096 ≤ s1.fabric.owned.length + s1.fabric.back.length then retire d 3 4
    else awaitToken t) s

def execOwnrel (d a : BitVec 5) (s : State) : Host.Outcome State Fault Refusal := run (do
  issueOn (.ownrel d a) [d, a]
  let x ← tokenRegion (← curKey) (← rg a)
  irrevocable (← myTask)
  match x with
  | none => retire d 2 4
  | some r => do
    let t : TokenReq := ⟨r.1, r.2, r.1⟩
    if ← arrived t then endToken d 0
    else
      if !(← gs).ownsToken r.1 r.2 then retire d 1 4
      else
        domainRelease (← curKey) s none
        if r.1 = (← gs).harbour.devid then retire d 0 4 else awaitToken t) s

/-! Copies (12 R351 to R353). -/

/-- The descriptor of a copy as its strand reads it; none where its address is misaligned (03 R88: a command with status ALIGN). -/
def copyDesc (k : Nat) (va : Word) (i : Instr) : M (Option (List Word)) := do
  if va.toNat % 128 ≠ 0 then return none
  let dw ← recordRead k va 128
  if isShoal k && decide (ndXf dw = 2) then raiseBits 2 i
  return some dw

/-- The command that a descriptor makes for strand `k`. -/
def newCmd (k : Nat) (src : CmdSrc) (va : Word) (dw : Option (List Word)) : M Cmd := do
  let id ← freshId
  let st ← getStrand k
  let tk := (← gs).taskOf k
  return { id := id, ctx := st.ctx, src := src, descVA := va, dw := dw.getD (List.replicate 16 0), bad := if dw.isNone then some stALIGN else none
           running := false, chunk := 0, count := 0, slot := none, cancel := false, block := st.block, task := tk
           sup := st.sup, spos := 0, replies := [] }

/-- A copy is irrevocable when it completes at a counter or a ring (05 R141). -/
def copyGate (dw : Option (List Word)) : M Unit := do
  if 2 ≤ ndCkind (dw.getD []) then irrevocable (← myTask)

def execCpy (a : BitVec 5) (ch : BitVec 3) (s : State) : Host.Outcome State Fault Refusal := run (do
  issueOn (.cpy a ch) [a]
  let k ← curKey
  let va ← rg a
  let dw ← copyDesc k va (.cpy a ch)
  copyGate dw
  let c := 8 * panOf k + ch.toNat
  if 8 ≤ ((← gs).chan c).q.length then waitFor (.chan c)
  else
    let cmd ← newCmd k (.strand k) va dw
    modChan c fun x => { x with q := x.q ++ [cmd] }
    modMe fun st => { st with copies := st.copies ++ [⟨cmd.id, va, if ndCkind cmd.dw = 0 then .waiting else .unchecked⟩], pc := st.pc + 8 }) s

/-- The trigger register gt (12 R353): counter and threshold. -/
def triggerOf (gt : Word) : M (Nat × Nat) := do
  let id := fld gt 0 13
  if fld gt 61 3 ≠ 0 then trap 0xB gt
  if !(← gs).ownsCounter (← me).ctx id then trap 0xB gt
  return (id, fld gt 13 48)

def execCpyTrg (a : BitVec 5) (ch : BitVec 3) (t : BitVec 5) (s : State) : Host.Outcome State Fault Refusal := run (do
  issueOn (.cpyTrg a ch t) [a, t]
  let k ← curKey
  let va ← rg a
  let g ← triggerOf (← rg t)
  let dw ← copyDesc k va (.cpyTrg a ch t)
  irrevocable (← myTask)
  let cmd ← newCmd k .armed va dw
  arm g.1 g.2 k cmd.block (.copy (8 * panOf k + ch.toNat) cmd)
  next 8) s

/-! Collectives, as a strand starts them (12 R369, R370). -/

/-- The collective that a descriptor makes for strand `k`. -/
def newColl (k : Nat) (dw : List Word) : M Coll := do
  let st ← getStrand k
  return { id := ← freshId, ctx := st.ctx, key := k, dw := dw, task := ← myTask, sup := st.sup, slot := none }

/-- The descriptor; a misaligned address is reported in the error log, and the instruction retires. -/
def collDesc (k : Nat) (va : Word) : M (List Word) := do
  if va.toNat % 64 ≠ 0 then
    logErr (srcOf k) 4 va (word stALIGN)
    next 8
    finish
  recordRead k va 64

def execColl (a : BitVec 5) (s : State) : Host.Outcome State Fault Refusal := run (do
  issueOn (.coll a) [a]
  let k ← curKey
  irrevocable (← myTask)
  let dw ← collDesc k (← rg a)
  if ((← gs).stream (clVs dw)).pend.isSome then waitFor (.coll (clVs dw))
  else
    acceptColl (4 * ((← gs).armedCount + 2)) (← newColl k dw)
    next 8) s

def execCollTrg (a t : BitVec 5) (s : State) : Host.Outcome State Fault Refusal := run (do
  issueOn (.collTrg a t) [a, t]
  let k ← curKey
  let g ← triggerOf (← rg t)
  irrevocable (← myTask)
  let dw ← collDesc k (← rg a)
  arm g.1 g.2 k (← me).block (.coll (← newColl k dw))
  next 8) s

end Sys2Proof.Machine
end

