-- ==== Sys2Proof/Machine/Sluice.lean ====
section
/-! DEFINITION. The sluice engines at work: the start of a command with its checks and the range checker (03 R81, R85, R89, R95, 12 R349), its chunks (03 R84, R88), the EK8 decoder (07 R194 to R196), and the queueing of fired copies (12 R353). -/

namespace Sys2Proof.Machine

/-! EK8 (07 R194 to R196). -/

/-- What is known of a block from the bytes read so far. -/
inductive Ek (α : Type) where
  | more
  | bad
  | ok (x : α)

/-- Read `n` bits, first bit most significant. -/
def ekBits : Nat → Nat → List Bool → Ek (Nat × List Bool)
  | 0, acc, bs => .ok (acc, bs)
  | _ + 1, _, [] => .more
  | n + 1, acc, b :: bs => ekBits n (2 * acc + if b then 1 else 0) bs

/-- Count ones up to `m`, a zero ending a shorter run. -/
def ekOnes : Nat → Nat → List Bool → Ek (Nat × List Bool)
  | 0, acc, bs => .ok (acc, bs)
  | _ + 1, _, [] => .more
  | m + 1, acc, b :: bs => if b then ekOnes m (acc + 1) bs else .ok (acc, bs)

/-- The rows of 07 R195 by table and count of leading ones: first z, offset bits, valid offsets. -/
def ekRow (tsel ones : Nat) : Nat × Nat × Nat :=
  nth (0, 5, 31) (nth [] [[(0, 0, 1), (1, 0, 1), (2, 0, 1), (3, 2, 4), (7, 5, 24)], [(0, 1, 2), (2, 2, 4), (6, 3, 8), (14, 5, 17)],
    [(0, 2, 4), (4, 3, 8), (12, 5, 19)], [(0, 5, 31)]] tsel) ones

/-- ReadCode. -/
def ekCode (tsel : Nat) (bs : List Bool) : Ek (Nat × List Bool) :=
  match ekOnes (nth 0 [4, 3, 2, 0] tsel) 0 bs with
  | .more => .more
  | .bad => .bad
  | .ok (ones, bs) =>
    let row := ekRow tsel ones
    match ekBits row.2.1 0 bs with
    | .more => .more
    | .bad => .bad
    | .ok (off, bs) => if off < row.2.2 then .ok (row.1 + off, bs) else .bad

/-- `n` exponent fields from their codes. -/
def ekExps (base tsel : Nat) : Nat → List Bool → Ek (List Nat × List Bool)
  | 0, bs => .ok ([], bs)
  | n + 1, bs =>
    match ekCode tsel bs with
    | .more => .more
    | .bad => .bad
    | .ok (z, bs) =>
      let e : Int := base + if z % 2 = 0 then ((z / 2 : Nat) : Int) else -(((z + 1) / 2 : Nat) : Int)
      if e < 0 ∨ 15 < e then .bad else
      match ekExps base tsel n bs with
      | .more => .more
      | .bad => .bad
      | .ok (es, bs) => .ok (e.toNat :: es, bs)

/-- The bits of bytes, each from its most significant. -/
def msbBits (bs : List Nat) : List Bool := bs.flatMap fun b => [7, 6, 5, 4, 3, 2, 1, 0].map b.testBit

/-- DecodeEK8 on the bytes read so far: the 64 codes and the block's length. -/
def ekBlock (bytes : List Nat) : Ek (List Nat × Nat) :=
  match bytes with
  | [] => .more
  | h :: rest =>
    let uni := h.testBit 0
    if h.testBit 1 || (uni && decide (h / 4 % 4 ≠ 0)) then .bad else
    let codes := if uni then .ok (List.replicate 64 (h / 16), msbBits rest) else ekExps (h / 16) (h / 4 % 4) 64 (msbBits rest)
    match codes with
    | .more => .more
    | .bad => .bad
    | .ok (es, left) =>
      let pad := left.length % 8
      if (left.take pad).any id then .bad else
      let nib := (bytes.length * 8 - (left.length - pad)) / 8
      let len := (nib + 32 + 3) / 4 * 4
      if bytes.length < nib + 32 then .more
      else if (bytes.drop (nib + 32)).take (len - nib - 32) |>.any (· ≠ 0) then .bad
      else if bytes.length < len then .more
      else .ok ((List.range 64).map fun i =>
        let n := nth 0 bytes (nib + i / 2) / 16 ^ (i % 2) % 16
        n / 8 * 128 + nth 0 es i * 8 + n % 8, len)

/-! The commands of a channel. -/

/-- 03 R91: a pre-empted block's commands begin no chunk. -/
def State.cmdHeld (s : State) (c : Cmd) : Bool :=
  match c.block.bind s.block with
  | some b => (b.preempt || decide (b.st = .parked) || decide (b.st = .evicted) || decide (b.st = .moving)) && decide (c.phase = .idle)
  | none => false

/-- The command whose turn it is in a channel (03 R81: the first of its queue), where it is not held. -/
def State.chanHead (s : State) (ch : Nat) : Option Cmd := (s.chan ch).q.head?.bind fun c => if s.cmdHeld c then none else some c

def modCmd (ch id : Nat) (f : Cmd → Cmd) : M Unit :=
  modChan ch fun x => { x with q := x.q.map fun c => if c.id = id then f c else c }

/-- 03 R95: the descriptor with the reserved slot as its destination. -/
def State.cmdDw (s : State) (c : Cmd) : List Word :=
  match ndDring c.dw, c.slot with
  | true, some (ring, sl) =>
    let r := s.ring ring
    upd (upd c.dw 3 fun _ => r.addr sl) 0 fun w =>
      w ||| word ((if r.space then 2 ^ 14 else 0) + (if r.space then r.psel * 2 ^ 32 else 0))
  | _, _ => c.dw

/-- 03 R95: the footprint of a command whose destination is a ring slot does not lie within the slot. -/
def State.slotRange (s : State) (own : Nat) (c : Cmd) : Bool :=
  match ndDring c.dw, c.slot with
  | true, some (ring, sl) =>
    let r := s.ring ring
    let dw := s.cmdDw c
    let x := extent dw (r.addr sl).toNat (ndDstr dw)
    decide (ndTotal dw ≠ 0) &&
      (decide (x.1 < ((r.addr sl).toNat : Int)) || decide (((r.addr sl).toNat : Int) + (2 ^ r.lsz : Nat) < x.2) ||
       (r.space && ((selPan own r.psel).isNone || selBad r.psel || extentOut x)))
  | _, _ => false

/-- 03 R89: the pan footprints of a command: pan, lowest address, end, and whether it writes there. -/
def State.footprints (s : State) (own : Nat) (c : Cmd) : List (Nat × Int × Int × Bool) :=
  let dw := s.cmdDw c
  if c.bad.isSome || (descStatus own c.dw).isSome || decide (ndTotal dw = 0) then [] else
  let one := fun (on : Bool) (sel base : Nat) (str : Nat → Int) (w : Bool) =>
    match on, selPan own sel with
    | true, some p => let x := extent dw base str; [(p, x.1, x.2, w)]
    | _, _ => []
  one (ndSspc dw) (ndSsel dw) (dwAt dw 2).toNat (ndSstr dw) false ++ one (ndDspc dw) (ndDsel dw) (dwAt dw 3).toNat (ndDstr dw) true

/-- 03 R89: an earlier command of the engine conflicts with `c`, or may: its descriptor is still being read. -/
def State.conflicts (s : State) (own : Nat) (c : Cmd) : Bool :=
  let mine := s.footprints own c
  (List.range 8).any fun i => (s.chan (8 * own + i)).q.any fun a =>
    decide (a.id < c.id) && ((a.dw.isEmpty && !mine.isEmpty) || (s.footprints own a).any fun x => mine.any fun y =>
      decide (x.1 = y.1) && decide (x.2.1 < y.2.2.1) && decide (y.2.1 < x.2.2.1) && (x.2.2.2 || y.2.2.2))

def Cmd.who (ch : Nat) (c : Cmd) : Who := ⟨some (ch / 8), c.ctx, c.sup⟩

/-- The status that a command has before its first access, and whether its completion object can be used (03 R85, 12 R349). -/
def cmdStatus (ch : Nat) (c : Cmd) : M (Option Nat × Bool) := do
  let own := ch / 8
  let st := match c.bad with | some x => some x | none => descStatus own c.dw
  match ← objectFails (c.who ch) (dieOfPan' own) (ndCkind c.dw) (dwAt c.dw 1) with
  | none => return (st, true)
  | some o => return (match st with | some x => some x | none => some o, false)
where
  dieOfPan' (p : Nat) : Nat := p / 128

/-- The ring of a command that completes at a ring (03 R87). -/
def cmdRing (ch : Nat) (c : Cmd) : Nat := ch / 8 / 128 * 4096 + fld (dwAt c.dw 1) 0 12

/-- RING_RESERVE (03 R95). -/
def execRingReserve (ch : Nat) (s : State) : Host.Outcome State Fault Refusal := run (do
  match (← gs).chanHead ch with
  | none => pure ()
  | some c =>
    if !c.running && decide (ndCkind c.dw = 3) && c.slot.isNone then
      if (← cmdStatus ch c).2 then
        match ← reserveSlot (cmdRing ch c) with
        | some sl => modCmd ch c.id fun c => { c with slot := some (cmdRing ch c, sl) }
        | none => pure ()) s

/-- The place of an engine's access, or the status of its failure (02 R59, 01 R22, R25, R31); one that is held is not checked again (01 R41). The bytes of a pan on another die cross the package network (03 R77). -/
def enginePlace (w : Who) (tk : Option Nat) (hs : List (Word × Place)) (pan : Option Nat) (va : Word) (n : Nat) (a : Acc) : M (Except Nat Place) := do
  match hs.find? fun h => decide (h.1 = va) with
  | some h => return .ok h.2
  | none => pure ()
  match pan with
  | some p => do
    if !(← gs).inPartition p w.ctx va.toNat n then return .error 5
    match w.pan with
    | some own => do
      if a.rd then carry (p / 128) (own / 128) w.ctx n
      if a.wr then carry (own / 128) (p / 128) w.ctx n
    | none => pure ()
    return .ok (.pan (panKey p va.toNat))
  | none =>
    match ← reach w true ((← gs).buffering tk).isSome va n a with
    | .error c => return .error c
    | .ok (.io _) => return .error 5
    | .ok l => return .ok (.at_ l)

/-- An access of a command leaves. -/
def askFar (ch : Nat) (c : Cmd) (va : Word) (p : Place) (n : Nat) (store : Option Nat) : M Unit := do
  match store, p with
  | some v, .at_ (.remote dev da) => do
    irrevocable c.task
    sendRemote (.chan ch c.id) va dev da n .store (word v) 0 false none
  | _, p => sendLoad (.chan ch c.id) va n p

def State.asking (s : State) (ch : Nat) (c : Cmd) : Bool := s.fabric.requests.any fun r => decide (r.who = .chan ch c.id)

/-- The status of the first failed answer. -/
def firstFailed (rs : List (Nat × RResp)) : Option Nat :=
  rs.findSome? fun r => match r.2 with | .fault x => some x | .lost => some stPOISON | .atHome => some stPOISON | _ => none

/-- The descriptor of a request packet (03 R82, R93), a page of one kind, is read as the engine accepts it; that of a peer or a host is there once every answer is. -/
def fetchDesc (ch : Nat) (c : Cmd) : M Unit := do
  let give := fun (st : Nat) => modCmd ch c.id fun c => { c with dw := List.replicate 16 0, bad := some st, replies := [] }
  let vas := (List.range 16).map fun i => c.descVA + word (8 * i)
  if (← gs).asking ch c then pure ()
  else if !c.replies.isEmpty then
    match firstFailed c.replies with
    | some st => give st
    | none => modCmd ch c.id fun x => { x with dw := c.replies.map fun r => (match r.2 with | .value v => v | _ => 0), replies := [] }
  else
    match ← enginePlace (c.who ch) c.task [] none c.descVA 128 accLoad with
    | .error e => give e
    | .ok (.at_ l) => do
      let ps := (enumFrom 0 vas).map fun x => (x.2, (match l with
        | .mem pa => .at_ (.mem (pa + 8 * x.1))
        | .remote dev da => .at_ (.remote dev (da + 8 * x.1))
        | .host port a => .at_ (.host port (a + 8 * x.1))
        | l => .at_ l : Place))
      if (Place.at_ l).isFar then each ps fun x => askFar ch c x.1 x.2 8 none
      else
        let vs ← collect ps fun x => readPlace c.task 8 x.2
        if vs.any (·.2) then give stPOISON else modCmd ch c.id fun c => { c with dw := vs.map fun v => word v.1 }
    | .ok _ => give 5

/-- SLUICE_COMMAND_START (03 R81, R85, R89); a command whose publications are at scope 5 starts once they need not wait (05 R129). -/
def execSluiceCommandStart (ch : Nat) (s : State) : Host.Outcome State Fault Refusal := run (do
  match (← gs).chanHead ch with
  | none => pure ()
  | some c =>
    if c.running then pure ()
    else if c.dw.isEmpty then fetchDesc ch c
    else if (← gs).publishWaits c.id (ndScope c.dw) then pure ()
    else
      let x ← cmdStatus ch c
      if x.2 && decide (ndCkind c.dw ≠ 0) then noteCopy c fun _ => none
      if x.2 && decide (ndCkind c.dw = 3) && c.slot.isNone then pure ()
      else
        let s1 : State ← gs
        let st := match x.1 with
          | some st => some st
          | none => if s1.slotRange (ch / 8) c then some stRANGE else if c.cancel then some stCANCELLED else none
        match st with
        | some st => finalPublish ch c x.2 st 0
        | none =>
          if s1.conflicts (ch / 8) c then pure ()
          else if ndTotal c.dw = 0 then finalPublish ch c x.2 0 0
          else modCmd ch c.id fun c => { c with running := true }) s

/-! A chunk (03 R84, R88). -/

/-- 03 R84: the index vector of sequence number `n`: write order, i1 innermost under XF = 1. -/
def nestIndex (dw : List Word) (n : Nat) : List Nat :=
  let order := if ndXf dw = 1 then [1, 0] ++ (ndDims dw).drop 2 else ndDims dw
  let go := order.foldl (fun (a : Nat × List (Nat × Nat)) k => (a.1 / ndCnt dw k, (k, a.1 % ndCnt dw k) :: a.2)) (n, [])
  (ndDims dw).map fun k => ((go.2.find? fun x => decide (x.1 = k)).map (·.2)).getD 0

def nestAddr (dw : List Word) (base : Word) (str : Nat → Int) (n : Nat) : Word :=
  base + wordI ((enumFrom 0 (nestIndex dw n)).foldl (fun a x => a + (x.2 : Int) * str x.1) 0)

/-- Probe the elements of a chunk, in order, the source first; the status of the first failure. -/
def probeElems (w : Who) (tk : Option Nat) (own : Nat) (dw : List Word) : List Nat → M (Except Nat (List Elem))
  | [] => return .ok []
  | n :: ns => do
    let e := ndE dw
    let sva := nestAddr dw (dwAt dw 2) (ndSstr dw) n
    let dva := nestAddr dw (dwAt dw 3) (ndDstr dw) n
    let src : Except Nat (Option Place) ←
      if ndXf dw = 2 then pure (.ok none)
      else do
        let p ← enginePlace w tk [] (if ndSspc dw then selPan own (ndSsel dw) else none) sva e accLoad
        pure (p.map some)
    match src with
    | .error c => return .error c
    | .ok sp =>
      match ← enginePlace w tk [] (if ndDspc dw then selPan own (ndDsel dw) else none) dva e accStore with
      | .error c => return .error c
      | .ok dp =>
        match ← probeElems w tk own dw ns with
        | .error c => return .error c
        | .ok l => return .ok (⟨sp, dp, sva, dva⟩ :: l)

/-- The values of a chunk's elements in order; the status of the first failure among poison and failed answers. -/
def chunkRead (tk : Option Nat) (n : Nat) : List Elem → List RResp → M (Except Nat (List Nat))
  | [], _ => return .ok []
  | e :: es, rs => do
    let x : Except Nat Nat × List RResp ← match e.src with
      | some p =>
        if p.isFar then
          pure (match rs.headD .lost with
            | .value v => (.ok (v.toNat % 2 ^ (8 * n)), rs.tail)
            | .ack => (.ok 0, rs.tail)
            | .fault c => (.error c, rs.tail)
            | _ => (.error stPOISON, rs.tail))
        else do
          let v ← readPlace tk n p
          pure (if v.2 then (.error stPOISON, rs) else (.ok v.1, rs))
      | none => pure (.ok 0, rs)
    match x.1 with
    | .error c => return .error c
    | .ok v =>
      match ← chunkRead tk n es x.2 with
      | .error c => return .error c
      | .ok vs => return .ok (v :: vs)

/-- 02 R62, 03 R76: a poisoned 8-byte word that the chunk's writes do not cover whole. -/
def State.mergesPoison (s : State) (tk : Option Nat) (n : Nat) (ps : List Place) : Bool :=
  ps.any fun p =>
    let cov := fun (mk : Nat → Place) (a : Nat) => (List.range 8).all fun i => ps.any fun q => q.meets n (mk (a / 8 * 8 + i)) 1
    match p with
    | .pan a => s.panPoisonedAt a n && !cov .pan a
    | .at_ (.mem a) => s.viewPoisoned tk a n && !cov (fun x => .at_ (.mem x)) a
    | _ => false

/-- A local or host write of an engine on die `d`; `w` says whose traffic it is. -/
def engineWrite (w : Option Nat × Nat) (d : Nat) (tk : Option Nat) (n : Nat) (p : Place) (v : Nat) : M Unit :=
  match p with
  | .pan key => panWrite none key (bytesOf v n)
  | .at_ (.mem pa) => memWrite d none tk pa (bytesOf v n)
  | .at_ (.host port addr) => do
    irrevocable tk
    hostWrite w none port addr n v
  | .at_ _ => pure ()

/-- The bytes of an EK8 stream from an offset: words of four bytes, as the block needs them. `rs` are the answers not yet used; the places of the words read stay held (01 R41). -/
def ekFetch (ch : Nat) (c : Cmd) : Nat → Nat → List Nat → List RResp → List (Word × Place) → M (Except Nat (List Nat × Nat × List RResp × List (Word × Place)))
  | 0, _, _, _, _ => return .error stDECODE
  | n + 1, off, bytes, rs, hs => do
    match ekBlock bytes with
    | .ok (es, len) => return .ok (es, len, rs, hs)
    | .bad => return .error stDECODE
    | .more => do
      let va := dwAt c.dw 2 + word (off + bytes.length)
      match ← enginePlace (c.who ch) c.task hs none va 4 accLoad with
      | .error e => return .error e
      | .ok p =>
        let hs := if hs.any fun h => decide (h.1 = va) then hs else hs ++ [(va, p)]
        if p.isFar then
          match rs with
          | [] => do
            modCmd ch c.id fun x => { x with phase := .reads, elems := c.elems, held := hs }
            askFar ch c va p 4 none
            finish
          | .value v :: rs => ekFetch ch c n off (bytes ++ (bytesOf v.toNat 4).map (·.toNat)) rs hs
          | .fault e :: _ => return .error e
          | _ :: _ => return .error stPOISON
        else
          let v ← readPlace c.task 4 p
          if v.2 then return .error stPOISON
          ekFetch ch c n off (bytes ++ (bytesOf v.1 4).map (·.toNat)) rs hs

/-- Decode `n` blocks from an offset: the codes, and the offset after them. -/
def ekBlocks (ch : Nat) (c : Cmd) : Nat → Nat → List RResp → List (Word × Place) → M (Except Nat (List Nat × Nat))
  | 0, off, _, _ => return .ok ([], off)
  | n + 1, off, rs, hs => do
    match ← ekFetch ch c 28 off [] rs hs with
    | .error e => return .error e
    | .ok (es, len, rs, hs) =>
      match ← ekBlocks ch c n (off + len) rs hs with
      | .error e => return .error e
      | .ok (t, off) => return .ok (es ++ t, off)

/-! A chunk goes through its phases in one step, but where it waits: for the answers of peers and hosts, or for its ordered task to become the oldest (05 R141). Each of these ends the chunk with a failing status, or gives the offset in an EK8 stream after it. -/

/-- 05 R141: a write of [pa, pa + n), or of a peer or host (none), would have its party stall until its task is the oldest. -/
def State.taskWaits (s : State) (tk : Option Nat) (d : Nat) (pa : Option Nat) (n : Nat) : Bool :=
  match tk, s.buffering tk with
  | some t, some x => !x.shadow && !s.isOldest t && match pa with | some pa => s.overflows tk d pa n | none => true
  | _, _ => false

/-- 05 R141: the publication of the chunk would stall. -/
def progressStalls (ch : Nat) (c : Cmd) : M Bool := do
  if ndCkind c.dw ≠ 1 then return false
  match ← probe (c.who ch) (dwAt c.dw 1) accStore with
  | .ok t => do
    let s : State ← gs
    return match s.locOf t (dwAt c.dw 1).toNat with | .mem pa => s.taskWaits c.task (ch / 8 / 128) (some pa) 8 | .remote _ _ => s.taskWaits c.task (ch / 8 / 128) none 8 | _ => false
  | .error _ => return false

/-- The writes from number `c.wrote` on; a chunk ends here between two of them where it stalls. -/
def chunkWrites (ch : Nat) (c : Cmd) (n : Nat) : List (Elem × Nat) → M Unit
  | [] => pure ()
  | x :: xs => do
    let s : State ← gs
    let d := ch / 8 / 128
    let stalls := match x.1.dst with
      | .pan _ => false
      | .at_ (.mem pa) => s.taskWaits c.task d (some pa) n
      | .at_ _ => s.taskWaits c.task d none n
    if stalls then
      modCmd ch c.id fun _ => c
      finish
    match x.1.dst with
    | .at_ (.remote _ _) => askFar ch c x.1.dva x.1.dst n (some x.2)
    | p => engineWrite (s.traffic (.chan ch c.id)) d c.task n p x.2
    chunkWrites ch { c with wrote := c.wrote + 1 } n xs

/-- The writes, the poison that whole words and granules lose (02 R62, 03 R76), and the answers of peers. -/
def chunkEnd (ch : Nat) (c : Cmd) (n : Nat) : M (Except Nat Nat) := do
  let first := decide (c.wrote < c.elems.length)
  chunkWrites ch c n ((c.elems.zip c.vals).drop c.wrote)
  let c := { c with wrote := c.elems.length }
  if first && (!(← gs).poison.isEmpty || !(← gs).panPoison.isEmpty) then healGroup c.task n (c.elems.map fun e => (⟨0, 0, e.dva⟩, e.dst))
  let stalls ← progressStalls ch c
  if (← gs).asking ch c || stalls then
    modCmd ch c.id fun _ => c
    finish
  match firstFailed c.replies with
  | some st => return .error st
  | none => return .ok c.spos

/-- The pages of peers that a chunk writes to are probed there, each by a store of no bytes, so that a failure is known before the first write (log 38). -/
def chunkProbes (ch : Nat) (c : Cmd) (n : Nat) : M (Except Nat Nat) := do
  match c.phase with
  | .probes =>
    match firstFailed c.replies with
    | some st => return .error st
    | none => chunkEnd ch { c with phase := .writes, replies := [] } n
  | _ => do
    let pages := c.elems.foldl (fun (l : List (Nat × Nat × Word)) e => match e.dst with
      | .at_ (.remote dev da) => if l.any fun x => decide (x.1 = dev ∧ x.2.1 / 65536 = da / 65536) then l else l ++ [(dev, da, e.dva)]
      | _ => l) []
    if pages.isEmpty then chunkEnd ch { c with phase := .writes, replies := [] } n
    else
      if (← gs).taskWaits c.task (ch / 8 / 128) none 0 then
        modCmd ch c.id fun _ => c
        finish
      modCmd ch c.id fun _ => { c with phase := .probes, replies := [] }
      each pages fun x => askFar ch c x.2.2 (.at_ (.remote x.1 x.2.1)) 0 (some 0)
      finish

/-- The reads, made once; poison that the writes would merge fails the chunk before them. -/
def chunkReads (ch : Nat) (c : Cmd) (n blocks : Nat) : M (Except Nat Nat) := do
  if !c.vals.isEmpty then chunkProbes ch c n
  else
    let rs := c.replies.map (·.2)
    let got : Except Nat (List Nat × Nat) ←
      if ndXf c.dw = 2 then ekBlocks ch c blocks c.spos rs c.held
      else do
        match ← chunkRead c.task n c.elems rs with
        | .error st => pure (.error st)
        | .ok vs => pure (.ok (vs, c.spos))
    match got with
    | .error st => return .error st
    | .ok (vs, spos) => do
      if (← gs).mergesPoison c.task n (c.elems.map (·.dst)) then return .error stPOISON
      chunkProbes ch { c with vals := vs, spos := spos, replies := [], held := [] } n

/-- The chunk of a running command, from the phase it is in: the probes of every page and partition, in order, come first. -/
def chunkBody (ch : Nat) (c : Cmd) (dw : List Word) (ns : List Nat) : M (Except Nat Nat) := do
  let e := ndE dw
  match c.phase with
  | .idle =>
    match ← probeElems (c.who ch) c.task (ch / 8) dw ns with
    | .error st => return .error st
    | .ok es =>
      let c := { c with phase := .reads, elems := es }
      let far := es.filterMap fun x => x.src.bind fun p => if p.isFar then some (x.sva, p) else none
      if far.isEmpty then chunkReads ch c e (ns.length / 64)
      else
        modCmd ch c.id fun _ => c
        each far fun x => askFar ch c x.1 x.2 e none
        finish
  | .reads => chunkReads ch c e (ns.length / 64)
  | .probes => chunkProbes ch c e
  | .writes => chunkEnd ch c e

/-- SLUICE_CHUNK: probe, read, write, publish (03 R88). -/
def execSluiceChunk (ch : Nat) (s : State) : Host.Outcome State Fault Refusal := run (do
  match (← gs).chanHead ch with
  | none => pure ()
  | some c =>
    if !c.running || (← gs).asking ch c then pure ()
    else if c.cancel && decide (c.phase = .idle) then finalPublish ch c true stCANCELLED c.count
    else
      let dw := (← gs).cmdDw c
      let e := ndE dw
      let total := ndTotal dw
      let n0 := c.chunk * (4096 / e)
      let n1 := min total (n0 + 4096 / e)
      match ← chunkBody ch c dw ((List.range (n1 - n0)).map (n0 + ·)) with
      | .error st => finalPublish ch c true st c.count
      | .ok spos =>
        if n1 = total then finalPublish ch c true 0 (n1 * e)
        else if c.cancel then finalPublish ch c true stCANCELLED (n1 * e)
        else
          modCmd ch c.id fun _ => { c with chunk := c.chunk + 1, count := n1 * e, spos := spos, replies := [], phase := .idle, elems := [], vals := [], wrote := 0, held := [] }
          if ndCkind dw = 1 then storeProgress (c.who ch) (ch / 8 / 128) c.task (dwAt dw 1) (progressWord false 0 (n1 * e))) s

/-- ARMED_COPY_ENQUEUE (12 R353): a fired copy enters its channel where there is room. -/
def execArmedCopyEnqueue (ch : Nat) (s : State) : Host.Outcome State Fault Refusal := run (do
  let s1 : State ← gs
  match findIdx? (fun (x : Nat × Cmd) => decide (x.1 = ch)) s1.sched.fired with
  | none => pure ()
  | some i =>
    if (s1.chan ch).q.length < 8 then
      match s1.sched.fired[i]? with
      | some x => do
        let id ← freshId
        modSched fun y => { y with fired := y.fired.take i ++ y.fired.drop (i + 1) }
        modChan ch fun y => { y with q := y.q ++ [{ x.2 with id := id }] }
      | none => pure ()) s

end Sys2Proof.Machine
end

