-- ==== Sys2Proof/Machine/Grain.lean ====
section
/-! DEFINITION. Frops as functions of their operands: fields and acceptance of a frame-op word (08 R228 to R231, 11 R313, R338), the data and marker firings of the arithmetic, scan and stream-control frops (11 R328 to R337, R340), exact sums (07 R202). -/

namespace Sys2Proof.Machine

/-! Fields. -/

/-- MOD bits [lo + n - 1 : lo]: bit k is bit 48 + k of the word (11 R327). -/
def modF (w : FropWord) (lo n : Nat) : Nat := w.md.toNat / 2 ^ lo % 2 ^ n
def modB (w : FropWord) (i : Nat) : Bool := w.md.getLsbD i
def fDt (w : FropWord) : Nat := w.dtype.toNat
def fOuts (w : FropWord) : Nat := w.outs.toNat
def isFloatDt (t : Nat) : Bool := decide (8 ≤ t ∧ t ≤ 13)

/-- 08 R228: the immediate; under BFP16, which the rule names with no kind of type, IMM sign-extended (log 43). -/
def immOf (w : FropWord) : Word :=
  if isFloatDt (fDt w) then word (convert 0xA (fDt w) false 0 w.imm.toNat).1 else w.imm.signExtend 64

/-- The low bits of a payload, sign- or zero-extended by DTYPE (11 R338); a mantissa of BFP16 is signed (07 R197). -/
def extBy (t x : Nat) : Word :=
  if t < 4 ∨ t = 0xE then wordI (sext x (8 * tyBytes t)) else word (x % 2 ^ (8 * tyBytes t))

/-- 08 R228: grain `i` of a region of `rows` × `cols` grains has port `p`: 1 N, 2 E, 3 S, 4 W, 5 L. -/
def hasPort (rows cols i p : Nat) : Bool :=
  match p with
  | 1 => decide (cols ≤ i)
  | 2 => decide (i % cols + 1 < cols)
  | 3 => decide (i + cols < rows * cols)
  | 4 => decide (0 < i % cols)
  | 5 => true
  | _ => false

/-- The ports named in a set of outputs, numbered from 1. -/
def portsOf (outs : Nat) : List Nat := [1, 2, 3, 4, 5].filter fun p => outs.testBit (p - 1)

/-- The set with the one port of a code; the empty set for 0. -/
def portSet (code : Nat) : Nat := if code = 0 then 0 else 2 ^ (code - 1)

/-! Acceptance (08 R231, 11 R313 and the rows of the frops). -/

/-- The select codes that a word names besides INA and INB, and the port codes besides OUTS. -/
def extraSel (op : Nat) (w : FropWord) : List Nat := if op = 0x1A ∨ op = 0x1B then [modF w 0 4] else []
def extraPort (op : Nat) (w : FropWord) : List Nat :=
  if op = 1 ∨ op = 2 then [modF w 8 3] else if op = 0x19 ∨ op = 0x1A ∨ op = 0x1B then [modF w 9 3] else []

def intDt (t : Nat) : Bool := decide (t < 8)
/-- Functions of EOP that integers alone have. -/
def eopIntOnly (fn : Nat) : Bool := decide (5 ≤ fn ∧ fn ≤ 10) || decide (14 ≤ fn)

/-- DTYPE and MOD that the frop of a row accepts. -/
def fropAccepts (op : Nat) (w : FropWord) : Bool :=
  let t := fDt w
  match op with
  | 0x01 => decide (t = 0xA ∨ t = 0xE ∨ t = 0xF)
  | 0x02 => decide (t < 4 ∨ (8 ≤ t ∧ t ≤ 0xB) ∨ t = 0xE ∨ t = 0xF)
  | 0x03 => decide (t = 9 ∨ t = 0xA)
  | 0x04 => decide (t < 2) || isFloatDt t
  | 0x05 => (decide (t < 2) || isFloatDt t) && decide (modF w 4 2 ≠ 3)
  | 0x06 => intDt t || (isFloatDt t && !eopIntOnly (modF w 0 4))
  | 0x07 => decide (t = 0xF)
  | 0x08 => decide (t = 0xF)
  | 0x09 => decide (t = 0xF) && decide (w.imm ≠ 0)
  | 0x0A => decide (t = 0xE) && decide (w.mark = 1)
  | 0x0B => decide (t ≤ 13) && decide (modF w 0 4 ≤ 13) && decide (modF w 5 3 ≤ 5)
  | 0x0C => decide (t < 4 ∨ t = 8 ∨ t = 9) && decide (modF w 0 3 ≤ 4) && decide (modF w 5 2 ≤ 1)
  | 0x0D => decide (t ≤ 13) && decide (modF w 0 3 ≤ 5)
  | 0x10 => true
  | 0x11 => true
  | 0x12 => true
  | 0x13 => true
  | 0x14 => true
  | 0x18 => decide (t = 3) && decide (w.outs = 0)
  | 0x19 => true
  | 0x1A => decide (modF w 0 4 ≠ 0)
  | 0x1B => decide (modF w 0 4 ≠ 0) && ((decide (t = 2 ∨ t = 3 ∨ t = 6 ∨ t = 7) && decide (modF w 4 3 ≠ 7)) || (decide (t = 8 ∨ t = 9) && decide (modF w 4 3 = 7)))
  | 0x20 => true
  | 0x21 => true
  | 0x22 => true
  | 0x23 => true
  | 0x24 => decide (modF w 0 4 ≤ 8)
  | 0x25 => decide (modF w 0 4 ≤ 8)
  | 0x26 => (intDt t && decide (modF w 0 3 ≤ 5)) || (isFloatDt t && decide (modF w 0 3 ≤ 2))
  | 0x27 => true
  | _ => false

/-- The fields of a frame-op word other than OP. -/
def fropFields (x : Word) : FropWord :=
  ⟨x.extractLsb' 6 4, x.extractLsb' 10 4, x.extractLsb' 14 4, x.extractLsb' 18 5, x.extractLsb' 23 3, x.extractLsb' 26 3, x.extractLsb' 29 3, x.extractLsb' 32 16, x.extractLsb' 48 16⟩

/-- The frame-op word of grain `i` is accepted; NOPF has every other field zero (11 R340). -/
def fropOk (rows cols i : Nat) (x : Word) : Bool :=
  let op := fld x 0 6
  let w := fropFields x
  let sels := [w.ina.toNat, w.inb.toNat] ++ extraSel op w
  if op = 0 then decide (x = 0)
  else
    decide (w.mark.toNat < 4) && decide (w.dim ≠ 7) &&
    sels.all (fun s => (!(decide (1 ≤ s ∧ s ≤ 5)) || hasPort rows cols i s) && !(decide (s = 15) && decide (w.dim = 6))) &&
    (portsOf (fOuts w)).all (hasPort rows cols i) &&
    (extraPort op w).all (fun p => decide (p = 0) || hasPort rows cols i p) &&
    fropAccepts op w

/-! Exact sums (07 R202). -/

/-- The exact product of two values, and the flag it raises. -/
def fvMul (a b : FV) : FV × Fl :=
  if a.isNan || b.isNan then (.nan false, flIf (a.isSig || b.isSig) flNV)
  else match a, b with
    | .fin na ma ea, .fin nb mb eb => (.fin (na != nb) (ma * mb) (ea + eb), 0)
    | a, b => if a.isZero || b.isZero then (.nan false, flNV) else (.inf (a.sgn != b.sgn), 0)

def fvTerm (a : FV) : FV × Fl := if a.isNan then (.nan false, flIf a.isSig flNV) else (a, 0)

/-- The sum of exact terms rounded once under RNE; an exact zero is −0 when every term is −0. -/
def exactSum (f : Fmt) (ts : List (FV × Fl)) : Nat × Fl :=
  let fl := ts.foldl (fun a t => flOr a t.2) 0
  let p := ts.any fun t => decide (t.1 = .inf false)
  let n := ts.any fun t => decide (t.1 = .inf true)
  if p && n then (f.qnan, flOr fl flNV)
  else if ts.any (fun t => t.1.isNan) then (f.qnan, fl)
  else if p || n then (f.infCode n, fl)
  else
    let s := ts.foldl (fun (a : Int × Int) t => match t.1 with | .fin ng m e => dyAdd a (signed ng m, e) | _ => a) (0, 0)
    let r := f.roundI 0 s.1 s.2 (ts.all fun t => t.1.sgn)
    (r.1, flOr fl r.2)

/-- One group of GrainDot (07 R202), onto an FP32 accumulator. `extra` are exact terms beside the products. -/
def dotGroup (t : Nat) (pairs : List (Nat × Nat)) (extra : List (FV × Fl)) (acc : Nat) : Nat × Fl :=
  let f := fmtOf t
  let s := exactSum fp32 (pairs.map (fun p => fvMul (f.unpack p.1) (f.unpack p.2)) ++ extra)
  let r := fp32.arith 0 0 acc s.1
  (r.1, flOr s.2 r.2)

/-! Results of firings. -/

def fRANGE : Nat := 0x0B
def fSTREAM : Nat := 0x20

/-- What a firing leaves: the grain, the tokens with their ports, the flags. -/
structure PRes where
  g : Grain
  toks : List (Nat × Token)
  fl : Fl

/-- What a firing does to its slot. -/
structure Firing where
  /-- queues that give up their head, 0 to 4 -/
  pops : List Nat
  /-- an index of the nest is consumed -/
  gen : Bool
  res : PRes

inductive FireRes where
  | idle
  | fault (code : Nat)
  | fire (f : Firing)

def Grain.reg (g : Grain) (i : Nat) : Word := g.c.get 0 (i % 8)
def Grain.setReg (g : Grain) (i : Nat) (v : Word) : Grain := { g with c := Tbl.put 0 (i % 8) v g.c }
def Grain.head (g : Grain) (sel : Nat) : Option Token := (g.q.get [] (sel - 1)).head?
def isQueueSel (s : Nat) : Bool := decide (1 ≤ s ∧ s ≤ 5)

/-- The value of an input select that is no queue (08 R228). -/
def selVal (w : FropWord) (g : Grain) (idx : List Nat) (s : Nat) : Word :=
  if s = 6 then immOf w
  else if 7 ≤ s ∧ s ≤ 14 then g.reg (s - 7)
  else if s = 15 then word (nth 0 idx w.dim.toNat)
  else 0

def data (outs : Nat) (v : Word) : Nat × Token := (outs, ⟨0, v⟩)

/-- KEEP (11 R329): the first result goes to DREG. -/
def keep (w : FropWord) (r : PRes) : PRes :=
  match modB w 15, r.toks with
  | true, t :: _ => { r with g := r.g.setReg w.dreg.toNat t.2.val }
  | _, _ => r

/-- What a marker rule answers: the result before the marker, and the marker's payload. -/
abbrev MRule := Nat → Word → Word → Except Nat (PRes × Word)

def noRule (g : Grain) : MRule := fun _ pa _ => .ok (⟨g, [], 0⟩, pa)

/-- MARK (08 R230) on one marker: PASS 0, FIRE 1, FIREDROP 2, DROP 3; END and ABT are forwarded under every code. -/
def markFire (w : FropWord) (g : Grain) (rule : MRule) (tag : Nat) (pa pb : Word) (always : Bool) : Except Nat PRes :=
  let m := w.mark.toNat
  let fwd := decide (m = 0 ∨ m = 1 ∨ tag = 7 ∨ tag = 8) || always
  let r : Except Nat (PRes × Word) := if m = 1 ∨ m = 2 then rule tag pa pb else .ok (⟨g, [], 0⟩, pa)
  r.map fun x => if fwd then { x.1 with toks := x.1.toks ++ [(fOuts w, ⟨tag, x.2⟩)] } else x.1

/-- What stands at the inputs of a frop that reads them in lock step (11 R327, R328): the queues to pop; a marker with its payloads; the operands of a data firing, and whether it consumes an index. -/
inductive Heads where
  | idle
  | fault (code : Nat)
  | mark (pops : List Nat) (gen : Bool) (tag : Nat) (pa pb : Word)
  | data (pops : List Nat) (gen : Bool) (vals : List Word)

/-- `sels` are the selects that the frop uses; `offer`: the sequencer offers its index. Every firing of a generator-driven grain, one on markers included, needs an index and consumes it (11 R327, R330, log 42). A grain with DIM 6 fires on its queues alone (11 R330). -/
def headsOf (w : FropWord) (g : Grain) (idx : List Nat) (offer : Bool) (sels : List Nat) : Heads :=
  let qs := (sels.filter isQueueSel).eraseDups
  let heads := qs.map g.head
  let gen := decide (w.dim ≠ 6)
  let vals := sels.map fun s => match isQueueSel s, g.head s with | true, some t => t.val | _, _ => selVal w g idx s
  if heads.any (·.isNone) then .idle
  else
    let ts := heads.filterMap id
    match ts with
    | t :: rest =>
      if ts.any (fun x => decide (8 < x.tag)) || rest.any (fun x => decide (x.tag ≠ t.tag)) then .fault fSTREAM
      else if gen && !offer then .idle
      else if t.tag ≠ 0 then .mark (qs.map (· - 1)) gen t.tag t.val ((rest.getLast?).getD t).val
      else .data (qs.map (· - 1)) gen vals
    | [] => if gen && offer then .data [] true vals else .idle

/-- A firing whose data part answers a result or a fault. -/
def fireWith (pops : List Nat) (gen : Bool) (r : Except Nat PRes) : FireRes :=
  match r with
  | .error c => .fault c
  | .ok r => .fire ⟨pops, gen, r⟩

/-- The lock-step firing of a frop. -/
def stdFire (w : FropWord) (g : Grain) (idx : List Nat) (offer : Bool) (sels : List Nat)
    (dataF : List Word → Except Nat PRes) (mark : Nat → Word → Word → Except Nat PRes) : FireRes :=
  match headsOf w g idx offer sels with
  | .idle => .idle
  | .fault c => .fault c
  | .mark pops gen tag pa pb => fireWith pops gen (mark tag pa pb)
  | .data pops gen vals => fireWith pops gen (dataF vals)

def arg (l : List Word) (i : Nat) : Word := nth 0 l i

/-- A frop without a marker rule, its data firing a function of the operands. -/
def simpleFire (w : FropWord) (g : Grain) (idx : List Nat) (offer : Bool) (sels : List Nat) (f : List Word → List (Nat × Token) × Fl) : FireRes :=
  stdFire w g idx offer sels (fun l => let r := f l; .ok (keep w ⟨g, r.1, r.2⟩)) fun tag pa pb => markFire w g (noRule g) tag pa pb false

def selAB (w : FropWord) : List Nat := [w.ina.toNat, w.inb.toNat]
def selA (w : FropWord) : List Nat := [w.ina.toNat]

/-! EOP, CMPS, CVT (11 R331, R335). -/

/-- Sign operations of the float types: 11 |A|, 12 −A, 13 A. -/
def signOp (t fn a : Nat) : Nat :=
  let f := fmtOf t
  let x := a % 2 ^ f.width
  let s := 2 ^ (f.width - 1)
  if fn = 13 || (f.kf8 && decide (x = 0 ∨ x = 0x80)) then x
  else if fn = 11 then x % s
  else if s ≤ x then x - s else x + s

/-- EOP on payloads: the result and its flags. -/
def eopVal (t fn : Nat) (a b : Word) : Word × Fl :=
  if 8 ≤ t then
    let f := fmtOf t
    match fn with
    | 3 => let r := f.minmax false a.toNat b.toNat; (word r.1, r.2)
    | 4 => let r := f.minmax true a.toNat b.toNat; (word r.1, r.2)
    | 13 => (a, 0)
    | _ =>
      if fn < 3 then let r := f.arith fn 0 a.toNat b.toNat; (word r.1, r.2)
      else (word (signOp t fn a.toNat), 0)
  else
    let wd := tyW t
    let sg := tySigned t
    let x := intOf sg wd a.toNat
    let y := intOf sg wd b.toNat
    let ax := a.toNat % 2 ^ wd
    let bx := b.toNat % 2 ^ wd
    let res := fun (i : Int) => (extBy t (lowBits wd i), (0 : Fl))
    let sat := fun (i : Int) => let r := satI sg wd i; (extBy t (lowBits wd r.1), if r.2 then flSAT else 0)
    match fn with
    | 0 => res (x + y)
    | 1 => res (x - y)
    | 2 => res (x * y)
    | 3 => res (min x y)
    | 4 => res (max x y)
    | 5 => (extBy t (ax &&& bx), 0)
    | 6 => (extBy t (ax ||| bx), 0)
    | 7 => (extBy t (ax ^^^ bx), 0)
    | 8 => (extBy t (ax * 2 ^ (bx % wd)), 0)
    | 9 => (extBy t (ax / 2 ^ (bx % wd)), 0)
    | 10 => res (sext ax wd / (2 ^ (bx % wd) : Nat))
    | 11 => res x.natAbs
    | 12 => res (-x)
    | 13 => res x
    | 14 => sat (x + y)
    | _ => sat (x - y)

def fireEop (w : FropWord) (g : Grain) (idx : List Nat) (offer : Bool) : FireRes :=
  let fn := modF w 0 4
  simpleFire w g idx offer (if 11 ≤ fn ∧ fn ≤ 13 then selA w else selAB w) fun l =>
    let r := eopVal (fDt w) fn (arg l 0) (arg l 1)
    ([data (fOuts w) r.1], r.2)

/-- A condition: 0 EQ, 1 NE, 2 LT, 3 LE, 4 GT, 5 GE. A float compare flags as FCMP does (09 R251). -/
def condVal (t c : Nat) (a b : Word) : Bool × Fl :=
  if 8 ≤ t then
    let f := fmtOf t
    match c with
    | 0 => f.cmp 0 a.toNat b.toNat
    | 1 => let r := f.cmp 0 a.toNat b.toNat; (!r.1, r.2)
    | 2 => f.cmp 1 a.toNat b.toNat
    | 3 => f.cmp 2 a.toNat b.toNat
    | 4 => f.cmp 1 b.toNat a.toNat
    | _ => f.cmp 2 b.toNat a.toNat
  else
    let x := srcI t a
    let y := srcI t b
    (match c with
      | 0 => decide (x = y)
      | 1 => decide (x ≠ y)
      | 2 => decide (x < y)
      | 3 => decide (x ≤ y)
      | 4 => decide (y < x)
      | _ => decide (y ≤ x), 0)

def fireCmps (w : FropWord) (g : Grain) (idx : List Nat) (offer : Bool) : FireRes :=
  simpleFire w g idx offer (selAB w) fun l =>
    let r := condVal (fDt w) (modF w 0 3) (arg l 0) (arg l 1)
    ([data (fOuts w) (if modB w 3 then (if r.1 then arg l 0 else arg l 1) else if r.1 then 1 else 0)], r.2)

/-- CVT: MOD[3:0] type, [4] saturation of integers and of KF8 destinations (07 R191), [7:5] FRM, [9:8] XRM, [14:10] shift. -/
def cvtVal (w : FropWord) (a : Word) : Word × Fl :=
  let st := fDt w
  let dt := modF w 0 4
  if st < 8 ∧ dt < 8 then
    let x := fxShift (srcI st a) (modF w 10 5) (modF w 8 2)
    let r := if modB w 4 then satI (tySigned dt) (tyW dt) x else (x, false)
    (extBy dt (lowBits (tyW dt) r.1), if r.2 then flSAT else 0)
  else
    let r := convert st dt (modB w 4 && decide (dt = 0xC ∨ dt = 0xD)) (modF w 5 3) (a.toNat % 2 ^ (8 * tyBytes st))
    (extBy dt r.1, r.2)

def fireCvt (w : FropWord) (g : Grain) (idx : List Nat) (offer : Bool) : FireRes :=
  simpleFire w g idx offer (selA w) fun l =>
    let r := cvtVal w (arg l 0)
    ([data (fOuts w) r.1], r.2)

/-! BFLY, HADB, CMUL (11 R331, R332). -/

/-- The limits of a modulus (07 R199). -/
def modulusOk (shoal : Bool) (q : Nat) : Bool := decide (q % 2 = 1) && decide (2 ^ 16 < q) && decide (q < if shoal then 2 ^ 31 else 2 ^ 62)

/-- Each firing of a residue frop checks q, before any output (07 R199, 11 R334). -/
def checkQ (shoal : Bool) (g : Grain) (r : FireRes) : FireRes :=
  match r with
  | .fire _ => if modulusOk shoal (g.reg 7).toNat then r else .fault fRANGE
  | r => r

/-- An operand reduced before use (07 R199). -/
def residue (q : Nat) (a : Word) : Nat × Fl := if a.toNat < q then (a.toNat, 0) else (a.toNat % q, flNV)

/-- y′ to its own port, or after x′ on OUTS. -/
def pairOut (w : FropWord) (x y : Word) : List (Nat × Token) :=
  [data (fOuts w) x, data (if modF w 8 3 = 0 then fOuts w else portSet (modF w 8 3)) y]

/-- x ± (a complex product of w and y), each part rounded once; `sub` negates the product. -/
def cplxFma (f : Fmt) (n : Nat) (x y wt : Word) (sub : Bool) : Nat × Fl :=
  let p := fun (v : Word) (i : Nat) => f.unpack (fld v (n * i) n)
  let s := fun (neg : Bool) (t : FV × Fl) => if neg then (t.1.neg, t.2) else t
  let re := exactSum f [fvTerm (p x 0), s sub (fvMul (p wt 0) (p y 0)), s (!sub) (fvMul (p wt 1) (p y 1))]
  let im := exactSum f [fvTerm (p x 1), s sub (fvMul (p wt 0) (p y 1)), s sub (fvMul (p wt 1) (p y 0))]
  (re.1 + im.1 * 2 ^ n, flOr re.2 im.2)

/-- The butterfly of a pair under a weight; `none` where the modulus is out of its limits. -/
def bflyVal (w : FropWord) (g : Grain) (shoal : Bool) (x y : Word) : Except Nat ((Word × Word) × Fl) :=
  let wt := g.reg (modF w 0 3)
  match fDt w with
  | 0xA =>
    let a := cplxFma fp16 16 x y wt false
    let b := cplxFma fp16 16 x y wt true
    .ok ((word a.1, word b.1), flOr a.2 b.2)
  | 0xE =>
    let k := fun (i : Nat) => sext (fld wt (16 * i) 16) 16
    .ok ((wordI (k 0 * x.toInt + k 1 * y.toInt), wordI (k 2 * x.toInt + k 3 * y.toInt)), 0)
  | _ =>
    let q := (g.reg 7).toNat
    if modulusOk shoal q then
      let xr := residue q x
      let yr := residue q y
      let wr := residue q (word (fld wt 0 62))
      let p := wr.1 * yr.1 % q
      .ok ((word ((xr.1 + p) % q), word ((xr.1 + q - p) % q)), flOr xr.2 (flOr yr.2 wr.2))
    else .error fRANGE

/-- HADB: the sum and the difference. -/
def hadbVal (w : FropWord) (g : Grain) (shoal : Bool) (x y : Word) : Except Nat ((Word × Word) × Fl) :=
  let t := fDt w
  if t = 0xE then .ok ((x + y, x - y), 0)
  else if t = 0xF then
    let q := (g.reg 7).toNat
    if modulusOk shoal q then
      let xr := residue q x
      let yr := residue q y
      .ok ((word ((xr.1 + yr.1) % q), word ((xr.1 + q - yr.1) % q)), flOr xr.2 yr.2)
    else .error fRANGE
  else
    let a := eopVal t 0 x y
    let b := eopVal t 1 x y
    .ok ((a.1, b.1), flOr a.2 b.2)

/-- The marker rule of BFLY and, with no shift, of HADB (11 R331, R332). -/
def bflyRule (w : FropWord) (g : Grain) (shift : Nat) : MRule := fun tag pa pb =>
  if tag ≠ 1 then .ok (⟨g, [], 0⟩, pa)
  else if pa ≠ pb then .error fSTREAM
  else if fDt w = 0xE then
    let e := sext (fld pa 0 8) 8 - (shift : Int)
    if e < -128 ∨ 127 < e then .error fRANGE else .ok (⟨g, [], 0⟩, word (lowBits 8 e))
  else .ok (⟨g, [], 0⟩, pa)

/-- A BND of residues is forwarded under PASS, FIRE and FIREDROP, whose marker rule passes it unchanged, and discarded under DROP (log 43). -/
def pairFire (w : FropWord) (g : Grain) (idx : List Nat) (offer shoal : Bool) (shift : Nat) (f : Word → Word → Except Nat ((Word × Word) × Fl)) : FireRes :=
  (if fDt w = 0xF then checkQ shoal g else id) <| stdFire w g idx offer (selAB w) (fun l => (f (arg l 0) (arg l 1)).map fun r => keep w ⟨g, pairOut w r.1.1 r.1.2, r.2⟩)
    fun tag pa pb => markFire w g (bflyRule w g shift) tag pa pb (decide (tag = 5 ∧ fDt w = 0xF ∧ w.mark.toNat < 3))

def fireBfly (w : FropWord) (g : Grain) (idx : List Nat) (offer : Bool) (shoal : Bool) : FireRes :=
  pairFire w g idx offer shoal (modF w 3 5) (bflyVal w g shoal)
def fireHadb (w : FropWord) (g : Grain) (idx : List Nat) (offer : Bool) (shoal : Bool) : FireRes :=
  pairFire w g idx offer shoal 0 (hadbVal w g shoal)

/-- CMUL: A × B, or A × conjugate of B; each part the exact sum of two products rounded once. -/
def cmulVal (w : FropWord) (a b : Word) : Word × Fl :=
  let n := if fDt w = 9 then 32 else 16
  let f := if fDt w = 9 then fp32 else fp16
  let p := fun (v : Word) (i : Nat) => f.unpack (fld v (n * i) n)
  let bi := if modB w 0 then (p b 1).neg else p b 1
  let ng := fun (t : FV × Fl) => (t.1.neg, t.2)
  let re := exactSum f [fvMul (p a 0) (p b 0), ng (fvMul (p a 1) bi)]
  let im := exactSum f [fvMul (p a 0) bi, fvMul (p a 1) (p b 0)]
  (word (re.1 + im.1 * 2 ^ n), flOr re.2 im.2)

def fireCmul (w : FropWord) (g : Grain) (idx : List Nat) (offer : Bool) : FireRes :=
  simpleFire w g idx offer (selAB w) fun l =>
    let r := cmulVal w (arg l 0) (arg l 1)
    ([data (fOuts w) r.1], r.2)

/-! MAC and SMAC (11 R331, R333). -/

/-- Entries two by two. -/
def pairsOf : List Word → List (Nat × Nat)
  | a :: b :: t => (a.toNat, b.toNat) :: pairsOf t
  | _ => []

/-- The pending group of MAC goes into DREG. -/
def macFlush (w : FropWord) (g : Grain) (extra : List (FV × Fl)) (pend : List Word) : Grain × Fl :=
  if fDt w < 8 ∨ (pend = [] ∧ extra = []) then (g, 0)
  else
    let d := w.dreg.toNat
    let r := dotGroup (fDt w) (pairsOf pend) extra (fld (g.reg d) 0 32)
    (g.setReg d (word r.1), r.2)

def macAdd (w : FropWord) (g : Grain) (a b : Word) : Grain :=
  g.setReg w.dreg.toNat (g.reg w.dreg.toNat + wordI (srcI (fDt w) a * srcI (fDt w) b))

def macRule (w : FropWord) (g : Grain) (extra : List (FV × Fl)) (pend : List Word) : MRule := fun tag pa _ =>
  let d := w.dreg.toNat
  let zero := fun (g : Grain) => ({ g with inner := [] } : Grain).setReg d 0
  if tag = 4 then .ok (⟨zero g, [], 0⟩, pa)
  else
    let r := macFlush w g extra pend
    .ok (⟨zero r.1, [data (fOuts w) (r.1.reg d)], r.2⟩, pa)

def fireMac (w : FropWord) (g : Grain) (idx : List Nat) (offer : Bool) : FireRes :=
  stdFire w g idx offer (selAB w) (fun l =>
    if fDt w < 8 then .ok ⟨macAdd w g (arg l 0) (arg l 1), [], 0⟩
    else
      let pend := g.inner ++ [arg l 0, arg l 1]
      if 96 ≤ pend.length then
        let r := macFlush w g [] pend
        .ok ⟨{ r.1 with inner := [] }, [], r.2⟩
      else .ok ⟨{ g with inner := pend }, [], 0⟩)
    fun tag pa pb => markFire w g (macRule w g [] g.inner) tag pa pb false

/-- SMAC's record: the position in the group (bit 8: the product of a pruned position was +0; bit 9: one was −0), the metadata tokens, the kept pairs (log 13). -/
def smN (w : FropWord) : Nat := nth 6 [6, 12, 24] (modF w 4 2)
def smMetas (w : FropWord) : Nat := (smN w + 9) / 10
def smPos (g : Grain) : Nat := fld (nth 0 g.inner 0) 0 8
def smMeta (w : FropWord) (g : Grain) : List Word := (g.inner.drop 1).take (smMetas w)
def smPairs (w : FropWord) (g : Grain) : List Word := g.inner.drop (1 + smMetas w)
/-- The kept positions of a group. -/
def smKept (w : FropWord) (metas : List Word) : List Nat :=
  (List.range (min (smN w) (10 * metas.length))).map fun k => fld (nth 0 metas (k / 10)) (6 * (k % 10)) 6
def rising : List Nat → Bool
  | a :: b :: t => decide (a < b) && rising (b :: t)
  | _ => true
/-- The zero products of pruned positions (07 R206). -/
def smZeros (g : Grain) : List (FV × Fl) :=
  (if bitOf (nth 0 g.inner 0) 8 then [(.fin false 0 0, 0)] else []) ++ (if bitOf (nth 0 g.inner 0) 9 then [(.fin true 0 0, 0)] else [])

/-- One dense element is consumed at the current position; at the last one the group goes into DREG. -/
def smStep (w : FropWord) (g : Grain) (pair : Option (Word × Word)) (b : Word) : PRes :=
  let h := nth 0 g.inner 0
  let z := match pair with
    | some _ => 0
    | none => match (fmtOf (fDt w)).unpack b.toNat with
      | .fin ng _ _ => if ng then 512 else 256
      | _ => 0
  let h2 := word (smPos g + 1) ||| (h &&& 0x300) ||| word z
  let g1 : Grain := { g with inner := h2 :: smMeta w g ++ smPairs w g ++ (match pair with | some p => [p.1, p.2] | none => []) }
  let g2 := match pair with
    | some p => if fDt w < 8 then macAdd w g1 p.1 p.2 else g1
    | none => g1
  if smPos g + 1 < 48 then ⟨g2, [], 0⟩
  else
    let r := macFlush w g2 (smZeros g2) (smPairs w g2)
    ⟨{ r.1 with inner := [] }, [], r.2⟩

/-- SMAC consumes its metadata from A, then a dense element a firing, with a kept element at the kept positions. -/
def fireSmac (w : FropWord) (g : Grain) (idx : List Nat) (offer : Bool) : FireRes :=
  let metas := smMeta w g
  let sa := w.ina.toNat
  let sb := w.inb.toNat
  let lock := stdFire w g idx offer (selAB w) (fun l => .ok (smStep w g (some (arg l 0, arg l 1)) (arg l 1)))
    fun tag pa pb =>
      if tag = 6 then .error fSTREAM
      else markFire w g (macRule w g (smZeros g) (smPairs w g)) tag pa pb false
  if metas.length < smMetas w then
    match (if isQueueSel sa then g.head sa else none) with
    | none => .idle
    | some t =>
      if t.tag = 6 then
        let ms := metas ++ [t.val]
        let kept := smKept w ms
        if w.dim ≠ 6 && !offer then .idle
        else if rising kept && kept.all (fun k => decide (k < 48)) then .fire ⟨[sa - 1], decide (w.dim ≠ 6), ⟨{ g with inner := (0 : Word) :: ms }, [], 0⟩⟩
        else .fault fRANGE
      else if t.tag = 0 then .fault fSTREAM
      else lock
  else if (smKept w metas).contains (smPos g) then lock
  else
    match isQueueSel sb, g.head sb with
    | true, some t =>
      if t.tag = 0 then
        if w.dim ≠ 6 && !offer then .idle else .fire ⟨[sb - 1], decide (w.dim ≠ 6), smStep w g none t.val⟩
      else
        match (if isQueueSel sa then g.head sa else none) with
        | some u => if u.tag = 0 then .fault fSTREAM else lock
        | none => .idle
    | true, none => .idle
    | false, _ => lock

/-! The modular frops (07 R199 to R201, 11 R334). The record is b_a + 1, b_b + 1 (0 while unset), whether an input's tag has changed since the last own BND, the number of additions, the greatest tag among them, and the tag of the last own BND plus 1 (log 13). An input with no bound tag counts as 0 (log 43). -/

def mdA (g : Grain) : Nat := (nth 0 g.inner 0).toNat - 1
def mdB (g : Grain) : Nat := (nth 0 g.inner 1).toNat - 1
def mdPut (g : Grain) (i v : Nat) : Grain :=
  { g with inner := upd (if g.inner = [] then [0, 0, 0, 0, 0, 0] else g.inner) i fun _ => word v }

/-- A BND token on input `i` sets its bound tag. -/
def mdBound (g : Grain) (i : Nat) (v : Word) : Grain :=
  let b := fld v 0 6 + 1
  if (nth 0 g.inner i).toNat = b then g else mdPut (mdPut g i b) 2 1

/-- A data output with its tag: the frop's own BND ahead of it after a change of an input's tag or of its own since the last BND, and MODOV. -/
def mdOut (w : FropWord) (g : Grain) (q b : Nat) (v : Word) (bnd : Bool) : PRes :=
  let t := min b 63
  let last := (nth 0 g.inner 5).toNat
  let chg := bnd || decide ((nth 0 g.inner 2).toNat = 1) || (decide (last ≠ 0) && decide (last ≠ t + 1))
  ⟨if chg then mdPut (mdPut g 2 0) 5 (t + 1) else g, (if chg then [(fOuts w, ⟨5, word t⟩)] else []) ++ [data (fOuts w) v], flIf (decide (bitLen q - 1 ≤ b)) flMODOV⟩

/-- A BND at the head of an input is taken alone, as soon as a generator-driven grain has an index. -/
def mdHead (shoal : Bool) (w : FropWord) (g : Grain) (sels : List Nat) (offer : Bool) (rest : FireRes) : FireRes :=
  let gen := decide (w.dim ≠ 6)
  let bnd := fun (i : Nat) => match sels[i]? with
    | some s => (match isQueueSel s, g.head s with | true, some t => if t.tag = 5 then some (s, t.val) else none | _, _ => none)
    | none => none
  let take := fun (pops : List Nat) (g : Grain) => if gen && !offer then FireRes.idle else .fire ⟨pops, gen, ⟨g, [], 0⟩⟩
  checkQ shoal g <| match bnd 0, bnd 1 with
  | some (s, v), none => take [s - 1] (mdBound g 0 v)
  | some (s, v), some (s2, v2) =>
    if s = s2 then take [s - 1] (mdBound (mdBound g 0 v) 1 v)
    else take [s - 1, s2 - 1] (mdBound (mdBound g 0 v) 1 v2)
  | none, some (s, v) => take [s - 1] (mdBound g 1 v)
  | none, none => rest

/-- KEEP takes the data token behind an own BND. -/
def keepLast (w : FropWord) (r : PRes) : PRes :=
  match modB w 15, r.toks.getLast? with
  | true, some t => { r with g := r.g.setReg w.dreg.toNat t.2.val }
  | _, _ => r

def mdFire (w : FropWord) (g : Grain) (idx : List Nat) (offer : Bool) (shoal : Bool) (f : Nat → Nat → Nat → Nat) (tag : Nat → Nat → Nat) : FireRes :=
  mdHead shoal w g (selAB w) offer (stdFire w g idx offer (selAB w) (fun l =>
    let q := (g.reg 7).toNat
    if modulusOk shoal q then
      let a := residue q (arg l 0)
      let b := residue q (arg l 1)
      let r := mdOut w g q (tag (mdA g) (mdB g)) (word (f q a.1 b.1 % q)) false
      .ok (keepLast w { r with fl := flOr r.fl (flOr a.2 b.2) })
    else .error fRANGE) fun tag pa pb => markFire w g (noRule g) tag pa pb false)

def fireMmul (w : FropWord) (g : Grain) (idx : List Nat) (offer : Bool) (shoal : Bool) : FireRes :=
  mdFire w g idx offer shoal (fun _ a b => a * b) (fun a b => a + b)
def fireMadd (w : FropWord) (g : Grain) (idx : List Nat) (offer : Bool) (shoal : Bool) : FireRes :=
  mdFire w g idx offer shoal (fun q a b => if modB w 0 then a + q - b else a + b) (fun a b => max a b + 1)

/-- ⌈log2 k⌉ (07 R200). -/
def ceilLog2 (k : Nat) : Nat := bitLen (k - 1)

/-- MRED's output: DREG with its tag, and DREG back to 0. -/
def mredOut (w : FropWord) (g : Grain) (q : Nat) (bnd : Bool) : PRes :=
  let d := w.dreg.toNat
  let r := mdOut w g q ((nth 0 g.inner 4).toNat + ceilLog2 (nth 0 g.inner 3).toNat) (g.reg d) bnd
  { r with g := (mdPut (mdPut r.g 3 0) 4 0).setReg d 0 }

def fireMred (w : FropWord) (g : Grain) (idx : List Nat) (offer : Bool) (shoal : Bool) : FireRes :=
  let q := (g.reg 7).toNat
  mdHead shoal w g (selA w) offer (stdFire w g idx offer (selA w) (fun l =>
    if modulusOk shoal q then
      let a := residue q (arg l 0)
      let d := w.dreg.toNat
      let s := residue q (g.reg d)
      let g1 := (mdPut (mdPut g 3 ((nth 0 g.inner 3).toNat + 1)) 4 (max (nth 0 g.inner 4).toNat (mdA g))).setReg d (word ((s.1 + a.1) % q))
      if w.imm.toNat ≤ (nth 0 g1.inner 3).toNat then
        let r := mredOut w g1 q false
        .ok { r with fl := flOr r.fl (flOr a.2 s.2) }
      else .ok ⟨g1, [], flOr a.2 s.2⟩
    else .error fRANGE)
    fun tag pa pb => markFire w g (fun _ pa _ =>
      if (nth 0 g.inner 3).toNat = 0 then .ok (⟨g, [], 0⟩, pa)
      else if modulusOk shoal q then .ok (mredOut w g q true, pa) else .error fRANGE) tag pa pb false)

/-! BFPS (07 R198, 11 R335). -/

/-- The first shift from `s` on at which every rescaled value is at most 32767. -/
def bfpsShift (xs : List Int) : Nat → Nat → Nat
  | 0, s => s
  | n + 1, s => if xs.all fun x => decide (fxShift x s 2 ≤ 32767) then s else bfpsShift xs n (s + 1)

/-- The mantissas and the exponent of a rescaled block, and its flags. -/
def bfpsVal (xs : List Int) (e : Int) : (List Int × Int) × Fl :=
  let m := xs.foldl (fun a x => max a x.natAbs) 0
  let s := bfpsShift xs 2 (bitLen m - 15)
  let ys := xs.map fun x => fxShift x s 2
  if 127 < e + s then ((ys.map fun y => max (-32767) (min 32767 y), 127), flOF) else ((ys, e + s), 0)

def fireBfps (w : FropWord) (g : Grain) (idx : List Nat) (offer : Bool) : FireRes :=
  stdFire w g idx offer (selA w) (fun l =>
    if (if modB w 0 then 128 else 64) ≤ g.inner.length then .error fRANGE else .ok (keep w ⟨{ g with inner := g.inner ++ [arg l 0] }, [], 0⟩))
    fun tag pa pb => markFire w g (fun tag pa _ =>
      if tag = 1 then
        let r := bfpsVal (g.inner.map fun x => x.toInt) (sext (fld pa 0 8) 8)
        .ok (⟨{ g with inner := [] }, r.1.1.map fun y => data (fOuts w) (wordI y), r.2⟩, word (lowBits 8 r.1.2))
      else if (tag = 2 ∨ tag = 7) ∧ g.inner ≠ [] then .error fSTREAM
      else .ok (⟨g, [], 0⟩, pa)) tag pa pb false

/-! SCAN (11 R336). -/

structure ScanElem where
  a : Nat
  b : Nat
  r : Bool

/-- Round(x × y) and Round(x × y + z) in the format of DTYPE; integers modulo 2^width. -/
def scMul (t x y : Nat) : Nat × Fl :=
  if t < 8 then (x * y % 2 ^ tyW t, 0) else (fmtOf t).arith 2 0 x y
def scFma (t x y z : Nat) : Nat × Fl :=
  if t < 8 then ((x * y + z) % 2 ^ tyW t, 0) else (fmtOf t).fma 0 ((fmtOf t).unpack x) ((fmtOf t).unpack y) ((fmtOf t).unpack z)

def scCombine (t : Nat) (p q : ScanElem) : ScanElem × Fl :=
  if q.r then (q, 0)
  else
    let a := scMul t q.a p.a
    let b := scFma t q.a p.b q.b
    (⟨a.1, b.1, p.r⟩, flOr a.2 b.2)

/-- One level of the tree at distance `d`. -/
def scLevel (t d : Nat) (p : List ScanElem) : List ScanElem × Fl :=
  let l := (List.range p.length).map fun k =>
    match p[k]?, p[k - d]? with
    | some x, some y => if d ≤ k then scCombine t y x else (x, 0)
    | _, _ => (⟨0, 0, false⟩, 0)
  (l.map (·.1), l.foldl (fun a x => flOr a x.2) 0)

/-- The outputs of a chunk for the state `h`. -/
def scChunk (t log : Nat) (p : List ScanElem) (h : Nat) : List Nat × Fl :=
  let tree := (List.range log).foldl (fun (a : List ScanElem × Fl) j => let r := scLevel t (2 ^ j) a.1; (r.1, flOr a.2 r.2)) (p, 0)
  let ys := tree.1.map fun x => if x.r then (x.b, 0) else scFma t x.a h x.b
  (ys.map (·.1), ys.foldl (fun a x => flOr a x.2) tree.2)

def scElems (t : Nat) (bm : Nat) : Nat → List Word → List ScanElem
  | n, a :: b :: l => ⟨a.toNat % 2 ^ (8 * tyBytes t), b.toNat % 2 ^ (8 * tyBytes t), bm.testBit n⟩ :: scElems t bm (n + 1) l
  | _, _ => []

/-- Merge the outputs with the markers held between them. -/
def scMerge (outs : Nat) (t : Nat) (held : List (Nat × Token)) : Nat → List Nat → List (Nat × Token)
  | n, y :: ys => ((held.filter fun h => decide (h.1 = n)).map fun h => (outs, h.2)) ++ data outs (extBy t y) :: scMerge outs t held (n + 1) ys
  | n, [] => (held.filter fun h => decide (n ≤ h.1)).map fun h => (outs, h.2)

/-- The open chunk is processed. A reset that arrived after its last element stays pending. -/
def scClose (w : FropWord) (g : Grain) : PRes :=
  let t := fDt w
  let n := g.inner.length / 2
  if n = 0 then ⟨g, [], 0⟩
  else
    let d := w.dreg.toNat
    let r := scChunk t (modF w 0 3) (scElems t g.bitmap 0 g.inner) ((g.reg d).toNat % 2 ^ (8 * tyBytes t))
    let g1 : Grain := { g with inner := [], held := [], bitmap := if g.bitmap.testBit n then 1 else 0 }
    ⟨g1.setReg d (extBy t (r.1.getLast?.getD 0)), scMerge (fOuts w) t g.held 0 r.1, r.2⟩

def scOne (t : Nat) : Word := if t = 8 then 0x3FF0000000000000 else if t = 9 then 0x3F800000 else 1

def fireScan (w : FropWord) (g : Grain) (idx : List Nat) (offer : Bool) : FireRes :=
  let sum := decide (modF w 5 2 = 0)
  let c := 2 ^ modF w 0 3
  let n := g.inner.length / 2
  let m := w.mark.toNat
  stdFire w g idx offer (if sum then selA w else selAB w) (fun l =>
    let g1 : Grain := { g with inner := g.inner ++ (if sum then [scOne (fDt w), arg l 0] else [arg l 0, arg l 1]) }
    .ok (if c ≤ n + 1 then scClose w g1 else ⟨g1, [], 0⟩))
    fun tag pa _ =>
      let fwd := decide (m = 0 ∨ m = 1 ∨ tag = 7 ∨ tag = 8)
      let tok : Nat × Token := (fOuts w, ⟨tag, pa⟩)
      if tag = 1 ∨ tag = 2 ∨ tag = 3 ∨ tag = 7 then
        let r := scClose w g
        .ok { r with toks := r.toks ++ if fwd then [tok] else [] }
      else
        let g1 : Grain := if tag = 4 ∧ (m = 1 ∨ m = 2) then { g with bitmap := g.bitmap ||| 2 ^ n } else g
        if !fwd then .ok ⟨g1, [], 0⟩
        else if n = 0 ∨ tag = 8 then .ok ⟨g1, [tok], 0⟩
        else .ok ⟨{ g1 with held := g1.held ++ [(n, tok.2)] }, [], 0⟩

/-! Stream control (11 R340). -/

def fireRout (w : FropWord) (g : Grain) (idx : List Nat) (offer : Bool) : FireRes :=
  stdFire w g idx offer (selAB w) (fun l =>
    let p := fld (arg l 1) 0 3
    if (portsOf (fOuts w)).contains p then .ok (keep w ⟨g, [data (portSet p) (arg l 0)], 0⟩) else .error fSTREAM)
    fun tag pa pb => markFire w g (noRule g) tag pa pb false

def fireFilt (w : FropWord) (g : Grain) (idx : List Nat) (offer : Bool) : FireRes :=
  simpleFire w g idx offer (selAB w) fun l =>
    (if decide (arg l 1 ≠ 0) != modB w 0 then [data (fOuts w) (arg l 0)] else [], 0)

def fireDupl (w : FropWord) (g : Grain) (idx : List Nat) (offer : Bool) : FireRes :=
  simpleFire w g idx offer (selA w) fun l => (List.replicate (modF w 0 4 + 1) (data (fOuts w) (arg l 0)), 0)

/-- MARK's record is the number of data tokens since the last insertion (log 13). -/
def fireMark (w : FropWord) (g : Grain) (idx : List Nat) (offer : Bool) : FireRes :=
  let ins := fun (v : Word) => ((fOuts w, ⟨modF w 0 4, v⟩) : Nat × Token)
  stdFire w g idx offer (selA w) (fun l =>
    if w.ina = 0 then .ok (keep w ⟨g, [ins (word (nth 0 idx w.dim.toNat))], 0⟩)
    else
      let n := (nth 0 g.inner 0).toNat + 1
      let full := decide (w.imm ≠ 0) && decide (w.imm.toNat ≤ n)
      .ok (keep w ⟨{ g with inner := if w.imm = 0 then [] else [word (if full then 0 else n)] }, data (fOuts w) (arg l 0) :: (if full then [ins 0] else []), 0⟩))
    fun tag pa pb => markFire w g (noRule g) tag pa pb false

/-- The identity of a reduction. -/
def rdIdentity (t fn : Nat) : Word :=
  if 8 ≤ t then
    let f := fmtOf t
    match fn with
    | 0 => word (f.zeroCode true)
    | 1 => word (if f.kf8 then f.maxCode false else f.infCode false)
    | _ => word (if f.kf8 then f.maxCode true else f.infCode true)
  else match fn with
    | 1 => extBy t (lowBits (tyW t) (maxInt (tySigned t) (tyW t)))
    | 2 => extBy t (lowBits (tyW t) (minInt (tySigned t) (tyW t)))
    | 3 => extBy t (2 ^ tyW t - 1)
    | _ => 0

def fireRdce (w : FropWord) (g : Grain) (idx : List Nat) (offer : Bool) : FireRes :=
  let fn := modF w 0 3
  let d := w.dreg.toNat
  let eop := nth 0 [0, 3, 4, 5, 6, 7] fn
  stdFire w g idx offer (selA w) (fun l => let r := eopVal (fDt w) eop (g.reg d) (arg l 0); .ok ⟨g.setReg d r.1, [], r.2⟩)
    fun tag pa pb => markFire w g (fun _ pa _ => .ok (⟨g.setReg d (rdIdentity (fDt w) fn), [data (fOuts w) (g.reg d)], 0⟩, pa)) tag pa pb false

/-- What stands at an input that is read alone: a token of its queue, or the value of a select that is always present. -/
inductive Lone where
  | nothing
  | dat (v : Word) (queue : Bool)
  | mark (t : Token)

/-- A grain with DIM 6 of which no select names a queue never fires (11 R327). -/
def loneHead (w : FropWord) (g : Grain) (idx : List Nat) (offer : Bool) (s : Nat) : Lone :=
  let may := if w.dim = 6 then (selAB w).any isQueueSel else offer
  if !may then .nothing
  else if isQueueSel s then
    match g.head s with
    | none => .nothing
    | some t => if t.tag = 0 then .dat t.val true else .mark t
  else if s = 0 then .nothing else .dat (selVal w g idx s) false

def lonePop (s : Nat) (queue : Bool) : List Nat := if queue then [s - 1] else []

/-- A marker at one input of a frop that reads its inputs alone. -/
def loneMark (w : FropWord) (g : Grain) (rule : MRule) (s : Nat) (t : Token) : FireRes :=
  if 8 < t.tag then .fault fSTREAM
  else match markFire w g rule t.tag t.val t.val false with
    | .error c => .fault c
    | .ok r => .fire ⟨[s - 1], decide (w.dim ≠ 6), r⟩

/-- MERG's record is 1 while it is B's turn. Markers of different tags at its two inputs are mismatched (11 R325), since neither could ever leave (log 43). -/
def fireMerg (w : FropWord) (g : Grain) (idx : List Nat) (offer : Bool) : FireRes :=
  let sa := w.ina.toNat
  let sb := w.inb.toNat
  let fwd := fun (s : Nat) (v : Word) (q : Bool) (g : Grain) => FireRes.fire ⟨lonePop s q, decide (w.dim ≠ 6), keep w ⟨g, [data (fOuts w) v], 0⟩⟩
  let now := fun (t : Token) => decide (7 ≤ t.tag)
  match loneHead w g idx offer sa, loneHead w g idx offer sb with
  | .dat a qa, .dat b qb =>
    if nth 0 g.inner 0 = 1 then fwd sb b qb { g with inner := [] } else fwd sa a qa { g with inner := [1] }
  | .mark t, .mark u =>
    if now t then loneMark w g (noRule g) sa t
    else if now u then loneMark w g (noRule g) sb u
    else if t.tag ≠ u.tag then .fault fSTREAM
    else match markFire w g (noRule g) t.tag t.val u.val false with
      | .error c => .fault c
      | .ok r => .fire ⟨if sa = sb then [sa - 1] else [sa - 1, sb - 1], decide (w.dim ≠ 6), r⟩
  | .mark t, x =>
    if now t then loneMark w g (noRule g) sa t
    else match x with
      | .dat b qb => fwd sb b qb g
      | _ => .idle
  | x, .mark u =>
    if now u then loneMark w g (noRule g) sb u
    else match x with
      | .dat a qa => fwd sa a qa g
      | _ => .idle
  | .dat a qa, .nothing => fwd sa a qa g
  | .nothing, .dat b qb => fwd sb b qb g
  | .nothing, .nothing => .idle

/-- CNT; `takeB` decides which input is taken when both can be. -/
def fireCnt (w : FropWord) (g : Grain) (idx : List Nat) (offer takeB : Bool) : FireRes :=
  let sa := w.ina.toNat
  let sb := w.inb.toNat
  let d := w.dreg.toNat
  let rule : MRule := fun _ pa _ => .ok (⟨(g.setReg d 0).setReg (d + 1) 0, [], 0⟩, pa)
  let add := fun (g : Grain) (v : Word) (s : Nat) (q : Bool) =>
    let old := g.reg d
    let g1 := g.setReg d (old + v)
    FireRes.fire ⟨lonePop s q, decide (w.dim ≠ 6),
      if old ≠ 0 ∧ old + v = 0 then ⟨g1.setReg (d + 1) 0, [(fOuts w, ⟨modF w 0 4, g1.reg (d + 1)⟩)], 0⟩ else ⟨g1, [], 0⟩⟩
  let fa := fun (v : Word) (q : Bool) => add (g.setReg (d + 1) (g.reg (d + 1) + 1)) v sa q
  let fb := fun (v : Word) (q : Bool) => add g (-v) sb q
  match loneHead w g idx offer sa, loneHead w g idx offer sb with
  | .dat a qa, .dat b qb => if takeB then fb b qb else fa a qa
  | .dat a qa, .mark u => if takeB then loneMark w g rule sb u else fa a qa
  | .mark t, .dat b qb => if takeB then fb b qb else loneMark w g rule sa t
  | .mark t, .mark u => if takeB then loneMark w g rule sb u else loneMark w g rule sa t
  | .dat a qa, .nothing => fa a qa
  | .mark t, .nothing => loneMark w g rule sa t
  | .nothing, .dat b qb => fb b qb
  | .nothing, .mark u => loneMark w g rule sb u
  | .nothing, .nothing => .idle

/-- GATE; data on A waits while DREG is 0. -/
def fireGate (w : FropWord) (g : Grain) (idx : List Nat) (offer takeB : Bool) : FireRes :=
  let sa := w.ina.toNat
  let sb := w.inb.toNat
  let d := w.dreg.toNat
  let rule : MRule := fun _ pa _ => .ok (⟨g.setReg d 0, [], 0⟩, pa)
  let fa := fun (v : Word) (q : Bool) => FireRes.fire ⟨lonePop sa q, decide (w.dim ≠ 6), ⟨g.setReg d (g.reg d - 1), [data (fOuts w) v], 0⟩⟩
  let fb := fun (v : Word) (q : Bool) => FireRes.fire ⟨lonePop sb q, decide (w.dim ≠ 6), ⟨g.setReg d (g.reg d + v), [], 0⟩⟩
  let ha : Lone := match loneHead w g idx offer sa with | .dat v q => if g.reg d = 0 then .nothing else .dat v q | x => x
  match ha, loneHead w g idx offer sb with
  | .dat a qa, .dat b qb => if takeB then fb b qb else fa a qa
  | .dat a qa, .mark u => if takeB then loneMark w g rule sb u else fa a qa
  | .mark t, .dat b qb => if takeB then fb b qb else loneMark w g rule sa t
  | .mark t, .mark u => if takeB then loneMark w g rule sb u else loneMark w g rule sa t
  | .dat a qa, .nothing => fa a qa
  | .mark t, .nothing => loneMark w g rule sa t
  | .nothing, .dat b qb => fb b qb
  | .nothing, .mark u => loneMark w g rule sb u
  | .nothing, .nothing => .idle

end Sys2Proof.Machine
end

