-- ==== Sys2Proof/Machine/Frop.lean ====
section
/-! DEFINITION. Slots as they run: configuration images (11 R312), the nest sequencer and frame ends (06 R169, 11 R330), emission and ring outputs (11 R323, R327), memory, request and remote frops (11 R338, R339), and the firing of each frop. -/

namespace Sys2Proof.Machine

/-! The image of a slot (11 R312). -/

def Slot.rows (x : Slot) : Nat := 4 * (fld (x.dw 1) 0 2 + 1)
def Slot.cols (x : Slot) : Nat := 4 * (fld (x.dw 1) 2 2 + 1)
def Slot.numGrains (x : Slot) : Nat := x.rows * x.cols
def Slot.nsteps (x : Slot) : Nat := fld (x.dw 1) 8 5 + 1
def Slot.nnest (x : Slot) : Nat := fld (x.dw 1) 13 5
def Slot.nestAt (x : Slot) (n j : Nat) : Word := x.dw (4 + x.nsteps + 4 * n + j)
/-- The nest record of a step. -/
def Slot.nestOf (x : Slot) (step : Nat) : Nat := fld (x.dw (4 + step)) 4 4
def Slot.ndim (x : Slot) : Nat := fld (x.nestAt (x.nestOf x.step) 0) 0 3
def Slot.nestCnt (x : Slot) (k : Nat) : Nat := fld (x.nestAt (x.nestOf x.step) (1 + k / 2)) (32 * (k % 2)) 32
def Slot.wordAt (x : Slot) (frame i : Nat) : Word := x.dw (4 + x.nsteps + 4 * x.nnest + frame * x.numGrains + i)
/-- The frame-op word of grain `i` in the current frame. -/
def Slot.fropAt (x : Slot) (i : Nat) : Word := x.wordAt x.frame i

/-! The nest sequencer (11 R330). -/

/-- The generator-driven grains of the frame, with their dimensions. -/
def Slot.gens (x : Slot) : List (Nat × Nat) :=
  (List.range x.numGrains).filterMap fun i =>
    let w := x.fropAt i
    if fld w 0 6 ≠ 0 ∧ fld w 26 3 < 6 then some (i, fld w 26 3) else none

/-- A grain of dimension `d` fires at the current index. -/
def Slot.due_ (x : Slot) (d : Nat) : Bool := (List.range d).all fun k => decide (nth 0 x.idx k = 0)

/-- The sequencer offers its index to grain `i` of dimension `d`; while a stop waits it holds its next index (11 R320). -/
def Slot.offers (x : Slot) (i d : Nat) : Bool :=
  decide (d < 6) && decide (0 < x.ndim) && !x.nspent && !NSet.mem i x.fired && x.due_ d && !(x.stopReq && x.fired.isEmpty)

/-- The next index from dimension `k` on; whether the last one has been passed. -/
def stepIndex (cnt : Nat → Nat) (ndim : Nat) : Nat → Nat → List Nat → List Nat × Bool
  | 0, _, idx => (idx, true)
  | n + 1, k, idx =>
    if ndim ≤ k then (idx, true)
    else if nth 0 idx k + 1 < cnt k then (upd idx k (· + 1), false)
    else stepIndex cnt ndim n (k + 1) (upd idx k fun _ => 0)

/-- NEST_SEQUENCER_ADVANCE: every generator-driven grain due at the index has fired. -/
def Slot.advance (x : Slot) : Slot :=
  let gs := x.gens
  if x.nspent || decide (x.ndim = 0) || x.fired.isEmpty || !((gs.filter fun g => x.due_ g.2).all fun g => NSet.mem g.1 x.fired) then x
  else
    let r := stepIndex x.nestCnt x.ndim 6 (gs.foldl (fun a g => min a g.2) 6) x.idx
    { x with fired := [], idx := r.1, nspent := r.2 }

/-- The start of the current step's frame: its nest counters are zero. -/
def Slot.rewind (x : Slot) : Slot :=
  { x with idx := [0, 0, 0, 0, 0, 0], fired := [], nspent := decide (0 < x.ndim) && x.gens.isEmpty }

/-- Another step is entered; a record of another frop's operands goes (log 13). -/
def Slot.goto (x : Slot) (step : Nat) : Slot :=
  let y := ({ x with step := step, changing := true, due := if fld (x.dw (4 + step)) 8 2 = 1 then fld (x.dw (4 + step)) 32 16 else 0 } : Slot).rewind
  { y with grains := y.grains.map fun g => (g.1, if fld (x.fropAt g.1) 0 6 = fld (y.fropAt g.1) 0 6 then g.2 else { g.2 with inner := [], bitmap := 0, held := [] }) }

/-! Ends of frames and runs (06 R169). -/

/-- The run ends: 1 DONE, 2 ABORTED, 3 RANGE. -/
def runEnd (r i last : Nat) : M Unit := leaveRunning r i fun x => { x with st := .loaded, last := last }

/-- A frop fault (06 R168). -/
def slotFault (r i gi code : Nat) : M Unit := do
  if ((← gs).slot r i).st = .running then
    leaveRunning r i fun x => { x with st := .faulted, last := 5, fault := code, fgrain := gi }

/-- A frame ends with cause 0 NEST, 1 EOT or 2 END; the step's rule decides what follows. -/
def frameEnd (r i cause : Nat) : M Unit := do
  modSlot r i fun x => { x with cause := cause }
  let x := (← gs).slot r i
  let sw := x.dw (4 + x.step)
  let rule := fld sw 8 2
  if rule = 1 ∧ 0 < x.due then modSlot r i fun x => ({ x with due := x.due - 1 } : Slot).rewind
  else if rule = 3 then runEnd r i 1
  else if rule = 2 ∧ fld sw 10 2 = cause then
    if x.nsteps ≤ fld sw 12 5 then runEnd r i 3 else modSlot r i (·.goto (fld sw 12 5))
  else if x.nsteps ≤ x.step + 1 then runEnd r i 1
  else modSlot r i (·.goto (x.step + 1))

/-- A token passes the exit grain (06 R169). -/
def passExit (r i tag : Nat) : M Unit := do
  if ((← gs).slot r i).st = .running then
    if tag = 2 then frameEnd r i 1
    else if tag = 7 then frameEnd r i 2
    else if tag = 8 then
      modSlot r i fun x => { x with cause := 3 }
      runEnd r i 2

/-! The party of a region context. -/

def State.regionWho (s : State) (r : Nat) : Who := ⟨some (r / 16), s.regionCtx r, false⟩

/-- The block of the region's context on its pan, and its task. -/
def State.regionBlock (s : State) (r : Nat) : Option Nat :=
  s.blocks.findSome? fun b => match b.2 with
    | some x => if x.pans.contains (r / 16) ∧ x.ctx = s.regionCtx r ∧ x.st ≠ .parked then some b.1 else none
    | none => none
def State.regionTask (s : State) (r : Nat) : Option Nat := s.taskOfBlock (s.regionBlock r)

def modGrain (g : GrainRef) (f : Grain → Grain) : M Unit :=
  modSlot g.region g.slot fun x => { x with grains := Tbl.put {} g.grain (f (x.grains.get {} g.grain)) x.grains }

/-- The grain awaits the answer of the access that `send` makes. -/
def await (g : GrainRef) (send : M Unit) : M Unit := do
  let tag := (← gs).nextId
  send
  modGrain g fun x => { x with waiting := NSet.ins tag x.waiting }

/-- A store of a frop: one to a peer has its answer awaited by the grain. -/
def fropStore (g : GrainRef) (w : FropWord) (va : Word) (n : Nat) (p : Place) (v : Nat) : M Unit := do
  let s : State ← gs
  let tk := s.regionTask g.region
  match p with
  | .at_ (.remote dev da) => do
    irrevocable tk
    await g (sendRemote (.grain g 1 w) va dev da n .store (word v) 0 false none)
  | p => engineWrite (s.traffic (.grain g 1 w)) (g.region / 2048) tk n p v

/-- 05 R141: the access of a frop at a place would have its grain stall until its task is the oldest. -/
def State.fropWaits (s : State) (r : Nat) (p : Place) (n : Nat) (wr : Bool) : Bool :=
  match p with
  | .at_ (.mem pa) => wr && s.taskWaits (s.regionTask r) (r / 2048) (some pa) n
  | .pan _ => false
  | .at_ _ => s.taskWaits (s.regionTask r) (r / 2048) none n

/-- The same of an access at a virtual address, before it is made. -/
def fropHolds (r : Nat) (va : Word) (n : Nat) (wr : Bool) : M Bool := do
  let s : State ← gs
  if (s.buffering (s.regionTask r)).isNone then return false
  match ← probe (s.regionWho r) va (if wr then accStore else accLoad) with
  | .ok t => return (← gs).fropWaits r (.at_ (s.locOf t va.toNat)) n wr
  | .error _ => return false

/-- A load of a frop from a peer or a host. -/
def fropAsk (g : GrainRef) (kind : Nat) (w : FropWord) (va : Word) (n : Nat) (p : Place) : M Unit :=
  await g (sendLoad (.grain g kind w) va n p)

/-- The fault codes of a grain (11 R325) as status codes (03 R91). -/
def statusOfFault (c : Nat) : Nat := if c = 3 then stALIGN else if c = 0xB then stRANGE else c

/-! Ring bindings (11 R322, R323). -/

/-- Token entries of a slot. -/
def ringPer (r : Ring) : Nat := 2 ^ r.lsz / 16

def modBind (r i b : Nat) (f : Bind → Bind) : M Unit := modSlot r i fun x => { x with binds := upd x.binds b f }

/-- A ring is about to change for a buffered task: its state so far is kept (05 R137). -/
def keepRing (tk : Option Nat) (ring : Nat) : M Unit := do
  let s : State ← gs
  match tk, s.buffering tk with
  | some t, some x => if x.rings.any fun y => decide (y.1 = ring) then pure () else modTask t fun x => { x with rings := x.rings ++ [(ring, s.ring ring)] }
  | _, _ => pure ()

/-- A word of a ring slot: its place, or the cause of the failure. No path leads from a grain to the scratchpad of another pan (02 R49): PERM (log 43). -/
def ringPlace (r ring : Nat) (va : Word) (a : Acc) : M (Except Nat Place) := do
  let s : State ← gs
  let rg := s.ring ring
  if va.toNat % 8 ≠ 0 then return .error 3
  if rg.space then
    if fld va 23 41 ≠ 0 then return .error 0xB
    else if selPan (r / 16) rg.psel = some (r / 16) then enginePlace (s.regionWho r) none [] (some (r / 16)) va 8 a
    else return .error 5
  else enginePlace (s.regionWho r) (s.regionTask r) [] none va 8 a

/-- Write one entry of a reserved slot. -/
def putEntry (g : GrainRef) (ring sl pos : Nat) (val tag : Word) : M (Option Nat) := do
  let base := ((← gs).ring ring).addr sl + word (16 * pos)
  match ← ringPlace g.region ring base accStore, ← ringPlace g.region ring (base + 8) accStore with
  | .ok p, .ok q => do
    let w := fropFields 0
    fropStore g w base 8 p val.toNat
    fropStore g w (base + 8) 8 q tag.toNat
    return none
  | .error c, _ => return some c
  | _, .error c => return some c

/-- Write padding from `pos` on; the first failing status. -/
def padEntries (g : GrainRef) (ring sl : Nat) : List Nat → M (Option Nat)
  | [] => return none
  | p :: ps => do
    match ← putEntry g ring sl p 0 (word (2 ^ 63)) with
    | some c => return some c
    | none => padEntries g ring sl ps

/-- A closed slot is published once its writes are performed, with release at the ring's scope. -/
def publishBind (r i b : Nat) (status : Nat) : M Unit := do
  let x := (← gs).slot r i
  match x.binds[b]? with
  | none => pure ()
  | some bd =>
    match bd.slot with
    | none => pure ()
    | some sl =>
      let s : State ← gs
      if ((s.slot r i).grains.get {} bd.grain).waiting.isEmpty && !(decide ((s.ring bd.ring).scope = 5) && s.postedBefore s.nextId none) then
        fillSlot bd.ring sl status
        modBind r i b fun x => { x with slot := none, pos := 0 }

/-- Pad the rest of the slot; it is then closed. -/
def closeBind (r i b : Nat) : M Unit := do
  match ((← gs).slot r i).binds[b]? with
  | none => pure ()
  | some bd =>
    match bd.slot with
    | none => pure ()
    | some sl =>
      let per := ringPer ((← gs).ring bd.ring)
      let e ← padEntries ⟨r, i, bd.grain⟩ bd.ring sl ((List.range (per - bd.pos)).map (bd.pos + ·))
      modBind r i b fun x => { x with pos := per }
      publishBind r i b (statusOfFault (e.getD 0))

/-- The slots that tokens of a binding need beside the one it has open at `pos`: one that is full, or that holds a token other than data, is closed (11 R323). -/
def slotsFor (per : Nat) : Option Nat → List Token → Nat
  | _, [] => 0
  | some pos, t :: ts => if per ≤ pos then 1 + slotsFor per (if t.tag ≠ 0 ∨ per ≤ 1 then none else some 1) ts else slotsFor per (if t.tag ≠ 0 ∨ per ≤ pos + 1 then none else some (pos + 1)) ts
  | none, t :: ts => 1 + slotsFor per (if t.tag ≠ 0 ∨ per ≤ 1 then none else some 1) ts

/-- The output binding of a grain has room for tokens, or all that its ring has (log 12). -/
def State.bindRoom (s : State) (b : Bind) (ts : List Token) : Bool :=
  let r := s.ring b.ring
  let need := slotsFor (ringPer r) (b.slot.map fun _ => b.pos) ts
  (match b.slot with | some _ => decide (b.pos < ringPer r) | none => true) &&
  decide (min need r.nslot + (r.rsv + 2 ^ 32 - r.rd) % 2 ^ 32 ≤ r.nslot)

def Slot.outBind (x : Slot) (gi : Nat) : Option Nat := findIdx? (fun b => b.out && decide (b.grain = gi)) x.binds

/-- A token leaves through L; the fault code of a failure. -/
def putRing (r i gi : Nat) (t : Token) : M (Option Nat) := do
  let s : State ← gs
  let x := s.slot r i
  match x.outBind gi with
  | none => return some fSTREAM
  | some b => do
    let bd := (x.binds[b]?).getD ⟨gi, true, 0, none, 0, [], []⟩
    keepRing (s.regionTask r) bd.ring
    let sl : Option Nat × Nat ← match bd.slot with
      | some sl => pure (some sl, bd.pos)
      | none => do
        let sl ← reserveSlot bd.ring
        modBind r i b fun x => { x with slot := sl, pos := 0 }
        pure (sl, 0)
    match sl.1 with
    | none => return none
    | some n => do
      match ← putEntry ⟨r, i, gi⟩ bd.ring n sl.2 t.val (word t.tag) with
      | some c => return some c
      | none => do
        modBind r i b fun x => { x with pos := sl.2 + 1 }
        if t.tag ≠ 0 ∨ ringPer (s.ring bd.ring) ≤ sl.2 + 1 then closeBind r i b
        return none

/-- The bindings of a slot end (11 R322). -/
def endBinds (r i : Nat) : M Unit := do
  let s : State ← gs
  each (enumFrom 0 (s.slot r i).binds) fun x => do
    match x.2.slot with
    | none => pure ()
    | some sl =>
      keepRing (s.regionTask r) x.2.ring
      if x.2.out then
        let per := ringPer ((← gs).ring x.2.ring)
        let e ← padEntries ⟨r, i, x.2.grain⟩ x.2.ring sl ((List.range (per - x.2.pos)).map (x.2.pos + ·))
        fillSlot x.2.ring sl (statusOfFault (e.getD 0))
      else modRing x.2.ring fun y => { y with rd := (y.rd + 1) % 2 ^ 32 }
  modSlot r i fun x => { x with binds := [] }

/-! Emission (11 R327). -/

/-- A token reaches a queue; an ABT overtakes the data tokens of it (11 R340). -/
def arriveQ (q : List Token) (t : Token) : List Token :=
  if t.tag = 8 then (q.takeWhile fun x => decide (x.tag ≠ 0)) ++ t :: q.dropWhile fun x => decide (x.tag ≠ 0) else q ++ [t]

/-- Where a token emitted on port 1 N to 4 W lands: grain and queue. -/
def landing (cols gi p : Nat) : Nat × Nat :=
  match p with
  | 1 => (gi - cols, 2)
  | 2 => (gi + 1, 3)
  | 3 => (gi + cols, 0)
  | _ => (gi - 1, 1)

/-- Tokens in flight within a cycle: grain, queue, token. -/
abbrev Landings := List (Nat × Nat × Token)

/-- Port `p` has room for tokens; a port with no output binding takes a token and faults. -/
def portRoom (s : State) (x0 : Slot) (l : Landings) (gi p : Nat) (ts : List Token) (x : Slot) : Bool :=
  let n := ts.length
  if n = 0 then true
  else if p = 5 then
    match x.outBind gi with
    | none => true
    | some b => (match x.binds[b]? with | some bd => s.bindRoom bd ts | none => true)
  else
    let d := landing x0.cols gi p
    decide (((x0.grains.get {} d.1).q.get [] d.2).length + (l.countP fun y => decide (y.1 = d.1 ∧ y.2.1 = d.2)) + min n 8 ≤ 8)

/-- The room that a firing's tokens need (log 12). -/
def hasRoom (s : State) (x0 x : Slot) (l : Landings) (gi : Nat) (ts : List (Nat × Token)) : Bool :=
  [1, 2, 3, 4, 5].all fun p => portRoom s x0 l gi p ((ts.filter fun t => (portsOf t.1).contains p).map (·.2)) x

def endsFrame (t : Token) : Bool := decide (t.tag = 2 ∨ t.tag = 7 ∨ t.tag = 8)

/-- Emit tokens in order while their ports have room: the landings, what is left, a fault. A frame ends at its exit grain once no remote access of the slot is open. -/
def emitToks (r i gi : Nat) (x0 : Slot) : List (Nat × Token) → Landings → M (Landings × List (Nat × Token) × Option Nat)
  | [], l => return (l, [], none)
  | (m, t) :: ts, l => do
    let s : State ← gs
    let x := s.slot r i
    let exit := decide (gi + 1 = x0.numGrains) && endsFrame t
    if !hasRoom s x0 x l gi [(m, t)] || (exit && x.grains.any fun g => !g.2.waiting.isEmpty) then return (l, (m, t) :: ts, none)
    let l2 := l ++ ((portsOf m).filter fun p => decide (p ≠ 5)).map fun p => let d := landing x0.cols gi p; (d.1, d.2, t)
    let e ← if (portsOf m).contains 5 then putRing r i gi t else pure none
    match e with
    | some c => return (l2, ts, some c)
    | none => do
      if exit then passExit r i t.tag
      emitToks r i gi x0 ts l2

/-- The tokens of a cycle land. -/
def landAll (r i : Nat) (l : Landings) : M Unit :=
  each l fun y => modGrain ⟨r, i, y.1⟩ fun g => { g with q := Tbl.put [] y.2.1 (arriveQ (g.q.get [] y.2.1) y.2.2) g.q }

/-! Memory, request and remote frops (11 R338, R339). -/

/-- What a firing sees: its slot as the cycle began, and what the sequencer offers. -/
structure FCtx where
  r : Nat
  i : Nat
  gi : Nat
  x0 : Slot
  g : Grain
  offer : Bool
  l : Landings

def FCtx.ref (c : FCtx) : GrainRef := ⟨c.r, c.i, c.gi⟩
def FCtx.idx (c : FCtx) : List Nat := c.x0.idx
def FCtx.shoal (c : FCtx) : Bool := Config.shoal (c.r / 2048)

/-- A frop with an effect outside its slot: it acts once its outputs have room for a token; `none` leaves it unfired. -/
def effFire (w : FropWord) (c : FCtx) (sels : List Nat) (eff : List Word → M (Option (Except Nat PRes))) : M FireRes := do
  match headsOf w c.g c.idx c.offer sels with
  | .idle => return .idle
  | .fault x => return .fault x
  | .mark pops gen tag pa pb => return fireWith pops gen (markFire w c.g (noRule c.g) tag pa pb false)
  | .data pops gen vals => do
    let s : State ← gs
    if !hasRoom s c.x0 (s.slot c.r c.i) c.l c.gi [data (fOuts w) 0] then return .idle
    match ← eff vals with
    | none => return .idle
    | some r => return fireWith pops gen r

/-- The address of a memory frop (11 R330, R338). -/
def memAddr (w : FropWord) (c : FCtx) (a : Word) : Word :=
  c.g.reg (modF w 3 3) + (if w.dim = 6 then a <<< modF w 6 3 else word (nth 0 c.idx w.dim.toNat) * w.imm.signExtend 64)

/-- The place of an access in the pan view, or in the local view of the grain's bank; a local address beyond 32,767 names nothing and faults RANGE (log 43). -/
def panPlace (w : FropWord) (c : FCtx) (va : Word) (n : Nat) : M (Except Nat Place) := do
  let s : State ← gs
  let va2 : Option Word :=
    if modB w 9 then
      if 32768 ≤ va.toNat then none
      else match s.region c.r with
        | some x => some (word (panWordOf (16 * (4 * x.row + c.gi / c.x0.cols) + (4 * x.col + c.gi % c.x0.cols)) (va.toNat / 8) * 8 + va.toNat % 8))
        | none => none
    else if fld va 23 41 ≠ 0 then none else some va
  match va2 with
  | none => return .error fRANGE
  | some v => enginePlace (s.regionWho c.r) none [] (some (c.r / 16)) v n accLoad

def ok (w : FropWord) (c : FCtx) (ts : List (Nat × Token)) : Option (Except Nat PRes) := some (.ok (keep w ⟨c.g, ts, 0⟩))
/-- The same for a frop whose tokens are no result. -/
def okPlain (c : FCtx) (ts : List (Nat × Token)) : Option (Except Nat PRes) := some (.ok ⟨c.g, ts, 0⟩)

/-- Read an element at a place. -/
def fropRead (w : FropWord) (c : FCtx) (n : Nat) (p : Place) : M (Option (Except Nat PRes)) := do
  let v ← readPlace ((← gs).regionTask c.r) n p
  if v.2 then return some (.error stPOISON)
  return ok w c [data (fOuts w) (extBy (fDt w) v.1)]

def fireLdg (w : FropWord) (c : FCtx) : M FireRes :=
  effFire w c (if w.dim = 6 then selA w else []) fun l => do
    let va := memAddr w c (arg l 0)
    let n := tyBytes (fDt w)
    if va.toNat % n ≠ 0 then return some (.error 3)
    if ← fropHolds c.r va n false then return none
    let s : State ← gs
    match ← enginePlace (s.regionWho c.r) (s.regionTask c.r) [] none va n accLoad with
    | .error e => return some (.error e)
    | .ok p => do
      if p.isFar then
        irrevocable (s.regionTask c.r)
        fropAsk c.ref 0 w va n p
        return okPlain c []
      else fropRead w c n p

/-- A store at a place: a narrow one merges with its word (02 R62, 03 R76). -/
def fropPut (w : FropWord) (c : FCtx) (va : Word) (n : Nat) (p : Place) (v : Word) : M (Option (Except Nat PRes)) := do
  let s : State ← gs
  if s.mergesPoison (s.regionTask c.r) n [p] then return some (.error stPOISON)
  fropStore c.ref w va n p (v.toNat % 2 ^ (8 * n))
  return okPlain c (if w.outs = 0 then [] else [data (fOuts w) 0])

/-- The value stored: B with DIM 6, A of a generator-driven grain. -/
def stVal (w : FropWord) (l : List Word) : Word := if w.dim = 6 then arg l 1 else arg l 0

def fireStg (w : FropWord) (c : FCtx) : M FireRes :=
  effFire w c (if w.dim = 6 then selAB w else selA w) fun l => do
    let va := memAddr w c (arg l 0)
    let n := tyBytes (fDt w)
    if va.toNat % n ≠ 0 then return some (.error 3)
    if ← fropHolds c.r va n true then return none
    let s : State ← gs
    match ← enginePlace (s.regionWho c.r) (s.regionTask c.r) [] none va n accStore with
    | .error e => return some (.error e)
    | .ok p => fropPut w c va n p (stVal w l)

def fireLdp (w : FropWord) (c : FCtx) : M FireRes :=
  effFire w c (if w.dim = 6 then selA w else []) fun l => do
    let va := memAddr w c (arg l 0)
    let n := tyBytes (fDt w)
    if va.toNat % n ≠ 0 then return some (.error 3)
    match ← panPlace w c va n with
    | .error e => return some (.error e)
    | .ok p => fropRead w c n p

def fireStp (w : FropWord) (c : FCtx) : M FireRes :=
  effFire w c (if w.dim = 6 then selAB w else selA w) fun l => do
    let va := memAddr w c (arg l 0)
    let n := tyBytes (fDt w)
    if va.toNat % n ≠ 0 then return some (.error 3)
    match ← panPlace w c va n with
    | .error e => return some (.error e)
    | .ok p => fropPut w c va n p (stVal w l)

/-- TAS: one bit, set by one read-modify-write. -/
def fireTas (w : FropWord) (c : FCtx) : M FireRes :=
  effFire w c (selA w) fun l => do
    let b := memAddr w c (arg l 0)
    if !modB w 9 && decide (2 ^ 26 ≤ b.toNat) then return some (.error fRANGE)
    let va := if modB w 9 then b else word (b.toNat / 8)
    let bit := if modB w 9 then (if w.ina = 0 then 0 else fld (arg l 0) 0 3) else b.toNat % 8
    match ← panPlace w c va 1 with
    | .error e => return some (.error e)
    | .ok p => do
      let tk := (← gs).regionTask c.r
      let v ← readPlace tk 1 p
      if v.2 then return some (.error stPOISON)
      fropStore c.ref w va 1 p (v.1 ||| 2 ^ bit)
      let old := v.1.testBit bit
      if modB w 10 then return ok w c (if old then [] else [data (fOuts w) (arg l 0)])
      else return ok w c [data (fOuts w) (if old then 1 else 0)]

/-! REQ (03 R93). -/

/-- The copy that a gather (0) or a scatter (1) is. -/
def packetDw (kind scope len paddr : Nat) (va : Word) : List Word :=
  let n := word ((len + 1) / 8)
  let pan : Nat := if kind = 0 then 2 ^ 14 + 0x8000 * 2 ^ 32 else 2 ^ 13 + 0x8000 * 2 ^ 16
  let a : Word := if kind = 0 then va else word paddr
  let b : Word := if kind = 0 then word paddr else va
  [word (3 + 1 * 4 + scope * 256 + pan), 0, a, b, n, 0, 0, 8, 0, 0, 8, 0, 0, 0, 0, 0]

def fireReq (w : FropWord) (c : FCtx) : M FireRes :=
  effFire w c (selAB w) fun l => do
    let p := arg l 0
    let va := arg l 1
    let s : State ← gs
    let ch := 8 * (c.r / 16) + fld p 4 3
    if 8 ≤ (s.chan ch).q.length then return none
    let kind := fld p 0 4
    let scope := fld p 7 3
    let len := fld p 10 12
    let paddr := fld p 22 23
    let mal := decide (2 < kind) || decide (scope = 0 ∨ 5 < scope) || (decide (kind = 2) && decide (paddr ≠ 0 ∨ len ≠ 0))
    let align := if kind = 2 then decide (va.toNat % 128 ≠ 0) else decide (paddr % 8 ≠ 0) || decide (va.toNat % 8 ≠ 0) || decide ((len + 1) % 8 ≠ 0)
    let bad := if mal then some stMALFORMED else if align then some stALIGN else none
    let tk := s.regionTask c.r
    -- 05 R141: a descriptor may ask for an irrevocable completion, which waits before it is accepted
    if bad.isNone && decide (kind = 2) && s.taskWaits tk (c.r / 2048) none 0 then return none
    let id ← freshId
    let cmd : Cmd := {
      id := id, ctx := s.regionCtx c.r, src := .grain c.ref (if bitOf p 45 then some (fld p 46 18) else none), descVA := va
      dw := if bad.isSome then List.replicate 16 0 else if kind = 2 then [] else packetDw kind scope len paddr va
      bad := bad, running := false, chunk := 0, count := 0, slot := none, cancel := false, block := s.regionBlock c.r, task := tk, sup := false, spos := 0, replies := [] }
    modChan ch fun q => { q with q := q.q ++ [cmd] }
    if cmd.dw.isEmpty then
      fetchDesc ch cmd
      if ((← gs).chan ch).q.any fun x => decide (x.id = id) && (x.dw.isEmpty || decide (2 ≤ ndCkind x.dw)) then irrevocable tk
    return okPlain c []

/-! RLD, RST, RAT (05 R150, 11 R339). -/

def remPort (w : FropWord) : Nat := portSet (modF w 9 3)

/-- The tokens of a remote access that has been performed, or that has failed. -/
def remDone (g : GrainRef) (w : FropWord) (v : Option Word) : M Unit :=
  modGrain g fun x =>
    let d := match v with | some y => [data (fOuts w) (extBy (fDt w) y.toNat)] | none => []
    let x1 := match modB w 15, v with | true, some y => x.setReg w.dreg.toNat (extBy (fDt w) y.toNat) | _, _ => x
    { x1 with out := x1.out ++ d ++ (if modF w 9 3 = 0 then [] else [(remPort w, ⟨0, 0⟩)]) }
def remFail (g : GrainRef) (w : FropWord) (code : Nat) : M Unit := do
  modSlot g.region g.slot fun x => { x with fault := code, fgrain := g.grain }
  modGrain g fun x => { x with out := x.out ++ (if modF w 9 3 = 0 then [] else [(remPort w, ⟨8, 0⟩)]) }

/-- Flags go to the slot's flag word (07 R189). -/
def slotFlags (g : GrainRef) (fl : Fl) : M Unit := modSlot g.region g.slot fun x => { x with flags := x.flags ||| BitVec.ofNat 9 fl }

/-- The flags of an atomic whose old value has come (07 R189, 11 R339). -/
def RemOp.flags (o : RemOp) (old : Nat) : Fl := ((⟨o.kind, o.data.toNat, 0⟩ : Rmw).new (tyBytes (fDt o.w)) old).2

/-- The load of the slot that issued an access is still there; otherwise nobody takes its tokens. -/
def State.remHere (s : State) (g : GrainRef) (o : RemOp) : Bool := let x := s.slot g.region g.slot; decide (x.st ≠ .free) && decide (x.serial = o.serial)

/-- The access itself, of the context that fired it: at a peer it is a request; elsewhere it is performed at once. An armed access issues although its slot has been freed or loaded anew, and then yields no token (11 R339). -/
def issueRem (g : GrainRef) (o : RemOp) : M Unit := do
  let s : State ← gs
  let n := tyBytes (fDt o.w)
  let here := s.remHere g o
  let tk := if here then s.regionTask g.region else none
  let a := match o.kind with | .load => accLoad | .store => accStore | _ => accRmw
  let who := Requester.grain g (if o.kind = .store then 3 else 2) o.w
  let tr := (some (o.pan / 128), o.ctx)
  let fail := fun (c : Nat) => if here then remFail g o.w c else pure ()
  let done := fun (v : Option Word) => if here then remDone g o.w v else pure ()
  let ask := fun (send : M Unit) => if here then await g send else send
  if o.va.toNat % n ≠ 0 then fail 3
  else
    match ← enginePlace ⟨some o.pan, o.ctx, o.sup⟩ tk [] none o.va n a with
    | .error e => fail e
    | .ok (.at_ (.remote dev da)) => do
      irrevocable tk
      ask (sendRemote who o.va dev da n o.kind o.data 0 false none)
    | .ok (.at_ (.host port addr)) => do
      irrevocable tk
      match o.kind with
      | .load => ask (sendHost who o.va port addr n)
      | .store => do
        hostWrite tr none port addr n (o.data.toNat % 2 ^ (8 * n))
        done none
      | _ => fail 5
    | .ok p => do
      if (o.kind ≠ .load && (← gs).mergesPoison tk n [p]) then fail stPOISON
      else do
        let v ← if o.kind = .store then pure (0, false) else readPlace tk n p
        if v.2 then fail stPOISON
        else
          match ((⟨o.kind, o.data.toNat, 0⟩ : Rmw).new n v.1).1 with
          | some x => engineWrite tr (o.pan / 128) tk n p x
          | none => pure ()
          if here then slotFlags g (o.flags v.1)
          done (if o.kind = .store then none else some (word v.1))

/-- The firing of RLD, RST or RAT: the access issues, or is armed on the counter that c6 names; `.trg` arms an RLD as it does the others (log 43). -/
def remFire (w : FropWord) (c : FCtx) (sels : List Nat) (kind : RKind) : M FireRes :=
  effFire w c sels fun l => do
    let s : State ← gs
    let o : RemOp := ⟨c.r / 16, s.regionCtx c.r, false, c.x0.serial, kind, arg l 0, arg l 2, w⟩
    let holds ← if modB w 12 then pure (s.taskWaits (s.regionTask c.r) (c.r / 2048) none 0) else fropHolds c.r o.va (tyBytes (fDt w)) (decide (kind ≠ .load))
    if holds then return none
    if modB w 12 then
      let t := c.g.reg 6
      let id := fld t 0 13
      if fld t 61 3 ≠ 0 || !s.ownsCounter (s.regionCtx c.r) id then return some (.error fRANGE)
      if !satisfied (s.counter id).c (fld t 13 48) && decide (2048 ≤ s.armedOn (id / 1024)) then return none
      irrevocable (s.regionTask c.r)
      arm id (fld t 13 48) (4 * (c.r / 16)) none (.remote c.ref o)
      return okPlain c []
    else
      issueRem c.ref o
      return some (.ok ⟨((← gs).slot c.r c.i).grains.get {} c.gi, [], 0⟩)

def fireRld (w : FropWord) (c : FCtx) : M FireRes := remFire w c (selAB w) .load
def fireRst (w : FropWord) (c : FCtx) : M FireRes := remFire w c (selAB w ++ [modF w 0 4]) .store
def fireRat (w : FropWord) (c : FCtx) : M FireRes := remFire w c (selAB w ++ [modF w 0 4]) (.amo (modF w 4 3) (decide (fDt w < 4)))

/-- The answer to an access of a frop, with the message that it answers; an access of a run that is over has none waiting. An atomic gives its flags from the old value that has come (07 R189). -/
def grainAnswer (g : GrainRef) (kind : Nat) (w : FropWord) (tag : Nat) (msg : Option RMsg) (r : RResp) : M Unit := do
  let x := (← gs).slot g.region g.slot
  if NSet.mem tag (x.grains.get {} g.grain).waiting then
    modGrain g fun y => { y with waiting := NSet.del tag y.waiting }
    let bad := match r with | .fault c => some c | .lost => some stPOISON | .atHome => some stPOISON | _ => none
    match bad with
    | some code => if 2 ≤ kind then remFail g w code else slotFault g.region g.slot g.grain code
    | none =>
      let v := match r with | .value v => v | _ => 0
      match kind with
      | 0 => modGrain g fun y =>
          let e := extBy (fDt w) v.toNat
          let y1 := if modB w 15 then y.setReg w.dreg.toNat e else y
          { y1 with out := y1.out ++ [data (fOuts w) e] }
      | 2 => do
        match msg with
        | some m => slotFlags g ((⟨m.kind, m.data.toNat, 0⟩ : Rmw).new m.size v.toNat).2
        | none => pure ()
        remDone g w (some v)
      | 3 => remDone g w none
      | _ => pure ()

/-! The firing of a grain. -/

/-- Both inputs can be read alone: which one is taken is open (log 4). -/
def takeB (w : FropWord) (c : FCtx) : M Bool := do
  let a := loneHead w c.g c.idx c.offer w.ina.toNat
  let b := loneHead w c.g c.idx c.offer w.inb.toNat
  match a, b with
  | .nothing, _ => return false
  | _, .nothing => return false
  | _, _ => return decide ((← freshNat) % 2 = 1)

/-- The frop of OP (08 R229). -/
def fireOp_ (op : Nat) (w : FropWord) (c : FCtx) : M FireRes :=
  match op with
  | 0x01 => return fireBfly w c.g c.idx c.offer c.shoal
  | 0x02 => return fireHadb w c.g c.idx c.offer c.shoal
  | 0x03 => return fireCmul w c.g c.idx c.offer
  | 0x04 => return fireMac w c.g c.idx c.offer
  | 0x05 => return fireSmac w c.g c.idx c.offer
  | 0x06 => return fireEop w c.g c.idx c.offer
  | 0x07 => return fireMmul w c.g c.idx c.offer c.shoal
  | 0x08 => return fireMadd w c.g c.idx c.offer c.shoal
  | 0x09 => return fireMred w c.g c.idx c.offer c.shoal
  | 0x0A => return fireBfps w c.g c.idx c.offer
  | 0x0B => return fireCvt w c.g c.idx c.offer
  | 0x0C => return fireScan w c.g c.idx c.offer
  | 0x0D => return fireCmps w c.g c.idx c.offer
  | 0x10 => fireLdg w c
  | 0x11 => fireStg w c
  | 0x12 => fireLdp w c
  | 0x13 => fireStp w c
  | 0x14 => fireTas w c
  | 0x18 => fireReq w c
  | 0x19 => fireRld w c
  | 0x1A => fireRst w c
  | 0x1B => fireRat w c
  | 0x20 => return fireRout w c.g c.idx c.offer
  | 0x21 => return fireMerg w c.g c.idx c.offer
  | 0x22 => return fireFilt w c.g c.idx c.offer
  | 0x23 => return fireDupl w c.g c.idx c.offer
  | 0x24 => do return fireCnt w c.g c.idx c.offer (← takeB w c)
  | 0x25 => return fireMark w c.g c.idx c.offer
  | 0x26 => return fireRdce w c.g c.idx c.offer
  | 0x27 => do return fireGate w c.g c.idx c.offer (← takeB w c)
  | _ => return .idle

/-- A firing takes effect: queues, registers, flags, and its tokens, which wait where they find no room. -/
def applyFire (c : FCtx) (f : Firing) : M Landings := do
  modGrain c.ref fun cur => { cur with
    c := f.res.g.c, inner := f.res.g.inner, bitmap := f.res.g.bitmap, held := f.res.g.held
    q := f.pops.foldl (fun q p => Tbl.put [] p (q.get [] p).tail q) cur.q }
  modSlot c.r c.i fun x => { x with flags := x.flags ||| BitVec.ofNat 9 f.res.fl, fired := if f.gen then NSet.ins c.gi x.fired else x.fired }
  let e ← emitToks c.r c.i c.gi c.x0 f.res.toks c.l
  modGrain c.ref fun g => { g with out := g.out ++ e.2.1 }
  match e.2.2 with
  | some code => slotFault c.r c.i c.gi code
  | none => pure ()
  return e.1

/-- The turn of one grain in a cycle: tokens it still holds, or a firing. Whether it did something. -/
def grainTurn (fire : FCtx → M FireRes) (c : FCtx) : M (Bool × Landings) := do
  if !c.g.out.isEmpty then
    let e ← emitToks c.r c.i c.gi c.x0 c.g.out c.l
    if e.2.1.length = c.g.out.length then return (false, c.l)
    modGrain c.ref fun g => { g with out := e.2.1 ++ g.out.drop c.g.out.length }
    match e.2.2 with
    | some code => slotFault c.r c.i c.gi code
    | none => pure ()
    return (true, e.1)
  else if !c.g.waiting.isEmpty then return (false, c.l)
  else
    match ← fire c with
    | .idle => return (false, c.l)
    | .fault code => do
      slotFault c.r c.i c.gi code
      return (true, c.l)
    | .fire f => do
      let s : State ← gs
      if hasRoom s c.x0 (s.slot c.r c.i) c.l c.gi f.res.toks then return (true, ← applyFire c f)
      else return (false, c.l)

def fctx (r i gi : Nat) (x0 : Slot) (l : Landings) : FCtx :=
  ⟨r, i, gi, x0, x0.grains.get {} gi, x0.offers gi (fld (x0.fropAt gi) 26 3), l⟩

/-- 11 R327, 06 R170: the slot can be served. -/
def State.servable (s : State) (r i : Nat) : Bool :=
  match s.region r with
  | none => false
  | some x =>
    let y := x.slot i
    decide (y.st = .running) && !y.changing && decide (((s.pan (r / 16)).res.get {} x.res).st = .running)

/-- One grain fires on its own, as the frop's word in the current frame says. -/
def fropStep (g : GrainRef) (op : BitVec 6) (w : FropWord) (fire : FropWord → FCtx → M FireRes) : M Unit := do
  let s : State ← gs
  let x0 := s.slot g.region g.slot
  if s.servable g.region g.slot && decide (g.grain < x0.numGrains) && decide (x0.fropAt g.grain = fropBits op w) then
    let t ← grainTurn (fire w) (fctx g.region g.slot g.grain x0 [])
    landAll g.region g.slot t.2
    modSlot g.region g.slot (·.advance)

def execBfly (g : GrainRef) (w : FropWord) (s : State) : Host.Outcome State Fault Refusal :=
  run (fropStep g 0x01 w fun w c => return fireBfly w c.g c.idx c.offer c.shoal) s
def execHadb (g : GrainRef) (w : FropWord) (s : State) : Host.Outcome State Fault Refusal :=
  run (fropStep g 0x02 w fun w c => return fireHadb w c.g c.idx c.offer c.shoal) s
def execCmul (g : GrainRef) (w : FropWord) (s : State) : Host.Outcome State Fault Refusal :=
  run (fropStep g 0x03 w fun w c => return fireCmul w c.g c.idx c.offer) s
def execMac (g : GrainRef) (w : FropWord) (s : State) : Host.Outcome State Fault Refusal :=
  run (fropStep g 0x04 w fun w c => return fireMac w c.g c.idx c.offer) s
def execSmac (g : GrainRef) (w : FropWord) (s : State) : Host.Outcome State Fault Refusal :=
  run (fropStep g 0x05 w fun w c => return fireSmac w c.g c.idx c.offer) s
def execEop (g : GrainRef) (w : FropWord) (s : State) : Host.Outcome State Fault Refusal :=
  run (fropStep g 0x06 w fun w c => return fireEop w c.g c.idx c.offer) s
def execMmul (g : GrainRef) (w : FropWord) (s : State) : Host.Outcome State Fault Refusal :=
  run (fropStep g 0x07 w fun w c => return fireMmul w c.g c.idx c.offer c.shoal) s
def execMadd (g : GrainRef) (w : FropWord) (s : State) : Host.Outcome State Fault Refusal :=
  run (fropStep g 0x08 w fun w c => return fireMadd w c.g c.idx c.offer c.shoal) s
def execMred (g : GrainRef) (w : FropWord) (s : State) : Host.Outcome State Fault Refusal :=
  run (fropStep g 0x09 w fun w c => return fireMred w c.g c.idx c.offer c.shoal) s
def execBfps (g : GrainRef) (w : FropWord) (s : State) : Host.Outcome State Fault Refusal :=
  run (fropStep g 0x0A w fun w c => return fireBfps w c.g c.idx c.offer) s
def execCvt (g : GrainRef) (w : FropWord) (s : State) : Host.Outcome State Fault Refusal :=
  run (fropStep g 0x0B w fun w c => return fireCvt w c.g c.idx c.offer) s
def execScan (g : GrainRef) (w : FropWord) (s : State) : Host.Outcome State Fault Refusal :=
  run (fropStep g 0x0C w fun w c => return fireScan w c.g c.idx c.offer) s
def execCmps (g : GrainRef) (w : FropWord) (s : State) : Host.Outcome State Fault Refusal :=
  run (fropStep g 0x0D w fun w c => return fireCmps w c.g c.idx c.offer) s
def execLdg (g : GrainRef) (w : FropWord) (s : State) : Host.Outcome State Fault Refusal :=
  run (fropStep g 0x10 w fireLdg) s
def execStg (g : GrainRef) (w : FropWord) (s : State) : Host.Outcome State Fault Refusal :=
  run (fropStep g 0x11 w fireStg) s
def execLdp (g : GrainRef) (w : FropWord) (s : State) : Host.Outcome State Fault Refusal :=
  run (fropStep g 0x12 w fireLdp) s
def execStp (g : GrainRef) (w : FropWord) (s : State) : Host.Outcome State Fault Refusal :=
  run (fropStep g 0x13 w fireStp) s
def execTas (g : GrainRef) (w : FropWord) (s : State) : Host.Outcome State Fault Refusal :=
  run (fropStep g 0x14 w fireTas) s
def execReq (g : GrainRef) (w : FropWord) (s : State) : Host.Outcome State Fault Refusal :=
  run (fropStep g 0x18 w fireReq) s
def execRld (g : GrainRef) (w : FropWord) (s : State) : Host.Outcome State Fault Refusal :=
  run (fropStep g 0x19 w fireRld) s
def execRst (g : GrainRef) (w : FropWord) (s : State) : Host.Outcome State Fault Refusal :=
  run (fropStep g 0x1A w fireRst) s
def execRat (g : GrainRef) (w : FropWord) (s : State) : Host.Outcome State Fault Refusal :=
  run (fropStep g 0x1B w fireRat) s
def execRout (g : GrainRef) (w : FropWord) (s : State) : Host.Outcome State Fault Refusal :=
  run (fropStep g 0x20 w fun w c => return fireRout w c.g c.idx c.offer) s
def execMerg (g : GrainRef) (w : FropWord) (s : State) : Host.Outcome State Fault Refusal :=
  run (fropStep g 0x21 w fun w c => return fireMerg w c.g c.idx c.offer) s
def execFilt (g : GrainRef) (w : FropWord) (s : State) : Host.Outcome State Fault Refusal :=
  run (fropStep g 0x22 w fun w c => return fireFilt w c.g c.idx c.offer) s
def execDupl (g : GrainRef) (w : FropWord) (s : State) : Host.Outcome State Fault Refusal :=
  run (fropStep g 0x23 w fun w c => return fireDupl w c.g c.idx c.offer) s
def execCnt (g : GrainRef) (w : FropWord) (s : State) : Host.Outcome State Fault Refusal :=
  run (fropStep g 0x24 w fun w c => do return fireCnt w c.g c.idx c.offer (← takeB w c)) s
def execMark (g : GrainRef) (w : FropWord) (s : State) : Host.Outcome State Fault Refusal :=
  run (fropStep g 0x25 w fun w c => return fireMark w c.g c.idx c.offer) s
def execRdce (g : GrainRef) (w : FropWord) (s : State) : Host.Outcome State Fault Refusal :=
  run (fropStep g 0x26 w fun w c => return fireRdce w c.g c.idx c.offer) s
def execGate (g : GrainRef) (w : FropWord) (s : State) : Host.Outcome State Fault Refusal :=
  run (fropStep g 0x27 w fun w c => do return fireGate w c.g c.idx c.offer (← takeB w c)) s

end Sys2Proof.Machine
end

