-- ==== Sys2Proof/Machine/Region.lean ====
section
/-! DEFINITION. The region instructions (11 R311 to R325), and the steps of a region: serving a context slot (06 R170), frame changes, ring bindings, forced stops (14 R396). -/

namespace Sys2Proof.Machine

/-! Handles and the order of operations on a slot (11 R311, R315). -/

/-- A handle's region and slot. -/
def handle (h : Word) : M (Nat × Nat) := do
  let s : State ← gs
  let k := s.cur
  let r := 16 * panOf k + fld h 0 4
  match s.region r with
  | some x => if fld h 6 58 ≠ 0 || decide (s.resOf (panOf k) (s.strand k).ctx ≠ some x.res) then trap 0xB h else return (r, fld h 4 2)
  | none => trap 0xB h

/-- Another strand's RGSTOP or RGFREE is still being performed on the slot: an RGFREE under way shows in its strand's wait as slot 4. -/
def State.slotHeld (s : State) (r i : Nat) : Bool :=
  let x := s.slot r i
  (decide (x.st = .running) && x.stopReq && !x.preempted && decide ((s.strand s.cur).wait ≠ .slot r i)) ||
  s.strands.any fun y => decide (y.1 ≠ s.cur) && decide (y.2.wait = .slot r 4)

/-- An operation waits its turn at the slot. -/
def slotTurn (r i : Nat) : M Unit := do
  if (← gs).slotHeld r i then stall

/-- An operation of the executing strand has ended. -/
def slotDone (len : Nat) : M Unit := modMe fun st => { st with wait := .none, pc := st.pc + word len }

/-! RGALLOC, RGFREE (11 R316). -/

def quadsMeet (a b : Region) : Bool :=
  decide (a.row < b.row + b.qr ∧ b.row < a.row + a.qr ∧ a.col < b.col + b.qc ∧ b.col < a.col + a.qc)

/-- The region keys of a pan that are allocated. -/
def State.panRegions (s : State) (pan : Nat) : List (Nat × Region) :=
  (List.range 16).filterMap fun n => (s.region (16 * pan + n)).map fun x => (16 * pan + n, x)

/-- A rectangle can be reserved on a pan. -/
def State.rectFree (s : State) (pan : Nat) (x : Region) : Bool :=
  decide (x.row + x.qr ≤ 4) && decide (x.col + x.qc ≤ 4) && !(s.panRegions pan).any fun y => quadsMeet x y.2

def newRegion (res row col qr qc : Nat) : Region := ⟨res, row, col, qr, qc, 3, []⟩

/-- The origin that AT = 0 chooses: the first in quad-row-major order. -/
def State.firstRect (s : State) (pan res qr qc : Nat) : Option Region :=
  ((List.range 16).map fun n => newRegion res (n / 4) (n % 4) qr qc).find? (s.rectFree pan)

def State.freeRegion (s : State) (pan : Nat) : Option Nat := (List.range 16).find? fun n => (s.region (16 * pan + n)).isNone

def execRgalloc (d : BitVec 5) (qr qc : BitVec 2) (atO : Bool) (orow oc : BitVec 2) (s : State) : Host.Outcome State Fault Refusal := run (do
  issueOn (.rgalloc d qr qc atO orow oc) [d]
  let s1 : State ← gs
  let pan := panOf s1.cur
  let place : Option Region := match s1.resOf pan (s1.strand s1.cur).ctx with
    | none => none
    | some res =>
      if atO then
        let x := newRegion res orow.toNat oc.toNat (qr.toNat + 1) (qc.toNat + 1)
        if s1.rectFree pan x then some x else none
      else s1.firstRect pan res (qr.toNat + 1) (qc.toNat + 1)
  match place, s1.freeRegion pan with
  | some x, some n => do
    emit (.region (16 * pan + n) (some x))
    retire d (word n) 8
  | _, _ => retire d (-1) 8) s

/-- The bindings of a slot end, by a strand's instruction: an output at scope 5 is published once the posted stores before it are answered (05 R146). -/
def unbind (r i : Nat) : M Unit := do
  let s : State ← gs
  if (s.slot r i).binds.any fun b => b.out && b.slot.isSome && decide ((s.ring b.ring).scope = 5) && s.postedBefore s.nextId none then stall
  endBinds r i

/-- A slot that is not RUNNING becomes FREE. -/
def freeSlot (r i : Nat) : M Unit := do
  unbind r i
  modSlot r i fun _ => {}

/-- RGFREE: a RUNNING slot is first stopped as RGSTOP stops it; the strand stays at the instruction meanwhile. -/
def execRgfree (a : BitVec 5) (whole : Bool) (s : State) : Host.Outcome State Fault Refusal := run (do
  issueOn (.rgfree a whole) [a]
  let h ← handle (← rg a)
  let is := if whole then [0, 1, 2, 3] else [h.2]
  each is fun i => slotTurn h.1 i
  each is fun i => stopSlot h.1 i false
  let s1 : State ← gs
  if is.any fun i => decide ((s1.slot h.1 i).st = .running) then modMe fun st => { st with wait := .slot h.1 4 }
  else
    each is fun i => freeSlot h.1 i
    if whole then emit (.region h.1 none)
    slotDone 8) s

/-! Images (11 R312, R313). -/

/-- The header is well formed. -/
def hdrOk (dw : List Word) : Bool :=
  let h := dwAt dw 1
  let g := 16 * (fld h 0 2 + 1) * (fld h 2 2 + 1)
  decide (dwAt dw 0 = 0x14746434B) && decide (fld h 19 45 = 0) && decide (fld h 13 5 ≤ 16) && decide (dwAt dw 3 = 0) &&
  decide (dwAt dw 2 = word (32 + 8 * (fld h 8 5 + 1) + 32 * fld h 13 5 + 8 * g * (fld h 4 4 + 1)))

def hdrSize (dw : List Word) : Nat := fld (dwAt dw 2) 0 32
def hdrShape (dw : List Word) (x : Region) : Bool := decide (fld (dwAt dw 1) 0 2 + 1 = x.qr) && decide (fld (dwAt dw 1) 2 2 + 1 = x.qc)

/-- A step word is in range, for `nf` frames and `nn` nests. -/
def stepOk (nf nn : Nat) (w : Word) : Bool :=
  let rule := fld w 8 2
  let count := fld w 32 16
  decide (fld w 48 16 = 0) && decide (fld w 17 15 = 0) && decide (fld w 4 4 < nn) && decide (fld w 0 4 < nf) &&
  (if rule = 1 then decide (count ≠ 0) && decide (fld w 10 7 = 0)
   else if rule = 2 then decide (count = 0) && decide (fld w 10 2 ≠ 3)
   else decide (count = 0) && decide (fld w 10 7 = 0))

/-- The nest record at dword `i`. -/
def nestOk (dw : List Word) (i : Nat) : Bool :=
  let nd := fld (dwAt dw i) 0 3
  decide (fld (dwAt dw i) 3 61 = 0) && decide (nd ≤ 6) &&
  (List.range 6).all fun k => decide (fld (dwAt dw (i + 1 + k / 2)) (32 * (k % 2)) 32 = 0) == decide (nd ≤ k)

/-- The steps, nests and frames of an image whose header is well formed. -/
def bodyOk (dw : List Word) : Bool :=
  let x : Slot := { img := ⟨dw⟩ }
  let nf := fld (dwAt dw 1) 4 4 + 1
  let f0 := 4 + x.nsteps + 4 * x.nnest
  ((dw.drop 4).take x.nsteps).all (stepOk nf x.nnest) &&
  (List.range x.nnest).all (fun n => nestOk dw (4 + x.nsteps + 4 * n)) &&
  (enumFrom 0 ((dw.drop f0).take (nf * x.numGrains))).all fun y => fropOk x.rows x.cols (y.1 % x.numGrains) y.2

/-- 11 R317: bytes of the configuration cache that the other slots of the pan hold. -/
def roundUp256 (n : Nat) : Nat := (n + 255) / 256 * 256
def State.cacheUsed (s : State) (pan r i : Nat) : Nat :=
  (s.panRegions pan).foldl (fun a y => y.2.slots.foldl (fun a z =>
    if (y.1 = r ∧ z.1 = i) ∨ z.2.st = .free then a else a + roundUp256 (hdrSize z.2.img.dw)) a) 0

/-- Profile B takes no image with MOD62 (08 R227). -/
def mod62Check (i : Instr) (dw : List Word) : M Unit := do
  if isShoal (← curKey) && bitOf (dwAt dw 1) 18 then raiseBits 2 i

/-- Write a status and end the operation. -/
def rgStatus (k : Nat) (d : BitVec 5) (st : Nat) : M Unit := do
  dropReplies k
  retire d (word st) 8

/-- RGLOAD (11 R317). -/
def execRgload (d a b : BitVec 5) (s : State) : Host.Outcome State Fault Refusal := run (do
  issueOn (.rgload d a b) [d, a, b]
  let k ← curKey
  let (r, i) ← handle (← rg a)
  slotTurn r i
  let s1 : State ← gs
  let x := s1.slot r i
  if x.st ≠ .free && decide (x.st ≠ .loaded) then retire d 4 8
  else
    let va ← rg b
    if va.toNat % 8 ≠ 0 then trap 3 va
    let h ← readWords k va 32 id [] (← answers k)
    mod62Check (.rgload d a b) h.1
    if !hdrOk h.1 then rgStatus k d 1
    else if (match s1.region r with | some y => !hdrShape h.1 y | none => true) then rgStatus k d 2
    else
      let t ← readWords k (va + 32) (hdrSize h.1 - 32) id [] h.2
      let dw := h.1 ++ t.1
      if !bodyOk dw then rgStatus k d 1
      else if 65536 < (← gs).cacheUsed (r / 16) r i + roundUp256 (hdrSize dw) then rgStatus k d 3
      else
        unbind r i
        let n ← freshId
        modSlot r i fun _ => { st := .loaded, img := ⟨dw⟩, serial := n }
        rgStatus k d 0) s

/-! RGRUN, RGWAIT, RGSTOP, RGSTAT (11 R318 to R320). -/

/-- 06 R176: a step of the sequence has an innermost extent above the clamp. -/
def Slot.tooLong (x : Slot) (maxext : Nat) : Bool :=
  decide (maxext ≠ 0) && (List.range x.nsteps).any fun j =>
    let n := x.nestOf j
    decide (maxext < if fld (x.nestAt n 0) 0 3 = 0 then 1 else fld (x.nestAt n 1) 0 32)

/-- A run starts at step 0: queues and records empty, registers kept. -/
def Slot.start (x : Slot) : Slot :=
  let y : Slot := { x with grains := (x.grains.map fun g => (g.1, ({ c := g.2.c } : Grain))).filter fun g => decide (g.2 ≠ {}) }
  { y.goto 0 with st := .running, changing := false, stopReq := false, preempted := false, fault := 0, fgrain := 0 }

def execRgrun (a : BitVec 5) (s : State) : Host.Outcome State Fault Refusal := run (do
  issueOn (.rgrun a) [a]
  let hv ← rg a
  let (r, i) ← handle hv
  slotTurn r i
  let s1 : State ← gs
  let x := s1.slot r i
  if x.st ≠ .loaded && decide (x.st ≠ .stopped) then trap 0xB hv
  if x.tooLong (fld (s1.pan (r / 16)).rgclamp 0 21) then trap 0xB hv
  modSlot r i fun x => if x.st = .loaded then x.start else { x with st := .running, stopReq := false, preempted := false }
  next 8) s

/-- RGWAIT; a run stopped by pre-emption has not ended (11 R315). -/
def execRgwait (d a : BitVec 5) (sc : BitVec 3) (s : State) : Host.Outcome State Fault Refusal := run (do
  issueOn (.rgwait d a sc) [d, a]
  match (← me).wait with
  | .slotDone w => do
    modMe fun st => { st with wait := .none }
    retire d w 8
  | _ => do
    let (r, i) ← handle (← rg a)
    let x := (← gs).slot r i
    if x.st = .running || x.preempted then waitFor (.slot r i) else retire d x.word 8) s

/-- RGSTOP: retires once the slot has left RUNNING. -/
def execRgstop (a : BitVec 5) (s : State) : Host.Outcome State Fault Refusal := run (do
  issueOn (.rgstop a) [a]
  match (← me).wait with
  | .slotDone _ => slotDone 8
  | _ => do
    let (r, i) ← handle (← rg a)
    slotTurn r i
    if ((← gs).slot r i).preempted then modMe fun st => { st with wait := .slot r i }
    else
      stopSlot r i false
      if ((← gs).slot r i).st = .running then modMe fun st => { st with wait := .slot r i } else slotDone 8) s

def execRgstat (d a : BitVec 5) (s : State) : Host.Outcome State Fault Refusal := run (do
  issueOn (.rgstat d a) [d, a]
  let (r, i) ← handle (← rg a)
  let x := (← gs).slot r i
  if x.st = .faulted then modSlot r i fun x => { x with st := .loaded }
  retire d x.word 8) s

/-! State images (11 R324, R325). -/

/-- The frops whose record this chapter gives (11 R331, R333, R335, R336): its entries as the image holds them. -/
def recOf (op : Nat) (g : Grain) : List Word :=
  if op = 4 ∨ op = 0xA ∨ op = 0xC then g.inner else if op = 5 then g.inner.drop 1 else []

/-- What else a grain needs to resume exactly (11 R325) stands in bits [63:16] of the record's header, which the layout does not name (log 13): the position and zero products of SMAC, the tags and counts of the modular frops, the count of MARK, the turn of MERG, the number of markers that SCAN holds. -/
def extraOf (op : Nat) (g : Grain) : Nat :=
  let f := fun (i : Nat) => (nth 0 g.inner i).toNat
  if op = 5 then f 0 % 1024
  else if op = 7 ∨ op = 8 ∨ op = 9 then f 0 % 128 + f 1 % 128 * 2 ^ 7 + f 2 % 2 * 2 ^ 14 + f 3 % 65536 * 2 ^ 15 + f 4 % 128 * 2 ^ 31 + f 5 % 128 * 2 ^ 38
  else if op = 0x25 then f 0 % 65536
  else if op = 0x21 then f 0 % 2
  else if op = 0xC then min g.held.length 48
  else 0

/-- The markers that SCAN holds follow its record, in entries it does not use: place and tag, payload (log 13). -/
def heldImage (g : Grain) : List Word := (g.held.take 48).flatMap fun h => [word (h.1 * 256 + h.2.tag), h.2.val]

/-- A queue in the image: count and eight entries. -/
def queueImage (q : List Token) : List Word :=
  let q8 := q.take 8
  word q8.length :: (q8.flatMap fun t => [t.val, word t.tag]) ++ List.replicate (16 - 2 * q8.length) 0

def grainImage (op : Nat) (g : Grain) : List Word :=
  let rec_ := (recOf op g).take 128
  let more := if op = 0xC then (heldImage g).take (128 - rec_.length) else []
  ((List.range 8).map g.reg) ++ ((List.range 5).flatMap fun p => queueImage (g.q.get [] p)) ++
  [word (extraOf op g * 65536 + rec_.length * 256 + op), if op = 0xC then word g.bitmap else 0] ++ rec_ ++ more ++ List.replicate (128 - rec_.length - more.length) 0

/-- The state image of a slot. -/
def slotImage (x : Slot) : List Word :=
  let size := hdrSize x.img.dw
  let len := 64 + size + 1784 * x.numGrains
  let ix := fun (k : Nat) => word (nth 0 x.idx (k + 1) % 2 ^ 32 * 2 ^ 32 + nth 0 x.idx k % 2 ^ 32)
  [0x15853474B, word (size * 2 ^ 32 + len),
   word ((if x.nspent then 2 ^ 35 else 0) + (if x.st = .stopped then 2 ^ 34 else 0) + x.flags.toNat * 2 ^ 25 + x.due % 65536 * 512 + x.step % 32 * 16 + x.frame),
   ix 0, ix 2, ix 4, 0, 0] ++ x.img.dw ++
  (List.range x.numGrains).flatMap fun i => grainImage (fld (x.fropAt i) 0 6) (x.grains.get {} i)

/-- RGEXP: plain stores, probed whole. A FREE slot gives 0, as R324 has it; R315 speaks of RANGE there (log 43). -/
def execRgexp (d a b : BitVec 5) (s : State) : Host.Outcome State Fault Refusal := run (do
  issueOn (.rgexp d a b) [d, a, b]
  let k ← curKey
  let (r, i) ← handle (← rg a)
  slotTurn r i
  let x := (← gs).slot r i
  if (x.st ≠ .loaded && decide (x.st ≠ .stopped)) || x.preempted then retire d 0 8
  else
    let va ← rg b
    if va.toNat % 8 ≠ 0 then trap 3 va
    let ws := enumFrom 0 (slotImage x)
    let cs ← collect ws fun y => vcheck k (va + word (8 * y.1)) 8 false accStore false
    raiseAll (cs.flatMap (·.1))
    each (ws.zip (cs.map (·.2))) fun y => match y.2 with
      | some p => do
        waitVlda k p 8
        let tk ← myTask
        writePlace k tk 8 (⟨y.1.1, 0, va + word (8 * y.1.1)⟩, p) y.1.2.toNat false
      | none => pure ()
    retire d (word (8 * ws.length)) 8) s

/-- Entries of a queue: value and tag by turns. -/
def tokensOf : Nat → List Word → List Token
  | 0, _ => []
  | n + 1, v :: t :: l => ⟨fld t 0 4, v⟩ :: tokensOf n l
  | _, _ => []

/-- The grain record at dword `o`: a queue holds more than 8 tokens, a reserved tag, or a record is too long. -/
def grainBad (dw : List Word) (o : Nat) : Bool :=
  ((List.range 5).any fun p =>
    let n := (dwAt dw (o + 8 + 17 * p)).toNat
    decide (8 < n) || (List.range n).any fun e => decide (8 < (dwAt dw (o + 8 + 17 * p + 2 + 2 * e)).toNat)) ||
  decide (128 < fld (dwAt dw (o + 93)) 8 8)

/-- The record of a frop, from its entries and its extra bits. -/
def innerOf (op : Nat) (ent : List Word) (x : Nat) : List Word :=
  if op = 4 ∨ op = 0xA ∨ op = 0xC then ent
  else if op = 5 then (if ent = [] then [] else word (x % 1024) :: ent)
  else if x = 0 then []
  else if op = 7 ∨ op = 8 ∨ op = 9 then [x % 128, x / 2 ^ 7 % 128, x / 2 ^ 14 % 2, x / 2 ^ 15 % 65536, x / 2 ^ 31 % 128, x / 2 ^ 38 % 128].map word
  else if op = 0x25 ∨ op = 0x21 then [word x]
  else []

/-- Held markers from the entries behind a record. -/
def heldFrom : Nat → List Word → List (Nat × Token)
  | n + 1, h :: v :: l => (fld h 8 8, ⟨fld h 0 4, v⟩) :: heldFrom n l
  | _, _ => []

def grainOf (fw : Word) (dw : List Word) (o : Nat) : Grain :=
  let op := fld fw 0 6
  let hd := dwAt dw (o + 93)
  let mine := decide (fld hd 0 6 = op)
  let ent := (dw.drop (o + 95)).take (fld hd 8 8)
  { c := (List.range 8).foldl (fun t k => Tbl.put 0 k (dwAt dw (o + k)) t) []
    q := (List.range 5).foldl (fun t p => Tbl.put [] p (tokensOf (dwAt dw (o + 8 + 17 * p)).toNat (dw.drop (o + 9 + 17 * p))) t) []
    inner := if mine then innerOf op ent (fld hd 16 48) else []
    bitmap := if mine && decide (op = 0xC) then (dwAt dw (o + 94)).toNat else 0
    held := if mine && decide (op = 0xC) then heldFrom (min (fld hd 16 48) ((128 - ent.length) / 2)) ((dw.drop (o + 95 + ent.length)).take (128 - ent.length)) else [] }

/-- The state header is well formed, beside its configuration header. -/
def stateHdrOk (h c : List Word) : Bool :=
  let g := 16 * (fld (dwAt c 1) 0 2 + 1) * (fld (dwAt c 1) 2 2 + 1)
  decide (dwAt h 0 = 0x15853474B) && decide (dwAt h 1 = word (hdrSize c * 2 ^ 32 + (64 + hdrSize c + 1784 * g))) &&
  decide (fld (dwAt h 2) 36 28 = 0) && decide (dwAt h 6 = 0) && decide (dwAt h 7 = 0)

/-- The slot that a state image describes. -/
def slotOf (h c : List Word) (gr : List Word) : Slot :=
  let m := dwAt h 2
  let x : Slot := { st := if bitOf m 34 then .stopped else .loaded, img := ⟨c⟩, step := fld m 4 5, due := fld m 9 16, nspent := bitOf m 35, flags := BitVec.ofNat 9 (fld m 25 9)
                    idx := (List.range 6).map fun k => fld (dwAt h (3 + k / 2)) (32 * (k % 2)) 32 }
  { x with grains := (List.range x.numGrains).foldl (fun t i => Tbl.put {} i (grainOf (x.fropAt i) gr (223 * i)) t) [] }

/-- A state image's body is malformed. -/
def stateBad (h c gr : List Word) : Bool :=
  let x : Slot := { img := ⟨c⟩, step := fld (dwAt h 2) 4 5 }
  !bodyOk c || decide (x.nsteps ≤ x.step) || decide (x.frame ≠ fld (dwAt h 2) 0 4) || (List.range x.numGrains).any fun i => grainBad gr (223 * i)

/-- RGIMP. -/
def execRgimp (d a b : BitVec 5) (s : State) : Host.Outcome State Fault Refusal := run (do
  issueOn (.rgimp d a b) [d, a, b]
  let k ← curKey
  let (r, i) ← handle (← rg a)
  slotTurn r i
  let s1 : State ← gs
  if (s1.slot r i).st ≠ .free then retire d 4 8
  else
    let va ← rg b
    if va.toNat % 8 ≠ 0 then trap 3 va
    let hd ← readWords k va 96 id [] (← answers k)
    let h := hd.1.take 8
    let c := hd.1.drop 8
    mod62Check (.rgimp d a b) c
    if !hdrOk c || !stateHdrOk h c then rgStatus k d 1
    else if (match s1.region r with | some y => !hdrShape c y | none => true) then rgStatus k d 2
    else
      let t ← readWords k (va + 96) (fld (dwAt h 1) 0 32 - 96) id [] hd.2
      let cfg := c ++ t.1.take (hdrSize c / 8 - 4)
      let gr := t.1.drop (hdrSize c / 8 - 4)
      if stateBad h cfg gr then rgStatus k d 1
      else if 65536 < (← gs).cacheUsed (r / 16) r i + roundUp256 (hdrSize c) then rgStatus k d 3
      else
        let n ← freshId
        modSlot r i fun _ => { slotOf h cfg gr with serial := n }
        rgStatus k d 0) s

/-! SBIND, RGSETC (11 R321, R322). -/

def execSbind (a b : BitVec 5) (s : State) : Host.Outcome State Fault Refusal := run (do
  issueOn (.sbind a b) [a, b]
  let hv ← rg a
  let v ← rg b
  let (r, i) ← handle hv
  slotTurn r i
  let s1 : State ← gs
  let x := s1.slot r i
  if x.st ≠ .loaded && decide (x.st ≠ .stopped) then trap 0xB hv
  let gi := fld v 13 8
  let out := bitOf v 12
  let ring := r / 16 / 128 * 4096 + fld v 0 12
  if fld v 21 43 ≠ 0 || decide (x.numGrains ≤ gi) || !s1.ownsRing (s1.regionCtx r) ring || decide ((s1.ring ring).lsz < 4) ||
      (x.binds.any fun y => decide (y.grain = gi) && (y.out == out)) || decide (8 ≤ x.binds.length) then trap 0xB v
  modSlot r i fun x => { x with binds := x.binds ++ [⟨gi, out, ring, none, 0, [], []⟩] }
  next 8) s

def execRgsetc (a b : BitVec 5) (n : BitVec 3) (allG : Bool) (grain : BitVec 8) (s : State) : Host.Outcome State Fault Refusal := run (do
  issueOn (.rgsetc a b n allG grain) [a, b]
  let hv ← rg a
  let v ← rg b
  let (r, i) ← handle hv
  slotTurn r i
  let x := (← gs).slot r i
  if x.st ≠ .loaded && decide (x.st ≠ .stopped) then trap 0xB hv
  if !allG && decide (x.numGrains ≤ grain.toNat) then trap 0xB hv
  each (if allG then List.range x.numGrains else [grain.toNat]) fun gi => modGrain ⟨r, i, gi⟩ fun g => g.setReg n.toNat v
  next 8) s

/-! Serving (06 R170). -/

/-- Armed remote accesses that have fired issue from the pan of their context, whatever has become of their slots (11 R339). -/
def issueFired (r : Nat) : M Unit := do
  let mine := (← gs).sched.firedRem.filter fun x => decide (x.2.pan = r / 16)
  if !mine.isEmpty then
    modSched fun x => { x with firedRem := x.firedRem.filter fun x => decide (x.2.pan ≠ r / 16) }
    each mine fun x => issueRem x.1 x.2

/-- The turns of the grains of a slot within a cycle, until one faults. -/
def grainsTurn (r i : Nat) (x0 : Slot) : List Nat → Bool → Landings → M (Bool × Landings)
  | [], b, l => return (b, l)
  | gi :: gis, b, l => do
    let w := x0.fropAt gi
    let t ← grainTurn (fireOp_ (fld w 0 6) (fropFields w)) (fctx r i gi x0 l)
    if ((← gs).slot r i).st = .faulted then return (true, t.2) else grainsTurn r i x0 gis (b || t.1) t.2

/-- One cycle of a slot; whether any grain acted. -/
def serveSlot (r i : Nat) : M Bool := do
  let s : State ← gs
  if !s.servable r i then return false
  let x0 := s.slot r i
  let t ← grainsTurn r i x0 (List.range x0.numGrains) false []
  landAll r i t.2
  modSlot r i (·.advance)
  return t.1

/-- The first ready slot in order is served. -/
def serveFirst (r : Nat) : List Nat → M (Option Nat)
  | [] => return none
  | i :: is => do if ← serveSlot r i then return some i else serveFirst r is

/-- Tokens that wait for room at L enter it; those of input bindings behind them. A reserved tag faults the slot (11 R326). -/
def drainL (r i : Nat) : M Unit := do
  each (((← gs).slot r i).grains.map (·.1)) fun gi => modGrain ⟨r, i, gi⟩ fun g =>
    let n := 8 - (g.q.get [] 4).length
    { g with q := Tbl.put [] 4 ((g.lin.take n).foldl arriveQ (g.q.get [] 4)) g.q, lin := g.lin.drop n }
  each (enumFrom 0 ((← gs).slot r i).binds) fun y => do
    let x := (← gs).slot r i
    if !y.2.out && y.2.slot.isSome && decide (x.st = .running) then
      let g := x.grains.get {} y.2.grain
      let n := if g.lin.isEmpty then 8 - (g.q.get [] 4).length else 0
      let now := y.2.toks.take n
      if now.any fun t => decide (8 < t.tag) then slotFault r i y.2.grain fSTREAM
      else
        modGrain ⟨r, i, y.2.grain⟩ fun g => { g with q := Tbl.put [] 4 (now.foldl arriveQ (g.q.get [] 4)) g.q }
        if y.2.toks.length ≤ n then
          modBind r i y.1 fun b => { b with slot := none, toks := [] }
          keepRing ((← gs).regionTask r) y.2.ring
          modRing y.2.ring fun q => { q with rd := (q.rd + 1) % 2 ^ 32 }
        else modBind r i y.1 fun b => { b with toks := b.toks.drop n }

/-- 11 R330: nothing is left in the slot's queues and no firing is in progress. -/
def Slot.quiet (x : Slot) : Bool :=
  x.grains.all fun g => g.2.out.isEmpty && g.2.waiting.isEmpty && g.2.lin.isEmpty && g.2.q.all fun q => q.2.isEmpty

/-- What follows a cycle: publication of closed ring slots, the end of a spent nest, and a stop at a boundary. -/
def settle (r i : Nat) : M Unit := do
  drainL r i
  each (enumFrom 0 ((← gs).slot r i).binds) fun y => do
    if y.2.out && y.2.slot.isSome && decide (ringPer ((← gs).ring y.2.ring) ≤ y.2.pos) then publishBind r i y.1 0
  let x := (← gs).slot r i
  if x.st = .running && !x.changing && decide (0 < x.ndim) && x.nspent && x.quiet then frameEnd r i 0
  let y := (← gs).slot r i
  if y.st = .running && y.stopReq && y.atBoundary then stopSlot r i y.preempted

/-- REGION_SERVICE_CYCLE (06 R170). -/
def execRegionServiceCycle (r : Nat) (s : State) : Host.Outcome State Fault Refusal := run (do
  match (← gs).region r with
  | none => issueFired r
  | some x => do
    issueFired r
    match ← serveFirst r ((List.range 4).map fun k => (x.ptr + 1 + k) % 4) with
    | some i => modRegion r fun x => { x with ptr := i }
    | none => pure ()
    each [0, 1, 2, 3] fun i => settle r i) s

/-- FRAME_CHANGE_DONE (06 R169): the change of frame has taken its cycles. -/
def execFrameChangeDone (r slot : Nat) (s : State) : Host.Outcome State Fault Refusal := run (do
  if ((← gs).slot r slot).changing then
    modSlot r slot fun x => { x with changing := false }
    settle r slot) s

/-- RING_OUTPUT_PUBLISH_TIMEOUT (11 R323): a partly filled slot is padded and published. -/
def execRingOutputPublishTimeout (r slot bind : Nat) (s : State) : Host.Outcome State Fault Refusal := run (do
  let s1 : State ← gs
  match (s1.slot r slot).binds[bind]? with
  | some b =>
    if b.out && b.slot.isSome && decide (0 < b.pos) && decide (b.pos < ringPer (s1.ring b.ring)) then
      keepRing (s1.regionTask r) b.ring
      closeBind r slot bind
  | none => pure ()) s

/-- The tokens of a filled slot, in entry order up to the first padding. -/
def entriesOf : List Word → List Token
  | v :: t :: l => if bitOf t 63 then [] else ⟨fld t 0 4, v⟩ :: entriesOf l
  | _ => []

/-- Read the words of an acquired slot; answers of peers and hosts are used in order. -/
def ringRead (r slot bind ring sl : Nat) (n : Nat) : Nat → List RResp → M (Except Nat (List Word))
  | 0, _ => return .ok []
  | m + 1, rs => do
    let va := ((← gs).ring ring).addr sl + word (8 * (n - (m + 1)))
    match ← ringPlace r ring va accLoad with
    | .error c => return .error c
    | .ok p => do
      let x : Except Nat Word × List RResp ←
        if p.isFar then
          match rs with
          | [] => do
            sendLoad (.bind r slot bind) va 8 p
            finish
          | .value v :: t => pure (.ok v, t)
          | .fault c :: t => pure (.error c, t)
          | _ :: t => pure (.error stPOISON, t)
        else do
          let v ← readPlace ((← gs).regionTask r) 8 p
          pure (if v.2 then .error stPOISON else .ok (word v.1), rs)
      match x.1 with
      | .error c => return .error c
      | .ok v =>
        match ← ringRead r slot bind ring sl n m x.2 with
        | .error c => return .error c
        | .ok t => return .ok (v :: t)

/-- RING_INPUT_ACQUIRE (11 R323): the slot at RD is acquired once it is filled, and its tokens are delivered. -/
def execRingInputAcquire (r slot bind : Nat) (s : State) : Host.Outcome State Fault Refusal := run (do
  let s1 : State ← gs
  let x := s1.slot r slot
  match x.binds[bind]? with
  | some b =>
    let q := s1.ring b.ring
    if !b.out && b.slot.isNone && decide (x.st = .running) && !(s1.fabric.requests.any fun y => decide (y.who = .bind r slot bind)) then
      if q.fault.isSome then slotFault r slot b.grain fRANGE
      else if ringReady q then
        let n := 2 * ringPer q
        match ← ringRead r slot bind b.ring q.rd n n (b.replies.map (·.2)) with
        | .error c => do
          modBind r slot bind fun b => { b with replies := [] }
          slotFault r slot b.grain c
        | .ok ws => do
          modBind r slot bind fun b => { b with slot := some q.rd, toks := entriesOf ws, replies := [] }
          drainL r slot
  | none => pure ()) s

/-- REGION_STOP_TIMEOUT (14 R396): a stop by pre-emption takes effect between firings; without a limit only the boundary stops. -/
def execRegionStopTimeout (r slot : Nat) (s : State) : Host.Outcome State Fault Refusal := run (do
  let s1 : State ← gs
  let x := s1.slot r slot
  if x.st = .running && x.stopReq && x.preempted && decide (fld (s1.pan (r / 16)).rgclamp 0 21 ≠ 0) then
    modSlot r slot fun x => { x with st := .stopped, stopReq := false }) s

end Sys2Proof.Machine
end

