-- ==== Sys2Proof/Machine/Wake.lean ====
section
/-! DEFINITION. Strands that wait (06 R164, 09 R271), and the arbiters of a pan: the vector issue arbiter (06 R165) and the arbiter of a bank (02 R52). -/

namespace Sys2Proof.Machine

/-- The condition that a strand waits for is met (06 R164). -/
def State.waitOver (s : State) (st : Strand) : Bool :=
  match st.wait with
  | .none => true
  | .latch _ => st.latch
  | .ring id => ringReady (s.ring id)
  | .counter id t => satisfied (s.counter id).c t
  | .slot r i => !(decide ((s.slot r i).st = .running)) && !(s.slot r i).preempted
  | .slotDone _ => true
  | .chan ch => decide ((s.chan ch).q.length < 8)
  | .token t => !(s.fabric.moving.contains t)
  | .coll vs => (s.stream vs).pend.isNone

/-- What a waiting strand still knows when it executes its instruction again: that a run has ended, or a token has moved. -/
def Wait.keep (w : Wait) : Wait :=
  match w with
  | .slotDone x => .slotDone x
  | .token t => .token t
  | _ => .none

/-- STRAND_WAKE. -/
def execStrandWake (k : Nat) (s : State) : Host.Outcome State Fault Refusal := run (do
  let st ← getStrand k
  if st.st = .wait && (← gs).waitOver st then modStrand k fun st => { st with st := .run, wait := st.wait.keep }) s

/-- WFE_TIMEOUT: the 65,536 ticks of `gtime` have passed. -/
def execWfeTimeout (k : Nat) (s : State) : Host.Outcome State Fault Refusal := run (do
  let st ← getStrand k
  match st.st, st.wait with
  | .wait, .latch since => do
    emit (.gtime (max (← gs).gtime (since + 65536)))
    modStrand k fun st => { st with latch := true }
  | _, _ => pure ()) s

/-! The vector issue arbiter (06 R165). -/

def clampCredit (c : Int) : Int := max (-64) (min 63 c)

/-- The credits after one cycle's additions, of the candidates. -/
def addCredits (cand : List Nat) (w : Nat → Nat) (cr : Nat → Int) (i : Nat) : Int :=
  if cand.contains i then clampCredit (cr i + w i) else cr i

/-- The candidate with the largest credit; ties to the lowest strand. -/
def largestCredit (cand : List Nat) (cr : Nat → Int) : Option Nat := cand.find? fun i => cand.all fun j => decide (cr j ≤ cr i)

/-- One cycle's pick, with the credits and `lastZero` after it. -/
def vectorPick (ready : List Nat) (w : Nat → Nat) (credit : List Int) (lastZero : Nat) : Option Nat × List Int × Nat :=
  let cand := ready.filter fun i => decide (0 < w i)
  let cr := addCredits cand w (nth 0 credit)
  match largestCredit cand cr with
  | some p =>
    let total := cand.foldl (fun a i => a + w i) 0
    (some p, [0, 1, 2, 3].map fun i => if i = p then clampCredit (cr i - total) else cr i, lastZero)
  | none =>
    match ([1, 2, 3, 4].map fun i => (lastZero + i) % 4).find? ready.contains with
    | some p => (some p, credit, p)
    | none => (none, credit, lastZero)

/-- A group of the queue's head has been granted. -/
def grantGroup (q : List VqEntry) : List VqEntry :=
  match q with
  | [] => []
  | e :: t => if e.groups ≤ 1 then t else { e with groups := e.groups - 1 } :: t

/-- A strand's queue head is ready: its next group has its operands, and its pipe can accept the group. -/
def Strand.headReady (st : Strand) (waits : Bool) (busy : Nat) : Bool :=
  match st.vq with
  | [] => false
  | e :: _ => !waits && !busy.testBit e.pipe

/-- VECTOR_ISSUE_CYCLE. -/
def execVectorIssueCycle (c : IssueCycle) (s : State) : Host.Outcome State Fault Refusal := run (do
  let s1 : State ← gs
  let ready := [0, 1, 2, 3].filter fun i => (s1.strand (4 * c.pan + i)).headReady (c.waits.testBit i) c.busy
  match vectorPick ready (fun i => (s1.strand (4 * c.pan + i)).weight) (s1.pan c.pan).credit (s1.pan c.pan).lastZero with
  | (none, _, _) => pure ()
  | (some p, cr, lz) => do
    modPan c.pan fun x => { x with credit := cr, lastZero := lz }
    modStrand (4 * c.pan + p) fun st => { st with vq := grantGroup st.vq }) s

/-! The arbiter of a bank (02 R52). -/

/-- Round robin: the first of `n` requesters, one bit each, after the one served last. -/
def roundRobin (n last req : Nat) : Nat := (((List.range n).map fun i => (last + 1 + i) % n).find? req.testBit).getD last

/-- The bank after a cycle in which port G and the ports V and E have these requests, and the strands `s` at S and the grains `x` at X, one bit each (02 R51). -/
def Bank.cycle (b : Bank) (g v : Bool) (s : Nat) (e : Bool) (x : Nat) : Bank :=
  let req := fun i => nth false [v, decide (s % 16 ≠ 0), e, decide (x % 2 ^ 256 ≠ 0)] i
  let waiting := [0, 1, 2, 3].any req
  if g && (!waiting || decide (b.starve < 3)) then (if waiting then { b with starve := b.starve + 1 } else b)
  else
    match ([1, 2, 3, 4].map fun i => (b.lastPan + i) % 4).find? req with
    | some p => { starve := 0, lastPan := p, lastS := if p = 1 then roundRobin 4 b.lastS s else b.lastS, lastX := if p = 3 then roundRobin 256 b.lastX x else b.lastX }
    | none => b

/-- BANK_ARBITRATION_CYCLE: the requests of this cycle are given. -/
def execBankArbitrationCycle (pan bank : Nat) (g v : Bool) (s : Nat) (e : Bool) (x : Nat) (st : State) : Host.Outcome State Fault Refusal := run (
  if Config.panExists pan && decide (bank < 256) then
    modPan pan fun p => { p with banks := Tbl.put {} bank ((p.banks.get {} bank).cycle g v s e x) p.banks }
  else pure ()) st

end Sys2Proof.Machine
end

