-- ==== Sys2Proof/Machine/Remote.lean ====
section
/-! DEFINITION. Remote memory (05 R145 to R150, 01 R27) and ownership tokens (05 R151 to R153): what arrives from other devices, what returns to this one, and the completions of host reads (15 R422). -/

namespace Sys2Proof.Machine

/-! A flit that a link has accepted is handled above it. -/

/-- Take the first accepted flit with a given content off the links (15 R411): the access need not have come over a link of the model. -/
def takeFlit (p : Flit → Bool) : M Unit := do
  match (← gs).links.find? fun l => l.2.arrived.any p with
  | some (n, _) => modLink n fun l => { l with arrived := match findIdx? p l.arrived with | some i => l.arrived.take i ++ l.arrived.drop (i + 1) | none => l.arrived }
  | none => pure ()

/-! Arriving accesses. -/

/-- The answer goes back; a posted store that has been applied, or has failed, is counted (05 R147 to R149). -/
def answerRemote (m : RMsg) (r : RResp) : M Unit :=
  modFabric fun f => { f with
    responses := f.responses ++ [(m.src, m.tag, r)]
    applied := if m.posted then Tbl.put 0 m.src ((f.applied.get 0 m.src + 1) % 2 ^ 32) f.applied else f.applied
    stored := if m.posted then f.stored ++ [(m.src, m.tag)] else f.stored }

/-- The access of a message at a physical address of this device, its home (05 R149): an uncached one (03 R73, R74). A store of no bytes is a probe (log 38). -/
def performAt (m : RMsg) (pa : Nat) : M RResp := do
  let s : State ← gs
  let rd := kindReads m.kind
  if m.size = 0 then return .ack
  if (rd || decide (m.size < 8)) && s.poisonedAt pa m.size then return .fault 7
  let h := s.home pa
  let old := s.physRead pa m.size
  let new := ((⟨m.kind, m.data.toNat, m.cmp.toNat⟩ : Rmw).new m.size old).1
  touchHome none m.ctx (h / 128) m.size rd new.isSome
  match new with
  | some v => do
    physWrite none none pa (bytesOf v m.size)
    if m.via.isNone then count (h / 2 ^ 36) 18 m.ctx m.size
  | none => pure ()
  if rd && m.via.isNone then count (h / 2 ^ 36) 19 m.ctx m.size
  return if rd then .value (word old) else .ack

/-- An access arrives at the device of its home (01 R24, R27). Where the token of its region is away, it goes on to the owner (05 R152), unless it comes from there. -/
def performRemote (m : RMsg) : M Unit := do
  if !(← gs).member m.src then answerRemote m (.fault 5)
  else
    match ← inboundXlate m.addr (kindReads m.kind) (kindWrites m.kind) with
    | .error c => answerRemote m (.fault c)
    | .ok pa => do
      let owner := (← gs).fabric.away.get 0 (pa / 2 ^ 21)
      if owner ≠ 0 ∧ owner ≠ m.src + 1 ∧ m.size ≠ 0 then sendRemote (.forward m) 0 (owner - 1) (2 ^ 44 + pa) m.size m.kind m.data m.cmp false none
      else answerRemote m (← performAt m pa)

/-- 05 R148: the stores that a release counts have been applied. -/
def State.releaseReady (s : State) (m : RMsg) : Bool :=
  match m.rel with
  | none => true
  | some n => decide ((s.fabric.applied.get 0 m.src + 2 ^ 32 - n) % 2 ^ 32 < 2 ^ 31)

/-- 05 R147: the earlier posted stores of its source to a line that it touches have been applied. -/
def State.afterReady (s : State) (m : RMsg) : Bool := m.after.all fun t => s.fabric.stored.contains (m.src, t)

/-- REMOTE_ACCESS_ARRIVAL: performed at once, or held behind what it must follow (05 R147, R148). A message that the home of a region forwards to the owner of its token goes back there: the slices of this device hold no line of another device's memory (log 39). -/
def execRemoteAccessArrival (m : RMsg) (s : State) : Host.Outcome State Fault Refusal := run (do
  takeFlit fun f => decide (f.body = .mreq m)
  let s1 : State ← gs
  if m.dst ≠ s1.harbour.devid then pure ()
  else if m.via.isSome then modFabric fun f => { f with responses := f.responses ++ [(m.src, m.tag, .atHome)] }
  else if s1.releaseReady m && s1.afterReady m then performRemote m
  else modFabric fun f => { f with inbound := f.inbound ++ [m] }) s

/-- REMOTE_RELEASE_PERFORM: the held access `n`, once its count is reached and the stores before it have been applied. -/
def execRemoteReleasePerform (n : Nat) (s : State) : Host.Outcome State Fault Refusal := run (do
  let s1 : State ← gs
  match s1.fabric.inbound[n]? with
  | none => pure ()
  | some m =>
    if s1.releaseReady m && s1.afterReady m then
      modFabric fun f => { f with inbound := f.inbound.take n ++ f.inbound.drop (n + 1) }
      performRemote m) s

/-! What returns. -/

/-- Answers by ascending tag. -/
def putReply (tag : Nat) (r : RResp) : List (Nat × RResp) → List (Nat × RResp)
  | [] => [(tag, r)]
  | x :: t => if x.1 < tag then x :: putReply tag r t else (tag, r) :: x :: t

def respCause (r : RResp) : Option Nat := match r with | .fault c => some c | .lost => some 7 | .atHome => some 7 | _ => none

/-- A posted store has been acknowledged, or its failure kept for the next point that raises it (05 R149). -/
def Posted.answered (p : Posted) (tag : Nat) (r : RResp) : Option Posted :=
  if p.tag ≠ tag then some p else (respCause r).map fun c => { p with fail := some c }

/-- An answer as its requester takes it: an access of this device's own memory, or one that it forwards, which the owner of the token sends back is performed here (05 R152). -/
def settleResp (q : Request) (r : RResp) : M RResp := do
  match q.msg, r with
  | some m, .atHome => performAt (match q.who with | .forward x => x | _ => m) m.addr
  | _, _ => return r

/-- The bytes of an answer are counted where they arrive (03 R77). -/
def countAnswer (q : Request) (r : RResp) : M Unit := do
  match r with
  | .value _ => do
    let w := (← gs).traffic q.who
    match q.msg, q.host with
    | some m, _ => if m.via.isNone then countFor w 18 m.size
    | none, some h => countFor w 20 h.2.2
    | none, none => pure ()
  | _ => pure ()

/-- 09 R271: a strand's store or atomic at a peer is a write to the strands here that monitor its line. -/
def wakeRemote (q : Request) (r : RResp) : M Unit :=
  match q.msg with
  | some m =>
    if kindWrites m.kind && (respCause r).isNone then
      wakeMonitors (.remote m.dst (m.addr / 128)) (match q.who with | .strand k => some k | .posted k => some k | _ => none)
    else pure ()
  | none => pure ()

/-- The next step of a join record, a continuation's own target counted as the dispatcher counts it. -/
def joinAnswer (id : Nat) (r : RResp) : M Unit := do
  match (← gs).fabric.joins.find? fun j => decide (j.id = id) with
  | some j => joinStep j r fun q dw => joinIncrement j.ctx q dw (dwAt dw 3) (some j.va)
  | none => pure ()

/-- The answer to an outstanding access reaches who waits for it. -/
def respond (q : Request) (r0 : RResp) : M Unit := do
  let r ← settleResp q r0
  countAnswer q r
  modFabric fun f => { f with requests := f.requests.filter fun x => decide (x.tag ≠ q.tag) }
  wakeRemote q r
  match q.who with
  | .strand k => modStrand k fun st => { st with replies := putReply q.tag r st.replies }
  | .posted k => modStrand k fun st => { st with posted := st.posted.filterMap fun p => p.answered q.tag r }
  | .vlda k => modStrand k fun st => { st with vlda := match st.vlda with | [] => [] | g :: t => { g with replies := putReply q.tag r g.replies } :: t }
  | .ntf k => do
    modStrand k fun st => { st with ntf := st.ntf.drop 1 }
    match respCause r with
    | some c => logErr (srcOf k) 3 q.va (word c)
    | none => pure ()
  | .grain g kind w => grainAnswer g kind w q.tag q.msg r
  | .bind r' i b => modSlot r' i fun x => { x with binds := upd x.binds b fun y => { y with replies := putReply q.tag r y.replies } }
  | .chan ch id => modCmd ch id fun c => { c with replies := putReply q.tag r c.replies }
  | .coll vs => modStream vs fun v => { v with replies := putReply q.tag r v.replies }
  | .forward m => answerRemote m (match r with | .lost => .fault 7 | r => r)
  | .join id => joinAnswer id r

def State.request (s : State) (tag : Nat) : Option Request := s.fabric.requests.find? fun q => decide (q.tag = tag)

/-- REMOTE_RESPONSE_ARRIVAL. -/
def execRemoteResponseArrival (tag : Nat) (r : RResp) (s : State) : Host.Outcome State Fault Refusal := run (do
  takeFlit fun f => decide (f.body = .mrsp tag r)
  match (← gs).request tag with
  | some q => if q.msg.isSome then respond q r
  | none => pure ()) s

/-- FLIT_DELIVERY_TIMEOUT (15 R415): the access fails with POISON. -/
def execFlitDeliveryTimeout (tag : Nat) (s : State) : Host.Outcome State Fault Refusal := run (do
  match (← gs).request tag with
  | some q =>
    if q.msg.isSome then
      modFabric fun f => { f with outbox := (f.outbox.filter fun m => decide (m.tag ≠ tag)).map fun m => { m with after := m.after.filter (· ≠ tag) } }
      respond q .lost
  | none => pure ()) s

/-- HOST_READ_COMPLETION: the bytes read, or the zero-length ordering read. -/
def execHostReadCompletion (tag : Nat) (v : Word) (s : State) : Host.Outcome State Fault Refusal := run (do
  match (← gs).request tag with
  | some q =>
    match q.host with
    | some (_, _, n) => respond q (.value (word (v.toNat % 2 ^ (8 * n))))
    | none => pure ()
  | none => pure ()) s

/-! Tokens. -/

/-- The places that accesses under way hold (01 R41). -/
def State.heldPlaces (s : State) : List Place :=
  (s.strands.flatMap fun x => (x.2.vlda.flatMap fun g => g.elems.map fun e => e.2.2) ++ x.2.held.map (·.2) ++ x.2.ntf.map fun n => .at_ n.loc) ++
  (s.streams.flatMap fun v => v.2.held.map (·.2)) ++
  s.chans.flatMap fun c => c.2.q.flatMap fun x => (x.elems.flatMap fun e => e.dst :: e.src.toList) ++ x.held.map (·.2)

/-- An access of the region is in flight (05 R153). -/
def State.regionInFlight (s : State) (home region : Nat) : Bool :=
  let hit := fun (l : Loc) => match l with
    | .mem pa => decide (home = s.harbour.devid) && decide (pa / 2 ^ 21 = region)
    | .remote d da => decide (d = home) && decide (da / 2 ^ 21 = region)
    | _ => false
  (s.fabric.requests.any fun q => match q.msg with | some m => m.via.isNone && hit (.remote m.dst m.addr) | none => false) ||
  s.heldPlaces.any fun p => match p with | .at_ l => hit l | .pan _ => false

/-- The transfer is one that can take place: this device has asked for it, or gives the token up, or records as the home that it moves between others. -/
def State.tokenMoves (s : State) (t : TokenReq) : Bool :=
  s.fabric.moving.contains t ||
  (decide (t.toDev ≠ s.harbour.devid) && s.ownsToken t.home t.region) ||
  (decide (t.home = s.harbour.devid) && !s.ownsToken t.home t.region)

/-- TOKEN_TRANSFER_COMPLETE. -/
def execTokenTransferComplete (req : TokenReq) (s : State) : Host.Outcome State Fault Refusal := run (do
  let s1 : State ← gs
  let here := s1.harbour.devid
  if s1.tokenMoves req && !(s1.ownsToken req.home req.region && decide (req.toDev ≠ here) && s1.regionInFlight req.home req.region) then
    -- 05 R153: the slices give up the lines of the region
    if req.home = here ∧ req.toDev ≠ here then flushLines (req.region * 16384) 16384
    modFabric fun f =>
      let f := { f with moving := f.moving.filter fun t => decide (t ≠ req) }
      if req.home = here then
        { f with away := Tbl.put 0 req.region (if req.toDev = here then 0 else req.toDev + 1) f.away
                 back := if req.toDev = here then NSet.ins req.region f.back else NSet.del req.region f.back }
      else
        let rest := f.owned.filter fun x => decide (x ≠ (req.home, req.region))
        { f with owned := if req.toDev = here then rest ++ [(req.home, req.region)] else rest }) s

end Sys2Proof.Machine
end

