-- ==== Sys2Proof/Machine/Coll.lean ====
section
/-! DEFINITION. Collectives at this device: router entries (12 R367, R368), the port sets of an instance (12 R371, 15 R418), reducer steps (07 R204, 15 R419), and aborts (12 R372, R373, 15 R420). -/

namespace Sys2Proof.Machine

/-! Links (15 R406, R407). -/

/-- The logical coordinates of a device id. -/
def devA (d : Nat) : Nat := d % 4
def devB (d : Nat) : Nat := d / 4 % 4
def devC (d : Nat) : Nat := d / 16 % 128
def devD (d : Nat) : Nat := d / 2048 % 256
def devOf (a b c d : Nat) : Nat := a + 4 * b + 16 * c + 2048 * d

/-- A link is present at a device. -/
def linkPresent (dev n : Nat) : Bool :=
  match n with
  | 0 => decide (devA dev ≠ 0)
  | 1 => decide (devA dev ≠ 3)
  | 2 => decide (devB dev ≠ 0)
  | 3 => decide (devB dev ≠ 3)
  | _ => decide (n < 12)

/-- The device at the other end of a link. -/
def neighbour (dev n : Nat) : Nat :=
  let (a, b, c, d) := (devA dev, devB dev, devC dev, devD dev)
  match n with
  | 0 => devOf (a - 1) b c d
  | 1 => devOf (a + 1) b c d
  | 2 => devOf a (b - 1) c d
  | 3 => devOf a (b + 1) c d
  | 4 => devOf a b ((c + 127) % 128) d
  | 5 => devOf a b ((c + 127) % 128) d
  | 6 => devOf a b ((c + 1) % 128) d
  | 7 => devOf a b ((c + 1) % 128) d
  | 8 => devOf a b c ((d + 255) % 256)
  | 9 => devOf a b c ((d + 255) % 256)
  | _ => devOf a b c ((d + 1) % 256)

/-- A flit of a group waits to leave on a link (15 R418). -/
def sendGroup (n vc group seq : Nat) (body : FlitBody) : M Unit := do
  let d := (← gs).harbour.devid
  modLink n fun l => { l with waiting := l.waiting ++ [⟨none, 0, seq, group, d, neighbour d n, vc, false, body, (0, 0)⟩] }

/-! Router entries. -/

def linksIn (mask : Nat) : List Nat := (List.range 12).filter mask.testBit
def bitCount (mask : Nat) : Nat := ((List.range 13).filter mask.testBit).length

/-- 12 R367: the entry is malformed for a context, on a stream. -/
def State.entryBad (s : State) (ctx vs : Nat) (dw : List Word) : Bool :=
  let n := rtNset dw
  let set := fun j =>
    let x := dwAt dw (2 + j)
    let i := rtIn dw j
    let o := rtOut dw j
    decide (fld x 34 30 ≠ 0) || decide (fld x 29 3 ≠ 0) || decide (fld x 13 3 ≠ 0) || decide (rtAction dw j = 3) ||
    decide (i = 0) || decide (i &&& o ≠ 0) ||
    (linksIn (i ||| o)).any (fun l => !linkPresent s.harbour.devid l) ||
    (decide (rtAction dw j = 0) && decide (1 < bitCount i)) ||
    (decide (rtAction dw j = 1) && (decide (bitCount i < 2) || hasLocal o)) ||
    (decide (rtAction dw j = 2) && (decide (bitCount i ≠ 1) || hasLocal i || hasLocal o || !s.ownsRing ctx (rtRing dw)))
  decide (fld (dwAt dw 0) 47 17 ≠ 0) || decide (fld (dwAt dw 0) 19 13 ≠ 0) || decide (fld (dwAt dw 1) 32 32 ≠ 0) ||
  (List.range (14 - n)).any (fun i => decide (dwAt dw (2 + n + i) ≠ 0)) ||
  (List.range n).any set ||
  s.streams.any fun x => decide (x.1 ≠ vs) && !x.2.dw.isEmpty && decide (rtGroup x.2.dw = rtGroup dw)

/-- 12 R368: a COLL is pending, or flits of the current sequence have arrived. -/
def VStream.busy (v : VStream) : Bool :=
  v.pend.isSome || !v.waitq.isEmpty || !v.shares.isEmpty || decide (v.set ≠ 0) || decide (v.done ≠ 0) || v.slot.isSome

/-- ROUTESET (12 R367, R368): the statuses are tested in the order of their table. -/
def execRouteset (d a b : BitVec 5) (s : State) : Host.Outcome State Fault Refusal := run (do
  issueOn (.routeset d a b) [d, a, b]
  let k ← curKey
  let vs ← streamName (← rg a)
  let va ← rg b
  let dw ← if va = 0 then pure [] else descRead k va 128 64
  irrevocable (← myTask)
  let ctx := (← me).ctx
  let s1 : State ← gs
  let v := s1.stream vs
  if !dw.isEmpty && s1.entryBad ctx vs dw then retire d 1 4
  else if v.busy then retire d 2 4
  else if v.owner.isSome && decide (v.owner ≠ some ctx) then retire d 3 4
  else
    emit (.stream vs (if dw.isEmpty then { aborts := v.aborts } else { owner := some ctx, dw := dw, seq := fld (dwAt dw 1) 0 32, aborts := v.aborts }))
    retire d 0 4) s

/-! The end of an instance. -/

/-- Every link that the entry names. -/
def entryLinks (dw : List Word) : List Nat := linksIn ((rtSets dw).foldl (fun m j => m ||| rtIn dw j ||| rtOut dw j) 0)

/-- The shares after a flit of the current sequence: a CMARK closes the port's open share. -/
def takeBody (port : Nat) (body : FlitBody) (l : List Share) : List Share :=
  let put := fun (f : Share → Share) =>
    match findIdx? (fun (x : Share) => decide (x.port = port) && x.mark.isNone) l with
    | some i => upd l i f
    | none => l ++ [f ⟨port, [], none⟩]
  match body with
  | .cdata es => put fun x => { x with elems := x.elems ++ es }
  | .cmark j => put fun x => { x with mark := some j }
  | _ => l

/-- The stream as the next sequence starts: set 0, with the flits held for it (15 R418). -/
def VStream.nextSeq (v : VStream) : VStream :=
  { v with
    seq := (v.seq + 1) % 2 ^ 32, set := 0, pend := none, done := 0, slot := none, replies := [], held := [], ahead := []
    shares := v.ahead.foldl (fun l x => takeBody x.1 x.2 l) [] }

/-- Collectives that waited behind the one that has ended are accepted in turn. -/
def acceptWaiting : Nat → Nat → M Unit
  | 0, _ => pure ()
  | n + 1, vs => do
    let v := (← gs).stream vs
    match v.pend, v.waitq with
    | none, c :: t => do
      modStream vs fun v => { v with waitq := t }
      acceptColl (4 * ((← gs).armedCount + 2)) c
      acceptWaiting n vs
    | _, _ => pure ()

/-- A pending collective that has ended is published, once it can be. -/
def publishEnded (vs : Nat) (c : Coll) (status count : Nat) : M Unit := do
  if ← collHeld c then modStream vs fun v => { v with pend := some { c with failed := some (status, count) } }
  else
    modStream vs fun v => { v with pend := none }
    finishColl (4 * ((← gs).armedCount + 2)) c status count

/-- The instance ends at this device: its completion, then the next sequence (12 R371, R372). Its steps still queued are dropped, and a slot reserved for a delivery is filled with the status. -/
def closeInstance (vs status count : Nat) : M Unit := do
  let v := (← gs).stream vs
  match v.slot with
  | some sl => fillSlot (rtRing v.dw) sl status
  | none => pure ()
  modFabric fun f => { f with requests := f.requests.filter fun q => decide (q.who ≠ .coll vs) }
  each ((← gs).dies.map (·.1)) fun d => modDie d fun x => { x with reducer := x.reducer.filter fun r => decide (r.vs ≠ vs) }
  modStream vs VStream.nextSeq
  match v.pend with
  | some c => (match c.failed with | some e => publishEnded vs c e.1 e.2 | none => publishEnded vs c status count)
  | none => pure ()
  acceptWaiting (((← gs).stream vs).waitq.length + 1) vs

/-- 15 R420: Abort(group, s, from), once at this device. -/
def abortOnce (vs seq : Nat) (from_ : Option Nat) : M Unit := do
  let s : State ← gs
  let v := s.stream vs
  let group := rtGroup v.dw
  let ack : M Unit := match from_ with | some l => sendGroup l 3 group seq .abtack | none => pure ()
  if v.seq ≠ seq then
    if seqLater seq v.seq then modStream vs fun v => { v with remembered := some seq }
    ack
  else
    let outs := (entryLinks v.dw).filter fun l => decide (some l ≠ from_) && (s.link l).up
    closeInstance vs stABORTED v.set
    each outs fun l => sendGroup l 3 group seq .abt
    if outs.isEmpty then ack else modStream vs fun v => { v with aborts := v.aborts ++ [⟨group, seq, from_, outs⟩] }

/-- An abort remembered for the sequence that the stream has reached is applied (15 R420). -/
def applyRemembered (vs : Nat) : M Unit := do
  let v := (← gs).stream vs
  if v.remembered = some v.seq then
    modStream vs fun v => { v with remembered := none }
    abortOnce vs v.seq none

def abortStream (vs seq : Nat) (from_ : Option Nat) : M Unit := do
  abortOnce vs seq from_
  applyRemembered vs

/-- An instance ends by itself. -/
def endInstance (vs status count : Nat) : M Unit := do
  closeInstance vs status count
  applyRemembered vs

/-! The port sets. -/

def Coll.es (c : Coll) : Nat := clEs c.dw
def Coll.n (c : Coll) : Nat := clNelem c.dw

/-- Elements of a CDATA flit (15 R408: 224 bytes of payload). -/
def Coll.perFlit (c : Coll) : Nat := 224 / c.es

/-- The share of a port in the current set. -/
def VStream.share (v : VStream) (p : Nat) : Share := (v.shares.find? fun x => decide (x.port = p)).getD ⟨p, [], none⟩

/-- Elements of a port of the current set that are there; LOCAL has all of them. -/
def VStream.avail (v : VStream) (c : Coll) (p : Nat) : Nat := if p = 12 then c.n else (v.share p).elems.length / c.es

/-- Element `i` of a link's share. -/
def VStream.elem (v : VStream) (c : Coll) (p i : Nat) : Nat :=
  (List.range c.es).foldl (fun a j => a + (nth 0 (v.share p).elems (i * c.es + j)).toNat * 256 ^ j) 0

/-- The ports of a mask in ascending order, LOCAL last. -/
def portsIn (mask : Nat) : List Nat := (List.range 13).filter mask.testBit

/-- A share of the current set is malformed (15 R418): too many elements, or a CMARK that comes early or names another set. -/
def VStream.shareBad (v : VStream) (c : Coll) : Bool :=
  (linksIn (rtIn v.dw v.set)).any fun p =>
    let x := v.share p
    decide (c.n * c.es < x.elems.length) ||
    (match x.mark with | some j => decide (j ≠ v.set) || decide (x.elems.length ≠ c.n * c.es) | none => false)

/-- Drop the first share of each input of the set that has closed. -/
def dropShares (ports : List Nat) (l : List Share) : List Share :=
  ports.foldl (fun l p => match findIdx? (fun (x : Share) => decide (x.port = p)) l with | some i => l.take i ++ l.drop (i + 1) | none => l) l

/-- The set has passed through its action: its output is closed with CMARK, and the router steps on; after the last set the instance is DONE. -/
def setDone (vs : Nat) : M Unit := do
  let v := (← gs).stream vs
  each (linksIn (rtOut v.dw v.set)) fun l => sendGroup l 2 (rtGroup v.dw) v.seq (.cmark v.set)
  if rtAction v.dw v.set = 2 then
    match v.slot with
    | some sl => fillSlot (rtRing v.dw) sl 0
    | none => pure ()
  modStream vs fun v => { v with set := v.set + 1, done := 0, slot := none, shares := dropShares (linksIn (rtIn v.dw v.set)) v.shares }
  if v.set + 1 = rtNset v.dw then endInstance vs 0 (v.set + 1)

/-- Send elements on the links of the set's output. -/
def sendElems (v : VStream) (es : Nat) (xs : List Nat) : M Unit :=
  each (linksIn (rtOut v.dw v.set)) fun l => sendGroup l 2 (rtGroup v.dw) v.seq (.cdata (xs.flatMap fun x => bytesOf x es))

/-- Addresses of the local contribution and of the destination (12 R371). -/
def Coll.src (c : Coll) (set i : Nat) : Word := dwAt c.dw 3 + word ((set * c.n + i) * c.es)
def Coll.dst (c : Coll) (set i : Nat) : Word := dwAt c.dw 4 + word ((set * c.n + i) * clEd c.dw)

/-- Whose traffic an instance is, and the die of its COLL. -/
def Coll.traffic (c : Coll) : Option Nat × Nat := (if isMgmt c.key then none else some (dieOf c.key), c.ctx)
def Coll.die (c : Coll) : Nat := dieOf c.key

/-- The places of destination elements, all probed before the first write; they need a cached line (12 R370). -/
def dstPlaces (c : Coll) (set : Nat) (a : Acc) : List Nat → M (Except Nat (List Place))
  | [] => return .ok []
  | i :: is => do
    match ← enginePlace c.who c.task [] none (c.dst set i) (clEd c.dw) { a with cached := true } with
    | .error e => return .error e
    | .ok p =>
      match ← dstPlaces c set a is with
      | .error e => return .error e
      | .ok l => return .ok (p :: l)

/-- Write elements; poison that a narrow write would merge ends the instance. -/
def writeDst (c : Coll) (n : Nat) (ps : List Place) (xs : List Nat) : M (Option Nat) := do
  if (← gs).mergesPoison c.task n ps then return some stPOISON
  each (ps.zip xs) fun x => engineWrite c.traffic c.die c.task n x.1 x.2
  return none

/-- FORWARD from a link: elements that have arrived go on, and to the destination where LOCAL is an output. -/
def forwardSome (vs : Nat) (c : Coll) : M Bool := do
  let v := (← gs).stream vs
  let p := (linksIn (rtIn v.dw v.set)).headD 0
  let n := min c.perFlit (v.avail c p - v.done)
  if n = 0 then
    if v.done = c.n && (v.share p).mark.isSome then
      setDone vs
      return true
    return false
  let xs := (List.range n).map fun i => v.elem c p (v.done + i)
  let bad ← if hasLocal (rtOut v.dw v.set) then do
      match ← dstPlaces c v.set accStore ((List.range n).map (v.done + ·)) with
      | .error e => pure (some e)
      | .ok ps => writeDst c (clEd c.dw) ps xs
    else pure none
  match bad with
  | some e => do
    endInstance vs e v.set
    return true
  | none => do
    sendElems v c.es xs
    modStream vs fun v => { v with done := v.done + n }
    return true

/-- The place of a byte range of the reserved slot of a delivery. -/
def slotPlace (vs : Nat) (c : Coll) (off n : Nat) : M (Except Nat Place) := do
  let s : State ← gs
  let v := s.stream vs
  let r := s.ring (rtRing v.dw)
  let va := r.addr (v.slot.getD 0) + word off
  if r.space then
    match selPan (panOf c.key) r.psel with
    | some p => if fld va 23 41 ≠ 0 then return .error stRANGE else enginePlace c.who none [] (some p) va n accStore
    | none => return .error stRANGE
  else enginePlace c.who c.task [] none va n accStore

/-- DELIVER: reserve a slot, fill it with the elements that have arrived, one at a time, and pass them on. A write to a peer is waited for. -/
def deliverSome (vs : Nat) (c : Coll) : M Bool := do
  let s : State ← gs
  let v := s.stream vs
  let p := (linksIn (rtIn v.dw v.set)).headD 0
  if s.fabric.requests.any fun q => decide (q.who = .coll vs) then return false
  match v.slot with
  | none => do
    match ← reserveSlot (rtRing v.dw) with
    | some sl => do
      modStream vs fun v => { v with slot := some sl }
      return true
    | none => return false
  | some _ => do
    let step := do
      sendElems v c.es [v.elem c p v.done]
      modStream vs fun v => { v with done := v.done + 1, replies := [] }
    match v.replies with
    | (_, r) :: _ => do
      match respCause r with
      | some e => endInstance vs e v.set
      | none => step
      return true
    | [] =>
      if v.avail c p ≤ v.done then
        if v.done = c.n && (v.share p).mark.isSome then
          setDone vs
          return true
        return false
      match ← slotPlace vs c (v.done * c.es) c.es with
      | .error e => do
        endInstance vs e v.set
        return true
      | .ok (.at_ (.remote dev da)) => do
        sendRemote (.coll vs) ((s.ring (rtRing v.dw)).addr (v.slot.getD 0) + word (v.done * c.es)) dev da c.es .store (word (v.elem c p v.done)) 0 false none
        return false
      | .ok q => do
        match ← writeDst c c.es [q] [v.elem c p v.done] with
        | some e => endInstance vs e v.set
        | none => step
        return true

/-- The die whose queue takes a step: that of the destination (15 R419), or the COLL's own where nothing is stored here. -/
def stepDie (vs : Nat) (c : Coll) : M (Except Nat Nat) := do
  let v := (← gs).stream vs
  if rtAction v.dw v.set = 0 then return .ok (dieOf c.key)
  let va := c.dst v.set v.done
  match ← probe c.who va { accRmw with cached := true } with
  | .error e => return .error e
  | .ok t => return match (← gs).locOf t va.toNat with | .mem pa => .ok (pa / 2 ^ 36 % 8) | _ => .ok c.die

/-- REDUCE, or FORWARD from LOCAL: the elements that every input has supplied enter a queue of 256 entries as a step. -/
def queueSome (vs : Nat) (c : Coll) : M Bool := do
  let v := (← gs).stream vs
  let ins := portsIn (rtIn v.dw v.set)
  let n := ins.foldl (fun m p => min m (v.avail c p - v.done)) c.perFlit
  if n = 0 then
    if v.done = c.n && (ins.all fun p => decide (p = 12) || (v.share p).mark.isSome) && !((← gs).dies.any fun d => d.2.reducer.any fun r => decide (r.vs = vs)) then
      setDone vs
      return true
    return false
  match ← stepDie vs c with
  | .error e => do
    endInstance vs e v.set
    return true
  | .ok d => do
    if 256 ≤ ((← gs).die d).reducer.length then return false
    modDie d fun x => { x with reducer := x.reducer ++ [⟨vs, v.seq, v.set, v.done, n⟩] }
    modStream vs fun v => { v with done := v.done + n }
    return true

/-- A pending collective may act: it has reserved the slot of the ring that it completes at (03 R95), and no posted store has to be waited for (05 R129). One that has ended waits for its publication alone. -/
def collTurn (vs : Nat) (c : Coll) : M Bool := do
  match c.failed with
  | some _ => return false
  | none =>
    if (← gs).publishWaits c.id (clScope c.dw) then return false
    if clCkind c.dw = 3 ∧ c.slot = none then
      match ← objectFails c.who c.die 3 (dwAt c.dw 2) with
      | some _ => return true
      | none =>
        match ← reserveSlot (c.die * 4096 + fld (dwAt c.dw 2) 0 12) with
        | some sl => do
          modStream vs fun v => { v with pend := v.pend.map fun x => { x with slot := some sl } }
          return true
        | none => return false
    return true

/-- The publication of a collective that has ended and has waited for a slot or for posted stores. -/
def retryEnded (vs : Nat) : M Unit := do
  match ((← gs).stream vs).pend with
  | none => pure ()
  | some c =>
    match c.failed with
    | none => pure ()
    | some e => do
      let need := decide (clCkind c.dw = 3) && c.slot.isNone && !(← gs).publishWaits c.id (clScope c.dw)
      let sl ← if need && (← objectFails c.who c.die 3 (dwAt c.dw 2)).isNone then reserveSlot (c.die * 4096 + fld (dwAt c.dw 2) 0 12) else pure none
      publishEnded vs (match sl with | some _ => { c with slot := sl } | none => c) e.1 e.2
      acceptWaiting (((← gs).stream vs).waitq.length + 1) vs

/-- What the current set can do without a reducer step, until nothing is left to do. -/
def progress : Nat → Nat → M Unit
  | 0, _ => pure ()
  | n + 1, vs => do
    let v := (← gs).stream vs
    match v.pend with
    | none => pure ()
    | some c => do
      if !(← collTurn vs c) then pure ()
      else if v.shareBad c then abortStream vs v.seq none
      else
        let went ← match rtAction v.dw v.set with
          | 1 => queueSome vs c
          | 2 => deliverSome vs c
          | _ => if hasLocal (rtIn v.dw v.set) then queueSome vs c else forwardSome vs c
        if went then progress n vs

/-- A bound on what one flit can set off, in elements and sets. -/
def VStream.work (v : VStream) : Nat := v.shares.foldl (fun a x => a + 2 * x.elems.length + 4) (64 + match v.pend with | some c => c.n | none => 0)

def progressAll (vs : Nat) : M Unit := do
  retryEnded vs
  progress ((← gs).stream vs).work vs

/-! Reducer steps. -/

/-- OP of two values (12 R371, 07 R204): sums round to nearest even, or wrap. -/
def redOp (dt op v x : Nat) : Nat :=
  if dt < 8 then
    match op with
    | 0 => (v + x) % 2 ^ tyW dt
    | 1 => lowBits (tyW dt) (min (intOf true (tyW dt) v) (intOf true (tyW dt) x))
    | _ => lowBits (tyW dt) (max (intOf true (tyW dt) v) (intOf true (tyW dt) x))
  else
    let kf := decide (dt = 0xC ∨ dt = 0xD)
    let f := if kf then fp32 else fmtOf dt
    let x := if kf then (convert dt 9 false 0 x).1 else x
    match op with
    | 0 => (f.arith 0 0 v x).1
    | 1 => (f.minmax false v x).1
    | _ => (f.minmax true v x).1

/-- The local contribution's elements; answers of peers and hosts are used in order. -/
def localElems (vs : Nat) (c : Coll) (set : Nat) : List Nat → List RResp → M (Except Nat (List Nat))
  | [], _ => return .ok []
  | i :: is, rs => do
    let va := c.src set i
    match ← enginePlace c.who c.task ((← gs).stream vs).held none va c.es accLoad with
    | .error e => return .error e
    | .ok p => do
      let x : Except Nat Nat × List RResp ←
        if p.isFar then
          match rs with
          | [] => do
            modStream vs fun v => { v with held := v.held ++ [(va, p)] }
            sendLoad (.coll vs) va c.es p
            finish
          | .value v :: t => pure (.ok (v.toNat % 2 ^ (8 * c.es)), t)
          | .fault e :: t => pure (.error e, t)
          | _ :: t => pure (.error stPOISON, t)
        else do
          let v ← readPlace c.task c.es p
          pure (if v.2 then .error stPOISON else .ok v.1, rs)
      match x.1 with
      | .error e => return .error e
      | .ok v =>
        match ← localElems vs c set is x.2 with
        | .error e => return .error e
        | .ok l => return .ok (v :: l)

/-- The destination words of a reduction: each is read once, takes the contributions in mask order, and is written once. -/
def reduceWords (v : VStream) (c : Coll) (r : RStep) (loc : List Nat) : M (Except Nat (List Nat)) := do
  match ← dstPlaces c r.set accRmw ((List.range r.n).map (r.first + ·)) with
  | .error e => return .error e
  | .ok ps => do
    let old ← collect ps (readPlace c.task (clEd c.dw))
    if old.any (·.2) then return .error stPOISON
    let xs := (List.range r.n).map fun i =>
      (portsIn (rtIn v.dw r.set)).foldl
        (fun a p => redOp (clDtype c.dw) (clOp c.dw) a (if p = 12 then nth 0 loc i else v.elem c p (r.first + i))) (nth (0, false) old i).1
    match ← writeDst c (clEd c.dw) ps xs with
    | some e => return .error e
    | none => return .ok xs

/-- REDUCER_STEP: the head of a die's queue, after the streams of the die's COLLs have queued what they can. -/
def execReducerStep (die : Nat) (s : State) : Host.Outcome State Fault Refusal := run (do
  each ((← gs).streams.map (·.1)) fun vs => do
    match ((← gs).stream vs).pend with
    | some c => if dieOf c.key % 8 = die then progressAll vs
    | none => pure ()
  let s1 : State ← gs
  match (s1.die die).reducer with
  | [] => pure ()
  | r :: _ => do
    let v := s1.stream r.vs
    match v.pend with
    | none => pure ()
    | some c =>
      if s1.fabric.requests.any fun q => decide (q.who = .coll r.vs) then pure ()
      else
        let got ← if hasLocal (rtIn v.dw r.set) then localElems r.vs c r.set ((List.range r.n).map (r.first + ·)) (v.replies.map (·.2)) else pure (.ok [])
        let res : Except Nat (List Nat) ← match got with
          | .error e => pure (.error e)
          | .ok loc => if rtAction v.dw r.set = 1 then reduceWords v c r loc else pure (.ok loc)
        match res with
        | .error e => endInstance r.vs e v.set
        | .ok xs => do
          sendElems v (if rtAction v.dw r.set = 1 then clEd c.dw else c.es) xs
          modDie die fun x => { x with reducer := x.reducer.drop 1 }
          modStream r.vs fun v => { v with replies := [], held := [] }
          progressAll r.vs) s

/-! Flits of a group. -/

/-- The stream that a group is bound to. -/
def State.streamOfGroup (s : State) (group : Nat) : Option Nat :=
  (s.streams.find? fun x => !x.2.dw.isEmpty && decide (rtGroup x.2.dw = group)).map (·.1)

def logLink (n : Nat) (info : Word) : M Unit := logErr 0xF000 5 (word n) info

/-- The place of the first collective flit that a link has accepted: it delivers them in order (15 R418). -/
def Link.nextColl (l : Link) : Option Nat :=
  findIdx? (fun (f : Flit) => match f.body with | .cdata _ => true | .cmark _ => true | _ => false) l.arrived

/-- COLL_FLIT_RECEIVE (15 R418): the first collective flit that the link has accepted, or one from outside the model's links. A flit of the next sequence that finds 64 KiB held stays in its link's buffer, with those behind it. -/
def execCollFlitReceive (link group gseq : Nat) (body : FlitBody) (s : State) : Host.Outcome State Fault Refusal := run (do
  let l := (← gs).link link
  let got ← match l.nextColl with
    | none => pure (pure ())
    | some i =>
      match l.arrived[i]? with
      | some f => if f.group = group ∧ f.seq = gseq ∧ f.body = body then pure (modLink link fun l => { l with arrived := l.arrived.take i ++ l.arrived.drop (i + 1) }) else finish
      | none => finish
  match (← gs).streamOfGroup group with
  | none => do
    got
    logLink link (word group)
  | some vs => do
    let v := (← gs).stream vs
    if gseq = v.seq then
      got
      if (rtSets v.dw).any fun j => (rtIn v.dw j).testBit link then
        modStream vs fun v => { v with shares := takeBody link body v.shares }
        progressAll vs
      else abortStream vs v.seq none
    else if gseq = (v.seq + 1) % 2 ^ 32 then
      if v.ahead.length < 256 then
        got
        modStream vs fun v => { v with ahead := v.ahead ++ [(link, body)] }
    else
      got
      if seqLater gseq v.seq then logLink link (word group)) s

/-- ABT_RECEIVE (15 R420). -/
def execAbtReceive (link group seq : Nat) (s : State) : Host.Outcome State Fault Refusal := run (do
  takeFlit fun f => decide (f.group = group) && decide (f.seq = seq) && decide (f.body = .abt)
  match (← gs).streamOfGroup group with
  | some vs => abortStream vs seq (some link)
  | none => logLink link (word group)) s

/-- A link no longer owes an ABTACK; once none does, the device acknowledges upstream (15 R420). -/
def ackedBy (link : Nat) (hit : AbortRec → Bool) (vs : Nat) : M Unit := do
  let old := ((← gs).stream vs).aborts
  let new := old.map fun a => if hit a then { a with links := a.links.filter (· != link) } else a
  modStream vs fun v => { v with aborts := new.filter fun a => !a.links.isEmpty }
  each (new.filter fun a => a.links.isEmpty) fun a =>
    match a.from_ with
    | some l => sendGroup l 3 a.group a.seq .abtack
    | none => pure ()

/-- ABTACK_RECEIVE. -/
def execAbtackReceive (link group seq : Nat) (s : State) : Host.Outcome State Fault Refusal := run (do
  takeFlit fun f => decide (f.group = group) && decide (f.seq = seq) && decide (f.body = .abtack)
  each ((← gs).streams.map (·.1)) (ackedBy link fun a => decide (a.group = group) && decide (a.seq = seq))) s

/-- COLL_TIMEOUT (15 R420): an instance under way has made no progress for COLLTMO microseconds. -/
def execCollTimeout (vs : Nat) (s : State) : Host.Outcome State Fault Refusal := run (do
  let v := (← gs).stream vs
  if !v.dw.isEmpty && v.busy && decide (fld (← gs).harbour.colltmo 0 32 ≠ 0) then abortStream vs v.seq none) s

/-- COLLAB (12 R373). -/
def execCollab (d a b : BitVec 5) (s : State) : Host.Outcome State Fault Refusal := run (do
  issueOn (.collab d a b) [d, a, b]
  let g ← rg a
  let q ← rg b
  let vs ← streamName g
  let v := (← gs).stream vs
  if v.owner ≠ some (← me).ctx then trap 0xB g
  if fld q 32 32 ≠ 0 then trap 0xB q
  irrevocable (← myTask)
  if v.seq = fld q 0 32 then
    abortStream vs v.seq none
    retire d 1 4
  else retire d 0 4) s

end Sys2Proof.Machine
end

