-- ==== Sys2Proof/Machine/Links.lean ====
section
/-! DEFINITION. Fabric links: routing (15 R415), transmission and key switch-over (15 R409, R410, R412), reception and retraining (15 R411, R413), and the takeover by a spare (15 R417). What a neighbour does with a flit that has left is not part of this device. -/

namespace Sys2Proof.Machine

/-! Routing (15 R415). -/

def meshDist (x y : Nat) : Nat := (x - y) + (y - x)
def ringDist (n x y : Nat) : Nat := min ((x + n - y) % n) ((y + n - x) % n)

/-- The distance between two devices. -/
def devDist (d e : Nat) : Nat :=
  meshDist (devA d) (devA e) + meshDist (devB d) (devB e) + ringDist 128 (devC d) (devC e) + ringDist 256 (devD d) (devD e)

def State.linkUp (s : State) (n : Nat) : Bool := linkPresent s.harbour.devid n && (s.link n).up

/-- The dimension of a link: 0 to 3 for a to d. -/
def linkDim (n : Nat) : Nat := if n < 4 then n / 2 else n / 4 + 1

/-- The links that reduce the distance to a device, up or not, and the mask of their dimensions. -/
def State.nearLinks (s : State) (dst : Nat) : List Nat :=
  (List.range 12).filter fun n => linkPresent s.harbour.devid n && decide (devDist (neighbour s.harbour.devid n) dst < devDist s.harbour.devid dst)
def State.nearDims (s : State) (dst : Nat) : Nat := (s.nearLinks dst).foldl (fun m n => m ||| 2 ^ linkDim n) 0

/-- The links on which a flit to a device may leave: the up links that reduce its distance, on a detour those of the blocked dimension; where there is none, a detour step in a or b, at most twice. -/
def State.routes (s : State) (dst : Nat) (detour : Nat × Nat) : List Nat :=
  let near := (s.nearLinks dst).filter fun n => s.linkUp n && (decide (detour.2 = 0) || detour.2.testBit (linkDim n))
  if !near.isEmpty then near
  else if 2 ≤ detour.1 then []
  else [0, 1, 2, 3].filter fun n => s.linkUp n && !(s.nearLinks dst).contains n && (!(s.nearDims dst).testBit (linkDim n) || decide (s.nearDims dst % 4 = 3))

/-- The detours of a flit that leaves on link `n`. -/
def State.onward (s : State) (dst : Nat) (detour : Nat × Nat) (n : Nat) : Nat × Nat :=
  if (s.nearLinks dst).contains n then (detour.1, 0) else (detour.1 + 1, s.nearDims dst)

/-- The detours of a flit that has not left on the link that it waited for. -/
def stayed (detour : Nat × Nat) : Nat × Nat := if detour.2 = 0 then detour else (detour.1 - 1, 0)

/-! Transmission. -/

/-- The first waiting flit of each channel. -/
def firstPerChannel (l : List Flit) : List Nat :=
  (List.range 8).filterMap fun vc => findIdx? (fun (f : Flit) => decide (f.vc = vc)) l

/-- Where the next new flit of a link comes from. -/
inductive TxSrc where
  | waiting (i : Nat)
  | response (i : Nat)
  | access (i : Nat)
  deriving DecidableEq, Repr

def State.txSources (s : State) (n : Nat) : List TxSrc :=
  (firstPerChannel (s.link n).waiting).map .waiting ++
  ((findIdx? (fun (x : Nat × Nat × RResp) => (s.routes x.1 (0, 0)).contains n) s.fabric.responses).map TxSrc.response).toList ++
  ((findIdx? (fun (m : RMsg) => (s.routes m.dst (0, 0)).contains n) s.fabric.outbox).map TxSrc.access).toList

def dropAt {α : Type} (l : List α) (i : Nat) : List α := l.take i ++ l.drop (i + 1)

/-- Take a flit from its source; an idle flit where there is none. Which channel goes first is open (log 4). -/
def takeNext (n : Nat) : M Flit := do
  let s : State ← gs
  let d := s.harbour.devid
  let idle : Flit := ⟨none, 0, 0, 0, d, neighbour d n, 0, false, .idle, (0, 0)⟩
  let srcs := s.txSources n
  if srcs.isEmpty then return idle
  let pick ← freshNat
  match srcs[pick % srcs.length]? with
  | some (.waiting i) => do
    modLink n fun l => { l with waiting := dropAt l.waiting i }
    return ((s.link n).waiting[i]?).getD idle
  | some (.response i) => do
    modFabric fun f => { f with responses := dropAt f.responses i }
    match s.fabric.responses[i]? with
    | some (dst, tag, r) => return ⟨none, 0, 0, 0, d, dst, 1, false, .mrsp tag r, s.onward dst (0, 0) n⟩
    | none => return idle
  | some (.access i) => do
    modFabric fun f => { f with outbox := dropAt f.outbox i }
    match s.fabric.outbox[i]? with
    | some m => return ⟨none, 0, 0, 0, d, m.dst, 0, false, .mreq m, s.onward m.dst (0, 0) n⟩
    | none => return idle
  | none => return idle

/-- A new flit is numbered, sealed under the current slot, kept for replay and sent, with the acknowledgement that is due (15 R409, R410). -/
def Link.seal (l : Link) (f : Flit) : Link :=
  { l with
    replay := l.replay ++ [{ f with ack := l.ackDue, lseq := l.txLseq, ks := l.txSlot }]
    txLseq := (l.txLseq + 1) % 4096
    txCtr := l.txCtr + 1
    ackDue := none }

/-- The KEYSW at the limit, and the other slot from counter 0 (15 R412). -/
def Link.switchKeys (l : Link) (f : Flit) : Link :=
  { l.seal { f with body := .keysw (!l.txSlot) } with txSlot := !l.txSlot, txCtr := 0, slotRdy := false, stalled := false }

/-- FLIT_TRANSMIT: a stored flit again, else KEYSW at KEYLIM, else the next new flit. -/
def execFlitTransmit (link : Nat) (s : State) : Host.Outcome State Fault Refusal := run (do
  let l := (← gs).link link
  let d := (← gs).harbour.devid
  if !l.up || l.retraining then pure ()
  else if 0 < l.resend then modLink link fun l => { l with resend := l.resend - 1, replayed := l.replayed + 1 }
  else if 512 ≤ l.replay.length then pure ()
  else if l.keylim ≤ l.txCtr then
    if l.slotRdy then modLink link fun l => l.switchKeys ⟨none, 0, 0, 0, d, neighbour d link, 3, false, .idle, (0, 0)⟩
    else if !l.stalled then
      modLink link fun l => { l with stalled := true }
      logErr 0xF000 5 (word link) (word l.txCtr)
  else
    let f ← takeNext link
    modLink link fun l => l.seal f) s

/-! Reception (15 R411). -/

/-- Unacknowledged flits up to a sequence number, counted from the oldest. -/
def ackIndex (l : Link) (n : Nat) : Option Nat := findIdx? (fun (f : Flit) => decide (f.lseq = n)) l.replay

/-- An acknowledgement is cumulative; a NAK of a stored flit sends it and those after it again, and acknowledges those before it. -/
def Link.acked (l : Link) (a : Option (Bool × Nat)) : Link :=
  match a with
  | none => l
  | some (false, n) =>
    match ackIndex l n with
    | some i => { l with replay := l.replay.drop (i + 1), resend := min l.resend (l.replay.length - (i + 1)) }
    | none => l
  | some (true, n) =>
    let l := { l with nak := l.nak + 1 }
    match ackIndex l n with
    | some i => { l with replay := l.replay.drop i, resend := l.replay.length - i }
    | none => l

/-- A discarded flit that failed: NAK, and retraining at the third failure (15 R411, R413). -/
def Link.failed (l : Link) : Link :=
  { l with fails := l.fails + 1, ackDue := some (true, l.rxExp), retraining := l.retraining || decide (3 ≤ l.fails + 1) }

/-- An accepted flit. -/
def Link.accepted (l : Link) (f : Flit) : Link :=
  let l := { l with fails := 0, rxExp := (l.rxExp + 1) % 4096, rxCtr := l.rxCtr + 1, ackDue := some (false, f.lseq) }
  let l := l.acked f.ack
  match f.body with
  | .keysw slot => { l with rxSlot := slot, rxCtr := 0 }
  | _ => l

/-- A flit of a remote access that is on its way to another device goes on; one without a way is lost (15 R415). -/
def forwardFlit (f : Flit) : M Unit := do
  let s : State ← gs
  let rs := s.routes f.dst f.detour
  if rs.isEmpty then pure ()
  else
    let pick ← freshNat
    match rs[pick % rs.length]? with
    | some n => modLink n fun l => { l with waiting := l.waiting ++ [{ f with ack := none, detour := s.onward f.dst f.detour n }] }
    | none => pure ()

/-- FLIT_RECEIVE: `opens` says whether the flit opens under the expected slot's key and counter. -/
def execFlitReceive (link : Nat) (f : Flit) (opens : Bool) (s : State) : Host.Outcome State Fault Refusal := run (do
  let l := (← gs).link link
  if !l.up || l.retraining || decide (f.lseq ≠ l.rxExp) then pure ()
  else if f.ks ≠ l.rxSlot || !opens then modLink link Link.failed
  else
    modLink link fun l => l.accepted f
    let mine := decide (f.dst = (← gs).harbour.devid)
    let keep := modLink link fun l => { l with arrived := l.arrived ++ [f] }
    match f.body with
    | .idle => pure ()
    | .keysw _ => pure ()
    | .reserved => logLink link (word f.lseq)
    | .mreq _ => if mine then keep else forwardFlit f
    | .mrsp _ _ => if mine then keep else forwardFlit f
    | _ => keep) s

/-! Retraining (15 R413). -/

/-- A stored flit sealed again under slot 0; a stored KEYSW becomes an idle flit. -/
def Flit.reseal (f : Flit) : Flit := { f with ks := false, body := match f.body with | .keysw _ => .idle | b => b }

/-- Fresh keys in both slots of both directions, slot 0 current; every stored flit is sealed and sent again. -/
def Link.retrained (l : Link) : Link :=
  { l with
    up := true, retraining := false, fails := 0, badRetrains := 0, retrains := l.retrains + 1
    txSlot := false, rxSlot := false, rxCtr := 0, txCtr := l.replay.length, slotRdy := true, stalled := false
    replay := l.replay.map Flit.reseal, resend := l.replay.length }

/-- A link is marked down: what waits on it takes other ways, its groups are aborted, and it owes no ABTACK (15 R413, R415, R420). -/
def linkDown (n : Nat) : M Unit := do
  let w := ((← gs).link n).waiting
  modLink n fun l => { l with up := false, retraining := false, badRetrains := 0, waiting := [] }
  each w fun f => match f.body with
    | .mreq _ => forwardFlit { f with detour := stayed f.detour }
    | .mrsp _ _ => forwardFlit { f with detour := stayed f.detour }
    | _ => pure ()
  each ((← gs).streams.map (·.1)) fun vs => do
    let v := (← gs).stream vs
    if !v.dw.isEmpty && (entryLinks v.dw).contains n then abortStream vs v.seq none
    ackedBy n (fun _ => true) vs

/-- RETRAIN_COMPLETE: three failed retrains in a row mark the link down. The neighbour's failures have both ends retrain, so a link that is up may have begun. -/
def execRetrainComplete (link : Nat) (ok : Bool) (s : State) : Host.Outcome State Fault Refusal := run (do
  let l := (← gs).link link
  if !l.retraining && !l.up then pure ()
  else if ok then modLink link Link.retrained
  else
    modLink link fun l => { l with retraining := true, retrains := l.retrains + 1, badRetrains := l.badRetrains + 1 }
    if l.badRetrains + 1 = 3 then linkDown link) s

/-- LKKEY_WRITE: only firmware's write has an effect (15 R414). -/
def execLkkeyWrite (link : Nat) (v : Word) (fw : Bool) (s : State) : Host.Outcome State Fault Refusal :=
  run (if fw && decide (link < 12) then lkkeyWrite link v else pure ()) s

/-- A link trained from the start, with fresh keys in both slots (15 R409, R413). -/
def Link.fresh (l : Link) : Link :=
  { keylim := l.keylim, nak := l.nak, replayed := l.replayed, retrains := l.retrains, up := true, slotRdy := true, waiting := l.waiting }

/-- SPARE_TAKEOVER: the links to the device whose id the spare takes train anew; where this device is the spare, all its links do. -/
def execSpareTakeover (dev : BitVec 19) (s : State) : Host.Outcome State Fault Refusal := run (do
  let me_ := (← gs).harbour.devid
  each (List.range 12) fun n =>
    if linkPresent me_ n && (decide (neighbour me_ n = dev.toNat) || decide (me_ = dev.toNat)) then modLink n Link.fresh else pure ()) s

end Sys2Proof.Machine
end

