-- ==== Sys2Proof/Machine/Complete.lean ====
section
/-! DEFINITION. Completion targets and join records (12 R361 to R364, 06 R163, R171, R172), the clamps of a pan (06 R177), and the retirement of blocks and kernels (06 R162, R163). -/

namespace Sys2Proof.Machine

/-! Status codes of a launch (12 R364). -/

def lsDONE : Nat := 0
def lsIMAGE : Nat := 1
def lsPLACE : Nat := 2
def lsKILLED : Nat := 3

/-- The word of a progress-word target (12 R361). -/
def launchWord (status retired : Nat) : Word := word (2 ^ 63 + status * 2 ^ 56 + retired)

/-- Who updates a kernel's completion objects: the dispatcher, for a context, in user mode (log 15). -/
def dispatcherOf (ctx : Nat) : Who := ⟨none, ctx, false⟩

/-! Join records. -/

/-- Words of device memory, from a virtual address of a context; none where one cannot be read. -/
def recordWords (ctx : Nat) : List Word → M (Option (List Word))
  | [] => return some []
  | va :: vas => do
    match ← probe (dispatcherOf ctx) va accLoad with
    | .error _ => return none
    | .ok t =>
      match (← gs).locOf t va.toNat with
      | .mem pa => do
        if (← gs).poisonedAt pa 8 then return none
        let v := word ((← gs).physRead pa 8)
        match ← recordWords ctx vas with
        | some l => return some (v :: l)
        | none => return none
      | _ => return none

def wordsFrom (va : Word) (n : Nat) : List Word := (List.range n).map fun i => va + word (8 * i)

/-- The continuation of a join record: dwords 2 onward, a launch record (12 R359, R362). -/
def continuation (ctx : Nat) (va : Word) : M (Option (List Word)) := do
  match ← recordWords ctx (wordsFrom (va + 16) 5) with
  | none => return none
  | some h =>
    match ← recordWords ctx (wordsFrom (va + 56) (recNargs h)) with
    | none => return none
    | some a => return some (h ++ a)

/-- COUNT has reached 0: the continuation is enqueued as LAUNCH enqueues, and counted into its own join record where its CKIND is 3 (12 R363). -/
def continueJoin (ctx : Nat) (va : Word) : M Unit := do
  match ← continuation ctx va with
  | none => joinError ctx va
  | some dw =>
    let s : State ← gs
    if s.recMalformed ctx dw || !s.queueUsable ctx (recQueue dw) then joinError ctx va
    else if recCkind dw ≠ 3 then enqueueOrHold (recQueue dw) dw
    else joinIncrement ctx (recQueue dw) dw (dwAt dw 3) (some va)

/-- The decrement of a completed kernel on a join record (06 R171, R172), in a peer's memory too (05 R145). -/
def joinDecrement (ctx : Nat) (va : Word) : M Unit := do
  match ← reach (dispatcherOf ctx) false false va 8 accRmw with
  | .ok (.mem pa) => do
    let c := (← gs).physRead pa 4
    if c = 0 then joinError ctx va
    else
      physWrite none none pa (bytesOf (c - 1) 4)
      if c = 1 then continueJoin ctx va
  | .ok (.remote dev da) => startJoin ctx va dev da .dec
  | _ => logErr 0xF000 7 va 0

/-! Completion (12 R361, R363). -/

/-- The completion target of a record is updated, and then its own join record. A target that cannot be updated is left alone and logged in class 7 (log 36). -/
def completeRecord (ctx : Nat) (dw : List Word) (status retired : Nat) : M Unit := do
  let c := dwAt dw 3
  match recCkind dw with
  | 1 => do
    match ← reach (dispatcherOf ctx) false false c 8 accStore with
    | .ok (.mem pa) => physWrite none none pa (bytesOf (launchWord status retired).toNat 8)
    | .ok (.remote dev da) => do sendRemote (.join (← freshId)) c dev da 8 .store (launchWord status retired) 0 false (some ((← gs).issuedTo dev))
    | _ => logErr 0xF000 7 c (word status)
  | 2 =>
    if (← gs).ownsCounter ctx (fld c 0 13) then
      addCounter (fld c 0 13) (fld c 16 32) (if status = lsDONE then none else some (if status = lsKILLED then stCANCELLED else stMALFORMED))
    else logErr 0xF000 7 c (word status)
  | 3 => joinDecrement ctx c
  | _ => pure ()
  if dwAt dw 4 ≠ 0 then joinDecrement ctx (dwAt dw 4)

/-- A record is complete: later BARRIER records of its queue need not wait for it (13 R375). -/
def endRecord (q rid : Nat) : M Unit := modQueue q fun x => { x with begun := x.begun.filter (· != rid) }

/-- A kernel completes (06 R163): its target, its argument entry (13 R459), its place in its queue, and images that waited for room (13 R380). -/
def completeKernel (kid : Nat) : M Unit := do
  match (← gs).kernel kid with
  | none => pure ()
  | some k => do
    completeRecord k.ctx k.dw (if k.killed then lsKILLED else if k.unplaced then lsPLACE else lsDONE) k.retired
    modContext k.ctx fun c => { c with argHeld := NSet.del k.arg c.argHeld }
    endRecord k.queue k.rid
    emit (.kernel kid none)
    kickLoads

/-- The last block of a kernel has retired: a buffered task waits for its commit, a shadow task for its claim, a task in direct mode ends (05 R138, R141, R144). -/
def kernelDone (kid : Nat) : M Unit := do
  match (← gs).kernel kid with
  | none => pure ()
  | some k =>
    match k.task with
    | none => completeKernel kid
    | some t =>
      match (← gs).task t with
      | none => completeKernel kid
      | some x =>
        if x.direct then
          emit (.task t none)
          completeKernel kid
        else modTask t fun x => { x with finished := true }

/-! Residencies. -/

/-- A context leaves a pan on which it has no other block and no region (06 R166). -/
def leavePan (pan ctx b : Nat) : M Unit := do
  let s : State ← gs
  match s.resOf pan ctx with
  | none => pure ()
  | some i =>
    if (s.regionsOf pan ctx).isEmpty && !(s.blockList.any fun x => decide (x.1 ≠ b) && decide (x.2.ctx = ctx) && decide (x.2.st ≠ .evicted) && x.2.pans.contains pan) then
      makeAbsent pan i
    else pure ()

/-! Retirement. -/

/-- A slot of the block's regions is RUNNING, or a command of the block has not made its final publication. -/
def State.blockWorks (s : State) (b : Nat) (blk : Block) : Bool :=
  blk.pans.any fun p =>
    ((s.regionsOf p blk.ctx).any fun r => [0, 1, 2, 3].any fun i => decide ((s.slot r i).st = .running)) ||
    (List.range 8).any fun c => (s.chan (8 * p + c)).q.any fun x => decide (x.block = some b)

/-- A block is gone from its pans. -/
def releaseBlock (b : Nat) (blk : Block) : M Unit := do
  each ((← gs).blockStrands blk) fun k => modStrand k fun st => if st.block = some b then { st with block := none } else st
  emit (.block b none)
  each blk.pans fun p => leavePan p blk.ctx b

/-- BLOCK_RETIRE (06 R162). -/
def execBlockRetire (b : Nat) (s : State) : Host.Outcome State Fault Refusal := run (do
  match (← gs).block b with
  | none => pure ()
  | some blk =>
    if blk.st = .ending && !(← gs).blockWorks b blk then
      releaseBlock b blk
      modKernel blk.kernel fun k => { k with retired := k.retired + 1 }
      match (← gs).kernel blk.kernel with
      | some k => if k.retired = k.nblk then kernelDone blk.kernel
      | none => pure ()) s

/-- HELD_RECORD_ENQUEUE (05 R138): the first record held for a queue, once there is room. -/
def execHeldRecordEnqueue (n : Nat) (s : State) : Host.Outcome State Fault Refusal := run (do
  let h := (← gs).sched.held
  match h[n]? with
  | none => pure ()
  | some r =>
    if !(← gs).queueFull r.1 && !((h.take n).any fun x => decide (x.1 = r.1)) then
      modSched fun x => { x with held := dropAt x.held n }
      enqueueRec r.1 r.2.1) s

/-- TASK_COMMIT (05 R136, R138). -/
def execTaskCommit (t : Nat) (s : State) : Host.Outcome State Fault Refusal := run (do
  match (← gs).task t with
  | none => pure ()
  | some x =>
    if x.finished && !x.shadow && !x.direct && (← gs).isOldest t then
      commitTask t true
      emit (.task t none)
      completeKernel x.kernel) s

end Sys2Proof.Machine
end

