-- ==== Sys2Proof/Machine/Image.lean ====
section
/-! DEFINITION. Kernel images: the SHAKE256 digest (08 R237; the function is that of FIPS 202, log 17), the checks of the image loader (08 R238, R458), and the end of a load (13 R380). -/

namespace Sys2Proof.Machine

/-! SHAKE256 over a state of 25 lanes, lane (x, y) at x + 5y. -/

def keccakRC : List Word :=
  [0x0000000000000001, 0x0000000000008082, 0x800000000000808A, 0x8000000080008000, 0x000000000000808B, 0x0000000080000001,
   0x8000000080008081, 0x8000000000008009, 0x000000000000008A, 0x0000000000000088, 0x0000000080008009, 0x000000008000000A,
   0x000000008000808B, 0x800000000000008B, 0x8000000000008089, 0x8000000000008003, 0x8000000000008002, 0x8000000000000080,
   0x000000000000800A, 0x800000008000000A, 0x8000000080008081, 0x8000000000008080, 0x0000000080000001, 0x8000000080008008]

def keccakRot : List Nat := [0, 1, 62, 28, 27, 36, 44, 6, 55, 20, 3, 10, 43, 25, 39, 41, 45, 15, 21, 8, 18, 2, 61, 56, 14]

def lanes25 (f : Nat → Nat → Word) : List Word := (List.range 25).map fun i => f (i % 5) (i / 5)

/-- One round. -/
def keccakRound (a : List Word) (rc : Word) : List Word :=
  let c := (List.range 5).map fun x => [0, 1, 2, 3, 4].foldl (fun v y => v ^^^ nth 0 a (x + 5 * y)) 0
  let d := (List.range 5).map fun x => nth 0 c ((x + 4) % 5) ^^^ (nth 0 c ((x + 1) % 5)).rotateLeft 1
  let t := lanes25 fun x y => nth 0 a (x + 5 * y) ^^^ nth 0 d x
  -- lane (x, y) after the permutation comes from column x + 3y, row x
  let b := lanes25 fun x y => let i := (x + 3 * y) % 5 + 5 * x; (nth 0 t i).rotateLeft (nth 0 keccakRot i)
  upd (lanes25 fun x y => nth 0 b (x + 5 * y) ^^^ (~~~(nth 0 b ((x + 1) % 5 + 5 * y)) &&& nth 0 b ((x + 2) % 5 + 5 * y))) 0 fun v => v ^^^ rc

def keccakF (a : List Word) : List Word := keccakRC.foldl keccakRound a

/-- Bytes as lanes, little-endian. -/
def lanesOf8 (bs : List Nat) (n : Nat) : List Word :=
  (List.range n).map fun i => word ((List.range 8).foldl (fun v j => v + nth 0 bs (8 * i + j) * 256 ^ j) 0)

/-- Absorb `n` blocks of 136 bytes. -/
def absorb : Nat → List Nat → List Word → List Word
  | 0, _, a => a
  | n + 1, bs, a => absorb n (bs.drop 136) (keccakF (List.zipWith (· ^^^ ·) a (lanesOf8 (bs.take 136) 17 ++ List.replicate 8 0)))

/-- The first 32 bytes of output, as four words. -/
def shake256 (bs : List Nat) : List Word :=
  let pad := 136 - bs.length % 136
  let last := if pad = 1 then [0x1F + 0x80] else [0x1F] ++ List.replicate (pad - 2) 0 ++ [0x80]
  (absorb (bs.length / 136 + 1) (bs ++ last) (List.replicate 25 0)).take 4

/-! The checks (08 R237, R238). -/

/-- A section: offset and size. -/
def imgSec (h : List Word) (i : Nat) : Nat × Nat := (fld (dwAt h (4 + i)) 0 32, fld (dwAt h (4 + i)) 32 32)
def imgSize (h : List Word) : Nat := fld (dwAt h 1) 32 32
def imgEntry (h : List Word) (j : Nat) : Nat := fld (dwAt h (9 + j / 2)) (j % 2 * 32) 32
def imgNentry (h : List Word) : Nat := fld (dwAt h 2) 17 4
def imgNargs (h : List Word) : Nat := fld (dwAt h 2) 13 4
def imgSlots (h : List Word) : Nat := fld (dwAt h 2) 6 7
def imgStrands (h : List Word) : Nat := fld (dwAt h 2) 4 2 + 1
def imgPans (h : List Word) : Nat := fld (dwAt h 2) 0 4 + 1
def imgGroups (h : List Word) : Nat := fld (dwAt h 1) 0 3
def imgMig (h : List Word) : Bool := bitOf (dwAt h 1) 16
def imgSpec (h : List Word) : Bool := bitOf (dwAt h 1) 17

/-- The header's own fields. -/
def imgHeaderOk (h : List Word) : Bool :=
  let secs := ([0, 1, 2].map (imgSec h)).filter fun x => decide (x.2 ≠ 0)
  let text := imgSec h 0
  decide (dwAt h 0 = word (2 ^ 32 + 0x594E524B)) && decide (fld (dwAt h 1) 18 14 = 0) && decide (fld (dwAt h 1) 3 13 = 0) && decide (128 ≤ imgSize h) &&
  decide (fld (dwAt h 2) 21 43 = 0) && decide (1 ≤ imgNentry h ∧ imgNentry h ≤ 6) && decide (imgNargs h ≤ 14) && decide (imgSlots h ≤ 64) &&
  decide (fld (dwAt h 3) 28 36 = 0) && ((List.range 14).all fun i => decide (matchRule (dwAt h 3) i ≠ 3) && (decide (i < imgNargs h) || decide (matchRule (dwAt h 3) i = 0))) &&
  (secs.all fun x => decide (x.1 % 65536 = 0) && decide (128 ≤ x.1) && decide (x.1 + x.2 ≤ imgSize h)) &&
  ((List.range secs.length).all fun i => (List.range i).all fun j =>
    let a := nth (0, 0) secs i
    let b := nth (0, 0) secs j
    decide (a.1 + a.2 ≤ b.1 ∨ b.1 + b.2 ≤ a.1)) &&
  decide (fld (dwAt h 8) 48 16 = 0) &&
  (List.range 6).all fun j => if j < imgNentry h then decide (imgEntry h j % 2 = 0) && decide (imgEntry h j < text.2) else decide (imgEntry h j = 0)

/-- The configuration-image table (08 R458); `rd` reads `n` bytes at an image offset. -/
def imgTableOk (h : List Word) (rd : Nat → Nat → Nat) : Bool :=
  let n := fld (dwAt h 8) 32 16
  let off := fld (dwAt h 8) 0 32
  let ro := imgSec h 2
  if n = 0 then decide (off = 0)
  else decide (off % 16 = 0) && decide (ro.1 ≤ off) && decide (off + 16 * n ≤ ro.1 + ro.2) &&
    (List.range n).all fun i =>
      let x := rd (off + 16 * i) 4
      let sz := rd (off + 16 * i + 4) 4
      decide (rd (off + 16 * i + 8) 8 = 0) && decide (x % 8 = 0) && decide (ro.1 ≤ x) && decide (x + sz ≤ ro.1 + ro.2) && decide (rd (x + 16) 4 = sz)

/-- The image at a physical address: its header, when the loader accepts it (08 R238). -/
def State.checkImage (s : State) (src : Nat) : Option (List Word) :=
  let rd := fun off n => s.physRead (src + off) n
  let h := (List.range 16).map fun i => word (rd (8 * i) 8)
  let n := imgSize h
  if decide (src % 65536 = 0) && imgHeaderOk h && imgTableOk h rd && !s.poisonedAt src n &&
      decide (shake256 ((List.range n).map fun i => if 96 ≤ i ∧ i < 128 then 0 else s.physByte (src + i)) = h.drop 12)
  then some h else none

/-! Loads (13 R380). -/

/-- The image that is evicted for a new one: the least recently dispatched without a queued record or an unretired block. -/
def State.victim (s : State) : Option CachedImg :=
  let l := s.harbour.cache.filter fun c => !s.imageBusy c.handle
  l.find? fun c => l.all fun d => decide (c.used ≤ d.used)

/-- IMAGE_LOAD_COMPLETE: an image that the loader accepts is kept, where there is a place for it; when it is rejected, the records that have waited for it complete with IMAGE at the front. -/
def execImageLoadComplete (h : BitVec 48) (s : State) : Host.Outcome State Fault Refusal := run (do
  let s1 : State ← gs
  if s1.harbour.loads.contains h.toNat then
    modHarbour fun x => { x with loads := x.loads.filter (· != h.toNat), cache := x.cache.filter fun c => c.handle != h.toNat }
    match (s1.imageSrc h.toNat).bind s1.checkImage with
    | none => each ((← gs).queues.map (·.1)) fun q => modQueue q fun x => { x with
        recs := x.recs.map fun r => if r.kernel.isNone && decide (recImage r.dw = h.toNat) then { r with bad := true } else r }
    | some hdr => do
      let s2 : State ← gs
      match s2.victim with
      | some v => if 256 ≤ s2.harbour.cache.length then modHarbour fun x => { x with cache := x.cache.filter fun c => c.handle != v.handle }
      | none => pure ()
      let used ← freshId
      modHarbour fun x => if x.cache.length < 256 then { x with cache := x.cache ++ [⟨h.toNat, hdr, false, used⟩] } else x
    kickLoads) s

end Sys2Proof.Machine
end

