-- ==== Sys2Proof/Machine/Control.lean ====
section
/-! DEFINITION. Branches, jumps, traps, waits and the other system instructions but MFC, MTC and XINV (09 R263 to R266, R270 to R277), their 16-bit forms, and the two events of a failed fetch (08 R210, R226). -/

namespace Sys2Proof.Machine

/-- 08 R213: a byte offset from a signed count of halfwords. -/
def half {n : Nat} (i : BitVec n) : Word := i.signExtend 64 <<< 1

def branch (c : Word → Word → Bool) (a b : BitVec 5) (off : Word) (len : Nat) : M Unit := do
  issue [a, b]
  if c (← rg a) (← rg b) then jump ((← me).pc + off) else next len

def execBeq (a b : BitVec 5) (i : BitVec 12) (s : State) : Host.Outcome State Fault Refusal := run (branch (fun x y => x == y) a b (half i) 4) s
def execBne (a b : BitVec 5) (i : BitVec 12) (s : State) : Host.Outcome State Fault Refusal := run (branch (fun x y => x != y) a b (half i) 4) s
def execBlt (a b : BitVec 5) (i : BitVec 12) (s : State) : Host.Outcome State Fault Refusal := run (branch (fun x y => x.slt y) a b (half i) 4) s
def execBge (a b : BitVec 5) (i : BitVec 12) (s : State) : Host.Outcome State Fault Refusal := run (branch (fun x y => !x.slt y) a b (half i) 4) s
def execBltZ (a b : BitVec 5) (i : BitVec 12) (s : State) : Host.Outcome State Fault Refusal := run (branch (fun x y => x.ult y) a b (half i) 4) s
def execBgeZ (a b : BitVec 5) (i : BitVec 12) (s : State) : Host.Outcome State Fault Refusal := run (branch (fun x y => !x.ult y) a b (half i) 4) s
def execBeqH (i : BitVec 6) (x : BitVec 5) (s : State) : Host.Outcome State Fault Refusal := run (branch (fun x y => x == y) x 0 (half i) 2) s
def execBneH (i : BitVec 6) (x : BitVec 5) (s : State) : Host.Outcome State Fault Refusal := run (branch (fun x y => x != y) x 0 (half i) 2) s

/-- JAL links into g1 (09 R264). -/
def jal (off : Word) (len : Nat) : M Unit := do
  issue [1]
  modMe fun st => { st.setG 1 (st.pc + word len) with pc := st.pc + off }

/-- JALR: the target is formed before the link is written; an odd one raises ALIGN (09 R264). -/
def jalr (d a : BitVec 5) (off : Word) (len : Nat) : M Unit := do
  issue [d, a]
  let t := (← rg a) + off
  if bitOf t 0 then trap 3 t
  modMe fun st => { st.setG d (st.pc + word len) with pc := t }

def execJal (i : BitVec 22) (s : State) : Host.Outcome State Fault Refusal := run (jal (half i) 4) s
def execJalr (d a : BitVec 5) (i : BitVec 12) (s : State) : Host.Outcome State Fault Refusal := run (jalr d a (i.signExtend 64) 4) s
def execJalH (i : BitVec 11) (s : State) : Host.Outcome State Fault Refusal := run (jal (half i) 2) s
def execJalrH (y x : BitVec 5) (s : State) : Host.Outcome State Fault Refusal := run (jalr x y 0 2) s

/-- 09 R265. -/
def execSvc (n : BitVec 12) (s : State) : Host.Outcome State Fault Refusal := run (do
  issue []
  if (← me).sup then raiseBits 1 (.svc n) else trap 9 (n.setWidth 64)) s
def execBrk (n : BitVec 12) (s : State) : Host.Outcome State Fault Refusal := run (do
  issue []
  trap 8 (n.setWidth 64)) s

/-- 09 R266, 14 R392. -/
def execEret (s : State) : Host.Outcome State Fault Refusal := run (do
  issuePriv .eret []
  if bitOf (← me).tstatus 3 then raiseBits 1 .eret
  modMe Strand.returnTrap) s

/-- 09 R271. -/
def execWfe (s : State) : Host.Outcome State Fault Refusal := run (do
  issue []
  if (← me).latch then modMe fun st => { st with latch := false, pc := st.pc + 4 }
  else
    let t := (← gs).gtime
    modMe fun st => { st with st := .wait, wait := .latch t }) s

/-- A strand stops for pre-emption, and goes on later from its state (14 R395 step 1, 06 R164). -/
def Strand.park (st : Strand) : Strand :=
  if st.st = .run ∨ st.st = .trap then { st with st := .saved, resumeTo := st.st }
  else if st.st = .wait then { st with st := .saved, resumeTo := .run, wait := .none } else st

/-- 09 R272. -/
def execYield (s : State) : Host.Outcome State Fault Refusal := run (do
  issue []
  next 4
  let s1 : State ← gs
  let st ← me
  match st.block.bind s1.block with
  | some b => if b.preempt then modMe Strand.park
  | none => pure ()) s

/-- 09 R273, 14 R393: the failed copies found at EXIT: the one accepted first is raised as ENGINE, the others are logged. -/
def raiseEngine (k : Nat) (s0 : State) : M Unit := do
  let st ← getStrand k
  let bad := st.copies.filterMap fun c => match c.st with | .failed x => some (c.va, x) | _ => none
  match bad with
  | [] => pure ()
  | p :: rest =>
    trapWith s0 0xC p.1 do
      modStrand k fun st => { st with copies := [] }
      each rest fun q => logErr (srcOf k) 4 q.1 (word q.2)

/-- What EXIT waits for (09 R273). -/
def Strand.busy (st : Strand) : Bool :=
  st.looping || !st.vq.isEmpty || !st.vlda.isEmpty || !st.ntf.isEmpty ||
  (st.posted.any fun p => p.fail.isNone) || st.copies.any fun c => c.st == .waiting || c.st == .unchecked

def execExit (s : State) : Host.Outcome State Fault Refusal := run (do
  issue []
  let k ← curKey
  if (← me).busy then stall
  raisePosted k s
  raiseEngine k s
  modMe fun st => { st with copies := [] }
  endStrand k) s

/-- 01 R37: the word PLACE writes for a translation. -/
def placeWord (t : TlbEnt) : Word :=
  word (0x1000 + (if lfTM t.leaf then 2048 else 0) + (if t.size = 16 then 0 else 1024) + lfKind t.leaf * 256 +
    (if lfKind t.leaf = 0 then fld t.leaf 36 3 * 16 else 0) + lfPLC t.leaf)

def execPlaceAddr (d a : BitVec 5) (s : State) : Host.Outcome State Fault Refusal := run (do
  issue [d, a]
  let w ← whoIs (← curKey)
  let va := (← rg a).toNat
  match ← lookup w.walker w.ctx ((← gs).rootOf w.ctx) va with
  | some t => retire d (placeWord t) 4
  | none => retire d 0 4) s

/-- 06 R174: the position of strand `k`. -/
def State.placeSelf (s : State) (k : Nat) : Word :=
  let st := s.strand k
  let mig := match st.block.bind s.block with | some b => b.mig | none => false
  word ((if mig then 32768 else 0) + (if isShoal k then 16384 else 0) + panOf k / 128 * 2048 + panOf k / 16 % 8 * 256 + panOf k % 16 * 16 +
    (s.resOf (panOf k) st.ctx).getD 0 * 4 + k % 4)

def execPlaceSelf (d : BitVec 5) (s : State) : Host.Outcome State Fault Refusal := run (do
  issue [d]
  let k ← curKey
  let s1 : State ← gs
  retire d (if isMgmt k then 0 else s1.placeSelf k) 4) s

/-- A read of `gtime`: how far it has advanced is open (log 4). -/
def readTime : M Word := do
  let t := (← gs).gtime + (← freshNat)
  emit (.gtime t)
  return word t

/-- 09 R270. -/
def execRdgt (d : BitVec 5) (s : State) : Host.Outcome State Fault Refusal := run (do
  issueMem [d]
  if !(← me).vq.isEmpty || (← me).posted.any (fun p => p.fail.isNone) then stall
  retire d (← readTime) 4) s

/-- 09 R275: no value changes architectural state; HINT 2 has the line at g1's target fetched into the instruction cache, where it can be. -/
def execHint (n : BitVec 12) (s : State) : Host.Outcome State Fault Refusal := run (do
  issue (if n = 2 then [1] else [])
  if n = 2 then
    let _ ← fetch16 (← curKey) ((← rg 1) &&& ~~~1)
  next 4) s
def execHintH (s : State) : Host.Outcome State Fault Refusal := run (do
  issue []
  next 2) s

/-- 09 R276: whether the bay slice `y` lies in the instance of a scope for strand `k`. -/
def flushes (k sc y : Nat) : Bool :=
  if sc ≤ 2 then !isMgmt k && decide (y = bayOf k) else if sc = 3 then !isMgmt k && decide (bayDie y = dieOf k) else true

/-- 09 R276: the probe; then the copies of the line in the slices of the instance are written back and dropped. -/
def execCflush (a : BitVec 5) (sc : BitVec 3) (s : State) : Host.Outcome State Fault Refusal := run (do
  issueMem [a]
  let k ← curKey
  let va ← rg a
  match ← probe (← whoIs k) va { accLoad with cached := true } with
  | .error c => trap c va
  | .ok t =>
    match (← gs).locOf t va.toNat with
    | .mem pa => do
      let s1 : State ← gs
      let l := s1.home pa / 128
      each ((s1.sharers l).filter (flushes k sc.toNat)) fun y => dropCopy y l
    | _ => pure ()
    next 4) s

/-- 09 R277: rows 1 to 3 and 9 of 01 R22 for a fetch. -/
def State.checkCinv (s : State) (sup : Bool) (t : TlbEnt) (va : Nat) : Option Nat :=
  let e := t.leaf
  if !sup && !lfU e then some 5
  else if sup && lfU e then some 5
  else if !lfX e || decide (lfKind e ≠ 0) then some 5
  else if lfTM e && !(s.ownsToken (s.regionOf t va).1 (s.regionOf t va).2) then some 6
  else none

def execCinv (a : BitVec 5) (s : State) : Host.Outcome State Fault Refusal := run (do
  issue [a]
  let k ← curKey
  let w ← whoIs k
  let va ← rg a
  if !w.sup && bitOf va 63 then trap 5 va
  match ← lookup w.walker w.ctx ((← gs).rootOf w.ctx) va.toNat with
  | none => trap 4 va
  | some t =>
    match (← gs).checkCinv w.sup t va.toNat with
    | some c => trap c va
    | none => pure ()
    match w.pan with
    | some p => modPan p fun x => { x with icache := x.icache.filter fun (l : ILine) => !(l.ctx == w.ctx && l.va == va.toNat / 128) }
    | none => pure ()
    next 4) s

/-- 08 R210: a failed fetch raises its trap before any encoding exists. -/
def execFetchFault (cause : Nat) (tval : Word) (s : State) : Host.Outcome State Fault Refusal := run (do
  issue []
  trap cause tval) s

/-- 08 R226. -/
def execIllegalEncoding (bits : Word) (s : State) : Host.Outcome State Fault Refusal := run (do
  issue []
  trap 1 bits) s

end Sys2Proof.Machine
end

