-- ==== Sys2Proof/Machine/VecSpill.lean ====
section
/-! DEFINITION. Spill records (02 R68 to R70), VSPILL and VFILL (10 R309, R310). -/

namespace Sys2Proof.Machine

/-- Byte `i` of a register image. -/
def VReg.byte (v : VReg) (i : Nat) : Nat := imgGet v.img i 1

/-- The elements of `e` bytes below the valid length. -/
def VReg.elems (v : VReg) (e : Nat) : List Nat := (List.range (v.vlb / e)).map fun i => imgGet v.img (i * e) e

/-- The deltas of an element list, as signed integers of `e` bytes. -/
def deltas (e : Nat) : List Nat → List Int
  | x :: y :: t => sext ((y + 2 ^ (8 * e) - x) % 2 ^ (8 * e)) (8 * e) :: deltas e (y :: t)
  | _ => []

def fitsSigned (d : Nat) (x : Int) : Bool := decide (minInt true (8 * d) ≤ x ∧ x ≤ maxInt true (8 * d))

/-- The payload of a DELTA record of `d` bytes a delta, where it is legal (02 R68). -/
def VReg.deltaPayload (v : VReg) (e d : Nat) : Option (List Byte) :=
  if e ≤ d ∨ v.vlb < e then none else
  match v.elems e with
  | [] => none
  | x :: xs =>
    let ds := deltas e (x :: xs)
    if ds.all (fitsSigned d) then some (bytesOf x e ++ ds.flatMap fun y => bytesOf (lowBits (8 * d) y) d) else none

/-- The candidates in the order of ties (02 R69), as ENC and payload. -/
def VReg.candidates (v : VReg) (e : Nat) : List (Nat × List Byte) :=
  let raw := (List.range v.vlb).map fun i => BitVec.ofNat 8 (v.byte i)
  (if raw.all (· == 0#8) then [(0, [])] else []) ++
  ([(2, 1), (3, 2), (4, 4)].filterMap fun x => (v.deltaPayload e x.2).map fun p => (x.1, p)) ++ [(1, raw)]

/-- The shortest, the first of equals. -/
def shortest : List (Nat × List Byte) → Nat × List Byte
  | [] => (0, [])
  | [x] => x
  | x :: y :: t => let r := shortest (y :: t); if r.2.length < x.2.length then r else x

def pad8 (l : List Byte) : List Byte := l ++ List.replicate ((8 - l.length % 8) % 8) 0

/-- The spill record of a register at an element width 2^wl (02 R68, R69). -/
def VReg.record (v : VReg) (wl : Nat) : List Byte :=
  let c := shortest (v.candidates (2 ^ wl))
  pad8 ([BitVec.ofNat 8 (c.1 * 32 + wl * 8), BitVec.ofNat 8 v.vlb, BitVec.ofNat 8 (v.vlb / 256)] ++ c.2)

/-- The header of a record: ENC, W, VLB. -/
def recHead (h : Nat) : Nat × Nat × Nat := (h / 32 % 8, h / 8 % 4, h / 256 % 65536)

/-- Bytes of a delta by ENC. -/
def encDelta (enc : Nat) : Nat := if enc = 2 then 1 else if enc = 3 then 2 else 4

/-- 02 R70: malformed for a unit of `vlen` bytes. -/
def recBad (h vlen : Nat) : Bool :=
  let x := recHead h
  let e := 2 ^ x.2.1
  decide (5 ≤ x.1) || decide (h % 8 ≠ 0) || decide (vlen < x.2.2) ||
  (decide (2 ≤ x.1) && (decide (e ≤ encDelta x.1) || decide (x.2.2 < e) || decide (x.2.2 % e ≠ 0)))

/-- The padded length of a well-formed record. -/
def recLen (h : Nat) : Nat :=
  let x := recHead h
  let e := 2 ^ x.2.1
  roundUp8 (3 + (if x.1 = 0 then 0 else if x.1 = 1 then x.2.2 else e + (x.2.2 / e - 1) * encDelta x.1))

/-- Running sums of deltas, modulo 2^(8e). -/
def undelta (e : Nat) : Nat → List Int → List Nat
  | x, [] => [x]
  | x, d :: ds => x :: undelta e (lowBits (8 * e) ((x : Int) + d)) ds

/-- `n` bytes at offset `i` of a byte string. -/
def bytesAt (bs : List Byte) (i n : Nat) : Nat := (List.range n).foldl (fun a j => a + (nth 0 bs (i + j)).toNat * 256 ^ j) 0

/-- The image that a well-formed record holds (02 R68). -/
def recImg (bs : List Byte) : BitVec 16384 :=
  let x := recHead (bytesAt bs 0 8)
  let e := 2 ^ x.2.1
  let n := x.2.2
  if x.1 = 0 then 0
  else if x.1 = 1 then BitVec.ofNat 16384 (bytesAt bs 3 n)
  else
    let d := encDelta x.1
    let ds := (List.range (n / e - 1)).map fun i => sext (bytesAt bs (3 + e + i * d) d) (8 * d)
    BitVec.ofNat 16384 ((enumFrom 0 (undelta e (bytesAt bs 3 e) ds)).foldl (fun a y => a + y.2 * 2 ^ (8 * e * y.1)) 0)

/-- The register that a well-formed record leaves (10 R310). -/
def recReg (bs : List Byte) : VReg :=
  { img := recImg bs, vlb := roundUp8 (recHead (bytesAt bs 0 8)).2.2, dirty := true }

/-- The 8-byte accesses of a record of `n` bytes from byte `from_`. -/
def recAccs (va : Word) (from_ n : Nat) : List VAcc := (List.range ((n - from_) / 8)).map fun i => ⟨i + from_ / 8, 0, va + word (from_ + 8 * i)⟩

/-- The bytes of `n`-byte words. -/
def wordsBytes (l : List Nat) : List Byte := l.flatMap fun x => bytesOf x 8

def recAlign (va : Word) : Raised := if va.toNat % 8 ≠ 0 then [(3, va)] else []

def execVspill (d a b : BitVec 5) (p : Bool) (s : State) : Host.Outcome State Fault Refusal := run (do
  issueVec (.vspill d a b p) [a, b]
  let k ← curKey
  let st ← me
  let va ← rg a
  let bad ← marksOf d.toNat 8 (List.range (vlenOf k / 8))
  let r := (st.vreg d.toNat).record (fld st.vcfg 12 2)
  let ps ← vcheckAll k (recAccs va 0 r.length) 8 p false accStore false (recAlign va ++ bad)
  each ps fun x => waitVlda k x.2 8
  let tk := (← gs).taskOf k
  each ps fun x => writePlace k tk 8 x (bytesAt r (8 * x.1.e) 8) false
  enqueueVec 2 (groupsOf k (r.length / 8) 8)
  retire b (word r.length) 4) s

/-- Read placed 8-byte words: those of peers and hosts are asked one by one and answered in `rs`, from answer `i` on. -/
def recRead (k : Nat) (ps : List Placed) (i : Nat) (rs : List RResp) : M (List Nat) := do
  let far := ps.filter fun x => x.2.isFar
  let mine := (rs.drop i).take far.length
  if mine.length < far.length then
    match far[mine.length]? with
    | some x => do
      let held := (← getStrand k).held
      hold k (held ++ (heldOf ps).filter fun h => !(held.contains h))
      sendLoad (.strand k) x.1.va 8 x.2
      finish
    | none => pure ()
  let r ← readAll ((← gs).taskOf k) 8 ps mine
  raiseAll r.2
  return r.1.map (·.2)

def execVfill (d a b : BitVec 5) (p : Bool) (s : State) : Host.Outcome State Fault Refusal := run (do
  issueVec (.vfill d a b p) [a, b]
  let k ← curKey
  let va ← rg a
  defElems d.toNat 8 (List.range (vlenOf k / 8))
  let rs ← answers k
  let p0 ← vcheckAll k (recAccs va 0 8) 8 p false accLoad false (recAlign va)
  each p0 fun x => waitVlda k x.2 8
  let h := nth 0 (← recRead k p0 0 rs) 0
  if recBad h (vlenOf k) then trap 0xB va
  let n := recLen h
  let p1 ← vcheckAll k (recAccs va 8 n) 8 p false accLoad false []
  each p1 fun x => waitVlda k x.2 8
  let t ← recRead k p1 (p0.filter fun x => x.2.isFar).length rs
  modMe fun st => { st with replies := [], held := [], v := Tbl.put {} d.toNat (recReg (wordsBytes (h :: t))) st.v }
  enqueueVec 2 (groupsOf k (n / 8) 8)
  retire b (word n) 4) s

end Sys2Proof.Machine
end

