-- ==== Sys2Proof/Machine/SaveImage.lean ====
section
/-! DEFINITION. Images in memory of the state that the save engine moves: strands (02 R64 to R71, 14 R398), partitions (02 R61) and slots (11 R324), and the areas that hold them. -/

namespace Sys2Proof.Machine

/-- The bytes of a list that are not zero, from address `a`. -/
def cellsAt (a : Nat) : List Byte → List Host.Cell
  | [] => []
  | b :: l => if b = 0 then cellsAt (a + 1) l else (a, b) :: cellsAt (a + 1) l

/-- The little-endian number that cells hold in the `n` bytes from address `a`. -/
def cellsNat (cells : List Host.Cell) (a n : Nat) : Nat :=
  cells.foldl (fun x c => if a ≤ c.1 ∧ c.1 < a + n then x + c.2.toNat * 256 ^ (c.1 - a) else x) 0

/-! Images of registers. -/

/-- Bytes and lanes of a vector unit (00 R1). -/
def unitVlen (shoal : Bool) : Nat := if shoal then 1024 else 2048
def unitLanes (shoal : Bool) : Nat := if shoal then 16 else 32

/-- 02 R66: the shape word of an image is well formed. -/
def shapeOk (w : Word) : Bool :=
  decide (fld w 7 57 = 0) && decide (1 ≤ fld w 0 3 ∧ fld w 0 3 ≤ 6) && decide (1 ≤ fld w 3 3 ∧ fld w 3 3 ≤ 6)

/-- The image of a small-matrix register at address `a`: the shape word, then the lanes. -/
def QReg.cells (q : QReg) (a : Nat) : List Host.Cell :=
  cellsAt a (bytesOf q.shape.toNat 8) ++ q.slots.flatMap fun x => cellsAt (a + 8 + 8 * x.1) (bytesOf x.2.toNat 8)

/-- The register that an image at address `a` holds, for a unit of `lanes` lanes; none where its shape word is malformed. Here and below `bad` tells the offsets whose bytes are poisoned. -/
def qregAt (cells : List Host.Cell) (bad : Nat → Nat → Bool) (a lanes : Nat) : Option QReg :=
  let w := word (cellsNat cells a 8)
  if shapeOk w && !bad a (8 + 288 * lanes) then
    some { shape := w, slots := (cells.filter fun c => decide (a + 8 ≤ c.1 ∧ c.1 < a + 8 + 288 * lanes)).foldl (fun t c =>
      let i := (c.1 - a - 8) / 8
      Tbl.put 0 i (t.get 0 i + word (c.2.toNat * 256 ^ ((c.1 - a) % 8))) t) [] }
  else none

/-- The bytes of the spill record at address `a`; none where it is malformed for a unit of `vlen` bytes. -/
def recordAt (cells : List Host.Cell) (bad : Nat → Nat → Bool) (a vlen : Nat) : Option (List Byte) :=
  let h := cellsNat cells a 8
  if recBad h vlen || bad a (recLen h) then none else some ((List.range (recLen h)).map fun i => BitVec.ofNat 8 (cellsNat cells (a + i) 1))

/-! The image of a strand (02 R71), and its form in the save area, with a fixed place for each vector register (14 R398). A piece is (offset, bytes, rewritten though clean, nonzero bytes). -/

def qOffset (shoal : Bool) (i : Nat) : Nat := 8 + unitVlen shoal + i * (8 + 288 * unitLanes shoal)
def vOffset (shoal : Bool) (i : Nat) : Nat := qOffset shoal 4 + i * (unitVlen shoal + 8)

/-- The header, the masks and the small-matrix registers; a clean register's piece is left out unless `all`. -/
def Strand.fixedPieces (st : Strand) (shoal all : Bool) : List (Nat × Nat × List Host.Cell) :=
  let n := unitVlen shoal / 8
  (0, 8, cellsAt 0 (bytesOf (unitVlen shoal + unitLanes shoal * 2 ^ 16) 8)) ::
  (((List.range 8).filter fun i => all || NSet.mem i st.mdirty).map fun i => (8 + n * i, n, cellsAt (8 + n * i) (bytesOf (st.m.get 0 i).toNat n))) ++
  (((List.range 4).filter fun i => all || (st.q.get {} i).dirty).map fun i => (qOffset shoal i, 8 + 288 * unitLanes shoal, (st.q.get {} i).cells (qOffset shoal i)))

/-- The records of the vector registers, packed from offset `o` on. -/
def packRecords : Nat → List (List Byte) → List (Nat × Nat × List Host.Cell)
  | _, [] => []
  | o, r :: rs => (o, r.length, cellsAt o r) :: packRecords (o + r.length) rs

def Strand.records (st : Strand) : List (Nat × List Byte) := (List.range 32).map fun i => (i, (st.vreg i).record (fld st.vcfg 12 2))

/-- What a save writes in the save area: the registers whose dirty tag is set, or all. -/
def Strand.savePieces (st : Strand) (shoal all : Bool) : List (Nat × Nat × List Host.Cell) :=
  st.fixedPieces shoal all ++
  ((st.records.filter fun x => all || (st.vreg x.1).dirty).map fun x => (vOffset shoal x.1, x.2.length, cellsAt (vOffset shoal x.1) x.2))

/-- The compact image. -/
def Strand.imagePieces (st : Strand) (shoal : Bool) : List (Nat × Nat × List Host.Cell) :=
  st.fixedPieces shoal true ++ packRecords (vOffset shoal 0) (st.records.map (·.2))

/-- Registers as a restore fills them (14 R398): VLDA marks stay with the strand (10 R297), dirty tags are clear. -/
def Strand.fillV (st : Strand) (i : Nat) (bs : List Byte) : Strand :=
  { st with v := Tbl.put {} i { recReg bs with dirty := false, marks := (st.vreg i).marks } st.v }
def Strand.fillQ (st : Strand) (i : Nat) (q : QReg) : Strand := { st with q := Tbl.put {} i q st.q }

/-- Fill from vector records: `at_` gives the place of the record behind one that ends at an offset. The first malformed record is answered by its offset. -/
def Strand.fillRecords (cells : List Host.Cell) (bad : Nat → Nat → Bool) (vlen : Nat) (at_ : Nat → Nat → Nat) : List Nat → Nat → Strand → Except Nat Strand
  | [], _, st => .ok st
  | i :: is, o, st =>
    match recordAt cells bad (at_ i o) vlen with
    | some bs => Strand.fillRecords cells bad vlen at_ is (at_ i o + bs.length) (st.fillV i bs)
    | none => .error (at_ i o)

def Strand.fillMatrices (cells : List Host.Cell) (bad : Nat → Nat → Bool) (shoal : Bool) : List Nat → Strand → Except Nat Strand
  | [], st => .ok st
  | i :: is, st =>
    match qregAt cells bad (qOffset shoal i) (unitLanes shoal) with
    | some q => Strand.fillMatrices cells bad shoal is (st.fillQ i q)
    | none => .error (qOffset shoal i)

/-- A strand filled from an image made on a unit of profile `shoal`, for a unit of `vlen` bytes: compact, or in the form of the save area. Masks and lanes that the image does not have are zero (02 R71). -/
def Strand.fill (st : Strand) (cells : List Host.Cell) (bad : Nat → Nat → Bool) (shoal compact : Bool) (vlen : Nat) : Except Nat Strand :=
  let n := unitVlen shoal / 8
  let st1 := { st with m := (List.range 8).foldl (fun t i => Tbl.put 0 i (BitVec.ofNat 2048 (cellsNat cells (8 + n * i) n)) t) [], mdirty := [] }
  if bad 8 (8 * n) then .error 8 else
  match Strand.fillMatrices cells bad shoal [0, 1, 2, 3] st1 with
  | .error o => .error o
  | .ok st2 => Strand.fillRecords cells bad vlen (fun i o => if compact then o else vOffset shoal i) (List.range 32) (vOffset shoal 0) st2

/-- Bytes that an image may span (02 R71). -/
def imageSpan (shoal : Bool) : Nat := vOffset shoal 32

/-- The marks of profile B's groups of 128 bytes, on the groups of 256 bytes of profile F that hold their bytes. -/
def crestMarks (l : List (Nat × Word)) : List (Nat × Word) :=
  (l.filter fun x => decide (x.1 % 2 = 0) || !(l.any fun y => decide (y.1 + 1 = x.1))).map fun x => (x.1 / 2, x.2)

/-- A strand of profile B passes to a unit of profile F: its marks keep their bytes (10 R297), and its save area is another. -/
def Strand.crestUnit (st : Strand) : Strand :=
  { st with v := st.v.foldl (fun t x => Tbl.put {} x.1 { x.2 with marks := crestMarks x.2.marks } t) [], saved := false }

/-! The image of a partition (02 R61). -/

/-- The grain and local word of pan word `w`, and the reverse (02 R48). -/
def bankOf (w : Nat) : Nat := (w % 256) ^^^ (w / 256 % 256) ^^^ (w / 65536 % 16)

/-- The offset in a partition image with base `base` of byte `a` of the pan space. -/
def partOffset (base a : Nat) : Nat := 8 * (256 * (a / 2048 - base) + bankOf (a / 8)) + a % 8

/-- The byte of the pan space at offset `o` of a partition image. -/
def partByte (base o : Nat) : Nat := 8 * panWordOf (o / 8 % 256) (base + o / 2048) + o % 8

/-! Areas of a context (log 29): a block of number `n` has 2^17 bytes of save area for each of its strands, and images of evicted pans and strands lie 2^28 bytes apart. -/

def saveSlot (c : Ctx) (n i j : Nat) : Nat := c.saveBase + 2 ^ 23 * n + 2 ^ 17 * (4 * i + j)
def evictSlot (c : Ctx) (n i j : Nat) : Nat := c.evictBase + 2 ^ 28 * n + 2 ^ 27 + 2 ^ 17 * (4 * i + j)
def evictArea (c : Ctx) (n : Nat) : Nat := c.evictBase + 2 ^ 28 * n
def slotArea (area r i : Nat) : Nat := area + 2 ^ 25 + 2 ^ 19 * (4 * r + i)

/-- The save engine of die `d` writes the `n` bytes from physical address `a`: `cells` and zeros. -/
def saveBytes (d a n : Nat) (cells : List Host.Cell) : M Unit := do
  flushLines (a / 128) ((a % 128 + n + 127) / 128)
  emit (.memRange a n cells)
  each ((← gs).poison.filter fun g => decide (a ≤ 64 * g ∧ 64 * g + 64 ≤ a + n)) fun g => emit (.poison g false)
  stackWrite (some d) (a / 2 ^ 36) noCtx n

/-- Pieces of an image at address `a`. -/
def savePieces (d a : Nat) (l : List (Nat × Nat × List Host.Cell)) : M Unit :=
  each l fun p => saveBytes d (a + p.1) p.2.1 (p.2.2.map fun c => (a + c.1, c.2))

/-- An image without gaps, at address `a`. -/
def saveWhole (d a : Nat) (l : List (Nat × Nat × List Host.Cell)) : M Unit :=
  saveBytes d a (l.foldl (fun n p => max n (p.1 + p.2.1)) 0) (l.flatMap fun p => p.2.2.map fun c => (a + c.1, c.2))

/-- It reads them: the bytes that are not zero, by offset. -/
def loadCells (d a n : Nat) : M (List Host.Cell) := do
  flushLines (a / 128) ((a % 128 + n + 127) / 128)
  stackRead (some d) (a / 2 ^ 36) noCtx n
  return ((← gs).mem.filter fun c => decide (a ≤ c.1 ∧ c.1 < a + n)).map fun c => (c.1 - a, c.2)

/-- A granule of the `n` bytes from `a` is poisoned. -/
def State.rangePoison (s : State) (a n : Nat) : Bool := s.poison.any fun g => decide (64 * g < a + n ∧ a < 64 * g + 64)

/-- A context ends with KILL: each of its blocks is killed (02 R70), and the address is logged. -/
def killContext (d ctx : Nat) (a : Nat) : M Unit := do
  logErr (d * 256) 3 (word a) 0x10
  each (← gs).blockList fun x => if x.2.ctx = ctx then killBlock x.1 else pure ()

/-- Strand `k` is filled from its save area, or from a compact image, whose header names the unit that made it; a malformed or poisoned image ends its context. -/
def fillStrand (k ctx a : Nat) (compact : Bool) : M Unit := do
  let s : State ← gs
  let d := dieOf k
  let shoal := if compact then decide (cellsNat s.mem a 2 = 1024) else Config.shoal d
  let cells ← loadCells d a (imageSpan shoal)
  let st := s.strand k
  match (if shoal && !Config.shoal d then st.crestUnit else st).fill cells (fun o n => s.rangePoison (a + o) n) shoal compact (unitVlen (Config.shoal d)) with
  | .ok st => emit (.strand k { st with saved := !compact })
  | .error o => killContext d ctx (a + o)

end Sys2Proof.Machine
end

