-- ==== Sys2Proof/Machine/Move.lean ====
section
/-! DEFINITION. What pre-emption, eviction and migration move (14 R395 to R399, R404, R405): strands, regions, partitions, commands, and what names them. -/

namespace Sys2Proof.Machine

/-! Residencies and partitions (06 R166, R167). -/

/-- Zero the bytes of the local words [base, lim) of a pan. -/
def zeroWords (pan base lim : Nat) : M Unit := emit (.panZero (panKey pan (base * 2048)) ((lim - base) * 2048))

/-- The context becomes the running one of a pan; the others are PARKED (06 R166). -/
def makeRunning (pan res : Nat) : M Unit := modPan pan fun p => { p with
  res := [0, 1, 2, 3].foldl (fun t i =>
    let r := t.get {} i
    if i = res then Tbl.put {} i { r with st := .running } t
    else if r.st = .running then Tbl.put {} i { r with st := .parked } t else t) p.res }

/-- The residency index of a newly resident context: the lowest free one, the model's choice (log 29). -/
def State.freeRes (s : State) (pan : Nat) : Option Nat := [0, 1, 2, 3].find? fun i => decide (((s.pan pan).res.get {} i).st = .absent)

/-- The context becomes resident with a partition [base, lim) of zeros (06 R167), and the running one of the pan. -/
def makeResident (pan ctx base lim : Nat) : M Unit := do
  match (← gs).freeRes pan with
  | none => pure ()
  | some i => do
    modPan pan fun p => { p with res := Tbl.put {} i ⟨.running, ctx, word (base * 256), word (lim * 256)⟩ p.res }
    makeRunning pan i
    zeroWords pan base lim

def PanImage.base (x : PanImage) : Nat := fld x.spbase 8 12
def PanImage.lim (x : PanImage) : Nat := fld x.splim 8 13

/-- The bytes of a context's partition on a pan that are not zero, and its poisoned words, by offset in the pan space. -/
def State.partCells (s : State) (pan : Nat) (r : Residency) : List Host.Cell × NSet :=
  let lo := panKey pan (fld r.spbase 8 12 * 2048)
  let hi := panKey pan (fld r.splim 8 13 * 2048)
  ((s.panMem.filter fun c => decide (lo ≤ c.1 ∧ c.1 < hi)).map fun c => (c.1 - panKey pan 0, c.2),
   (s.panPoison.filter fun w => decide (lo ≤ 8 * w ∧ 8 * w < hi)).map fun w => w - panKey pan 0 / 8)

/-- The context's residency on a pan. -/
def State.residency (s : State) (pan ctx : Nat) : Residency := match s.resOf pan ctx with | some i => (s.pan pan).res.get {} i | none => {}

/-- The migration copier moves a partition to another pan, at the same BASE and LIMIT (14 R405). -/
def copyPartition (old new ctx : Nat) : M Unit := do
  let s : State ← gs
  let r := s.residency old ctx
  let p := s.partCells old r
  makeResident new ctx (fld r.spbase 8 12) (fld r.splim 8 13)
  each p.1 fun c => emit (.panByte (panKey new c.1) c.2)
  each p.2 fun w => emit (.panPoison (panKey new 0 / 8 + w) true)
  carry (old / 128) (new / 128) noCtx ((fld r.splim 8 13 - fld r.spbase 8 12) * 2048)

/-- The image of a context's partition on a pan is written at `area` (02 R61, 14 R399). A poisoned word poisons its granule of the image. -/
def savePartition (pan ctx area : Nat) : M PanImage := do
  let s : State ← gs
  let r := s.residency pan ctx
  let base := fld r.spbase 8 12
  let p := s.partCells pan r
  saveBytes (pan / 128) area ((fld r.splim 8 13 - base) * 2048) (p.1.map fun c => (area + partOffset base c.1, c.2))
  each p.2 fun w => emit (.poison ((area + partOffset base (8 * w)) / 64) true)
  return ⟨r.spbase, r.splim, area, Config.shoal (pan / 128)⟩

/-- The context becomes resident with the partition of an image at its old BASE and LIMIT. A poisoned granule of the image poisons its words. -/
def loadPartition (x : PanImage) (pan ctx : Nat) : M Unit := do
  makeResident pan ctx x.base x.lim
  let n := (x.lim - x.base) * 2048
  each (← loadCells (pan / 128) x.area n) fun c => emit (.panByte (panKey pan (partByte x.base c.1)) c.2)
  each ((← gs).poison.filter fun g => decide (x.area < 64 * g + 64 ∧ 64 * g < x.area + n)) fun g =>
    each ((List.range 8).filter fun i => decide (x.area ≤ 64 * g + 8 * i ∧ 64 * g + 8 * i < x.area + n)) fun i =>
      emit (.panPoison (panKey pan (partByte x.base (64 * g + 8 * i - x.area)) / 8) true)

/-! Strands. -/

def mapTbl {α : Type} [DecidableEq α] (d : α) (f : α → α) (t : Tbl α) : Tbl α := t.foldl (fun a x => Tbl.put d x.1 (f x.2) a) []

/-- Saving clears the dirty tags (14 R398). -/
def Strand.clean (st : Strand) : Strand :=
  { st with
    v := mapTbl {} (fun x => { x with dirty := false }) st.v
    mdirty := []
    q := mapTbl {} (fun x => { x with dirty := false }) st.q }

/-- The registers of profile B on a Crest pan (14 R405): the vector registers are dirty. -/
def Strand.toCrest (st : Strand) : Strand :=
  { st.crestUnit with
    v := (List.range 32).foldl (fun t i =>
      let x := st.crestUnit.vreg i
      Tbl.put {} i { x with img := x.img &&& BitVec.ofNat 16384 (2 ^ 8192 - 1), dirty := true } t) []
    m := mapTbl 0 (fun x => x &&& BitVec.ofNat 2048 (2 ^ 1024 - 1)) st.m
    q := mapTbl {} (fun x => { x with slots := x.slots.filter fun y => decide (y.1 < 576) }) st.q }

/-- A monitor of a bank word stays on the word as the strand's pan changes. -/
def Monitor.onPan (m : Monitor) (old new : Nat) : Monitor :=
  match m with
  | .bank n => if n / 1048576 = old then .bank (new * 1048576 + n % 1048576) else m
  | m => m

/-- What an idle strand still holds: the words that the start of a block does not name (06 R160). -/
def Strand.left (st : Strand) : Strand :=
  { tvec := st.tvec, tcause := st.tcause, tval := st.tval, tpc := st.tpc, tstatus := st.tstatus, tsummary := st.tsummary
    watch := st.watch, latch := st.latch, monitor := st.monitor }

/-- A strand's state passes to another place. -/
def moveStrand (f : Strand → Strand) (old new : Nat) : M Unit := do
  let st ← getStrand old
  emit (.strand old st.left)
  emit (.strand new (f { st with monitor := st.monitor.onPan (panOf old) (panOf new) }))

/-! Names of pans: pan `p` as the list `olds` renames it to the entry of `news` at the same place. -/

def renamePan (olds news : List Nat) (p : Nat) : Nat := match findIdx? (· == p) olds with | some i => nth p news i | none => p
def renameStrand (olds news : List Nat) (k : Nat) : Nat := 4 * renamePan olds news (k / 4) + k % 4

/-- The number under which the state of pan `i` of block `b` is kept while it is on no pan; no pan has such a number. -/
def vpan (b i : Nat) : Nat := 65536 * (b + 1) + i

def GrainRef.rename (rm : Nat → Nat) (g : GrainRef) : GrainRef := { g with region := rm g.region }

/-- The regions `rs` of a context on pan `old` have new keys on `new`: what refers to them follows, and the fired and armed accesses of the context there do. -/
def renameRegions (rs : List Nat) (ctx old new : Nat) : M Unit := do
  let rm := fun (r : Nat) => if rs.contains r then 16 * new + r % 16 else r
  let rg_ := fun (g : GrainRef) => { g with region := rm g.region }
  let ro := fun (o : RemOp) => if o.pan = old ∧ o.ctx = ctx then { o with pan := new } else o
  let op := fun (o : ArmedOp) => match o with | .remote g x => .remote (rg_ g) (ro x) | o => o
  let src := fun (c : Cmd) => match c.src with | .grain g t => { c with src := .grain (rg_ g) t } | _ => c
  modFabric fun f => { f with requests := f.requests.map fun r => match r.who with
    | .grain g k w => { r with who := .grain (rg_ g) k w }
    | .bind x y z => { r with who := .bind (rm x) y z }
    | _ => r }
  each ((← gs).counters.map (·.1)) fun id => modCounter id fun c => { c with armed := c.armed.map fun a => { a with op := op a.op } }
  modSched fun x => { x with firedRem := x.firedRem.map fun y => (rg_ y.1, ro y.2) }
  each ((← gs).chans.map (·.1)) fun ch => modChan ch fun c => { c with q := c.q.map src }

/-- 03 R83, 14 R405: a selector that names an old pan. -/
def renameSel (pm : Nat → Nat) (sel : Nat) : Nat :=
  match selPan 0 sel with
  | some p => if sel / 32768 % 2 = 1 ∨ pm p = p then sel else pm p / 128 + pm p / 16 % 8 * 8 + pm p % 16 * 64
  | none => sel

def Cmd.reselect (pm : Nat → Nat) (c : Cmd) : Cmd :=
  { c with dw := upd c.dw 0 fun w => word (fld w 0 16 + renameSel pm (fld w 16 16) * 2 ^ 16 + renameSel pm (fld w 32 16) * 2 ^ 32 + fld w 48 16 * 2 ^ 48) }

/-- The strands and pans of block `b` have new numbers: its commands enter the same channels there, its armed and fired operations and its outstanding accesses follow. -/
def renameBlock (b : Nat) (km pm : Nat → Nat) (f : Cmd → Cmd) : M Unit := do
  let cm := fun (ch : Nat) => 8 * pm (ch / 8) + ch % 8
  let cmd := fun (c : Cmd) => if c.block = some b then f { c with src := match c.src with | .strand k => .strand (km k) | x => x } else c
  let arm_ := fun (a : Armed) => if a.block ≠ some b then a else { a with key := km a.key, op := match a.op with
    | .copy ch c => .copy (cm ch) (cmd c)
    | .coll c => .coll { c with key := km c.key }
    | o => o }
  let ids := (← gs).chans.flatMap fun x => (x.2.q.filter fun c => decide (c.block = some b)).map (·.id)
  modFabric fun g => { g with requests := g.requests.map fun r => match r.who with
    | .strand k => { r with who := .strand (km k) }
    | .posted k => { r with who := .posted (km k) }
    | .vlda k => { r with who := .vlda (km k) }
    | .ntf k => { r with who := .ntf (km k) }
    | .chan ch id => if ids.contains id then { r with who := .chan (cm ch) id } else r
    | _ => r }
  emit (.invs ((← gs).invs.map fun x => { x with key := km x.key }))
  each ((← gs).counters.map (·.1)) fun id => modCounter id fun c => { c with armed := c.armed.map arm_ }
  modSched fun x => { x with fired := x.fired.map fun y => if y.2.block = some b then (cm y.1, cmd y.2) else y }
  each (← gs).chans fun x => do
    let mine := x.2.q.filter fun c => decide (c.block = some b)
    if !mine.isEmpty then
      if cm x.1 = x.1 then modChan x.1 fun c => { c with q := c.q.map cmd }
      else
        modChan x.1 fun c => { c with q := c.q.filter fun y => decide (y.block ≠ some b) }
        modChan (cm x.1) fun c => { c with q := c.q ++ mine.map cmd }

/-- The strands of a block pass from their places to others. -/
def moveStrands (f : Strand → Strand) (b : Nat) (olds news : List Nat) (n : Nat) : M Unit := do
  each (olds.zip news) fun x => each (List.range n) fun j => moveStrand f (4 * x.1 + j) (4 * x.2 + j)
  renameBlock b (renameStrand olds news) id id

def State.strandsOf (s : State) (blk : Block) : Nat := match s.kernel blk.kernel with | some k => k.strands | none => 0

/-- A parked block's strands leave its pans, which another block takes; the save area keeps them (14 R398). -/
def offload (b : Nat) : M Unit := do
  let s : State ← gs
  match s.block b with
  | none => pure ()
  | some blk =>
    if blk.home = blk.pans then
      let vs := (List.range blk.pans.length).map (vpan b)
      moveStrands id b blk.pans vs (s.strandsOf blk)
      modBlock b fun x => { x with home := vs }

/-- They return. -/
def onload (b : Nat) : M Unit := do
  let s : State ← gs
  match s.block b with
  | none => pure ()
  | some blk =>
    if blk.home ≠ blk.pans then
      moveStrands id b blk.home blk.pans (s.strandsOf blk)
      modBlock b fun x => { x with home := x.pans }

/-- The parked blocks but `keep` whose strands stand on some of these pans leave them. -/
def clearPans (keep : Option Nat) (pans : List Nat) : M Unit := do
  each ((← gs).blockList.filter fun x => decide (some x.1 ≠ keep) && decide (x.2.st = .parked) && x.2.pans.any pans.contains) fun x => offload x.1

/-! Regions. -/

/-- A slot as RGIMP leaves it (11 R325, log 21): no bindings; the pre-empted run, a fault and the held tokens stay. -/
def Slot.imported (x : Slot) : Slot := if x.st = .free then x else { x with binds := [], last := 0, cause := 3 }

/-- A region passes to another key, with its owner's residency index and its place there. -/
def moveRegion (f : Region → Region) (old new : Nat) : M Unit := do
  match (← gs).region old with
  | none => pure ()
  | some x => do
    emit (.region old none)
    emit (.region new (some (f x)))

/-- The state image of a slot that is not FREE is written (14 R399, 11 R324). -/
def saveSlotImage (d a : Nat) (x : Slot) : M Unit := do
  let ws := slotImage x
  saveBytes d a (8 * ws.length) ((enumFrom 0 ws).flatMap fun y => cellsAt (a + 8 * y.1) (bytesOf y.2.toNat 8))

/-- What the restore of a slot makes of its image: as RGIMP leaves it, with the state, the fault and the tokens in flight that the image has no place for; none where the image is malformed or poisoned. -/
def Slot.restored (x : Slot) (cells : List Host.Cell) (bad : Bool) : Option Slot :=
  let w := fun (i n : Nat) => (List.range n).map fun k => Sys2Proof.word (cellsNat cells (8 * (i + k)) 8)
  let h := w 0 8
  let c0 := w 8 4
  let n := hdrSize c0 / 8
  let g := 16 * (fld (dwAt c0 1) 0 2 + 1) * (fld (dwAt c0 1) 2 2 + 1)
  if bad || !hdrOk c0 || !stateHdrOk h c0 then none
  else
    let cfg := w 8 n
    let gr := w (8 + n) (223 * g)
    if stateBad h cfg gr then none
    else
      let y := slotOf h cfg gr
      some { x with
        img := y.img, step := y.step, due := y.due, nspent := y.nspent, flags := y.flags, idx := y.idx
        grains := (List.range x.numGrains).foldl (fun t i =>
          let o := x.grains.get {} i
          Tbl.put {} i { y.grains.get {} i with out := o.out, lin := o.lin } t) [] }

/-- It is read; a malformed image ends the context, as a malformed record does (log 29). -/
def loadSlotImage (d ctx a r i : Nat) : M Unit := do
  let x := (← gs).slot r i
  if x.st ≠ .free then
    let n := 64 + hdrSize x.img.dw + 1784 * x.numGrains
    let cells ← loadCells d a n
    match x.restored cells ((← gs).rangePoison a n) with
    | some y => modSlot r i fun _ => y
    | none => killContext d ctx a

/-! Stopping and going on (14 R395). -/

/-- All strands of a block stop between instructions (step 1), and its regions at their boundaries (step 2). -/
def stopBlock (blk : Block) : M Unit := do
  each ((← gs).blockStrands blk) fun k => modStrand k Strand.park
  each blk.pans fun p => stopRegions p blk.ctx true

/-- Steps 1 to 3 are complete: every strand has stopped, queues and pending VLDA and VSTN are empty, and no slot runs. -/
def State.blockQuiet (s : State) (blk : Block) : Bool :=
  ((s.blockStrands blk).all fun k =>
    let st := s.strand k
    (decide (st.st = .saved) || decide (st.st = .idle)) && st.vq.isEmpty && st.vlda.isEmpty && st.ntf.isEmpty &&
    s.fabric.requests.all fun r => decide (r.who ≠ .strand k)) &&
  blk.pans.all fun p => (s.regionsOf p blk.ctx).all fun r => [0, 1, 2, 3].all fun i =>
    decide ((s.slot r i).st ≠ .running) && (s.slot r i).grains.all fun g => g.2.waiting.isEmpty

/-- 14 R404, 05 R154: every write of a block that moves has been performed, posted stores and chunks of its commands included. -/
def State.writesDone (s : State) (b : Nat) (blk : Block) : Bool :=
  ((s.blockStrands blk).all fun k => s.fabric.requests.all fun r => decide (r.who ≠ .posted k)) &&
  s.chans.all fun c => c.2.q.all fun x => decide (x.block ≠ some b) || decide (x.phase = .idle)

/-- 03 R80: the channels of `news` have room for the commands of a block that enter them from those of `olds`. -/
def State.chansFit (s : State) (b : Nat) (olds news : List Nat) : Bool :=
  (olds.zip news).all fun x => (List.range 8).all fun c =>
    decide (x.1 = x.2) || decide (((s.chan (8 * x.1 + c)).q.countP fun y => decide (y.block = some b)) + (s.chan (8 * x.2 + c)).q.length ≤ 8)

/-- The block goes on, on pans on which it is resident: strands as they were, vector credits 0 (14 R398) and the arbiter's pointer as at a start (log 29), pre-empted slots running; a kill that waited takes effect. -/
def goOn (b : Nat) : M Unit := do
  match (← gs).block b with
  | none => pure ()
  | some blk => do
    each ((← gs).blockStrands blk) fun k => modStrand k fun st => if st.st = .saved then { st with st := st.resumeTo, resumeTo := .idle } else st
    each blk.pans fun p => do
      modPan p fun x => { x with credit := [0, 0, 0, 0], lastZero := 3 }
      match (← gs).resOf p blk.ctx with
      | some i => makeRunning p i
      | none => pure ()
      each ((← gs).regionsOf p blk.ctx) fun r => each [0, 1, 2, 3] fun i =>
        modSlot r i fun x => if x.preempted then { x with st := .running, preempted := false, stopReq := false } else x
    modBlock b fun x => { x with st := .running, preempt := false, resume := false, killOnResume := false }
    if blk.killOnResume then killBlock b

end Sys2Proof.Machine
end

