-- ==== Sys2Proof/Machine/Front.lean ====
section
/-! DEFINITION. The launch front end: readiness (13 R375, R376, R380, R382), placement (13 R381, 06 R166, R167, 13 R459), claims (05 R144, 13 R385), shadow tasks (13 R384, R386), migration targets (14 R404), and the dispatch cycle (13 R378). -/

namespace Sys2Proof.Machine

/-- Queues do not start again before every device of the domain has reported itself quiesced (15 R424). -/
def Ckpt.halted (c : Ckpt) : Bool := c.active && !c.streaming

/-! Free pans (13 R381). -/

/-- A block stands in the way on a pan: it is PLACED, RUNNING, MOVING or KILLED there, or is about to move there. -/
def State.panBusy (s : State) (skip : Block → Bool) (pan : Nat) : Bool :=
  s.blockList.any fun x =>
    !skip x.2 && ((([.placed, .running, .moving, .killed] : List BlockSt).contains x.2.st && x.2.pans.contains pan) || x.2.target.contains pan)

/-- The partitions of other contexts on a pan: base and limit. -/
def State.partsOf (s : State) (pan : Nat) : List (Nat × Nat) :=
  [0, 1, 2, 3].filterMap fun i =>
    let r := (s.pan pan).res.get {} i
    if r.st = .absent ∨ fld r.splim 8 13 ≤ fld r.spbase 8 12 then none else some (fld r.spbase 8 12, fld r.splim 8 13)

/-- The local words [base, base + n) are held by no partition. -/
def State.wordsFree (s : State) (pan base n : Nat) : Bool :=
  decide (base + n ≤ 4096) && (s.partsOf pan).all fun x => decide (x.2 ≤ base ∨ base + n ≤ x.1)

/-- 06 R167: the lowest BASE for a partition of `n` words. -/
def State.lowestBase (s : State) (pan n : Nat) : Option Nat :=
  let c := (0 :: (s.partsOf pan).map (·.2)).filter fun b => s.wordsFree pan b n
  c.find? fun b => c.all fun d => decide (b ≤ d)

/-- Quads of a pan that no region of another resident context holds. -/
def State.freeQuads (s : State) (pan ctx : Nat) : Nat :=
  16 - (s.panRegions pan).foldl (fun a x => if some x.2.res = s.resOf pan ctx then a else a + x.2.qr * x.2.qc) 0

def State.psize (s : State) (ctx : Nat) : Nat := match s.context ctx with | some c => c.psize | none => 0

/-- The regions kept under the number of an evicted pan. -/
def State.keptRegions (s : State) (v : Nat) : List (Nat × Region) := (List.range 16).filterMap fun n => (s.region (16 * v + n)).map fun x => (n, x)

/-- Kept regions on a new pan: each at its origin if that is free, else where RGALLOC with AT = 0 would put it, under its own number (14 R399). -/
def State.placeRegions (s : State) (pan : Nat) : List (Nat × Region) → List (Nat × Region) → Option (List (Nat × Region))
  | [], acc => some acc
  | (n, x) :: l, acc =>
    let free := fun (y : Region) => s.rectFree pan y && acc.all fun z => !quadsMeet y z.2
    let spots := x :: (List.range 16).map fun i => { x with row := i / 4, col := i % 4 }
    match spots.find? fun y => decide (y.row + y.qr ≤ 4) && decide (y.col + y.qc ≤ 4) && free y with
    | some y => if (s.region (16 * pan + n)).isNone then s.placeRegions pan l (acc ++ [(n, y)]) else none
    | none => none

/-- An evicted pan can be restored on a pan: the old partition words and room for the regions, and no Crest image on a Shoal pan (14 R399). -/
def State.imageFits (s : State) (pan v : Nat) (x : PanImage) : Bool :=
  (x.shoal || !Config.shoal (pan / 128)) && s.wordsFree pan x.base (x.lim - x.base) && (s.placeRegions pan (s.keptRegions v) []).isSome

/-- The restore of an evicted pan (14 R399). -/
def restorePan (pan v ctx : Nat) (x : PanImage) : M Unit := do
  let l := ((← gs).placeRegions pan ((← gs).keptRegions v) []).getD []
  loadPartition x pan ctx
  let i := ((← gs).resOf pan ctx).getD 0
  each l fun y => moveRegion (fun r => { r with res := i, row := y.2.row, col := y.2.col }) (16 * v + y.1) (16 * pan + y.1)
  renameRegions (l.map fun y => 16 * v + y.1) ctx v pan
  each l fun y => each [0, 1, 2, 3] fun j => loadSlotImage (pan / 128) ctx (slotArea x.area y.1 j) (16 * pan + y.1) j

/-- The images of a context that were evicted with no block of it on the pan, oldest first. -/
def State.awayImages (s : State) (ctx : Nat) : List (Nat × PanImage) := match s.context ctx with | some c => c.away | none => []

/-- A pan is free for a block of a context that needs `slots` region context slots; blocks that `skip` names do not count. Where the context is not resident there, the pan takes the image `img`, or has room for a new partition. -/
def State.panFree (s : State) (skip : Block → Bool) (pan ctx slots : Nat) (img : Option (Nat × PanImage)) : Bool :=
  Config.panExists pan && !s.panBusy skip pan &&
  (match s.resOf pan ctx with
   | some i => decide (((s.pan pan).res.get {} i).st ≠ .evicting)
   | none => (s.freeRes pan).isSome && match img with
     | some x => s.imageFits pan x.1 x.2
     | none => (s.lowestBase pan (s.psize ctx)).isSome) &&
  decide ((slots + 3) / 4 ≤ s.freeQuads pan ctx)

/-- Of these pans, those that are free: each takes the oldest image that the ones before it leave. -/
def State.freePans (s : State) (skip : Block → Bool) (ctx slots : Nat) : List Nat → List (Nat × PanImage) → List Nat
  | [], _ => []
  | p :: ps, l =>
    if s.panFree skip p ctx slots l.head? then p :: s.freePans skip ctx slots ps (if (s.resOf p ctx).isSome then l else l.drop 1)
    else s.freePans skip ctx slots ps l

/-- The pans of a bay that are free, ascending. -/
def State.bayFree (s : State) (skip : Block → Bool) (die bay ctx slots : Nat) : List Nat :=
  s.freePans skip ctx slots ((List.range 16).map fun i => die * 128 + bay * 16 + i) (s.awayImages ctx)

/-- 13 R381: the bay that fits with the fewest free pans, ties to the lowest, and its lowest-numbered free pans. -/
def State.fitOn (s : State) (skip : Block → Bool) (die ctx slots n : Nat) : Option (List Nat) :=
  let bays := ((List.range (Config.baysOf die)).map fun b => s.bayFree skip die b ctx slots).filter fun l => decide (n ≤ l.length)
  (bays.find? fun l => bays.all fun m => decide (l.length ≤ m.length)).map (·.take n)

def noSkip : Block → Bool := fun _ => false

/-- The block belongs to an unclaimed shadow task on a die. -/
def State.isShadowOn (s : State) (die : Nat) (b : Block) : Bool :=
  decide (b.die = die) && match (s.kernel b.kernel).bind (·.task) with
    | some t => (match s.task t with | some x => x.shadow | none => false)
    | none => false

/-! What a record asks for; zero fields take the image's values (12 R359). -/

def needPans (h dw : List Word) : Nat := if recPans dw = 0 then imgPans h else recPans dw
def needStrands (h dw : List Word) : Nat := if recStrands dw = 0 then imgStrands h else recStrands dw
def needSlots (h dw : List Word) : Nat := if recSlots dw = 0 then imgSlots h else recSlots dw

/-- 13 R380: the record agrees with its image. -/
def agrees (h dw : List Word) : Bool :=
  !h.isEmpty && decide (recEntry dw < imgNentry h) && decide (recNargs dw = imgNargs h) && (decide (recSlots dw = 0) || decide (imgSlots h ≤ recSlots dw))

/-- 06 R173, 13 R381: the affinity mask and the image's groups allow a die. -/
def State.dieAllowed (s : State) (q : Nat) (h : List Word) (die : Nat) : Bool :=
  (s.queue q).aff.testBit die && (!Config.shoal die || decide (imgGroups h = 0) || imgMig h)

/-! The front of a queue. -/

/-- The earlier records of the queue have completed, where the record asks for it (13 R375). -/
def State.barrierOk (s : State) (q : Nat) (r : QRec) : Bool := !recBarrier r.dw || (s.queue q).begun.all fun i => decide (i = r.id)

def popFront (q : Nat) : M Unit := modQueue q fun x => { x with recs := x.recs.drop 1 }

/-- An argument entry that a record keeps from its aborted task is free again (13 R459). -/
def freePrior (ctx : Nat) (r : QRec) : M Unit := match r.prior with
  | some e => modContext ctx fun c => { c with argHeld := NSet.del e c.argHeld }
  | none => pure ()

/-- The front completes without a block (12 R361, R364). -/
def completeFront (q : Nat) (r : QRec) (status : Nat) : M Unit := do
  popFront q
  freePrior ((← gs).queue q).ctx r
  completeRecord ((← gs).queue q).ctx r.dw status 0
  kickLoads

/-- A front that has begun and is allowed on no die any more completes with PLACE (13 R382): its target is updated, at the commit where it is a task's, and the blocks that it has placed go on. -/
def endFront (q kid : Nat) (r : QRec) : M Unit := do
  popFront q
  match (← gs).kernel kid with
  | none => pure ()
  | some k => do
    if k.task.isNone then
      completeRecord k.ctx k.dw lsPLACE k.retired
      endRecord q r.id
      modKernel kid fun x => { x with dw := upd (upd (upd x.dw 1 fun w => w &&& ~~~(word (3 * 2 ^ 55))) 3 fun _ => 0) 4 fun _ => 0 }
    modKernel kid fun x => { x with unplaced := true, nblk := x.placed }
    if k.retired = k.placed then kernelDone kid

/-- 05 R144: an ordered task with a later timestamp has committed lines that the shadow task has read. -/
def State.missedCommit (s : State) (x : Task) (ts : Nat) : Bool :=
  s.sched.commits.any fun c => decide (ts < c.1) && c.2.any (sigHit x.rsig)

/-- The claim of a shadow task by the record that has become the front (05 R144, 13 R385). -/
def claim (q t : Nat) (r : QRec) : M Unit := do
  match (← gs).task t with
  | none => pure ()
  | some x => do
    modKernel x.kernel fun k => { k with rid := r.id, dw := r.dw.take 5 ++ recArgs k.dw }
    popFront q
    let now := (← gs).gtime
    modQueue q fun y => { y with shadow := none, since := now, level := y.prio, begun := y.begun ++ [r.id] }
    modDie x.die fun d => { d with pred := Tbl.put 0 1 (d.pred.get 0 1 + 1) d.pred }
    if ((← gs).queue q).ordered then modTask t fun x => { x with shadow := false, ts := (dwAt r.dw 2).toNat, ord := r.id }
    else do
      commitTask t false
      emit (.task t none)
      if x.finished then completeKernel x.kernel

/-- What happens at the front of an enabled queue before dispatch; the record that is then the front. -/
def frontWork : Nat → Nat → M (Option QRec)
  | 0, _ => return none
  | n + 1, q => do
    let s : State ← gs
    match (s.queue q).recs with
    | [] => return none
    | r :: _ =>
      if !(s.queue q).en then return none
      else if let some kid := r.kernel then
        if (List.range 8).any (s.dieAllowed q (match s.kernel kid with | some k => k.hdr | none => [])) then return some r
        else do
          endFront q kid r
          frontWork n q
      else if recNblk r.dw = 0 then
        if s.barrierOk q r then do
          completeFront q r lsDONE
          frontWork n q
        else return none
      else
        match r.bound.bind fun t => (s.task t).map fun x => (t, x) with
        | some (t, x) => do
          if (s.queue q).ordered && s.missedCommit x (dwAt r.dw 2).toNat then discardShadow t 5 else claim q t r
          frontWork n q
        | none =>
          match s.resident (recImage r.dw) with
          | none =>
            if !r.bad && (s.harbour.loads.contains (recImage r.dw) || (s.imageSrc (recImage r.dw)).isSome) then return none
            else do
              completeFront q r lsIMAGE
              frontWork n q
          | some c =>
            if r.bad || !agrees c.hdr r.dw then do
              completeFront q r lsIMAGE
              frontWork n q
            else if !((List.range 8).any (s.dieAllowed q c.hdr)) then do
              completeFront q r lsPLACE
              frontWork n q
            else return some r

def front (q : Nat) : M (Option QRec) := do frontWork (((← gs).queue q).recs.length + 1) q

/-- Uncommitted ordered tasks and shadow tasks that have blocks on a die (05 R140). -/
def State.tasksOn (s : State) (die : Nat) : Nat := s.tasks.countP fun x => match x.2 with | some t => NSet.mem die t.dies | none => false

/-- An entry of the context's argument area is free (13 R459). -/
def State.argFree (s : State) (ctx : Nat) : Bool := match s.context ctx with | some c => decide (c.argHeld.length < c.argN) | none => false

/-- The pans that a front record's next block would take on a die. -/
def State.recFit (s : State) (skip : Block → Bool) (q : Nat) (r : QRec) (die : Nat) : Option (List Nat) :=
  let h := match s.resident (recImage r.dw) with | some c => c.hdr | none => []
  match r.kernel.bind s.kernel with
  | some k => s.fitOn skip die k.ctx k.slots k.pans
  | none => s.fitOn skip die (s.queue q).ctx (needSlots h r.dw) (needPans h r.dw)

def State.recHdr (s : State) (r : QRec) : List Word :=
  match r.kernel.bind s.kernel with
  | some k => k.hdr
  | none => match s.resident (recImage r.dw) with | some c => c.hdr | none => []

/-- 13 R376: the queue, with front `r`, is ready for a die. -/
def State.ready (s : State) (skip : Block → Bool) (q : Nat) (r : QRec) (die : Nat) : Bool :=
  let h := s.recHdr r
  s.barrierOk q r && s.dieAllowed q h die && (!(s.queue q).ordered || decide (s.tasksOn die < 64)) &&
  (r.kernel.isSome || r.prior.isSome || s.argFree (s.queue q).ctx) &&
  (s.recFit skip q r die).isSome &&
  !(Config.shoal die && decide (imgGroups h ≠ 0) && (List.range 8).any fun c => !Config.shoal c && s.dieAllowed q h c && (s.recFit skip q r c).isSome)

/-! Placement. -/

/-- The context becomes resident on a pan: from its oldest kept image where that fits, else with a new partition (06 R167, 14 R399). -/
def enterPan (pan ctx : Nat) : M Unit := do
  let s : State ← gs
  match (s.awayImages ctx).find? fun x => s.imageFits pan x.1 x.2 with
  | some x => do
    modContext ctx fun c => { c with away := c.away.filter fun y => decide (y.1 ≠ x.1) }
    restorePan pan x.1 ctx x.2
  | none => match s.lowestBase pan (s.psize ctx) with
    | some base => makeResident pan ctx base (base + s.psize ctx)
    | none => pure ()

/-- A pan receives a block of a context: its residency, its clamps; a task starts from zeros and no region (05 R137). -/
def reside (pan ctx : Nat) (task : Bool) : M Unit := do
  if ((← gs).resOf pan ctx).isNone then enterPan pan ctx
  match (← gs).resOf pan ctx with
  | none => pure ()
  | some i => do
    makeRunning pan i
    if task then
      let r := ((← gs).pan pan).res.get {} i
      zeroWords pan (fld r.spbase 8 12) (fld r.splim 8 13)
      each ((← gs).regionsOf pan ctx) fun r => emit (.region r none)
  setClamps pan

/-- Take an argument entry, or the one that the record has kept, and write the argument words into it (13 R459). -/
def takeArgs (ctx : Nat) (args : List Word) (prior : Option Nat) : M Nat := do
  match (← gs).context ctx with
  | none => return 0
  | some c => do
    let e := match prior with | some e => e | none => (((List.range c.argN).map fun i => (c.argLast + 1 + i) % c.argN).find? fun e => !NSet.mem e c.argHeld).getD 0
    modContext ctx fun c => { c with argHeld := NSet.ins e c.argHeld, argLast := if prior.isSome then c.argLast else e }
    each (List.range 16) fun i => do
      let va := c.argBase + word (128 * e + 8 * i)
      match ← lookup .nowhere ctx ((← gs).rootOf ctx) va.toNat with
      | some t =>
        match (← gs).locOf t va.toNat with
        | .mem pa => physWrite none none pa (bytesOf (dwAt args i).toNat 8)
        | _ => pure ()
      | none => pure ()
    return e

/-- A kernel begins. -/
def newKernel (q rid : Nat) (dw h : List Word) (task prior : Option Nat) : M Nat := do
  let kid ← freshId
  let ctx := ((← gs).queue q).ctx
  let arg ← takeArgs ctx ((recArgs dw).take (recNargs dw)) prior
  emit (.kernel kid (some {
    rid := rid, queue := q, ctx := ctx, dw := dw, hdr := h, nblk := recNblk dw, pans := needPans h dw, strands := needStrands h dw
    slots := needSlots h dw, placed := 0, retired := 0, killed := false, arg := arg, task := task }))
  return kid

/-- The lowest number of areas that no block of the context has. -/
def State.freeNumber (s : State) (ctx : Nat) : Nat :=
  let used := s.blockList.filterMap fun x => if x.2.ctx = ctx then some x.2.area else none
  ((List.range (used.length + 1)).find? fun n => !used.contains n).getD 0

/-- The next block of a kernel is PLACED on pans. -/
def placeBlock (kid : Nat) (pans : List Nat) : M Unit := do
  match (← gs).kernel kid with
  | none => pure ()
  | some k => do
    let b ← freshId
    let p := pans.headD 0
    emit (.block b (some {
      kernel := kid, ctx := k.ctx, area := (← gs).freeNumber k.ctx, idx := k.placed, st := .placed, die := p / 128, bay := p / 16 % 8, pans := pans, home := pans, mig := false
      preempt := false, resume := false, killOnResume := false, migReq := false, target := [], saved := [] }))
    modKernel kid fun k => { k with placed := k.placed + 1 }
    match k.task with
    | some t => modTask t fun x => { x with dies := NSet.ins (p / 128) x.dies }
    | none => pure ()
    each pans fun p => reside p k.ctx k.task.isSome
    let used ← freshId
    modHarbour fun x => { x with cache := x.cache.map fun c => if c.handle = recImage k.dw ∧ c.stale = false then { c with used := used } else c }

/-- The task that a kernel starts: an ordered one with its record's timestamp, or a shadow task with its prediction (05 R136, R143). -/
def newTask (q die rid : Nat) (ts : Nat) (pred : List Word) : M Nat := do
  let t ← freshId
  emit (.task t (some {
    kernel := 0, queue := q, die := die, shadow := !pred.isEmpty, direct := false, ts := ts, ord := rid, buf := [], lines := []
    rsig := 0, wsig := 0, rings := [], recs := [], pred := pred, finished := false }))
  return t

/-- Place the next block of the front record of a queue on a die (13 R378, R381). -/
def placeNext (q die : Nat) (r : QRec) (pans : List Nat) : M Unit := do
  let s : State ← gs
  let kid ← match r.kernel with
    | some kid => pure kid
    | none => do
      let task ← if (s.queue q).ordered then do
          let t ← newTask q die r.id (dwAt r.dw 2).toNat []
          pure (some t)
        else pure none
      let kid ← newKernel q r.id r.dw (s.recHdr r) task r.prior
      match task with
      | some t => modTask t fun x => { x with kernel := kid }
      | none => pure ()
      modQueue q fun x => { x with begun := x.begun ++ [r.id] }
      pure kid
  placeBlock kid pans
  let now := (← gs).gtime
  modQueue q fun x => { x with
    level := x.prio, since := now
    recs := if r.next + 1 = recNblk r.dw then x.recs.drop 1
      else x.recs.map fun y => if y.id = r.id then { y with kernel := some kid, next := r.next + 1 } else y }

/-! Shadow tasks (13 R384). -/

/-- The prediction of a queue that a die may start, with its image's header. -/
def State.shadowOk (s : State) (die q : Nat) : Option (List Word × List Word) :=
  let x := s.queue q
  if !bitOf (s.die die).shctl 0 || !x.specok || x.shadow.isSome then none
  else
    match predictOf x.hist (fun h => s.hdrOf h 3) with
    | none => none
    | some p =>
      match s.resident (recImage p) with
      | none => none
      | some c =>
        let free := (List.range (Config.baysOf die)).map fun b => (s.bayFree noSkip die b x.ctx (needSlots c.hdr p)).length
        let n := needPans c.hdr p
        let room := decide (recNblk p ≤ (free.map (· / n)).sum) && decide (recNblk p * n + min 128 (fld (s.die die).shres 0 10) ≤ free.sum)
        if agrees c.hdr p && imgSpec c.hdr && recSpec p && !recBarrier p && decide (0 < recNblk p) && s.dieAllowed q c.hdr die && s.argFree x.ctx &&
            decide ((s.tasks.countP fun t => match t.2 with | some y => y.shadow && decide (y.die = die) | none => false) < 8) &&
            decide (s.tasksOn die < 64) && room
        then some (p, c.hdr) else none

/-- ShadowStart(d): every block of the predicted record is placed. -/
def shadowStart (die : Nat) : M Unit := do
  let s : State ← gs
  if Config.shoal die then pure ()
  else
    let qs := (List.range 512).map fun i => (s.sched.shptr + 1 + i) % 512
    match qs.find? fun q => (s.shadowOk die q).isSome with
    | none => pure ()
    | some q =>
      match s.shadowOk die q with
      | none => pure ()
      | some (p, h) => do
        modSched fun x => { x with shptr := q }
        let t ← newTask q die 0 0 p
        let dw := [dwAt p 0, dwAt p 1, 0, 0, 0] ++ p.drop 2
        let kid ← newKernel q 0 dw h (some t) none
        modTask t fun x => { x with kernel := kid }
        modQueue q fun x => { x with shadow := some t }
        modDie die fun d => { d with pred := Tbl.put 0 0 (d.pred.get 0 0 + 1) d.pred }
        let k := (← gs).kernel kid
        each (List.range (recNblk p)) fun _ => do
          match k with
          | some k =>
            match (← gs).fitOn noSkip die k.ctx k.slots k.pans with
            | some pans => placeBlock kid pans
            | none => pure ()
          | none => pure ()

/-- The youngest shadow task of a die. -/
def State.youngestShadow (s : State) (die : Nat) : Option Nat :=
  ((s.tasks.filter fun x => match x.2 with | some t => t.shadow && decide (t.die = die) | none => false).getLast?).map (·.1)

/-- The queues with a front record, and their fronts. -/
def State.fronts (s : State) : List (Nat × QRec) :=
  s.queues.filterMap fun x => match x.2.recs with | r :: _ => if x.2.en then some (x.1, r) else none | [] => none

/-- A front that dispatch may place: its image is resident and has been agreed with, or its kernel has begun. -/
def State.placeable (s : State) (x : Nat × QRec) : Bool :=
  x.2.kernel.isSome || (x.2.bound.isNone && decide (recNblk x.2.dw ≠ 0) && match s.resident (recImage x.2.dw) with | some c => agrees c.hdr x.2.dw | none => false)

/-- 13 R386, code 6: while a ready queue fits a die only on the pans that its shadow tasks hold, the youngest is discarded. -/
def displace : Nat → Nat → M Unit
  | 0, _ => pure ()
  | n + 1, die => do
    let s : State ← gs
    match s.youngestShadow die with
    | none => pure ()
    | some t =>
      if s.fronts.any fun x => s.placeable x && !s.ready noSkip x.1 x.2 die && s.ready (s.isShadowOn die) x.1 x.2 die then
        discardShadow t 6
        displace n die
      else pure ()

/-! Migration targets and evicted blocks (14 R404, R399). -/

/-- A pan can take over the state that a context holds on an old pan: the same partition, the same regions. -/
def State.panSuits (s : State) (ctx slots old new : Nat) : Bool :=
  let r := s.residency old ctx
  let base := fld r.spbase 8 12
  s.panFree noSkip new ctx slots none && (s.resOf new ctx).isNone && s.wordsFree new base (fld r.splim 8 13 - base) &&
  (s.regionsOf old ctx).all fun k => match s.region k with
    | some x => (s.region (16 * new + k % 16)).isNone && s.rectFree new x
    | none => true

/-- The first set of pans, in ascending lexicographic order, whose `i`-th suits the `i`-th of `olds`. -/
def firstSet (ok : Nat → Nat → Bool) : List Nat → List Nat → Option (List Nat)
  | [], _ => some []
  | _ :: _, [] => none
  | o :: os, p :: ps =>
    if ok o p then
      match firstSet ok os ps with
      | some l => some (p :: l)
      | none => firstSet ok (o :: os) ps
    else firstSet ok (o :: os) ps

/-- The pans of a die that a migrating block would take. -/
def State.migTarget (s : State) (b : Block) (die : Nat) : Option (List Nat) :=
  match s.kernel b.kernel with
  | none => none
  | some k =>
    if Config.shoal die || !(s.queue k.queue).aff.testBit die then none
    else (List.range (Config.baysOf die)).findSome? fun bay =>
      firstSet (s.panSuits b.ctx k.slots) b.pans ((List.range 16).map fun i => die * 128 + bay * 16 + i)

/-- A die takes the first pending migration request that it can serve. -/
def serveMigration (die : Nat) : M Bool := do
  let s : State ← gs
  match s.blockList.findSome? fun x => if x.2.migReq && decide (x.2.st = .running) then (s.migTarget x.2 die).map fun l => (x, l) else none with
  | none => return false
  | some ((b, blk), l) => do
    stopBlock blk
    modBlock b fun x => { x with migReq := false, target := l, st := .moving }
    return true

/-- The image of pan `i` of an evicted block, where the block keeps it. -/
def Block.image (b : Block) (i : Nat) : Option PanImage := (b.saved.find? fun x => decide (x.1 = i)).map (·.2)

/-- A pan can take pan `i` of an evicted block; not where the context has become resident meanwhile (log 29). -/
def State.panRestores (s : State) (blk : Block) (slots i new : Nat) : Bool :=
  match blk.image i with
  | some x => Config.panExists new && !s.panBusy noSkip new && (s.resOf new blk.ctx).isNone && (s.freeRes new).isSome &&
      decide ((slots + 3) / 4 ≤ s.freeQuads new blk.ctx) && s.imageFits new (nth 0 blk.pans i) x
  | none => s.panFree noSkip new blk.ctx slots (s.awayImages blk.ctx).head?

/-- The pans of a die for an evicted block; a Crest image is not restored to a Shoal die (14 R399). -/
def State.evictTarget (s : State) (blk : Block) (die : Nat) : Option (List Nat) :=
  match s.kernel blk.kernel with
  | some k =>
    if !(s.queue k.queue).en || !s.dieAllowed k.queue k.hdr die || (Config.shoal die && !Config.shoal blk.die) then none
    else (List.range (Config.baysOf die)).findSome? fun bay =>
      firstSet (s.panRestores blk k.slots) (List.range blk.pans.length) ((List.range 16).map fun i => die * 128 + bay * 16 + i)
  | none => none

/-- An evicted block is PLACED on new pans, whose channels have room for its commands: its partitions and regions are restored; its strands follow when it starts. -/
def serveEvicted (die : Nat) : M Bool := do
  let s : State ← gs
  match s.blockList.findSome? fun x => if x.2.st = .evicted then (s.evictTarget x.2 die).bind fun l => if s.chansFit x.1 x.2.pans l then some (x, l) else none else none with
  | none => return false
  | some ((b, blk), l) => do
    each (enumFrom 0 l) fun x =>
      match blk.image x.1 with
      | some img => do
        restorePan x.2 (nth 0 blk.pans x.1) blk.ctx img
        setClamps x.2
      | none => reside x.2 blk.ctx false
    renameBlock b id (renamePan blk.pans l) id
    modBlock b fun x => { x with st := .placed, die := die, bay := l.headD 0 / 16 % 8, pans := l, saved := [] }
    return true

/-! The dispatch cycle (13 R378). -/

/-- The candidate with the largest deficit, ties to the first after the level's pointer. -/
def pickQueue (defi : Nat → Int) (ptr : Nat) (qs : List Nat) : Option Nat :=
  let best := qs.filter fun q => qs.all fun r => decide (defi r ≤ defi q)
  ((List.range 512).map fun i => (ptr + 1 + i) % 512).find? best.contains

/-- The queues of a level that are ready for some die have their deficits raised by a quantum. -/
def replenish (level : Nat) : M Unit := do
  let s : State ← gs
  each (s.fronts.filter fun x => decide ((s.queue x.1).level = level) && s.placeable x && (List.range 8).any (s.ready noSkip x.1 x.2)) fun x =>
    modQueue x.1 fun q => { q with deficit := min (q.deficit + 4 * (q.weight + 1)) (8 * (q.weight + 1)) }

/-- The decision for one die, after it has served a migration request that chose it. -/
def decideDie (die : Nat) : M Unit := do
  let _ ← serveMigration die
  displace 8 die
  let s : State ← gs
  let cand := (s.fronts.filter fun x => s.placeable x && s.ready noSkip x.1 x.2 die).map (·.1)
  if cand.isEmpty then
    if ← serveEvicted die then pure () else shadowStart die
  else
    let top := cand.foldl (fun m q => max m (s.queue q).level) 0
    let c := cand.filter fun q => decide ((s.queue q).level = top)
    if c.all fun q => decide ((s.queue q).deficit ≤ 0) then replenish top
    let s : State ← gs
    match pickQueue (fun q => (s.queue q).deficit) (s.sched.lptr.get 0 top) c with
    | none => pure ()
    | some q =>
      match (s.queue q).recs with
      | [] => pure ()
      | r :: _ =>
        match s.recFit noSkip q r die with
        | none => pure ()
        | some pans => do
          placeNext q die r pans
          modQueue q fun x => { x with deficit := x.deficit - pans.length }
          modSched fun x => { x with lptr := Tbl.put 0 top q x.lptr }
          let _ ← front q

/-- DISPATCH_CYCLE. None is made from the start of a checkpoint until every device of the domain has reported (15 R424). -/
def execDispatchCycle (s : State) : Host.Outcome State Fault Refusal := run (do
  if (← gs).ckpt.halted then finish
  kickLoads
  each ((← gs).queues.map (·.1)) fun q => do
    let _ ← front q
  let p := (← gs).sched.dieptr
  each (List.range 8) fun j => decideDie ((p + j) % 8)
  modSched fun x => { x with dieptr := (x.dieptr + 1) % 8 }
  let s1 : State ← gs
  each (s1.queues.map (·.1)) fun q =>
    if s1.fronts.any fun x => decide (x.1 = q) && s1.placeable x && (List.range 8).any (s1.ready noSkip q x.2) then pure ()
    else modQueue q fun x => { x with deficit := 0 }) s

/-- QUEUE_AGING (13 R377): 1,000,000 ticks have passed without a dispatch while the queue has a front. -/
def execQueueAging (q : Nat) (s : State) : Host.Outcome State Fault Refusal := run (do
  let x := (← gs).queue q
  if !x.recs.isEmpty && decide (x.prio ≠ 7) && decide (x.level < 6) then
    emit (.gtime (max (← gs).gtime (x.since + 1000000)))
    modQueue q fun x => { x with level := x.level + 1, since := x.since + 1000000 }) s

end Sys2Proof.Machine
end

