-- ==== Sys2Proof/Machine/Blocks.lean ====
section
/-! DEFINITION. The events of a block's life beside dispatch and retirement: its start (06 R160), pre-emption and resumption (14 R395), eviction (14 R399), kill (14 R401) and migration (14 R404, R405). -/

namespace Sys2Proof.Machine

/-! The start of a block. -/

/-- The entry point of a kernel (06 R160, 08 R237), and its global pointer. -/
def Kernel.imageBase (k : Kernel) : Word := Config.imageVA k.ctx (recImage k.dw)
def Kernel.entryPc (k : Kernel) : Word := k.imageBase + word ((imgSec k.hdr 0).1 + imgEntry k.hdr (recEntry k.dw))
def Kernel.gp (k : Kernel) : Word := k.imageBase + word (fld (dwAt k.hdr 7) 32 32)

/-- The general registers of strand `j` of pan `i` of a block, at the key `key` (06 R160). -/
def startGprs (c : Ctx) (k : Kernel) (idx i j key : Nat) : Tbl Word :=
  let args := (recArgs k.dw).take (recNargs k.dw)
  let l := [(1, c.stub), (2, Config.stackTop k.ctx key * 16), (3, k.gp)] ++ ((List.range 8).map fun n => (4 + n, dwAt args n)) ++
    [(12, word idx), (13, c.argBase + word (128 * k.arg)), (14, word (4 * i + j))]
  l.foldl (fun t x => Tbl.put 0 x.1 x.2 t) []

/-- A strand at the start of a block (06 R160). What the table does not name stays; K and the `kill` word are cleared (14 R390, R400). -/
def startStrand (c : Ctx) (k : Kernel) (b idx i j key : Nat) (st : Strand) : Strand :=
  { st.left with
    st := .run, pc := k.entryPc, g := startGprs c k idx i j key, weight := 4, ctx := k.ctx
    tstatus := word (fld st.tstatus 0 3), kill := 0
    blockid := word idx, blockcount := word k.nblk, block := some b }

/-- The strands of a block that starts for the first time. -/
def startFresh (b : Nat) (blk : Block) : M Unit := do
  match (← gs).kernel blk.kernel with
  | none => pure ()
  | some k => do
    match (← gs).context blk.ctx with
    | none => pure ()
    | some c => each (enumFrom 0 blk.pans) fun x => each (List.range k.strands) fun j => do
        modStrand (4 * x.2 + j) (startStrand c k b blk.idx x.1 j (4 * x.2 + j))

/-- The strands of a block are filled from its save areas, or from their compact images. -/
def fillBlock (b : Nat) (compact : Bool) : M Unit := do
  let s : State ← gs
  match s.block b with
  | none => pure ()
  | some blk => match s.context blk.ctx with
    | none => pure ()
    | some c => each (enumFrom 0 blk.pans) fun x => each (List.range (s.strandsOf blk)) fun j =>
        fillStrand (4 * x.2 + j) blk.ctx ((if compact then evictSlot else saveSlot) c blk.area x.1 j) compact

/-- BLOCK_START: all strands of a placed block begin to issue; those of a block that was evicted go on. -/
def execBlockStart (b : Nat) (s : State) : Host.Outcome State Fault Refusal := run (do
  match (← gs).block b with
  | none => pure ()
  | some blk =>
    if blk.st = .placed then
      clearPans none blk.pans
      if blk.home = blk.pans then startFresh b blk
      else
        onload b
        fillBlock b true
      goOn b) s

/-! Pre-emption. -/

/-- The block begins to stop, and every latch is set (09 R271). A waiting migration request is dropped; on a moving block the request waits (14 R402). -/
def preempt (b : Nat) : M Unit := do
  match (← gs).block b with
  | none => pure ()
  | some blk =>
    if blk.st = .running ∨ blk.st = .moving then
      modBlock b fun x => { x with preempt := true, migReq := false }
      each ((← gs).blockStrands blk) fun k => modStrand k fun st => { st with latch := true }
      if blk.st = .running then stopBlock blk

/-- PREEMPT_REQUEST. -/
def execPreemptRequest (b : Nat) (s : State) : Host.Outcome State Fault Refusal := run (preempt b) s

/-- The save engine writes what has changed of the strands of a block to its save areas (14 R398). -/
def saveBlock (blk : Block) : M Unit := do
  let s : State ← gs
  match s.context blk.ctx with
  | none => pure ()
  | some c => each (enumFrom 0 blk.pans) fun x => each (List.range (s.strandsOf blk)) fun j => do
      let st := s.strand (4 * x.2 + j)
      savePieces (x.2 / 128) (saveSlot c blk.area x.1 j) (st.savePieces (Config.shoal (x.2 / 128)) (!st.saved))
      modStrand (4 * x.2 + j) fun st => { st.clean with saved := true }

/-- PREEMPT_COMPLETE: the block has stopped and is saved; its context is PARKED on its pans (06 R166). -/
def execPreemptComplete (b : Nat) (s : State) : Host.Outcome State Fault Refusal := run (do
  match (← gs).block b with
  | none => pure ()
  | some blk =>
    if blk.st = .running && blk.preempt && (← gs).blockQuiet blk then
      saveBlock blk
      modBlock b fun x => { x with st := .parked, preempt := false }
      each blk.pans fun p => do
        match (← gs).resOf p blk.ctx with
        | some i => modPan p fun x => { x with res := Tbl.put {} i { x.res.get {} i with st := .parked } x.res }
        | none => pure ()) s

/-- RESUME_REQUEST. -/
def execResumeRequest (b : Nat) (s : State) : Host.Outcome State Fault Refusal := run (
  modBlock b fun x => if x.st = .parked then { x with resume := true } else x) s

/-- BLOCK_RESUME: each pan is free for the block again. -/
def execBlockResume (b : Nat) (s : State) : Host.Outcome State Fault Refusal := run (do
  let s1 : State ← gs
  match s1.block b with
  | none => pure ()
  | some blk =>
    let slots := match s1.kernel blk.kernel with | some k => k.slots | none => 0
    if blk.st = .parked && blk.resume && !s1.ckpt.halted && blk.pans.all (fun p => s1.panFree noSkip p blk.ctx slots none) then
      clearPans (some b) blk.pans
      onload b
      fillBlock b false
      goOn b) s

/-! Eviction. -/

/-- EVICT_REQUEST: a parked context of a pan. -/
def execEvictRequest (pan res : Nat) (s : State) : Host.Outcome State Fault Refusal := run (
  if res < 4 then
    modPan pan fun p =>
      let r := p.res.get {} res
      if r.st = .parked then { p with res := Tbl.put {} res { r with st := .evicting } p.res } else p
  else pure ()) s

/-- Nothing of the context is under way on a pan that is to be evicted. -/
def State.evictQuiet (s : State) (pan ctx : Nat) : Bool :=
  ((s.regionsOf pan ctx).all fun r => [0, 1, 2, 3].all fun i =>
    (s.slot r i).grains.all fun g => g.2.waiting.isEmpty) &&
  (s.fabric.requests.all fun q => match q.who with | .bind r _ _ => !(s.regionsOf pan ctx).contains r | _ => true) &&
  (List.range 8).all fun c => (s.chan (8 * pan + c)).q.all fun x => decide (x.ctx ≠ ctx) || decide (x.phase = .idle)

/-- The regions of a context leave a pan for the number `v`; their slots' images are written at `area`. -/
def keepRegions (pan v ctx area : Nat) : M Unit := do
  let rs := (← gs).regionsOf pan ctx
  each rs fun r => each [0, 1, 2, 3] fun i => do
    endBinds r i
    modSlot r i Slot.imported
    let x := (← gs).slot r i
    if x.st ≠ .free then saveSlotImage (pan / 128) (slotArea area (r % 16) i) x
  each rs fun r => moveRegion id r (16 * v + r % 16)
  renameRegions rs ctx pan v

/-- Pan `i` of a block is evicted; with its last pan the block is (06 R162). -/
def evictBlockPan (b i : Nat) : M Unit := do
  match (← gs).block b with
  | none => pure ()
  | some blk => do
    let pans := upd blk.pans i fun _ => vpan b i
    renameBlock b id (renamePan blk.pans pans) id
    modBlock b fun x => { x with pans := pans, st := if pans.all fun p => decide (65536 ≤ p) then .evicted else x.st, resume := false }

/-- The lowest number of an area of the context that no kept image uses. -/
def State.freeArea (s : State) (ctx : Nat) (c : Ctx) : Nat :=
  let used := c.away.map (·.2.area) ++ s.blockList.flatMap fun x => if x.2.ctx = ctx then x.2.saved.map (·.2.area) else []
  ((List.range (used.length + 1)).find? fun n => !used.contains (evictArea c n)).getD 0

/-- The compact images of the strands of pan `i` of a block are written (14 R399). -/
def saveStrandImages (d b i : Nat) (c : Ctx) : M Unit := do
  let s : State ← gs
  match s.block b with
  | none => pure ()
  | some blk => each (List.range (s.strandsOf blk)) fun j => do
      saveWhole d (evictSlot c blk.area i j) ((s.strand (4 * nth 0 blk.home i + j)).imagePieces (Config.shoal d))

/-- The images of a context are written, and it becomes ABSENT on the pan. Its first parked block there keeps the partition and the regions; with none there, the context does. -/
def evictPan (pan res : Nat) : M Unit := do
  let s1 : State ← gs
  let ctx := ((s1.pan pan).res.get {} res).ctx
  match s1.context ctx with
  | none => pure ()
  | some c => do
    let bs := s1.blockList.filterMap fun x => if x.2.ctx = ctx ∧ x.2.st = .parked then (findIdx? (· == pan) x.2.pans).map fun i => (x.1, i) else none
    let area := evictArea c (s1.freeArea ctx c)
    each bs fun x => do
      offload x.1
      saveStrandImages (pan / 128) x.1 x.2 c
    let v ← match bs.head? with
      | none => do pure (2 ^ 64 + (← freshId))
      | some x => pure (vpan x.1 x.2)
    let img ← savePartition pan ctx area
    keepRegions pan v ctx area
    match bs.head? with
    | none => modContext ctx fun c => { c with away := c.away ++ [(v, img)] }
    | some x => modBlock x.1 fun b => { b with saved := b.saved ++ [(x.2, img)] }
    each bs fun x => evictBlockPan x.1 x.2
  makeAbsent pan res

/-- EVICTION_COMPLETE. -/
def execEvictionComplete (pan res : Nat) (s : State) : Host.Outcome State Fault Refusal := run (do
  let s1 : State ← gs
  let r := (s1.pan pan).res.get {} res
  if res < 4 && decide (r.st = .evicting) && s1.evictQuiet pan r.ctx then evictPan pan res) s

/-! Kill. -/

/-- KILL_WRITE: firmware writes 1 to the `kill` word of a strand (14 R400). -/
def execKillWrite (k : Nat) (s : State) : Host.Outcome State Fault Refusal :=
  run (if Config.panExists (panOf k) then killStrand k else pure ()) s

/-! Migration. -/

/-- Ring entries whose PSEL names an old pan follow (14 R405). -/
def renameRings (ctx : Nat) (pm : Nat → Nat) : M Unit := do
  each ((← gs).rings.map (·.1)) fun id => modRing id fun r =>
    if r.owner = some ctx ∧ r.space = true then { r with psel := renameSel pm r.psel } else r

/-- MIGRATION_COPY_COMPLETE: once every write of the block is performed and the new channels have room, the state is on the new pans. -/
def execMigrationCopyComplete (b : Nat) (s : State) : Host.Outcome State Fault Refusal := run (do
  let s1 : State ← gs
  match s1.block b with
  | none => pure ()
  | some blk =>
    if blk.st = .moving && s1.blockQuiet blk && s1.writesDone b blk && s1.chansFit b blk.pans blk.target then
      let olds := blk.pans
      let news := blk.target
      let pm := renamePan olds news
      each (olds.zip news) fun x => do
        copyPartition x.1 x.2 blk.ctx
        let i := ((← gs).resOf x.2 blk.ctx).getD 0
        let rs := (← gs).regionsOf x.1 blk.ctx
        each rs fun r => moveRegion (fun y => { y with res := i }) r (16 * x.2 + r % 16)
        renameRegions rs blk.ctx x.1 x.2
        modPan x.2 fun p => { p with icache := [] }
      moveStrands Strand.toCrest b olds news (s1.strandsOf blk)
      renameBlock b id pm (·.reselect pm)
      renameRings blk.ctx pm
      modBlock b fun x => { x with st := .running, die := news.headD 0 / 128, bay := news.headD 0 / 16 % 8, pans := news, home := news, mig := true, target := [] }
      each olds fun p => leavePan p blk.ctx b
      each news setClamps
      if blk.preempt then pure () else goOn b) s

end Sys2Proof.Machine
end

