-- ==== Sys2Proof/Machine/Firmware.lean ====
section
/-! DEFINITION. What firmware does to the whole device: contexts and queues (06 R156, 13 R383, R386), checkpoint and recovery (15 R424 to R426). -/

namespace Sys2Proof.Machine

/-! Contexts and queues. -/

/-- CONTEXT_CREATE: a free context number, and what firmware records (06 R156, R160, R167, 13 R459). Values outside their ranges create nothing (log 22). -/
def execContextCreate (c : CtxSpec) (s : State) : Host.Outcome State Fault Refusal := run (do
  if decide (c.num < 0xFFFF) && ((← gs).context c.num).isNone && decide (c.lclass < 4) && decide (c.psize ≤ 4096) && decide (c.argBase.toNat % 128 = 0) &&
      decide (1 ≤ c.argN ∧ c.argN ≤ 65536) then
    emit (.context c.num (some ⟨c.troot, c.lclass, c.psize, c.argBase, c.argN, c.argN - 1, [], c.stub, c.saveBase, c.evictBase, []⟩))) s

/-- What a context holds on its pans, its rings, counters and streams are free again (log 22). -/
def freeContext (c : Nat) : M Unit := do
  each ((← gs).pans.map (·.1)) fun p => do
    match (← gs).resOf p c with
    | some i => do
      each ((← gs).regionsOf p c) fun r => emit (.region r none)
      makeAbsent p i
    | none => pure ()
  match (← gs).context c with
  | some x => each x.away fun y => do
    each ((← gs).regionsOf y.1 c) fun r => emit (.region r none)
  | none => pure ()
  each ((← gs).rings.map (·.1)) fun id => modRing id fun r => if r.owner = some c then {} else r
  each ((← gs).counters.map (·.1)) fun id => modCounter id fun r => if r.owner = some c then {} else r
  each ((← gs).streams.map (·.1)) fun id => modStream id fun r => if r.owner = some c then { seq := r.seq } else r
  emit (.context c none)

/-- CONTEXT_DESTROY: its shadow tasks are discarded (13 R386); a context without a kernel goes. -/
def execContextDestroy (c : Nat) (s : State) : Host.Outcome State Fault Refusal := run (do
  each ((← gs).tasks.map (·.1)) fun t => do
    match (← gs).task t with
    | some x => if x.shadow && decide (((← gs).queue x.queue).ctx = c) then discardShadow t 7
    | none => pure ()
  let s1 : State ← gs
  if (s1.context c).isSome && s1.kernels.all (fun k => match k.2 with | some x => decide (x.ctx ≠ c) | none => true) then freeContext c) s

/-- QUEUE_CLEAR: the records whose kernels have not begun, and the history (13 R383); a shadow task's prediction goes with it (log 22). -/
def execQueueClear (q : Nat) (s : State) : Host.Outcome State Fault Refusal := run (do
  match ((← gs).queue q).shadow with
  | some t => discardShadow t 7
  | none => pure ()
  let x := (← gs).queue q
  each (x.recs.filter fun r => r.kernel.isNone) fun r => freePrior x.ctx r
  modQueue q fun x => { x with recs := x.recs.filter fun r => r.kernel.isSome, hist := [] }
  kickLoads) s

/-! Checkpoints (15 R424). -/

/-- Every other device of the domain has reported (15 R457). -/
def State.allReported (s : State) : Bool :=
  s.harbour.domtab.all fun x => (List.range 64).all fun i =>
    !bitOf x.2 i || decide (x.1 * 64 + i = s.harbour.devid) || NSet.mem (x.1 * 64 + i) s.ckpt.reports

/-- Once every device has reported, the streams to the safe tier begin. -/
def startStreaming : M Unit := do
  if (← gs).ckpt.quiesced && (← gs).allReported then modCkpt fun c => { c with streaming := true }

/-- Commit the finished ordered tasks that are the oldest, one after another. -/
def commitReady : Nat → M Unit
  | 0 => pure ()
  | n + 1 => do
    let s1 : State ← gs
    match s1.orderedTasks.find? fun x => x.2.finished && !x.2.direct && s1.isOldest x.1 with
    | none => pure ()
    | some (t, x) => do
      commitTask t true
      emit (.task t none)
      completeKernel x.kernel
      commitReady n

/-- T has come: no queue dispatches, shadow tasks go, ordered tasks commit or start again later. -/
def beginCheckpoint : M Unit := do
  modCkpt fun c => { c with active := true, quiesced := false, reports := [], streaming := false, cut := none }
  each ((← gs).queues.map (·.1)) fun q => modQueue q fun x => { x with cfg := x.cfg &&& ~~~(word (2 ^ 47)) }
  each ((← gs).tasks.map (·.1)) fun t => do
    match (← gs).task t with
    | some x => if x.shadow then discardShadow t 7
    | none => pure ()
  commitReady (← gs).tasks.length
  each ((← gs).tasks.map (·.1)) fun t => do
    match (← gs).task t with
    | some x => if !x.direct then abortTask t
    | none => pure ()

/-- Every block is parked or evicted, no collective is pending, nothing is outstanding, and every resident context can be evicted. -/
def State.quietForCut (s : State) : Bool :=
  (s.blockList.all fun x => decide (x.2.st = .parked) || decide (x.2.st = .evicted)) &&
  (s.streams.all fun v => v.2.pend.isNone && v.2.waitq.isEmpty && v.2.aborts.isEmpty) &&
  s.fabric.requests.isEmpty && s.fabric.outbox.isEmpty && s.fabric.inbound.isEmpty && s.fabric.moving.isEmpty &&
  s.pans.all fun p => [0, 1, 2, 3].all fun i =>
    let r := p.2.res.get {} i
    decide (r.st = .absent) || s.evictQuiet p.1 r.ctx

/-- Every context is evicted from every pan. -/
def evictAll : M Unit := do
  each ((← gs).pans.map (·.1)) fun p => each [0, 1, 2, 3] fun i => do
    if (((← gs).pan p).res.get {} i).st ≠ .absent then evictPan p i

def State.snapshot (s : State) : Snapshot :=
  { time := s.gtime, mem := s.mem, poison := s.poison, rings := s.rings, counters := s.counters, owned := s.fabric.owned, away := s.fabric.away, back := s.fabric.back
    streams := s.streams, sched := s.sched, blocks := s.blocks, kernels := s.kernels, queues := s.queues
    strands := s.strands, regions := s.regions, chans := s.chans, contexts := s.contexts }

/-- CHECKPOINT_START: the device's steps toward the cut; with the last of them it reports itself quiesced. -/
def execCheckpointStart (s : State) : Host.Outcome State Fault Refusal := run (do
  if !(← gs).ckpt.active then beginCheckpoint
  if !(← gs).ckpt.quiesced then
    each (← gs).blockList fun x => if x.2.st = .running && !x.2.preempt then preempt x.1 else pure ()
    if (← gs).quietForCut then
      evictAll
      let cut := (← gs).snapshot
      modCkpt fun c => { c with quiesced := true, cut := some cut }
      startStreaming) s

/-- QUIESCED_REPORT of another device. -/
def execQuiescedReport (dev : BitVec 19) (s : State) : Host.Outcome State Fault Refusal := run (do
  modCkpt fun c => { c with reports := NSet.ins dev.toNat c.reports }
  startStreaming) s

/-- CHECKPOINT_COMPLETE: the latest complete checkpoint and the one before it are kept. -/
def execCheckpointComplete (s : State) : Host.Outcome State Fault Refusal := run (do
  match (← gs).ckpt.streaming, (← gs).ckpt.cut with
  | true, some c => modCkpt fun x => { kept := (c :: x.kept).take 2 }
  | _, _ => pure ()) s

/-! Recovery (15 R426). -/

/-- A table is given the entries of another. -/
def restoreTbl {α : Type} (d : α) (old new : Tbl α) (mk : Nat → α → Upd) : M Unit :=
  each (old.map (·.1) ++ new.map (·.1)) fun k => emit (mk k (new.get d k))

/-- The device as at a checkpoint; translations, lines and work since then are dropped. -/
def restoreCut (c : Snapshot) : M Unit := do
  let s : State ← gs
  emit (.restoreMem c.mem c.poison)
  restoreTbl {} (s.strands.filter fun x => !(decide (4096 ≤ x.1 ∧ x.1 < 4100))) (c.strands.filter fun x => !(decide (4096 ≤ x.1 ∧ x.1 < 4100))) .strand
  restoreTbl none s.regions c.regions .region
  restoreTbl {} s.chans c.chans .chan
  restoreTbl none s.contexts c.contexts .context
  restoreTbl {} s.rings c.rings .ring
  restoreTbl {} s.counters c.counters .counter
  restoreTbl {} s.streams c.streams .stream
  restoreTbl none s.blocks c.blocks .block
  restoreTbl none s.kernels c.kernels .kernel
  restoreTbl {} s.queues c.queues .queue
  restoreTbl none s.tasks [] .task
  each (s.pans.map (·.1)) fun p => do
    modPan p fun x => { x with res := [], tlb := [], icache := [] }
    setClamps p
  emit (.panZero 0 (1024 * 8388608))
  each (s.bays.map (·.1)) fun y => emit (.bay y {})
  each (s.dies.map (·.1)) fun d => modDie d fun x => { x with inTlb := [], inWalk := [], reducer := [] }
  emit (.sched c.sched)
  emit (.invs [])
  emit (.fabric { owned := c.owned, away := c.away, back := c.back })
  modCkpt fun x => { kept := x.kept }

/-- FAULT_RECOVERY: from the latest complete checkpoint. -/
def execFaultRecovery (s : State) : Host.Outcome State Fault Refusal := run (do
  match (← gs).ckpt.kept with
  | [] => pure ()
  | c :: _ => restoreCut c) s

end Sys2Proof.Machine
end

