-- ==== Sys2Proof/Machine/Harbour.lean ====
section
/-! DEFINITION. The Harbour die: ownership (15 R423), host windows (01 R32), ingress streams (13 R379), the image table (13 R380), register writes (01 R33, R34), power and temperature (19 R454), reset and boot (19 R453), the scrubber (19 R455) and the error log (19 R456). -/

namespace Sys2Proof.Machine

/-! Ownership (15 R423). -/

def State.isOwner (s : State) (port : Nat) : Bool := decide (port < 2) && decide (s.harbour.owner = port + 1)

/-- A host port's link is up. -/
def Harbour.up (h : Harbour) (port : Nat) : Bool := h.portUp.get true port

/-- The owner's write to its port's register space; another's is ignored and logged, by its offset there. -/
def byOwner (port off : Nat) (v : Word) (m : M Unit) : M Unit := do
  if (← gs).isOwner port then m else logRefused off v

/-- One port's claim. -/
def claimOwner (port : Nat) : M Unit :=
  modHarbour fun h =>
    if h.owner = 0 ∨ (h.owner ≠ port + 1 ∧ h.hpend = true) then { h with owner := port + 1, hpend := false, downTimer := !h.up port } else h

/-- OWNCLAIM_WRITE: claims of one cycle; before READY they are ignored (19 R453). -/
def execOwnclaimWrite (p0 p1 : Bool) (s : State) : Host.Outcome State Fault Refusal := run (do
  if (← gs).harbour.bootStep = 4 then
    if p0 then claimOwner 0
    if p1 then claimOwner 1) s

/-- OWNHAND_WRITE. -/
def execOwnhandWrite (port : Nat) (v : Word) (s : State) : Host.Outcome State Fault Refusal :=
  run (byOwner port 0x10 v (modHarbour fun h => { h with hpend := bitOf v 0 })) s

/-- OWNER_LINK_TIMEOUT: the owner's link has been down for 100 ms; an offered handover ends with the ownership (log 23). -/
def execOwnerLinkTimeout (s : State) : Host.Outcome State Fault Refusal := run (
  modHarbour fun h => if h.owner ≠ 0 ∧ h.downTimer = true then { h with owner := 0, hpend := false, downTimer := false } else h) s

/-- HOST_PORT_LINK_DOWN: a port's link goes down, or comes back up. -/
def execHostPortLinkDown (port : Nat) (up : Bool) (s : State) : Host.Outcome State Fault Refusal := run (
  if port < 2 then
    modHarbour fun h => { h with portUp := Tbl.put true port up h.portUp, downTimer := if h.owner = port + 1 then !up else h.downTimer }
  else pure ()) s

/-- A place in host memory. -/
def Place.isHost (p : Place) : Bool := match p with | .at_ (.host _ _) => true | _ => false

/-- 01 R32: a host access that has passed its check is still to complete: a read on its way, an element of a VLDA, a notification, an access of an instruction that waits, a chunk in progress, a collective. -/
def State.hostOutstanding (s : State) : Bool :=
  (s.fabric.requests.any fun r => r.host.isSome) ||
  (s.strands.any fun x => x.2.held.any (·.2.isHost) || (x.2.vlda.any fun g => g.elems.any fun e => e.2.2.isHost) || x.2.ntf.any fun n => (Place.at_ n.loc).isHost) ||
  (s.chans.any fun c => c.2.q.any fun x => x.held.any (·.2.isHost) ||
    (decide (x.phase ≠ .idle) && x.elems.any fun e => e.dst.isHost || match e.src with | some p => p.isHost | none => false)) ||
  s.streams.any fun v => v.2.held.any (·.2.isHost)

/-- What a host's read returns leaves through its port. -/
def answerHost (port : Nat) (v : Word) : M Unit := modHarbour fun h => { h with hostOut := h.hostOut ++ [.answer port v] }

/-- A read of `HWSYNC` returns 0 once every host access that has passed a check has completed (01 R32); until then it waits. -/
def hwsyncRead (port : Nat) : M Unit := do
  if !(← gs).hostOutstanding then
    modHarbour fun h => { h with unconfirmed := [] }
    answerHost port 0

/-- HWSYNC_READ. -/
def execHwsyncRead (port : Nat) (s : State) : Host.Outcome State Fault Refusal := run (hwsyncRead port) s

/-- HOST_WINDOW_WRITE: dword `dw` of window `w` (01 R29, R32). -/
def execHostWindowWrite (port w dw : Nat) (v : Word) (s : State) : Host.Outcome State Fault Refusal := run (
  if w < 1024 ∧ dw < 2 then
    byOwner port (0x20000 + 16 * w + 8 * dw) v
      (modHarbour fun h => { h with windows := Tbl.put 0 (2 * w + dw) (v &&& (if dw = 0 then 0xFFFFFFFFFFFF0000 else 0xFFFFFFFF0000000F)) h.windows })
  else pure ()) s

/-! Ingress streams (13 R379). -/

def ingressKey (port i : Nat) : Nat := 64 * port + i
def State.ingress (s : State) (port i : Nat) : Ingress := s.harbour.ingress.get {} (ingressKey port i)
def modIngress (port i : Nat) (f : Ingress → Ingress) : M Unit :=
  modHarbour fun h => { h with ingress := Tbl.put {} (ingressKey port i) (f (h.ingress.get {} (ingressKey port i))) h.ingress }

/-- A token's write to an ingress window, by the owner; another's has no effect. -/
def ingressWrite (port i off : Nat) (v : Word) (m : M Unit) : M Unit :=
  if i < 64 then byOwner port (0x40000 + 0x1000 * i + off) v m else pure ()

/-- The stream takes its token when `n` of its words have come; else it is dropped with SEQUENCE. -/
def takeToken (port i : Nat) (ok : Ingress → Bool) (v : Word) : M Unit :=
  modIngress port i fun x => if x.active && ok x then { x with words := x.words ++ [v] } else { x with words := [], active := false, status := 4 }

def execIhead (port i : Nat) (v : Word) (s : State) : Host.Outcome State Fault Refusal := run (
  ingressWrite port i 0 v (modIngress port i fun x => { x with words := [v], active := true, status := if x.active then 4 else x.status })) s
def execIctrl (port i : Nat) (v : Word) (s : State) : Host.Outcome State Fault Refusal :=
  run (ingressWrite port i 8 v (takeToken port i (fun x => decide (x.words.length = 1)) v)) s
def execItstamp (port i : Nat) (v : Word) (s : State) : Host.Outcome State Fault Refusal :=
  run (ingressWrite port i 0x10 v (takeToken port i (fun x => decide (x.words.length = 2)) v)) s
def execIcmpl (port i : Nat) (v : Word) (s : State) : Host.Outcome State Fault Refusal :=
  run (ingressWrite port i 0x18 v (takeToken port i (fun x => decide (x.words.length = 3)) v)) s
def execIarg (port i : Nat) (v : Word) (s : State) : Host.Outcome State Fault Refusal :=
  run (ingressWrite port i 0x20 v (takeToken port i (fun x => decide (4 ≤ x.words.length ∧ x.words.length < 4 + recNargs x.words)) v)) s

/-- The record that a stream describes: JOIN = 0. -/
def Ingress.rec_ (x : Ingress) : List Word := x.words.take 4 ++ [0] ++ x.words.drop 4

/-- The status of a closed stream, in the order of LAUNCH (12 R360). -/
def State.ingressStatus (s : State) (dw : List Word) : Nat :=
  let q := s.queue (recQueue dw)
  if s.recMalformed q.ctx dw || decide (recCkind dw = 3) then 1
  else if !q.hostok || !s.queueUsable q.ctx (recQueue dw) then 2
  else if s.queueFull (recQueue dw) then 3
  else 0

/-- IEND: the stream is closed, its record checked and enqueued. -/
def execIend (port i : Nat) (v : Word) (s : State) : Host.Outcome State Fault Refusal := run (
  ingressWrite port i 0x28 v (do
    let x := (← gs).ingress port i
    if x.active && decide (x.words.length = 4 + recNargs x.words) then
      let dw := x.rec_
      let st := (← gs).ingressStatus dw
      modIngress port i fun x => { words := [], active := false, count := if st = 0 then (x.count + 1) % 2 ^ 32 else x.count, status := st }
      if st = 0 then enqueueRec (recQueue dw) dw
    else modIngress port i fun x => { x with words := [], active := false, status := 4 })) s

/-- `ISTAT` of an ingress port. -/
def State.istat (s : State) (port i : Nat) : Word :=
  let x := s.ingress port i
  if i < 64 then word (x.count * 2 ^ 32 + x.status) else 0

/-- ISTAT_READ: every earlier write to the window has been handled. -/
def execIstatRead (port i : Nat) (s : State) : Host.Outcome State Fault Refusal := run (do answerHost port ((← gs).istat port i)) s

/-! A host's reads of its port's register space (01 R35). -/

/-- `OWNSTAT` (15 R423) and `BOOTSTAT` (19 R453). -/
def Harbour.ownstat (h : Harbour) (port : Nat) : Word := word ((if h.hpend then 8 else 0) + (if h.owner = port + 1 then 4 else 0) + h.owner)
def Harbour.bootstat (h : Harbour) : Word := word ((if h.bootFail then 128 else 0) + h.bootStep)

/-- The register at an offset; write-only ones and offsets that no row names read zero. -/
def State.portWord (s : State) (port off : Nat) : Word :=
  if off % 8 ≠ 0 then 0
  else if off = 0 then s.harbour.ownstat port
  else if off = 0x20 then s.harbour.bootstat
  else if 0x10000 ≤ off ∧ off < 0x12000 then
    let q := s.queue ((off - 0x10000) / 16)
    if off % 16 = 0 then q.cfg else q.stat
  else if 0x20000 ≤ off ∧ off < 0x24000 then s.harbour.windows.get 0 ((off - 0x20000) / 8)
  else if 0x30000 ≤ off ∧ off < 0x40000 then s.harbour.images.get 0 ((off - 0x30000) / 8)
  else if 0x40000 ≤ off ∧ off < 0x80000 ∧ off % 0x1000 = 0x100 then s.istat port ((off - 0x40000) / 0x1000)
  else 0

/-- A host reads an offset of its port's register space; a read of `HWSYNC` waits. -/
def hostRead (port off : Nat) : M Unit := do
  if off = 0x18 then hwsyncRead port else answerHost port ((← gs).portWord port off)

/-! The image table (13 R380). -/

/-- The handle of a valid table entry. -/
def State.entryHandle (s : State) (e : Nat) : Option Nat :=
  let x := s.harbour.images.get 0 (2 * e)
  if bitOf x 48 then some (fld x 0 48) else none

/-- The cached image of a handle is stale. -/
def staleImage (h : Option Nat) : M Unit := modHarbour fun x => { x with cache := x.cache.map fun c => if some c.handle = h then { c with stale := true } else c }

/-- IMAGE_TABLE_WRITE: dword `dw` of entry `e`. -/
def execImageTableWrite (port e dw : Nat) (v : Word) (s : State) : Host.Outcome State Fault Refusal := run (
  if e < 4096 ∧ dw < 2 then
    byOwner port (0x30000 + 16 * e + 8 * dw) v (do
      staleImage ((← gs).entryHandle e)
      modHarbour fun h => { h with images := Tbl.put 0 (2 * e + dw) (word (fld v 0 (if dw = 0 then 49 else 39))) h.images }
      let h := (← gs).entryHandle e
      staleImage h
      each ((← gs).queues.map (·.1)) fun q => modQueue q fun x => { x with recs := x.recs.map fun r => if some (recImage r.dw) = h then { r with bad := false } else r }
      kickLoads)
  else pure ()) s

/-! Registers of the device register space (01 R33). -/

def execHirqWrite (port : Nat) (v : Word) (s : State) : Host.Outcome State Fault Refusal := run (if port < 2 then hirqWrite port v else pure ()) s

/-- QCFG_WRITE: a write by another party than firmware is ignored (13 R374). -/
def execQcfgWrite (q : Nat) (v : Word) (fw : Bool) (s : State) : Host.Outcome State Fault Refusal :=
  run (if fw && decide (q < 512) then qcfgWrite q v else pure ()) s

/-- PAN_CONTROL_WRITE: a strand's write is ignored and logged (01 R34). -/
def execPanControlWrite (pan off : Nat) (v : Word) (fw : Bool) (s : State) : Host.Outcome State Fault Refusal :=
  run (if pan < 1024 ∧ off < 0x100 ∧ off % 8 = 0 then (if fw then panControl pan off v else logRefused (0x200000 + 0x100 * pan + off) v) else pure ()) s

def execTcctlClear (die : Nat) (s : State) : Host.Outcome State Fault Refusal := run (if die < 8 then tcClear die else pure ()) s
def execTcctlFreeze (die : Nat) (on : Bool) (s : State) : Host.Outcome State Fault Refusal := run (if die < 8 then tcFreeze die on else pure ()) s
def execPwrlimWrite (v : Word) (s : State) : Host.Outcome State Fault Refusal := run (pwrlimWrite v) s

/-- REGISTER_WRITE: 8 bytes, naturally aligned. -/
def execRegisterWrite (off : Nat) (v : Word) (fw : Bool) (s : State) : Host.Outcome State Fault Refusal :=
  run (if off % 8 = 0 then do
    regWrite fw off v
    wakeMonitors (.io (off / 128)) none
  else pure ()) s

/-! Power and temperature (19 R454). -/

/-- POWER_LIMITER_SAMPLE: the average over the last millisecond, in watts. -/
def execPowerLimiterSample (avg : Nat) (s : State) : Host.Outcome State Fault Refusal := run (do
  let lim := (← gs).pwrlim
  modHarbour fun h => { h with withheld := decide (lim < avg) }) s

/-- THERMAL_THROTTLE: a die's junction has reached 105 °C, or cooled. -/
def execThermalThrottle (die : Nat) (hot : Bool) (s : State) : Host.Outcome State Fault Refusal := run (
  if die < 8 then modHarbour fun h => { h with throttled := if hot then NSet.ins die h.throttled else NSet.del die h.throttled } else pure ()) s

/-- THERMAL_TRIP: every link goes down, every host access completes with an error, and the trip is logged. -/
def execThermalTrip (s : State) : Host.Outcome State Fault Refusal := run (do
  each (List.range 12) fun n => modLink n fun l => { l with up := false }
  each ((← gs).fabric.requests.filter fun r => r.host.isSome) fun r => do
    modHarbour fun h => { h with hostOut := h.hostOut ++ [.error (match r.host with | some x => x.1 | none => 0)] }
    respond r .lost
  logErr 0xF000 6 0 0
  modHarbour fun h => { h with tripped := true }) s

/-! Reset and boot (19 R453). -/

/-- RESET: the state right after reset, at the ROM step. -/
def execReset (s : State) : Host.Outcome State Fault Refusal := run (emit .hardReset) s

/-- The scrub of the SRAM step: pan storage, registers and queues are clear. -/
def clearSram : M Unit := do
  let s : State ← gs
  emit (.panZero 0 (1024 * 8388608))
  restoreTbl {} (s.strands.filter fun x => decide (x.1 < 4096)) [] .strand
  restoreTbl {} s.pans [] .pan
  restoreTbl {} s.bays [] .bay
  restoreTbl none s.regions [] .region
  restoreTbl {} s.chans [] .chan
  restoreTbl {} s.queues [] .queue
  modHarbour fun h => { h with sramPoison := [] }

/-- BOOT_STEP_COMPLETE: the step in STEP ends, well or not. -/
def execBootStepComplete (ok : Bool) (s : State) : Host.Outcome State Fault Refusal := run (do
  let h := (← gs).harbour
  if h.bootFail || decide (4 ≤ h.bootStep) then pure ()
  else if !ok then modHarbour fun x => { x with bootFail := true }
  else
    match h.bootStep with
    | 1 => emit (.restoreMem [] [])
    | 2 => clearSram
    | 3 => do
      each (List.range 12) fun n => if linkPresent h.devid n then modLink n Link.fresh else pure ()
      modHarbour fun x => { x with portUp := [] }
      each ((← gs).queues.map (·.1)) fun q => modQueue q fun x => { x with cfg := x.cfg &&& ~~~(word (2 ^ 47)) }
    | _ => pure ()
    modHarbour fun x => { x with bootStep := x.bootStep + 1 }) s

/-- ATTESTATION_REQUEST: the report covers the digests of the ROM and the firmware, those of the resident images, and the host's nonce; the identity key signs it outside the model (log 24). -/
def execAttestationRequest (port : Nat) (nonce : List Byte) (s : State) : Host.Outcome State Fault Refusal := run (do
  let s1 : State ← gs
  if !s1.isOwner port then logRefused 0 0
  else if nonce.length = 32 then
    let imgs := (s1.harbour.cache.filter fun c => !c.stale && !c.hdr.isEmpty).map fun c => c.hdr.drop 12
    modHarbour fun h => { h with reports := h.reports ++ [⟨port, (List.range 8).map Config.deviceDigest, imgs, nonce⟩] }) s

/-! Errors (19 R455, R456). -/

/-- 19 R456: the source number and the address that an error of a word is logged with (log 32). -/
def scrubSource (u : ScrubUnit) (n : Nat) : Nat × Nat :=
  match u with
  | .hbm => (n / 2 ^ 30 * 256 + 0xFF, 64 * n)
  | .bank => (n / 1048576 / 128 * 256 + n / 1048576 % 128, n % 1048576 * 8)
  | .sram src => (src, n)

/-- The device has the word. -/
def scrubPresent (u : ScrubUnit) (n : Nat) : Bool :=
  match u with
  | .hbm => decide (64 * n < memLimit)
  | .bank => panKeyOk (8 * n)
  | .sram _ => true

def poisonWord (u : ScrubUnit) (n : Nat) : M Unit :=
  match u with
  | .hbm => emit (.poison n true)
  | .bank => emit (.panPoison n true)
  | .sram src => modHarbour fun h => { h with sramPoison := (src, n) :: h.sramPoison.filter fun x => decide (x ≠ (src, n)) }

/-- PATROL_SCRUB: a single-bit error is corrected and logged (class 1), an uncorrectable word is poisoned (class 2). -/
def execPatrolScrub (u : ScrubUnit) (n : Nat) (found : ScrubFind) (s : State) : Host.Outcome State Fault Refusal := run (
  if scrubPresent u n then
    let x := scrubSource u n
    match found with
    | .clean => pure ()
    | .corrected => logErr x.1 1 (word x.2) 0
    | .uncorrectable => do
      poisonWord u n
      logErr x.1 2 (word x.2) 0
  else pure ()) s

/-- Entries are ordered by TIME, then by SOURCE. -/
def LogEnt.first (a b : LogEnt) : Bool := decide (a.time < b.time) || (decide (a.time = b.time) && decide (a.source ≤ b.source))

/-- ERROR_LOG_PLACE: the first entry not yet placed, once `gtime` has passed its TIME; a full ring loses its oldest. -/
def execErrorLogPlace (s : State) : Host.Outcome State Fault Refusal := run (do
  let s1 : State ← gs
  let l := s1.harbour.logPending
  match findIdx? (fun e => l.all e.first) l with
  | none => pure ()
  | some i =>
    match l[i]? with
    | none => pure ()
    | some e => do
      emit (.gtime (max s1.gtime (e.time + 1)))
      modHarbour fun h => { h with
        logPending := dropAt h.logPending i
        log := (if 4096 ≤ h.log.length then h.log.drop (h.log.length - 4095) else h.log) ++ [e]
        elost := if 4096 ≤ h.log.length then h.elost + 1 else h.elost }) s

end Sys2Proof.Machine
end

