-- ==== Sys2Proof/Machine/System.lean ====
section
/-! DEFINITION. The control words (09 R267 to R269) and XINV with its retirement (01 R39 to R42, 09 R278). -/

namespace Sys2Proof.Machine

/-- Numbers that no management core has (09 R268). -/
def mgmtLacks (n : Nat) : Bool := [0x000, 0x010, 0x021, 0x022, 0x023, 0x030, 0x031, 0x810, 0x811].contains n

/-- `vshare` of a pan: the fields of its four strands (06 R165). -/
def State.vshare (s : State) (pan : Nat) : Word :=
  word ((s.strand (4 * pan)).weight + (s.strand (4 * pan + 1)).weight * 16 + (s.strand (4 * pan + 2)).weight * 256 + (s.strand (4 * pan + 3)).weight * 4096)

/-- The partition words of the strand's context on its pan (02 R58). -/
def State.partition (s : State) (k : Nat) : Residency :=
  match s.resOf (panOf k) (s.strand k).ctx with
  | some i => (s.pan (panOf k)).res.get {} i
  | none => {}

/-- 06 R156. -/
def State.ctxid (s : State) (k : Nat) : Word :=
  let c := (s.strand k).ctx
  word ((match s.context c with | some x => x.lclass % 4 * 65536 | none => 0) + c)

/-- The value of a control word but `gtime` (09 R268). -/
def State.controlWord (s : State) (k n : Nat) : Word :=
  let st := s.strand k
  if 0x008 ≤ n ∧ n < 0x010 then st.fidx.get 0 (n - 8) else
  match n with
  | 0x000 => st.vcfg
  | 0x001 => st.acr
  | 0x002 => st.fsr
  | 0x010 => s.vshare (panOf k)
  | 0x021 => st.blockid
  | 0x022 => st.blockcount
  | 0x023 => s.ctxid k
  | 0x030 => (s.pan (panOf k)).vlclamp
  | 0x031 => (s.pan (panOf k)).rgclamp
  | 0x800 => st.tvec
  | 0x801 => st.tcause
  | 0x802 => st.tval
  | 0x803 => st.tpc
  | 0x804 => st.tstatus
  | 0x805 => st.tsummary
  | 0x806 => st.kill
  | 0x810 => (s.partition k).spbase
  | 0x811 => (s.partition k).splim
  | 0x812 => s.rootOf st.ctx
  | _ => 0

def execMfc (d : BitVec 5) (n : BitVec 12) (s : State) : Host.Outcome State Fault Refusal := run (do
  issueMem [d]
  let k ← curKey
  if isMgmt k && mgmtLacks n.toNat then raiseBits 1 (.mfc d n)
  if decide (0x800 ≤ n.toNat) && !(← me).sup then raiseBits 0xA (.mfc d n)
  if n.toNat = 0x020 then retire d (← readTime) 4
  else retire d ((← gs).controlWord k n.toNat) 4) s

/-- Control words that no MTC writes (09 R268: PRIV in both modes). -/
def mtcNever (n : Nat) : Bool := [0x000, 0x020, 0x021, 0x022, 0x023, 0x030, 0x031].contains n

/-- 07 R182: FRM keeps its value under a write of 6 or 7. -/
def acrWrite (old v : Word) : Word := word (fld v 4 2 * 16 + (if 6 ≤ fld v 0 3 then fld old 0 3 else fld v 0 3))

/-- 06 R165: a write of `vshare` sets every credit of the pan to 0. -/
def vshareWrite (k : Nat) (v : Word) : M Unit := do
  let pan := panOf k
  let sup := (← getStrand k).sup
  each [0, 1, 2, 3] fun i =>
    if sup || decide (4 * pan + i = k) then modStrand (4 * pan + i) fun st => { st with weight := fld v (4 * i) 4 } else pure ()
  modPan pan fun p => { p with credit := [0, 0, 0, 0] }

def partitionWrite (k : Nat) (f : Residency → Residency) : M Unit := do
  match (← gs).resOf (panOf k) (← getStrand k).ctx with
  | some i => modPan (panOf k) fun p => { p with res := Tbl.put {} i (f (p.res.get {} i)) p.res }
  | none => pure ()

/-- The root word of a context (01 R16). -/
def rootWrite (ctx : Nat) (v : Word) : M Unit :=
  let w := word (fld v 12 27 * 4096)
  if ctx = 0xFFFF then modHarbour fun h => { h with fwRoot := w } else modContext ctx fun c => { c with troot := w }

/-- A place in the pan space of a pan. -/
def Place.onPan (p : Place) (pan : Nat) : Bool := match p with | .pan key => decide (key / 8388608 = pan) | .at_ _ => false

/-- 02 R60: an access to the pan space of a pan has been checked and not yet performed: a VLDA still to be read, or a chunk in progress. -/
def State.panHeld (s : State) (pan : Nat) : Bool :=
  (s.strands.any fun x => x.2.vlda.any fun g => g.elems.any fun e => e.2.2.onPan pan) ||
  s.chans.any fun c => c.2.q.any fun x => x.elems.any fun e => e.dst.onPan pan || match e.src with | some p => p.onPan pan | none => false

/-- What a write of a control word does (09 R268, R269); the write of `kill` is made after the MTC has retired (14 R401). -/
def controlWrite (k n : Nat) (v : Word) : M Unit :=
  if 0x008 ≤ n ∧ n < 0x010 then modStrand k fun st => { st with fidx := Tbl.put 0 (n - 8) (word (fld v 31 1 * 2 ^ 31 + fld v 0 12)) st.fidx } else
  match n with
  | 0x001 => modStrand k fun st => { st with acr := acrWrite st.acr v }
  | 0x002 => modStrand k fun st => { st with fsr := word (fld v 0 9) }
  | 0x010 => vshareWrite k v
  | 0x800 => modStrand k fun st => { st with tvec := word (fld v 2 62 * 4) }
  | 0x801 => modStrand k fun st => { st with tcause := word (fld v 0 8) }
  | 0x802 => modStrand k fun st => { st with tval := v }
  | 0x803 => modStrand k fun st => { st with tpc := v }
  | 0x804 => modStrand k fun st => { st with tstatus := word (fld st.tstatus 2 2 * 4 + fld v 0 2) }
  | 0x806 => if bitOf v 0 then killStrand k else pure ()
  | 0x810 => partitionWrite k fun r => { r with spbase := word (fld v 8 12 * 256) }
  | 0x811 => partitionWrite k fun r => { r with splim := word (min 4096 (fld v 8 13) * 256) }
  | 0x812 => do rootWrite (← getStrand k).ctx v
  | _ => pure ()

def execMtc (a : BitVec 5) (n : BitVec 12) (s : State) : Host.Outcome State Fault Refusal := run (do
  issueMem [a]
  let k ← curKey
  if isMgmt k && mgmtLacks n.toNat then raiseBits 1 (.mtc a n)
  if mtcNever n.toNat then raiseBits 0xA (.mtc a n)
  if decide (0x800 ≤ n.toNat) && !(← me).sup then raiseBits 0xA (.mtc a n)
  if (n = 0x810 ∨ n = 0x811) && (← gs).panHeld (panOf k) then stall
  let v ← rg a
  next 4
  controlWrite k n.toNat v) s

/-! XINV. -/

/-- The requesting strand waits at its XINV: for its own stores, posted ones included, and then until it retires (01 R40). -/
def xinv (i : Instr) (rs : List (BitVec 5)) (limit : M Bool) (kind : M InvKind) : M Unit := do
  issueMem rs
  issuePriv i rs
  if !(← limit) then raiseBits 1 i
  let k ← curKey
  if (← me).posted.any fun p => p.fail.isNone then stall
  match (← gs).invs.find? fun x => decide (x.key = k) with
  | some x =>
    if x.done then
      emit (.invs ((← gs).invs.filter fun y => decide (y.id ≠ x.id)))
      next 4
    else stall
  | none =>
    let id ← freshId
    emit (.invs ((← gs).invs ++ [⟨id, ← kind, k, false⟩]))

def execXinvAll (s : State) : Host.Outcome State Fault Refusal := run (xinv .xinvAll [] (return true) (return .all)) s
def execXinvCtx (a : BitVec 5) (s : State) : Host.Outcome State Fault Refusal :=
  run (xinv (.xinvCtx a) [a] (do return decide (fld (← rg a) 16 48 = 0)) (do return .ctx (← rg a).toNat)) s
def execXinvVa (a b : BitVec 5) (s : State) : Host.Outcome State Fault Refusal :=
  run (xinv (.xinvVa a b) [a, b] (do return decide (fld (← rg a) 16 48 = 0)) (do return .va (← rg a).toNat (← rg b).toNat)) s
def execXinvIn (a : BitVec 5) (s : State) : Host.Outcome State Fault Refusal :=
  run (xinv (.xinvIn a) [a] (do return decide (fld (← rg a) 44 20 = 0)) (do return .inbound (← rg a).toNat)) s

/-- 01 R39: leaf entries and walk-cache entries that an invalidation removes. -/
def InvKind.hitsLeaf (v : InvKind) (e : TlbEnt) : Bool :=
  match v with
  | .all => true
  | .ctx c => decide (e.ctx = c)
  | .va c a => covers e c a
  | .inbound _ => false

def onPath (e : WalkEnt) (va : Nat) : Bool := decide (e.va = va / 2 ^ levelShift e.level)

def InvKind.hitsWalk (v : InvKind) (e : WalkEnt) : Bool :=
  match v with
  | .all => true
  | .ctx c => decide (e.ctx = c)
  | .va c a => decide (e.ctx = c) && onPath e a
  | .inbound _ => false

def InvKind.hitsInLeaf (v : InvKind) (e : TlbEnt) : Bool :=
  match v with
  | .all => true
  | .inbound a => decide (e.va = a / 2 ^ e.size)
  | _ => false

def InvKind.hitsInWalk (v : InvKind) (e : WalkEnt) : Bool :=
  match v with
  | .all => true
  | .inbound a => onPath e a
  | _ => false

/-- The invalidation points of every pan, bay and home agent (01 R40). -/
def invalidate (leaf inLeaf : TlbEnt → Bool) (walk inWalk : WalkEnt → Bool) : M Unit := do
  each ((← gs).pans.map (·.1)) fun p => modPan p fun x => { x with tlb := x.tlb.filter fun e => !leaf e }
  each ((← gs).bays.map (·.1)) fun y => modBay y fun x => { x with tlb := x.tlb.filter (fun e => !leaf e), walk := x.walk.filter fun e => !walk e }
  each ((← gs).dies.map (·.1)) fun d => modDie d fun x => { x with inTlb := x.inTlb.filter (fun e => !inLeaf e), inWalk := x.inWalk.filter fun e => !inWalk e }

/-- 01 R41: no access holds a translation: a VLDA or a notification still to be performed, an instruction that waits for peers or hosts (a scalar one longer than it must), an access in the fabric port, a chunk in progress. -/
def State.noHolder (s : State) : Bool :=
  (s.strands.all fun x => x.2.vlda.isEmpty && x.2.ntf.isEmpty && x.2.held.isEmpty) && s.fabric.outbox.isEmpty && (s.streams.all fun v => v.2.held.isEmpty) &&
  s.chans.all fun c => c.2.q.all fun x => decide (x.phase = .idle)

/-- XINV_RETIRE (01 R40 step 3). -/
def execXinvRetire (n : Nat) (s : State) : Host.Outcome State Fault Refusal := run (do
  match (← gs).invs.find? fun x => decide (x.id = n) with
  | some x =>
    if !x.done && (← gs).noHolder then
      invalidate x.kind.hitsLeaf x.kind.hitsInLeaf x.kind.hitsWalk x.kind.hitsInWalk
      emit (.invs ((← gs).invs.map fun y => if y.id = n then { y with done := true } else y))
  | none => pure ()) s

end Sys2Proof.Machine
end

