-- ==== Sys2Proof/Machine/PageMig.lean ====
section
/-! DEFINITION. Page migration at the home (01 R43 to R46): the doorbell, the checks of a descriptor, the copy of a chunk, the leaf update and the frame invalidation. -/

namespace Sys2Proof.Machine

/-- PMIGDB_WRITE (01 R43). -/
def execPmigdbWrite (die : Nat) (v : Word) (s : State) : Host.Outcome State Fault Refusal := run (if die < 8 then pmigdb die v else pure ()) s

/-- The progress word: status and chunks copied. -/
def pmigWord (status c : Nat) : Nat := c * 256 + status

/-- The first failing check of a descriptor, in the order of the status table (01 R43). -/
def State.pmigStatus (s : State) (d0 d1 d2 d3 leaf : Word) : Option Nat :=
  let old := fld leaf 16 23
  let new := fld d1 16 23
  if lfPLC leaf ≠ 0 then some 2
  else if lfSP leaf then some 3
  else if !leafOk 0 leaf || decide (lfKind leaf ≠ 0) then some 4
  else if decide (d0.toNat ≠ fld d0 3 36 * 8) || decide (d1.toNat ≠ new * 65536) || decide (d2.toNat ≠ fld d2 3 36 * 8) || decide (d3 ≠ 0) ||
      s.reserved (new * 65536) 16 || decide (new = old) then some 5
  else if lfTM leaf && decide (s.fabric.away.get 0 (old / 32) ≠ 0) then some 6
  else none

/-- PAGE_MIGRATION_START (01 R43): the descriptor at the queue head is read and checked. -/
def execPageMigrationStart (die : Nat) (s : State) : Host.Outcome State Fault Refusal := run (do
  let s1 : State ← gs
  let d := s1.die die
  match d.pmig, d.pmigQ with
  | none, q :: qs => do
    let w := fun (i : Nat) => word (s1.physRead (q + 8 * i) 8)
    let entryPA := fld (w 0) 3 36 * 8
    let prog := fld (w 2) 3 36 * 8
    let leaf := word (s1.physRead entryPA 8)
    match s1.pmigStatus (w 0) (w 1) (w 2) (w 3) leaf with
    | some st => do
      modDie die fun x => { x with pmigQ := qs }
      physWrite none none prog (bytesOf (pmigWord st 0) 8)
    | none => do
      modDie die fun x => { x with pmigQ := qs, pmig := some ⟨entryPA, leaf, fld leaf 16 23, fld (w 1) 16 23, prog, 0, false, false⟩ }
      flushLines (fld leaf 16 23 * 512) 512
      flushLines (fld (w 1) 16 23 * 512) 512
  | _, _ => pure ()) s

/-- Copy `n` bytes between physical addresses, and the poison of their granules. -/
def copyBytes (src dst n : Nat) : M Unit := do
  let s1 : State ← gs
  each (List.range n) fun i => emit (.memByte (dst + i) (s1.byte (src + i)))
  each (List.range (n / 64)) fun i => emit (.poison (dst / 64 + i) (NSet.mem (src / 64 + i) s1.poison))

/-- 01 R45: the leaf is replaced where it still is as it was read; the frame invalidation begins. -/
def leafUpdate (die : Nat) (m : Pmig) : M Unit := do
  let same := decide ((← gs).physRead m.entryPA 8 = m.entry.toNat)
  if same then physWrite none none m.entryPA (bytesOf (m.entry.toNat - m.old * 65536 + m.new * 65536) 8)
  modDie die fun x => { x with pmig := some { m with c := 16, race := !same, invalidating := true } }

/-- PAGE_MIGRATION_CHUNK (01 R44): one 4 KiB chunk is copied and the cutover index advances; the last one is followed by the leaf update. -/
def execPageMigrationChunk (die : Nat) (s : State) : Host.Outcome State Fault Refusal := run (do
  match ((← gs).die die).pmig with
  | none => pure ()
  | some m =>
    if m.invalidating then pure ()
    else
      let o := m.old * 65536 + m.c * 4096
      let n := m.new * 65536 + m.c * 4096
      copyBytes o n 4096
      stackRead (some die) (o / 2 ^ 36) noCtx 4096
      stackWrite (some die) (n / 2 ^ 36) noCtx 4096
      modDie die fun x => { x with pmig := some { m with c := m.c + 1 } }
      each ((← gs).strands.map (·.1)) fun k => modStrand k fun st =>
        { st with monitor := match st.monitor with | .line l => if l / 32 = o / 4096 then .line (n / 128 + l % 32) else .line l | x => x }
      each (List.range 32) fun l => revalidate (n / 128 + l) none
      physWrite none none m.prog (bytesOf (pmigWord 0 (m.c + 1)) 8)
      if m.c + 1 = 16 then leafUpdate die { m with c := 16 }) s

/-- A leaf of local kind covers the frame. -/
def coversFrame (e : TlbEnt) (frame : Nat) : Bool := decide (lfKind e.leaf = 0) && decide (fld e.leaf 16 23 / 2 ^ (e.size - 16) = frame / 2 ^ (e.size - 16))

/-- 05 R155: what tasks have buffered and read of the frame, and what has been committed of it, is known by the new frame from now on. -/
def renameFrame (m : Pmig) : M Unit := do
  let line := fun (l : Nat) => if l / 512 = m.old then m.new * 512 + l % 512 else l
  let sig := fun (x : BitVec 8192) => (List.range 512).foldl (fun y i => if sigHit x (m.old * 512 + i) then sigIns y (m.new * 512 + i) else y) x
  each ((← gs).tasks.map (·.1)) fun t => modTask t fun x => { x with
    buf := x.buf.foldl (fun b c => bufPut (if c.1 / 65536 = m.old then m.new * 65536 + c.1 % 65536 else c.1) c.2 b) []
    lines := x.lines.foldl (fun l e => Tbl.put 0 (line e.1) e.2 l) []
    rsig := sig x.rsig
    wsig := sig x.wsig }
  modSched fun y => { y with commits := y.commits.map fun c => (c.1, canonSet (c.2.map line)) }

/-- FRAME_INVALIDATION_RETIRE (01 R45): every translation of the old frame is gone; the redirect slot is freed. -/
def execFrameInvalidationRetire (die : Nat) (s : State) : Host.Outcome State Fault Refusal := run (do
  match ((← gs).die die).pmig with
  | none => pure ()
  | some m =>
    if m.invalidating && (← gs).noHolder then
      let hit := fun e => coversFrame e m.old
      invalidate hit hit (fun _ => false) fun _ => false
      renameFrame m
      modDie die fun x => { x with pmig := none }
      physWrite none none m.prog (bytesOf (pmigWord (if m.race then 7 else 1) 16) 8)) s

end Sys2Proof.Machine
end

