-- ==== Sys2Proof/Machine/ScalarFp.lean ====
section
/-! DEFINITION. Scalar floating point (09 R248 to R253). -/

namespace Sys2Proof.Machine

/-- The type code of a 2-bit format field (08 R216: 0x8 to 0xB). -/
def fmt2 (t : BitVec 2) : Fmt := fmtOf (8 + t.toNat)

/-- A binary float operation: its encoding and flags, under `acr.frm`. -/
def fp2 (op : Fmt → Nat → Nat → Nat → Nat × Fl) (d a b : BitVec 5) (t : BitVec 2) : M Unit := do
  issue [d, a, b]
  let r := op (fmt2 t) (← me).frm (← rg a).toNat (← rg b).toNat
  retireF d (word r.1, r.2) 4

/-- Addition and the other operations of 09 R249 on encodings. -/
def faddOp (f : Fmt) (mode x y : Nat) : Nat × Fl := f.arith 0 mode x y
def fsubOp (f : Fmt) (mode x y : Nat) : Nat × Fl := f.arith 1 mode x y
def fmulOp (f : Fmt) (mode x y : Nat) : Nat × Fl := f.arith 2 mode x y
def fdivOp (f : Fmt) (mode x y : Nat) : Nat × Fl := f.arith 3 mode x y
def fminOp (f : Fmt) (_ x y : Nat) : Nat × Fl := f.minmax false x y
def fmaxOp (f : Fmt) (_ x y : Nat) : Nat × Fl := f.minmax true x y

def execFadd (d a b : BitVec 5) (t : BitVec 2) (s : State) : Host.Outcome State Fault Refusal := run (fp2 faddOp d a b t) s
def execFsub (d a b : BitVec 5) (t : BitVec 2) (s : State) : Host.Outcome State Fault Refusal := run (fp2 fsubOp d a b t) s
def execFmul (d a b : BitVec 5) (t : BitVec 2) (s : State) : Host.Outcome State Fault Refusal := run (fp2 fmulOp d a b t) s
def execFdiv (d a b : BitVec 5) (t : BitVec 2) (s : State) : Host.Outcome State Fault Refusal := run (fp2 fdivOp d a b t) s
def execFmin (d a b : BitVec 5) (t : BitVec 2) (s : State) : Host.Outcome State Fault Refusal := run (fp2 fminOp d a b t) s
def execFmax (d a b : BitVec 5) (t : BitVec 2) (s : State) : Host.Outcome State Fault Refusal := run (fp2 fmaxOp d a b t) s

def execFsqrt (d a : BitVec 5) (t : BitVec 2) (s : State) : Host.Outcome State Fault Refusal := run (do
  issue [d, a]
  let r := (fmt2 t).sqrt (← me).frm ((fmt2 t).unpack (← rg a).toNat)
  retireF d (word r.1, r.2) 4) s

/-- d is the addend and the destination (09 R248). -/
def execFfma (d a b : BitVec 5) (t : BitVec 2) (s : State) : Host.Outcome State Fault Refusal := run (do
  issue [d, a, b]
  let f := fmt2 t
  let r := f.fma (← me).frm (f.unpack (← rg a).toNat) (f.unpack (← rg b).toNat) (f.unpack (← rg d).toNat)
  retireF d (word r.1, r.2) 4) s

def execFcmp (d a b : BitVec 5) (c t : BitVec 2) (s : State) : Host.Outcome State Fault Refusal := run (do
  issue [d, a, b]
  let r := (fmt2 t).cmp c.toNat (← rg a).toNat (← rg b).toNat
  retireF d (if r.1 then 1 else 0, r.2) 4) s

def execFclass (d a : BitVec 5) (t : BitVec 2) (s : State) : Host.Outcome State Fault Refusal := run (do
  issue [d, a]
  retire d (word ((fmt2 t).classOf (← rg a).toNat)) 4) s

/-- 09 R240, R241: how a result of a type code is written to a register. -/
def fcvtW (dt n : Nat) : Word := if dt < 8 then dstW dt (n : Int) else word n

def execFcvt (d a : BitVec 5) (v : BitVec 4) (u : Bool) (t : BitVec 4) (s : State) : Host.Outcome State Fault Refusal := run (do
  issue [d, a]
  let r := convert v.toNat t.toNat u (← me).frm (← rg a).toNat
  retireF d (fcvtW t.toNat r.1, r.2) 4) s

end Sys2Proof.Machine
end

