-- ==== Sys2Proof/Machine/ScalarMem.lean ====
section
/-! DEFINITION. Scalar loads, stores, acquires, releases, atomics and fences (09 R254 to R262), and the 16-bit LD.h and ST.h (08 R225). -/

namespace Sys2Proof.Machine

/-- A scalar load of a type code, at an address. -/
def loadTo (d : BitVec 5) (t : Nat) (va : Word) (pan : Bool) (len : Nat) : M Unit := do
  let k ← curKey
  let v ← scalarRead k va (tyBytes t) pan
  retire d (dstW t (v : Int)) len

def loadI (pan : Bool) (t : BitVec 3) (d a : BitVec 5) (i : BitVec 12) : M Unit := do
  issueMem [d, a]
  loadTo d t.toNat ((← rg a) + i.signExtend 64) pan 4

def storeI (pan : Bool) (w : BitVec 2) (a b : BitVec 5) (i : BitVec 12) : M Unit := do
  issueMem [a, b]
  scalarWrite (← curKey) ((← rg a) + i.signExtend 64) (2 ^ w.toNat) pan (← rg b).toNat none
  next 4

def execLd (t : BitVec 3) (d a : BitVec 5) (i : BitVec 12) (s : State) : Host.Outcome State Fault Refusal := run (loadI false t d a i) s
def execLdP (t : BitVec 3) (d a : BitVec 5) (i : BitVec 12) (s : State) : Host.Outcome State Fault Refusal := run (loadI true t d a i) s
def execSt (w : BitVec 2) (a b : BitVec 5) (i : BitVec 12) (s : State) : Host.Outcome State Fault Refusal := run (storeI false w a b i) s
def execStP (w : BitVec 2) (a b : BitVec 5) (i : BitVec 12) (s : State) : Host.Outcome State Fault Refusal := run (storeI true w a b i) s

def execLdH (y x : BitVec 5) (s : State) : Host.Outcome State Fault Refusal := run (do
  issueMem [x, y]
  loadTo x 3 (← rg y) false 2) s
def execStH (y x : BitVec 5) (s : State) : Host.Outcome State Fault Refusal := run (do
  issueMem [x, y]
  scalarWrite (← curKey) (← rg y) 8 false (← rg x).toNat none
  next 2) s

/-- 09 R271: what an acquire load that has read a place monitors: its bank word, or the 128-byte line at its home. -/
def State.monitorOf (s : State) (p : Place) : Monitor :=
  match p with
  | .pan key => .bank (key / 8)
  | .at_ (.mem pa) => .line (s.home (pa / 128 * 128) / 128)
  | .at_ (.remote dev da) => .remote dev (da / 128)
  | .at_ (.host port addr) => .host port (addr / 128)
  | .at_ (.io off) => .io (off / 128)

def acquireLoad (pan : Bool) (d a : BitVec 5) (t : BitVec 3) : M Unit := do
  issueMem [d, a]
  let k ← curKey
  let va ← rg a
  let p ← scalarReach k va (tyBytes t.toNat) pan accLoad
  let v ← loadPlace k va (tyBytes t.toNat) p
  let s1 : State ← gs
  modMe fun st => { st.setG d (dstW t.toNat (v : Int)) with pc := st.pc + word 4, monitor := s1.monitorOf p }

def execLdacq (d a : BitVec 5) (_ t : BitVec 3) (s : State) : Host.Outcome State Fault Refusal := run (acquireLoad false d a t) s
def execLdacqP (d a : BitVec 5) (_ t : BitVec 3) (s : State) : Host.Outcome State Fault Refusal := run (acquireLoad true d a t) s

def releaseStore (pan : Bool) (a b : BitVec 5) (sc : BitVec 3) (w : BitVec 2) : M Unit := do
  issueMem [a, b]
  scalarWrite (← curKey) (← rg a) (2 ^ w.toNat) pan (← rg b).toNat (some sc.toNat)
  next 4

def execStrel (a b : BitVec 5) (sc : BitVec 3) (w : BitVec 2) (s : State) : Host.Outcome State Fault Refusal := run (releaseStore false a b sc w) s
def execStrelP (a b : BitVec 5) (sc : BitVec 3) (w : BitVec 2) (s : State) : Host.Outcome State Fault Refusal := run (releaseStore true a b sc w) s

/-- 08 R218: the size of an atomic's type `y` (f[29:28]), and its signedness. -/
def atBytes (y : BitVec 2) : Nat := if y.toNat % 2 = 0 then 4 else 8
def atSigned (y : BitVec 2) : Bool := decide (y.toNat < 2)

/-- The release part of an attribute `p` (f[31:30]; 09 R258: 2 rel, 3 ar), at a scope. -/
def atRel (p : BitVec 2) (sc : BitVec 3) : Option Nat := if 2 ≤ p.toNat then some sc.toNat else none

/-- What an atomic writes to g_d: Dst(old, t); `.fadd` zero above (09 R259). -/
def atDst (fn : Nat) (y : BitVec 2) (old : Nat) : Word :=
  if fn = 7 then word (old % 2 ^ (8 * atBytes y))
  else wordI (intOf (atSigned y) (8 * atBytes y) old)

def amoI (pan : Bool) (f : BitVec 3) (d a b : BitVec 5) (sc : BitVec 3) (y p : BitVec 2) : M Unit := do
  issueMem [d, a, b]
  let r ← scalarRmw (← curKey) (← rg a) (atBytes y) pan ⟨.amo f.toNat (atSigned y), (← rg b).toNat, 0⟩ (atRel p sc)
  retireF d (atDst f.toNat y r.1, r.2) 4

def casI (pan : Bool) (d a b : BitVec 5) (sc : BitVec 3) (y p : BitVec 2) : M Unit := do
  issueMem [d, a, b]
  let r ← scalarRmw (← curKey) (← rg a) (atBytes y) pan ⟨.cas, (← rg b).toNat, (← rg d).toNat⟩ (atRel p sc)
  retireF d (atDst 0 y r.1, 0) 4

def execAmo (f : BitVec 3) (d a b : BitVec 5) (sc : BitVec 3) (y p : BitVec 2) (s : State) : Host.Outcome State Fault Refusal := run (amoI false f d a b sc y p) s
def execAmoP (f : BitVec 3) (d a b : BitVec 5) (sc : BitVec 3) (y p : BitVec 2) (s : State) : Host.Outcome State Fault Refusal := run (amoI true f d a b sc y p) s
def execAmocas (d a b : BitVec 5) (sc : BitVec 3) (y p : BitVec 2) (s : State) : Host.Outcome State Fault Refusal := run (casI false d a b sc y p) s
def execAmocasP (d a b : BitVec 5) (sc : BitVec 3) (y p : BitVec 2) (s : State) : Host.Outcome State Fault Refusal := run (casI true d a b sc y p) s

/-- 09 R262: in the model's one order of accesses a fence orders nothing further, once a running loop has ended; at scope 5 a release kind waits for the posted stores, and every kind raises their failure (05 R149). -/
def execFence (sc k : BitVec 3) (s : State) : Host.Outcome State Fault Refusal := run (do
  issueMem []
  let me_ ← curKey
  if sc.toNat = 5 then
    if k.toNat = 0 then raisePosted me_ s else domainRelease me_ s none
  next 4) s

end Sys2Proof.Machine
end

