-- ==== Sys2Proof/Machine/Sched.lean ====
section
/-! DEFINITION. Which turn is next when the state names none, and the turns that are no instruction of a strand and no event of the table by name (log 5). -/

namespace Sys2Proof.Machine

/-- The turn of a machine whose `turns` are used up: what the current strand's own progress needs first, a wake, its loop, its vector queue; then its next instruction. -/
def State.autoTurn (s : State) : Turn :=
  let st := s.strand s.cur
  if st.st = .wait then .wake s.cur
  else if st.issues && st.looping && decide (st.vq.length < 16) then .strip s.cur
  else if st.issues && !st.vq.isEmpty then .issue (panOf s.cur)
  else .strand s.cur

/-- Replacement of cached entries is open: a turn may drop one (01 R38, 08 R211). -/
def dropNth {α : Type} (l : List α) (i : Nat) : List α := l.take i ++ l.drop (i + 1)

/-- A turn by itself. -/
def ownTurn (t : Turn) (s : State) : Host.Outcome State Fault Refusal :=
  match t with
  | .wake k => execStrandWake k s
  | .strip k => execVloopStrip k s
  | .issue p => execVectorIssueCycle ⟨p, 0, 0⟩ s
  | .dropTlb p i => run (modPan p fun x => { x with tlb := dropNth x.tlb i }) s
  | .dropBayTlb y i => run (modBay y fun x => { x with tlb := dropNth x.tlb i }) s
  | .dropLine p i => run (modPan p fun x => { x with icache := dropNth x.icache i }) s
  | .reserve d base limit => run (if d < 8 then modDie d fun x => { x with rsvBase := base, rsvLimit := limit } else pure ()) s
  | .hostRead port off => run (if port < 2 then hostRead port off else pure ()) s
  | _ => .next s

end Sys2Proof.Machine
end

