-- ==== Sys2Proof/Machine/SmallMatrix.lean ====
section
/-! DEFINITION. Small-matrix instructions (02 R66, 11 R341 to R347). A matrix of a lane is the list of its 36 slots, slot (i, j) at 6i + j. -/

namespace Sys2Proof.Machine

def Strand.qreg (st : Strand) (q : BitVec 2) : QReg := st.q.get {} q.toNat

/-! The shape word (02 R66). -/

def QReg.rows (q : QReg) : Nat := fld q.shape 0 3
def QReg.cols (q : QReg) : Nat := fld q.shape 3 3
def QReg.f64 (q : QReg) : Bool := bitOf q.shape 6
def shapeOf (r c : Nat) (f : Bool) : Word := word ((if f then 64 else 0) + c * 8 + r)
def QReg.fmt (q : QReg) : Fmt := if q.f64 then fp64 else fp32
def QReg.bytes (q : QReg) : Nat := if q.f64 then 8 else 4

abbrev Mat := List Nat

def QReg.mat (q : QReg) (l : Nat) : Mat := (List.range 36).map fun x => (q.slots.get 0 (36 * l + x)).toNat
def Mat.at (m : Mat) (i j : Nat) : Nat := nth 0 m (6 * i + j)
def Mat.set (m : Mat) (i j v : Nat) : Mat := upd m (6 * i + j) fun _ => v
def matOf (r c : Nat) (f : Nat → Nat → Nat) : Mat := (List.range 36).map fun x => if x / 6 < r ∧ x % 6 < c then f (x / 6) (x % 6) else 0

/-- 11 R342: the register under a new shape: slots outside it zero in every lane, the given lanes replaced. -/
def QReg.reshape (q : QReg) (lanes r c : Nat) (f : Bool) (new : List (Nat × Mat)) : QReg :=
  { shape := shapeOf r c f, dirty := true
    slots := (List.range lanes).foldl (fun t l =>
      let m := match new.find? fun x => x.1 == l with | some x => x.2 | none => q.mat l
      (List.range 36).foldl (fun t x => Tbl.put 0 (36 * l + x) (if x / 6 < r ∧ x % 6 < c then word (nth 0 m x) else 0) t) t) [] }

def putQ (q : BitVec 2) (v : QReg) : M Unit := modMe fun st => { st with q := Tbl.put {} q.toNat v st.q }

/-- 11 R342: the active lanes. -/
def actLanes (xm : Bool) (m : BitVec 3) : M (List Nat) := do
  let k ← curKey
  let st ← me
  return st.active (if xm then 0 else m.toNat) (min st.vl (lanesOf k))

/-- An issue check that fails: RANGE with the offending shape word (11 R342). -/
def badShape {α : Type} (q : QReg) : M α := trap 0xB q.shape

/-- An instruction of the family: it enters the vector queue as one entry and is fetched as eight bytes. -/
def smRun (i : Instr) (rs : List (BitVec 5)) (pipe : Nat) (core : M Unit) : M Unit := do
  issueVec i rs
  core
  enqueueVec pipe 1
  next 8

/-- The instructions that profile B lacks (11 R347, 14 R388: MIGRATE at decode). -/
def smRunF (i : Instr) (core : M Unit) : M Unit := do
  issueOn i []
  if isShoal (← curKey) then raiseBits 2 i
  smRun i [] 0 core

/-! Flags are collected along the chains. -/

abbrev Vf := Nat × Fl

/-- t ← Round(t − a·b) over the pairs, or t ← Round(t + a·b). -/
def chain (f : Fmt) (mode : Nat) (neg : Bool) (t : Vf) (ps : List (Nat × Nat)) : Vf :=
  ps.foldl (fun t p =>
    let a := f.unpack p.1
    let r := f.fma mode (if neg then a.neg else a) (f.unpack p.2) (f.unpack t.1)
    (r.1, flOr t.2 r.2)) t

def quot (f : Fmt) (mode : Nat) (t : Vf) (d : Nat) : Vf :=
  let r := f.arith 3 mode t.1 d
  (r.1, flOr t.2 r.2)

/-- A matrix under construction, with its flags. -/
structure MF where
  m : Mat
  fl : Fl

def MF.put (x : MF) (i j : Nat) (v : Vf) : MF := ⟨x.m.set i j v.1, flOr x.fl v.2⟩

/-- SMMUL (11 R343). -/
def mulMat (f : Fmt) (mode r k c : Nat) (a b : Mat) (init : Nat → Nat → Nat) : MF :=
  (List.range r).foldl (fun x i => (List.range c).foldl (fun x j =>
    x.put i j (chain f mode false (init i j, 0) ((List.range k).map fun t => (a.at i t, b.at t j)))) x) ⟨matOf 0 0 fun _ _ => 0, 0⟩

/-- One column of SMCHOL (11 R344): the result and whether the lane has failed. -/
def cholCol (f : Fmt) (mode n : Nat) (a : Mat) (x : MF × Bool) (j : Nat) : MF × Bool :=
  if x.2 then x else
  let l := x.1
  let s := chain f mode true (a.at j j, 0) ((List.range j).map fun k => (l.m.at j k, l.m.at j k))
  let v := f.unpack s.1
  if v.isNan || v.isZero || v.sgn then
    let m := (List.range n).foldl (fun m k => if j ≤ k then (List.range n).foldl (fun m i => if k ≤ i then m.set i k f.qnan else m) m else m) l.m
    (⟨m, flOr (flOr l.fl s.2) flNSPD⟩, true)
  else
    let d := f.sqrt mode v
    let l := l.put j j (d.1, flOr s.2 d.2)
    ((List.range n).foldl (fun l i =>
      if j < i then l.put i j (quot f mode (chain f mode true (a.at i j, 0) ((List.range j).map fun k => (l.m.at i k, l.m.at j k))) (l.m.at j j)) else l) l, false)

def cholMat (f : Fmt) (mode n : Nat) (a : Mat) : MF × Bool :=
  (List.range n).foldl (cholCol f mode n a) (⟨matOf 0 0 fun _ _ => 0, 0⟩, false)

/-- The order of pivots: a NaN above any number, then the magnitude (11 R345). -/
def pivKey (f : Fmt) (x : Nat) : Nat := if (f.unpack x).isNan then 2 ^ f.width else x % 2 ^ (f.width - 1)

def swapRows (m : Mat) (k p : Nat) : Mat :=
  (List.range 36).map fun x => if x / 6 = k then m.at p (x % 6) else if x / 6 = p then m.at k (x % 6) else nth 0 m x

/-- State of SMLU: matrix, pivot record, failure. -/
structure LU where
  a : MF
  piv : Nat
  fail : Bool

/-- One column of SMLU (11 R345). -/
def luCol (f : Fmt) (mode n : Nat) (x : LU) (k : Nat) : LU :=
  let p := (List.range n).foldl (fun b i => if k < i ∧ pivKey f (x.a.m.at b k) < pivKey f (x.a.m.at i k) then i else b) k
  let a : MF := ⟨swapRows x.a.m k p, x.a.fl⟩
  let piv := x.piv + p * 8 ^ k
  if (f.unpack (a.m.at k k)).isZero then ⟨⟨a.m, flOr a.fl flSING⟩, piv, true⟩
  else
    ⟨(List.range n).foldl (fun a i =>
      if k < i then
        let a := a.put i k (quot f mode (a.m.at i k, 0) (a.m.at k k))
        (List.range n).foldl (fun a j => if k < j then a.put i j (chain f mode true (a.m.at i j, 0) [(a.m.at i k, a.m.at k j)]) else a) a
      else a) a, piv, x.fail⟩

def luMat (f : Fmt) (mode n : Nat) (a : Mat) : LU := (List.range n).foldl (luCol f mode n) ⟨⟨a, 0⟩, 0, false⟩

/-- Forward substitution in a column vector; `unit` for a unit diagonal (11 R346). -/
def forwardCol (f : Fmt) (mode n : Nat) (unit : Bool) (a : Mat) (b : List Nat) : List Nat × Fl :=
  (List.range n).foldl (fun (y : List Nat × Fl) i =>
    let t := chain f mode true (nth 0 b i, 0) ((List.range i).map fun k => (a.at i k, nth 0 y.1 k))
    let t := if unit then t else quot f mode t (a.at i i)
    (y.1 ++ [t.1], flOr y.2 t.2)) ([], 0)

/-- Backward substitution; the matrix is read transposed for chol. -/
def backwardCol (f : Fmt) (mode n : Nat) (tr : Bool) (a : Mat) (b : List Nat) : List Nat × Fl :=
  (List.range n).foldl (fun (x : List Nat × Fl) j =>
    let i := n - 1 - j
    let t := chain f mode true (nth 0 b i, 0) ((List.range (n - 1 - i)).map fun d =>
      let k := i + 1 + d
      (if tr then a.at k i else a.at i k, nth 0 x.1 k))
    let t := quot f mode t (a.at i i)
    (upd x.1 i fun _ => t.1, flOr x.2 t.2)) (List.replicate n 0, 0)

/-- The swaps of a pivot record applied to a column. -/
def pivotCol (n piv : Nat) (b : List Nat) : List Nat :=
  (List.range n).foldl (fun b k =>
    let p := piv / 8 ^ k % 8
    let x := nth 0 b k
    let y := nth 0 b p
    upd (upd b k fun _ => y) p fun _ => x) b

/-- SMSOLVE by MODE 0 chol, 1 lu, 2 lower, 3 upper (11 R346). -/
def solveMat (f : Fmt) (mode md n c : Nat) (a b : Mat) (piv : Nat) : MF :=
  (List.range c).foldl (fun x col =>
    let b0 := (List.range n).map fun i => b.at i col
    let b1 := if md = 1 then pivotCol n piv b0 else b0
    let y := if md = 3 then (b1, 0) else forwardCol f mode n (decide (md = 1)) a b1
    let z := if md = 2 then (y.1, 0) else backwardCol f mode n (decide (md = 0)) a y.1
    (enumFrom 0 z.1).foldl (fun (x : MF) e => x.put e.1 col (e.2, 0)) ⟨x.m, flOr x.fl (flOr y.2 z.2)⟩) ⟨matOf 0 0 fun _ _ => 0, 0⟩

/-- Write the lanes' results, merge the flags with the lane as the element, and write the exception mask (11 R342). -/
def putLanes (qd : BitVec 2) (r c : Nat) (f : Bool) (rs : List (Nat × MF)) (m : BitVec 3) (xm : Bool) : M Unit := do
  let k ← curKey
  putQ qd (((← me).qreg qd).reshape (lanesOf k) r c f (rs.map fun x => (x.1, x.2.m)))
  flagElems (rs.map fun x => (x.1, x.2.fl))
  putXm xm m (rs.map fun x => (x.1, x.2.fl))

def execSmshape (qd : BitVec 2) (rows cols : BitVec 3) (fmt : Bool) (s : State) : Host.Outcome State Fault Refusal :=
  run (smRun (.smshape qd rows cols fmt) [] 0
    (putQ qd { shape := shapeOf rows.toNat cols.toNat fmt, dirty := true, slots := [] })) s

/-- The accesses of SMLD and SMST: lane l, element (i, j) at g_x + l·g_y + (i·c + j)·size (11 R343). -/
def smAccs (q : QReg) (base stride : Word) (ls : List Nat) : List VAcc :=
  ls.flatMap fun l => (List.range (q.rows * q.cols)).map fun e => ⟨l, e, base + word l * stride + word (e * q.bytes)⟩

def smldC (qd : BitVec 2) (x y : BitVec 5) (m : BitVec 3) (p : Bool) : M Unit := do
  let k ← curKey
  let q := (← me).qreg qd
  let ls ← actLanes false m
  let ps ← vcheckAll k (smAccs q (← rg x) (← rg y) ls) q.bytes p false accLoad false []
  each ps fun x => waitVlda k x.2 q.bytes
  let far := ps.filter fun x => x.2.isFar
  let rs ← askAll k far.length (heldOf ps) (each far fun (x : Placed) => sendLoad (.strand k) x.1.va q.bytes x.2)
  let r ← readAll ((← gs).taskOf k) q.bytes ps rs
  raiseAll r.2
  putQ qd (q.reshape (lanesOf k) q.rows q.cols q.f64 (ls.map fun l => (l, matOf q.rows q.cols fun i j =>
    ((r.1.find? fun z => z.1.e == l && z.1.j == i * q.cols + j).map (·.2 % 2 ^ (8 * q.bytes))).getD 0)))

def smstC (qd : BitVec 2) (x y : BitVec 5) (m : BitVec 3) (p : Bool) : M Unit := do
  let k ← curKey
  let q := (← me).qreg qd
  let ls ← actLanes false m
  let ps ← vcheckAll k (smAccs q (← rg x) (← rg y) ls) q.bytes p false accStore false []
  each ps fun x => waitVlda k x.2 q.bytes
  let tk := (← gs).taskOf k
  each ps fun x => writePlace k tk q.bytes x ((q.mat x.1.e).at (x.1.j / q.cols) (x.1.j % q.cols) % 2 ^ (8 * q.bytes)) false

def execSmld (qd : BitVec 2) (x y : BitVec 5) (m : BitVec 3) (p : Bool) (s : State) : Host.Outcome State Fault Refusal :=
  run (smRun (.smld qd x y m p) [x, y] 2 (smldC qd x y m p)) s
def execSmst (qd : BitVec 2) (x y : BitVec 5) (m : BitVec 3) (p : Bool) (s : State) : Host.Outcome State Fault Refusal :=
  run (smRun (.smst qd x y m p) [x, y] 2 (smstC qd x y m p)) s

def smmulC (qd qa qb : BitVec 2) (m : BitVec 3) (xm acc : Bool) : M Unit := do
  let st ← me
  let a := st.qreg qa
  let b := st.qreg qb
  let d := st.qreg qd
  if (a.f64 != b.f64) || decide (a.cols ≠ b.rows) then badShape b
  if acc && decide (d.shape ≠ shapeOf a.rows b.cols a.f64) then badShape d
  let ls ← actLanes xm m
  let f := a.fmt
  putLanes qd a.rows b.cols a.f64 (ls.map fun l =>
    (l, mulMat f st.frm a.rows a.cols b.cols (a.mat l) (b.mat l) fun i j => if acc then (d.mat l).at i j else f.sign true)) m xm

def execSmmul (qd qa qb : BitVec 2) (m : BitVec 3) (xm acc : Bool) (s : State) : Host.Outcome State Fault Refusal :=
  run (smRun (.smmul qd qa qb m xm acc) [] 0 (smmulC qd qa qb m xm acc)) s

def smaddC (qd qa qb : BitVec 2) (m : BitVec 3) (xm neg : Bool) : M Unit := do
  let st ← me
  let a := st.qreg qa
  let b := st.qreg qb
  if decide (a.shape ≠ b.shape) then badShape b
  let ls ← actLanes xm m
  putLanes qd a.rows a.cols a.f64 (ls.map fun l =>
    (l, (List.range (a.rows * a.cols)).foldl (fun (x : MF) e =>
      x.put (e / a.cols) (e % a.cols) (a.fmt.arith (if neg then 1 else 0) st.frm ((a.mat l).at (e / a.cols) (e % a.cols)) ((b.mat l).at (e / a.cols) (e % a.cols))))
      ⟨matOf 0 0 fun _ _ => 0, 0⟩)) m xm

def execSmadd (qd qa qb : BitVec 2) (m : BitVec 3) (xm neg : Bool) (s : State) : Host.Outcome State Fault Refusal :=
  run (smRun (.smadd qd qa qb m xm neg) [] 0 (smaddC qd qa qb m xm neg)) s

def smtrnC (qd qa : BitVec 2) (m : BitVec 3) : M Unit := do
  let a := (← me).qreg qa
  let ls ← actLanes false m
  putLanes qd a.cols a.rows a.f64 (ls.map fun l => (l, ⟨matOf a.cols a.rows fun i j => (a.mat l).at j i, 0⟩)) m false

def execSmtrn (qd qa : BitVec 2) (m : BitVec 3) (s : State) : Host.Outcome State Fault Refusal :=
  run (smRun (.smtrn qd qa m) [] 0 (smtrnC qd qa m)) s

/-- The failure mask MF of the lanes (11 R344). -/
def putFail (mf : BitVec 3) (ls : List Nat) : M Unit :=
  if mf = 0 then pure () else modMe fun st => st.setMask mf.toNat (BitVec.ofNat 2048 (bitsOf ls))

def smcholC (qd qa : BitVec 2) (m : BitVec 3) (xm : Bool) (mf : BitVec 3) : M Unit := do
  let st ← me
  let a := st.qreg qa
  if a.rows ≠ a.cols then badShape a
  let ls ← actLanes xm m
  let rs := ls.map fun l => (l, cholMat a.fmt st.frm a.rows (a.mat l))
  putLanes qd a.rows a.rows a.f64 (rs.map fun x => (x.1, x.2.1)) m xm
  putFail mf ((rs.filter fun x => x.2.2).map (·.1))

def execSmchol (qd qa : BitVec 2) (m : BitVec 3) (xm : Bool) (mf : BitVec 3) (s : State) : Host.Outcome State Fault Refusal :=
  run (smRunF (.smchol qd qa m xm mf) (smcholC qd qa m xm mf)) s

def smluC (qd qa : BitVec 2) (x : BitVec 5) (m : BitVec 3) (xm : Bool) (mf : BitVec 3) : M Unit := do
  let st ← me
  if st.sew < 4 then illAtIssue
  let a := st.qreg qa
  if a.rows ≠ a.cols then badShape a
  let ls ← actLanes xm m
  let rs := ls.map fun l => (l, luMat a.fmt st.frm a.rows (a.mat l))
  putElems x.toNat st.sew (rs.map fun r => (r.1, r.2.piv))
  putLanes qd a.rows a.rows a.f64 (rs.map fun r => (r.1, r.2.a)) m xm
  putFail mf ((rs.filter fun r => r.2.fail).map (·.1))

def execSmlu (qd qa : BitVec 2) (x : BitVec 5) (m : BitVec 3) (xm : Bool) (mf : BitVec 3) (s : State) : Host.Outcome State Fault Refusal :=
  run (smRunF (.smlu qd qa x m xm mf) (smluC qd qa x m xm mf)) s

/-- A pivot record that SMSOLVE.lu refuses (11 R346). -/
def pivBad (n p : Nat) : Bool := decide (8 ^ n ≤ p) || (List.range n).any fun k => decide (n ≤ p / 8 ^ k % 8)

def smsolveC (qd qa qb : BitVec 2) (x : BitVec 5) (m : BitVec 3) (xm : Bool) (mode : BitVec 2) : M Unit := do
  let k ← curKey
  let st ← me
  let lu := decide (mode = 1#2)
  if lu && decide (st.sew < 4) then illAtIssue
  let a := st.qreg qa
  let b := st.qreg qb
  if a.rows ≠ a.cols then badShape a
  if (a.f64 != b.f64) || decide (b.rows ≠ a.rows) then badShape b
  let ls ← actLanes xm m
  let piv := fun l => if lu then st.velem (vlenOf k) x.toNat st.sew l else 0
  if lu then useElems x.toNat st.sew ls
  match ls.find? fun l => lu && pivBad a.rows (piv l) with
  | some l => trap 0xB (word (piv l))
  | none => pure ()
  putLanes qd a.rows b.cols a.f64 (ls.map fun l => (l, solveMat a.fmt st.frm mode.toNat a.rows b.cols (a.mat l) (b.mat l) (piv l))) m xm

def execSmsolve (qd qa qb : BitVec 2) (x : BitVec 5) (m : BitVec 3) (xm : Bool) (mode : BitVec 2) (s : State) : Host.Outcome State Fault Refusal :=
  run (smRunF (.smsolve qd qa qb x m xm mode) (smsolveC qd qa qb x m xm mode)) s

/-- SMGET and SMPUT at the SEW of the format and inside the shape (11 R342). -/
def smElem (q : QReg) (i j : BitVec 3) : M Unit := do
  if (← me).sew ≠ q.bytes then illAtIssue
  if q.rows ≤ i.toNat ∨ q.cols ≤ j.toNat then badShape q

def smgetC (qa : BitVec 2) (x : BitVec 5) (m i j : BitVec 3) : M Unit := do
  let st ← me
  let a := st.qreg qa
  smElem a i j
  let ls ← actLanes false m
  putElems x.toNat st.sew (ls.map fun l => (l, (a.mat l).at i.toNat j.toNat))

def smputC (qd : BitVec 2) (x : BitVec 5) (m i j : BitVec 3) : M Unit := do
  let k ← curKey
  let st ← me
  let d := st.qreg qd
  smElem d i j
  let ls ← actLanes false m
  useElems x.toNat st.sew ls
  putQ qd { d with dirty := true, slots := ls.foldl (fun t l =>
    Tbl.put 0 (36 * l + 6 * i.toNat + j.toNat) (word (st.velem (vlenOf k) x.toNat st.sew l)) t) d.slots }

def execSmget (qa : BitVec 2) (x : BitVec 5) (m i j : BitVec 3) (s : State) : Host.Outcome State Fault Refusal :=
  run (smRun (.smget qa x m i j) [] 0 (smgetC qa x m i j)) s
def execSmput (qd : BitVec 2) (x : BitVec 5) (m i j : BitVec 3) (s : State) : Host.Outcome State Fault Refusal :=
  run (smRun (.smput qd x m i j) [] 0 (smputC qd x m i j)) s

end Sys2Proof.Machine
end

