-- ==== Sys2Proof/Machine/Dispatch.lean ====
section
/-! DEFINITION. One arm for each constructor of Instr. -/

namespace Sys2Proof.Machine

def exec (i : Instr) (s : State) : Host.Outcome State Fault Refusal :=
  match i with
  | .add d a b t => Sys2Proof.Machine.execAdd d a b t s
  | .sub d a b t => Sys2Proof.Machine.execSub d a b t s
  | .and d a b t => Sys2Proof.Machine.execAnd d a b t s
  | .or d a b t => Sys2Proof.Machine.execOr d a b t s
  | .xor d a b t => Sys2Proof.Machine.execXor d a b t s
  | .andn d a b t => Sys2Proof.Machine.execAndn d a b t s
  | .sll d a b t => Sys2Proof.Machine.execSll d a b t s
  | .srl d a b t => Sys2Proof.Machine.execSrl d a b t s
  | .sra d a b t => Sys2Proof.Machine.execSra d a b t s
  | .ror d a b t => Sys2Proof.Machine.execRor d a b t s
  | .slt d a b t => Sys2Proof.Machine.execSlt d a b t s
  | .min d a b t => Sys2Proof.Machine.execMin d a b t s
  | .max d a b t => Sys2Proof.Machine.execMax d a b t s
  | .mul d a b t => Sys2Proof.Machine.execMul d a b t s
  | .mulh d a b t => Sys2Proof.Machine.execMulh d a b t s
  | .div d a b t => Sys2Proof.Machine.execDiv d a b t s
  | .rem d a b t => Sys2Proof.Machine.execRem d a b t s
  | .clz d a t => Sys2Proof.Machine.execClz d a t s
  | .ctz d a t => Sys2Proof.Machine.execCtz d a t s
  | .popc d a t => Sys2Proof.Machine.execPopc d a t s
  | .brev d a t => Sys2Proof.Machine.execBrev d a t s
  | .bswap d a t => Sys2Proof.Machine.execBswap d a t s
  | .sext d a t => Sys2Proof.Machine.execSext d a t s
  | .zext d a t => Sys2Proof.Machine.execZext d a t s
  | .sel d a b t => Sys2Proof.Machine.execSel d a b t s
  | .fadd d a b t => Sys2Proof.Machine.execFadd d a b t s
  | .fsub d a b t => Sys2Proof.Machine.execFsub d a b t s
  | .fmul d a b t => Sys2Proof.Machine.execFmul d a b t s
  | .fdiv d a b t => Sys2Proof.Machine.execFdiv d a b t s
  | .fsqrt d a t => Sys2Proof.Machine.execFsqrt d a t s
  | .ffma d a b t => Sys2Proof.Machine.execFfma d a b t s
  | .fmin d a b t => Sys2Proof.Machine.execFmin d a b t s
  | .fmax d a b t => Sys2Proof.Machine.execFmax d a b t s
  | .fcmp d a b c t => Sys2Proof.Machine.execFcmp d a b c t s
  | .fclass d a t => Sys2Proof.Machine.execFclass d a t s
  | .fcvt d a v u t => Sys2Proof.Machine.execFcvt d a v u t s
  | .addi d a i_ => Sys2Proof.Machine.execAddi d a i_ s
  | .andi d a i_ => Sys2Proof.Machine.execAndi d a i_ s
  | .ori d a i_ => Sys2Proof.Machine.execOri d a i_ s
  | .xori d a i_ => Sys2Proof.Machine.execXori d a i_ s
  | .slli d a n => Sys2Proof.Machine.execSlli d a n s
  | .srli d a n => Sys2Proof.Machine.execSrli d a n s
  | .srai d a n => Sys2Proof.Machine.execSrai d a n s
  | .slti d a i_ => Sys2Proof.Machine.execSlti d a i_ s
  | .ldhi d i_ => Sys2Proof.Machine.execLdhi d i_ s
  | .addpc d i_ => Sys2Proof.Machine.execAddpc d i_ s
  | .ld t d a i_ => Sys2Proof.Machine.execLd t d a i_ s
  | .ldP t d a i_ => Sys2Proof.Machine.execLdP t d a i_ s
  | .st w a b i_ => Sys2Proof.Machine.execSt w a b i_ s
  | .stP w a b i_ => Sys2Proof.Machine.execStP w a b i_ s
  | .ldacq d a s_ t => Sys2Proof.Machine.execLdacq d a s_ t s
  | .ldacqP d a s_ t => Sys2Proof.Machine.execLdacqP d a s_ t s
  | .strel a b s_ w => Sys2Proof.Machine.execStrel a b s_ w s
  | .strelP a b s_ w => Sys2Proof.Machine.execStrelP a b s_ w s
  | .amo f d a b s_ y p => Sys2Proof.Machine.execAmo f d a b s_ y p s
  | .amoP f d a b s_ y p => Sys2Proof.Machine.execAmoP f d a b s_ y p s
  | .amocas d a b s_ y p => Sys2Proof.Machine.execAmocas d a b s_ y p s
  | .amocasP d a b s_ y p => Sys2Proof.Machine.execAmocasP d a b s_ y p s
  | .fence s_ k => Sys2Proof.Machine.execFence s_ k s
  | .beq a b i_ => Sys2Proof.Machine.execBeq a b i_ s
  | .bne a b i_ => Sys2Proof.Machine.execBne a b i_ s
  | .blt a b i_ => Sys2Proof.Machine.execBlt a b i_ s
  | .bge a b i_ => Sys2Proof.Machine.execBge a b i_ s
  | .bltZ a b i_ => Sys2Proof.Machine.execBltZ a b i_ s
  | .bgeZ a b i_ => Sys2Proof.Machine.execBgeZ a b i_ s
  | .jal i_ => Sys2Proof.Machine.execJal i_ s
  | .jalr d a i_ => Sys2Proof.Machine.execJalr d a i_ s
  | .svc n => Sys2Proof.Machine.execSvc n s
  | .brk n => Sys2Proof.Machine.execBrk n s
  | .eret => Sys2Proof.Machine.execEret s
  | .mfc d n => Sys2Proof.Machine.execMfc d n s
  | .mtc a n => Sys2Proof.Machine.execMtc a n s
  | .wfe => Sys2Proof.Machine.execWfe s
  | .yield => Sys2Proof.Machine.execYield s
  | .exit => Sys2Proof.Machine.execExit s
  | .placeAddr d a => Sys2Proof.Machine.execPlaceAddr d a s
  | .placeSelf d => Sys2Proof.Machine.execPlaceSelf d s
  | .rdgt d => Sys2Proof.Machine.execRdgt d s
  | .hint n => Sys2Proof.Machine.execHint n s
  | .cflush a s_ => Sys2Proof.Machine.execCflush a s_ s
  | .cinv a => Sys2Proof.Machine.execCinv a s
  | .xinvAll => Sys2Proof.Machine.execXinvAll s
  | .xinvCtx a => Sys2Proof.Machine.execXinvCtx a s
  | .xinvVa a b => Sys2Proof.Machine.execXinvVa a b s
  | .xinvIn a => Sys2Proof.Machine.execXinvIn a s
  | .addH y x => Sys2Proof.Machine.execAddH y x s
  | .subH y x => Sys2Proof.Machine.execSubH y x s
  | .andH y x => Sys2Proof.Machine.execAndH y x s
  | .orH y x => Sys2Proof.Machine.execOrH y x s
  | .xorH y x => Sys2Proof.Machine.execXorH y x s
  | .addiH i_ x => Sys2Proof.Machine.execAddiH i_ x s
  | .slliH i_ x => Sys2Proof.Machine.execSlliH i_ x s
  | .srliH i_ x => Sys2Proof.Machine.execSrliH i_ x s
  | .ldH y x => Sys2Proof.Machine.execLdH y x s
  | .stH y x => Sys2Proof.Machine.execStH y x s
  | .beqH i_ x => Sys2Proof.Machine.execBeqH i_ x s
  | .bneH i_ x => Sys2Proof.Machine.execBneH i_ x s
  | .jalrH y x => Sys2Proof.Machine.execJalrH y x s
  | .jalH i_ => Sys2Proof.Machine.execJalH i_ s
  | .hintH => Sys2Proof.Machine.execHintH s
  | .vadd d a b m w f => Sys2Proof.Machine.execVadd d a b m w f s
  | .vsub d a b m w f => Sys2Proof.Machine.execVsub d a b m w f s
  | .vmul d a b m w f => Sys2Proof.Machine.execVmul d a b m w f s
  | .vmulh d a b m w f => Sys2Proof.Machine.execVmulh d a b m w f s
  | .vwmul d a b m w f => Sys2Proof.Machine.execVwmul d a b m w f s
  | .vwmac d a b m w f => Sys2Proof.Machine.execVwmac d a b m w f s
  | .vmac d a b m w f => Sys2Proof.Machine.execVmac d a b m w f s
  | .vdiv d a b m w x f => Sys2Proof.Machine.execVdiv d a b m w x f s
  | .vrem d a b m w x f => Sys2Proof.Machine.execVrem d a b m w x f s
  | .vmin d a b m w f => Sys2Proof.Machine.execVmin d a b m w f s
  | .vmax d a b m w f => Sys2Proof.Machine.execVmax d a b m w f s
  | .vand d a b m w f => Sys2Proof.Machine.execVand d a b m w f s
  | .vor d a b m w f => Sys2Proof.Machine.execVor d a b m w f s
  | .vxor d a b m w f => Sys2Proof.Machine.execVxor d a b m w f s
  | .vsll d a b m w f => Sys2Proof.Machine.execVsll d a b m w f s
  | .vsrl d a b m w f => Sys2Proof.Machine.execVsrl d a b m w f s
  | .vsra d a b m w f => Sys2Proof.Machine.execVsra d a b m w f s
  | .vnshr d a b m w x f => Sys2Proof.Machine.execVnshr d a b m w x f s
  | .vsadd d a b m w x f => Sys2Proof.Machine.execVsadd d a b m w x f s
  | .vssub d a b m w x f => Sys2Proof.Machine.execVssub d a b m w x f s
  | .vcmp c d a b m w f => Sys2Proof.Machine.execVcmp c d a b m w f s
  | .vfcmp c d a b m w => Sys2Proof.Machine.execVfcmp c d a b m w s
  | .vfadd d a b m w x f => Sys2Proof.Machine.execVfadd d a b m w x f s
  | .vfsub d a b m w x f => Sys2Proof.Machine.execVfsub d a b m w x f s
  | .vfmul d a b m w x f => Sys2Proof.Machine.execVfmul d a b m w x f s
  | .vfdiv d a b m w x f => Sys2Proof.Machine.execVfdiv d a b m w x f s
  | .vfsqrt d a m w x => Sys2Proof.Machine.execVfsqrt d a m w x s
  | .vfma d a b m w x f => Sys2Proof.Machine.execVfma d a b m w x f s
  | .vfms d a b m w x f => Sys2Proof.Machine.execVfms d a b m w x f s
  | .vfnma d a b m w x f => Sys2Proof.Machine.execVfnma d a b m w x f s
  | .vfmin d a b m w x f => Sys2Proof.Machine.execVfmin d a b m w x f s
  | .vfmax d a b m w x f => Sys2Proof.Machine.execVfmax d a b m w x f s
  | .vfclass d a m w => Sys2Proof.Machine.execVfclass d a m w s
  | .vfcvt d a v u m w x => Sys2Proof.Machine.execVfcvt d a v u m w x s
  | .vsfn d a n m w x => Sys2Proof.Machine.execVsfn d a n m w x s
  | .vred o d a b m w => Sys2Proof.Machine.execVred o d a b m w s
  | .vfredo d a b m w x => Sys2Proof.Machine.execVfredo d a b m w x s
  | .vfredt d a b m w x => Sys2Proof.Machine.execVfredt d a b m w x s
  | .vld d a m p o => Sys2Proof.Machine.execVld d a m p o s
  | .vlds d a b m p o => Sys2Proof.Machine.execVlds d a b m p o s
  | .vldx d a b m p o => Sys2Proof.Machine.execVldx d a b m p o s
  | .vlseg d a n m p o => Sys2Proof.Machine.execVlseg d a n m p o s
  | .vlda d a m p => Sys2Proof.Machine.execVlda d a m p s
  | .vst d a m p o => Sys2Proof.Machine.execVst d a m p o s
  | .vsts d a b m p o => Sys2Proof.Machine.execVsts d a b m p o s
  | .vstx d a b m p o => Sys2Proof.Machine.execVstx d a b m p o s
  | .vsseg d a n m p o => Sys2Proof.Machine.execVsseg d a n m p o s
  | .vstn d a b m n p o => Sys2Proof.Machine.execVstn d a b m n p o s
  | .vamo f d a b m p y => Sys2Proof.Machine.execVamo f d a b m p y s
  | .mand d a b => Sys2Proof.Machine.execMand d a b s
  | .mor d a b => Sys2Proof.Machine.execMor d a b s
  | .mxor d a b => Sys2Proof.Machine.execMxor d a b s
  | .mandn d a b => Sys2Proof.Machine.execMandn d a b s
  | .mpopc d a => Sys2Proof.Machine.execMpopc d a s
  | .mfirst d a => Sys2Proof.Machine.execMfirst d a s
  | .vslideup d a b m f => Sys2Proof.Machine.execVslideup d a b m f s
  | .vslidedn d a b m f => Sys2Proof.Machine.execVslidedn d a b m f s
  | .vgather d a b m => Sys2Proof.Machine.execVgather d a b m s
  | .vcompress d a m => Sys2Proof.Machine.execVcompress d a m s
  | .vexpand d a m => Sys2Proof.Machine.execVexpand d a m s
  | .vbcast d b m f => Sys2Proof.Machine.execVbcast d b m f s
  | .vmvx d a b f => Sys2Proof.Machine.execVmvx d a b f s
  | .vins d a b f => Sys2Proof.Machine.execVins d a b f s
  | .viota d a m => Sys2Proof.Machine.execViota d a m s
  | .vmerge d a b m => Sys2Proof.Machine.execVmerge d a b m s
  | .vperms d a b m f => Sys2Proof.Machine.execVperms d a b m f s
  | .vbrev d a m => Sys2Proof.Machine.execVbrev d a m s
  | .vsetl d a w s_ => Sys2Proof.Machine.execVsetl d a w s_ s
  | .vspill d a b p => Sys2Proof.Machine.execVspill d a b p s
  | .vfill d a b p => Sys2Proof.Machine.execVfill d a b p s
  | .vhad d a isInt alt cv sat sh ot j nst => Sys2Proof.Machine.execVhad d a isInt alt cv sat sh ot j nst s
  | .vloop a len => Sys2Proof.Machine.execVloop a len s
  | .vloopStrip k => Sys2Proof.Machine.execVloopStrip k s
  | .rnginit d a b => Sys2Proof.Machine.execRnginit d a b s
  | .rawait d a => Sys2Proof.Machine.execRawait d a s
  | .rrels a => Sys2Proof.Machine.execRrels a s
  | .rngq d a s_ => Sys2Proof.Machine.execRngq d a s_ s
  | .tcset a b s_ => Sys2Proof.Machine.execTcset a b s_ s
  | .tcadd a b s_ => Sys2Proof.Machine.execTcadd a b s_ s
  | .tcwait d a b s_ p => Sys2Proof.Machine.execTcwait d a b s_ p s
  | .launch d a => Sys2Proof.Machine.execLaunch d a s
  | .spawn d a => Sys2Proof.Machine.execSpawn d a s
  | .ownacq d a => Sys2Proof.Machine.execOwnacq d a s
  | .ownrel d a => Sys2Proof.Machine.execOwnrel d a s
  | .routeset d a b => Sys2Proof.Machine.execRouteset d a b s
  | .collab d a b => Sys2Proof.Machine.execCollab d a b s
  | .cpy a ch => Sys2Proof.Machine.execCpy a ch s
  | .cpyTrg a ch t => Sys2Proof.Machine.execCpyTrg a ch t s
  | .coll a => Sys2Proof.Machine.execColl a s
  | .collTrg a t => Sys2Proof.Machine.execCollTrg a t s
  | .smshape qd rows cols fmt => Sys2Proof.Machine.execSmshape qd rows cols fmt s
  | .smld qd x y m p => Sys2Proof.Machine.execSmld qd x y m p s
  | .smst qd x y m p => Sys2Proof.Machine.execSmst qd x y m p s
  | .smmul qd qa qb m xm acc => Sys2Proof.Machine.execSmmul qd qa qb m xm acc s
  | .smadd qd qa qb m xm neg => Sys2Proof.Machine.execSmadd qd qa qb m xm neg s
  | .smtrn qd qa m => Sys2Proof.Machine.execSmtrn qd qa m s
  | .smchol qd qa m xm mf => Sys2Proof.Machine.execSmchol qd qa m xm mf s
  | .smlu qd qa x m xm mf => Sys2Proof.Machine.execSmlu qd qa x m xm mf s
  | .smsolve qd qa qb x m xm mode => Sys2Proof.Machine.execSmsolve qd qa qb x m xm mode s
  | .smget qa x m i_ j => Sys2Proof.Machine.execSmget qa x m i_ j s
  | .smput qd x m i_ j => Sys2Proof.Machine.execSmput qd x m i_ j s
  | .rgalloc d qr qc atO orow oc => Sys2Proof.Machine.execRgalloc d qr qc atO orow oc s
  | .rgfree a whole => Sys2Proof.Machine.execRgfree a whole s
  | .rgload d a b => Sys2Proof.Machine.execRgload d a b s
  | .rgrun a => Sys2Proof.Machine.execRgrun a s
  | .rgwait d a s_ => Sys2Proof.Machine.execRgwait d a s_ s
  | .rgstop a => Sys2Proof.Machine.execRgstop a s
  | .rgstat d a => Sys2Proof.Machine.execRgstat d a s
  | .rgexp d a b => Sys2Proof.Machine.execRgexp d a b s
  | .rgimp d a b => Sys2Proof.Machine.execRgimp d a b s
  | .sbind a b => Sys2Proof.Machine.execSbind a b s
  | .rgsetc a b n allG grain => Sys2Proof.Machine.execRgsetc a b n allG grain s
  | .bfly g w => Sys2Proof.Machine.execBfly g w s
  | .hadb g w => Sys2Proof.Machine.execHadb g w s
  | .cmul g w => Sys2Proof.Machine.execCmul g w s
  | .mac g w => Sys2Proof.Machine.execMac g w s
  | .smac g w => Sys2Proof.Machine.execSmac g w s
  | .eop g w => Sys2Proof.Machine.execEop g w s
  | .mmul g w => Sys2Proof.Machine.execMmul g w s
  | .madd g w => Sys2Proof.Machine.execMadd g w s
  | .mred g w => Sys2Proof.Machine.execMred g w s
  | .bfps g w => Sys2Proof.Machine.execBfps g w s
  | .cvt g w => Sys2Proof.Machine.execCvt g w s
  | .scan g w => Sys2Proof.Machine.execScan g w s
  | .cmps g w => Sys2Proof.Machine.execCmps g w s
  | .ldg g w => Sys2Proof.Machine.execLdg g w s
  | .stg g w => Sys2Proof.Machine.execStg g w s
  | .ldp g w => Sys2Proof.Machine.execLdp g w s
  | .stp g w => Sys2Proof.Machine.execStp g w s
  | .tas g w => Sys2Proof.Machine.execTas g w s
  | .req g w => Sys2Proof.Machine.execReq g w s
  | .rld g w => Sys2Proof.Machine.execRld g w s
  | .rst g w => Sys2Proof.Machine.execRst g w s
  | .rat g w => Sys2Proof.Machine.execRat g w s
  | .rout g w => Sys2Proof.Machine.execRout g w s
  | .merg g w => Sys2Proof.Machine.execMerg g w s
  | .filt g w => Sys2Proof.Machine.execFilt g w s
  | .dupl g w => Sys2Proof.Machine.execDupl g w s
  | .cnt g w => Sys2Proof.Machine.execCnt g w s
  | .mark g w => Sys2Proof.Machine.execMark g w s
  | .rdce g w => Sys2Proof.Machine.execRdce g w s
  | .gate g w => Sys2Proof.Machine.execGate g w s
  | .fetchFault cause tval => Sys2Proof.Machine.execFetchFault cause tval s
  | .illegalEncoding bits => Sys2Proof.Machine.execIllegalEncoding bits s
  | .strandWake k => Sys2Proof.Machine.execStrandWake k s
  | .wfeTimeout k => Sys2Proof.Machine.execWfeTimeout k s
  | .vectorIssueCycle c => Sys2Proof.Machine.execVectorIssueCycle c s
  | .bankArbitrationCycle pan bank g v s_ e x => Sys2Proof.Machine.execBankArbitrationCycle pan bank g v s_ e x s
  | .vldaGroupWrite k => Sys2Proof.Machine.execVldaGroupWrite k s
  | .vstnNotify k => Sys2Proof.Machine.execVstnNotify k s
  | .xinvRetire n => Sys2Proof.Machine.execXinvRetire n s
  | .regionServiceCycle r => Sys2Proof.Machine.execRegionServiceCycle r s
  | .frameChangeDone r slot => Sys2Proof.Machine.execFrameChangeDone r slot s
  | .ringOutputPublishTimeout r slot bind => Sys2Proof.Machine.execRingOutputPublishTimeout r slot bind s
  | .ringInputAcquire r slot bind => Sys2Proof.Machine.execRingInputAcquire r slot bind s
  | .regionStopTimeout r slot => Sys2Proof.Machine.execRegionStopTimeout r slot s
  | .sluiceCommandStart ch => Sys2Proof.Machine.execSluiceCommandStart ch s
  | .sluiceChunk ch => Sys2Proof.Machine.execSluiceChunk ch s
  | .ringReserve ch => Sys2Proof.Machine.execRingReserve ch s
  | .armedCopyEnqueue ch => Sys2Proof.Machine.execArmedCopyEnqueue ch s
  | .pmigdbWrite die v => Sys2Proof.Machine.execPmigdbWrite die v s
  | .pageMigrationStart die => Sys2Proof.Machine.execPageMigrationStart die s
  | .pageMigrationChunk die => Sys2Proof.Machine.execPageMigrationChunk die s
  | .frameInvalidationRetire die => Sys2Proof.Machine.execFrameInvalidationRetire die s
  | .remoteAccessArrival m => Sys2Proof.Machine.execRemoteAccessArrival m s
  | .remoteReleasePerform n => Sys2Proof.Machine.execRemoteReleasePerform n s
  | .remoteResponseArrival tag r => Sys2Proof.Machine.execRemoteResponseArrival tag r s
  | .tokenTransferComplete req => Sys2Proof.Machine.execTokenTransferComplete req s
  | .dispatchCycle => Sys2Proof.Machine.execDispatchCycle s
  | .queueAging q => Sys2Proof.Machine.execQueueAging q s
  | .imageLoadComplete h => Sys2Proof.Machine.execImageLoadComplete h s
  | .blockStart b => Sys2Proof.Machine.execBlockStart b s
  | .blockRetire b => Sys2Proof.Machine.execBlockRetire b s
  | .heldRecordEnqueue n => Sys2Proof.Machine.execHeldRecordEnqueue n s
  | .taskCommit t => Sys2Proof.Machine.execTaskCommit t s
  | .preemptRequest b => Sys2Proof.Machine.execPreemptRequest b s
  | .preemptComplete b => Sys2Proof.Machine.execPreemptComplete b s
  | .resumeRequest b => Sys2Proof.Machine.execResumeRequest b s
  | .blockResume b => Sys2Proof.Machine.execBlockResume b s
  | .evictRequest pan res => Sys2Proof.Machine.execEvictRequest pan res s
  | .evictionComplete pan res => Sys2Proof.Machine.execEvictionComplete pan res s
  | .killWrite k => Sys2Proof.Machine.execKillWrite k s
  | .migrationCopyComplete b => Sys2Proof.Machine.execMigrationCopyComplete b s
  | .flitTransmit link => Sys2Proof.Machine.execFlitTransmit link s
  | .flitReceive link f opens => Sys2Proof.Machine.execFlitReceive link f opens s
  | .retrainComplete link ok => Sys2Proof.Machine.execRetrainComplete link ok s
  | .flitDeliveryTimeout tag => Sys2Proof.Machine.execFlitDeliveryTimeout tag s
  | .collFlitReceive link group gseq body => Sys2Proof.Machine.execCollFlitReceive link group gseq body s
  | .reducerStep die => Sys2Proof.Machine.execReducerStep die s
  | .abtReceive link group seq => Sys2Proof.Machine.execAbtReceive link group seq s
  | .abtackReceive link group seq => Sys2Proof.Machine.execAbtackReceive link group seq s
  | .collTimeout vs => Sys2Proof.Machine.execCollTimeout vs s
  | .lkkeyWrite link v fw => Sys2Proof.Machine.execLkkeyWrite link v fw s
  | .spareTakeover dev => Sys2Proof.Machine.execSpareTakeover dev s
  | .checkpointStart => Sys2Proof.Machine.execCheckpointStart s
  | .checkpointComplete => Sys2Proof.Machine.execCheckpointComplete s
  | .faultRecovery => Sys2Proof.Machine.execFaultRecovery s
  | .ownclaimWrite p0 p1 => Sys2Proof.Machine.execOwnclaimWrite p0 p1 s
  | .ownhandWrite port v => Sys2Proof.Machine.execOwnhandWrite port v s
  | .ownerLinkTimeout => Sys2Proof.Machine.execOwnerLinkTimeout s
  | .hwsyncRead port => Sys2Proof.Machine.execHwsyncRead port s
  | .ihead port i_ v => Sys2Proof.Machine.execIhead port i_ v s
  | .ictrl port i_ v => Sys2Proof.Machine.execIctrl port i_ v s
  | .itstamp port i_ v => Sys2Proof.Machine.execItstamp port i_ v s
  | .icmpl port i_ v => Sys2Proof.Machine.execIcmpl port i_ v s
  | .iarg port i_ v => Sys2Proof.Machine.execIarg port i_ v s
  | .iend port i_ v => Sys2Proof.Machine.execIend port i_ v s
  | .istatRead port i_ => Sys2Proof.Machine.execIstatRead port i_ s
  | .hirqWrite port v => Sys2Proof.Machine.execHirqWrite port v s
  | .qcfgWrite q v fw => Sys2Proof.Machine.execQcfgWrite q v fw s
  | .imageTableWrite port e dw v => Sys2Proof.Machine.execImageTableWrite port e dw v s
  | .hostWindowWrite port w dw v => Sys2Proof.Machine.execHostWindowWrite port w dw v s
  | .panControlWrite pan off v fw => Sys2Proof.Machine.execPanControlWrite pan off v fw s
  | .tcctlClear die => Sys2Proof.Machine.execTcctlClear die s
  | .tcctlFreeze die on => Sys2Proof.Machine.execTcctlFreeze die on s
  | .pwrlimWrite v => Sys2Proof.Machine.execPwrlimWrite v s
  | .registerWrite off v fw => Sys2Proof.Machine.execRegisterWrite off v fw s
  | .powerLimiterSample avg => Sys2Proof.Machine.execPowerLimiterSample avg s
  | .thermalThrottle die hot => Sys2Proof.Machine.execThermalThrottle die hot s
  | .thermalTrip => Sys2Proof.Machine.execThermalTrip s
  | .reset => Sys2Proof.Machine.execReset s
  | .bootStepComplete ok => Sys2Proof.Machine.execBootStepComplete ok s
  | .attestationRequest port nonce => Sys2Proof.Machine.execAttestationRequest port nonce s
  | .patrolScrub u n found => Sys2Proof.Machine.execPatrolScrub u n found s
  | .errorLogPlace => Sys2Proof.Machine.execErrorLogPlace s
  | .hostPortLinkDown port up => Sys2Proof.Machine.execHostPortLinkDown port up s
  | .hostReadCompletion tag v => Sys2Proof.Machine.execHostReadCompletion tag v s
  | .quiescedReport dev => Sys2Proof.Machine.execQuiescedReport dev s
  | .contextCreate c => Sys2Proof.Machine.execContextCreate c s
  | .contextDestroy c => Sys2Proof.Machine.execContextDestroy c s
  | .queueClear q => Sys2Proof.Machine.execQueueClear q s

end Sys2Proof.Machine
end

