-- ==== Sys2Proof/Machine/Step.lean ====
section
/-! DEFINITION. The step: the next turn of the machine, and the placing of one instruction where the next step fetches. -/

namespace Sys2Proof.Machine

/-- The instruction that a fetch found, executed on the state the fetch left. -/
def stepFetched (f : Fetched) (s : State) : Host.Outcome State Fault Refusal :=
  match f with
  | .inst i => exec i s
  | .fault c v => exec (.fetchFault c v) s
  | .illegal w => exec (.illegalEncoding w) s

/-- The next instruction of strand `k`: fetch, decode, execute (08 R210); a strand that cannot issue does nothing. -/
def stepStrand (k : Nat) (s : State) : Host.Outcome State Fault Refusal :=
  let s := { s with cur := k }
  if (s.strand k).issues then
    match fetchDecode k ⟨s, []⟩ with
    | .ok (f, w) => stepFetched f (applyAll w.log s)
    | .error _ => .next s
  else .next s

/-- One turn. A turn that names a strand's instruction as an event is no event, and nothing happens. -/
def stepTurn (t : Turn) (s : State) : Host.Outcome State Fault Refusal :=
  match t with
  | .strand k => stepStrand k s
  | .event i => if i.isEvent then exec i s else .next s
  | t => ownTurn t s

/-- 19 R454: only a reset moves a tripped device. -/
def Turn.isReset (t : Turn) : Bool := decide (t = .event .reset)

def step (s : State) : Host.Outcome State Fault Refusal :=
  if s.harbour.tripped && !(s.turns.any Turn.isReset) then .fault .tripped
  else
    match s.turns with
    | [] => stepTurn s.autoTurn s
    | t :: ts =>
      if s.harbour.tripped && !t.isReset then .next { s with turns := ts }
      else stepTurn t { s with turns := ts }

/-- The address at which `withFetchWord` places an instruction, and the leaf that maps it: local, frame 1, X and R and W set, U clear (log 9). -/
def placedPc : Word := 0x10000
def placedLeaf : Word := 0x10073

/-- Put the bytes of one instruction at the address that strand 0 fetches next, in supervisor mode, through a translation that its pan holds. -/
def State.withFetchWord (s : State) (nbits w : Nat) : State :=
  let bs := bytesOf (w % 2 ^ (max nbits 16)) 8
  let s := applyAll ((List.range 8).map fun i => Upd.memByte (65536 + i) (nth 0 bs i)) s
  let st := s.strand 0
  let p := s.pan 0
  applyAll
    [.turns [.strand 0], .cur 0,
     .strand 0 { st with st := .run, sup := true, pc := placedPc, loop := none, watch := [] },
     .pan 0 { p with
       tlb := ⟨st.ctx, 16, 1, placedLeaf⟩ :: (p.tlb.filter fun e => !covers e st.ctx 65536).take 127
       icache := p.icache.filter fun l => !(l.ctx == st.ctx && l.va == 512) },
     .poison 1024 false] s

end Sys2Proof.Machine
end

