-- ==== Sys2Proof/Safety.lean ====
section
/-! DEFINITION. The terms in which statements are made: the executing strand and the state with it replaced, retirement as a function of the strand, what a meaning finds when it translates, and the invariant of the machine. -/

namespace Sys2Proof.Machine

/-- The executing strand. -/
def State.here (s : State) : Strand := s.strand s.cur

/-- The state with the executing strand replaced and nothing else changed. -/
def State.withHere (s : State) (st : Strand) : State := (Upd.strand s.cur st).apply s

/-- A strand that has written `v` to g_d and stands at the instruction after. -/
def Strand.retired (st : Strand) (d : BitVec 5) (v : Word) (len : Nat) : Strand :=
  { st.setG d v with pc := st.pc + word len }

/-- A strand that has raised the flags `f` for element 0, where there are any. -/
def Strand.flagged (st : Strand) (f : Fl) : Strand := if f = 0 then st else st.raise f 0

/-- The same with the flags that the instruction raised. -/
def Strand.retiredF (st : Strand) (d : BitVec 5) (v : Word) (f : Fl) (len : Nat) : Strand :=
  { (st.setG d v).flagged f with pc := st.pc + word len }

/-- A strand that stands at the instruction after. -/
def Strand.past (st : Strand) (len : Nat) : Strand := { st with pc := st.pc + word len }

/-- Memory is canonical: addresses rise strictly, stay inside the 39 bits of a physical address, and no entry is the byte that an unlisted address reads as. -/
abbrev Memory.wf (m : List Host.Cell) : Prop := Tbl.wf 0 m = true ∧ m.all (fun c => decide (c.1 < memLimit)) = true

/-- Pan memory is canonical, and every listed byte belongs to a pan that exists. -/
abbrev PanMemory.wf (m : List Host.Cell) : Prop := Tbl.wf 0 m = true ∧ m.all (fun c => panKeyOk c.1) = true

/-- A set of numbers is listed in strictly rising order. -/
def NSet.wfFrom (lo : Nat) : NSet → Bool
  | [] => true
  | k :: t => decide (lo ≤ k) && NSet.wfFrom (k + 1) t

/-- What every step keeps: storage and every table in canonical form, and the power limit within the board limit of 19 R452. -/
structure State.Good (s : State) : Prop where
  mem : Memory.wf s.mem
  panMem : PanMemory.wf s.panMem
  poison : NSet.wfFrom 0 s.poison = true
  panPoison : NSet.wfFrom 0 s.panPoison = true
  strands : Tbl.wf {} s.strands = true
  pans : Tbl.wf {} s.pans = true
  bays : Tbl.wf {} s.bays = true
  dies : Tbl.wf {} s.dies = true
  chans : Tbl.wf {} s.chans = true
  regions : Tbl.wf none s.regions = true
  rings : Tbl.wf {} s.rings = true
  counters : Tbl.wf {} s.counters = true
  streams : Tbl.wf {} s.streams = true
  queues : Tbl.wf {} s.queues = true
  contexts : Tbl.wf none s.contexts = true
  kernels : Tbl.wf none s.kernels = true
  blocks : Tbl.wf none s.blocks = true
  tasks : Tbl.wf none s.tasks = true
  links : Tbl.wf {} s.links = true
  power : s.pwrlim ≤ 4800

/-- What an access of strand `k` outside a task finds (00 R7, 01 R9, R22): a trap cause or a location, and the state that its lookup and its way through the cache slices leave (03 R73). -/
def State.looks (s : State) (k : Nat) (va : Word) (n : Nat) (a : Acc) : Except Nat Loc × State :=
  match (do reach (← whoIs k) false false va n a : M (Except Nat Loc)) ⟨s, []⟩ with
  | .ok (r, w) => (r, w.s)
  | .error _ => (.error 4, s)

/-- What the translation and checks of an access of strand `k` find (00 R7, 01 R22): a trap cause or the translation, and the state that the lookup leaves. -/
def State.probes (s : State) (k : Nat) (va : Word) (a : Acc) : Except Nat TlbEnt × State :=
  match (do probe (← whoIs k) va a : M (Except Nat TlbEnt)) ⟨s, []⟩ with
  | .ok (r, w) => (r, w.s)
  | .error _ => (.error 4, s)

/-- What a lookup without checks finds for strand `k` (01 R9, R37), and the state that it leaves. -/
def State.finds (s : State) (k : Nat) (va : Word) : Option TlbEnt × State :=
  match (do
    let w ← whoIs k
    lookup w.walker w.ctx ((← gs).rootOf w.ctx) va.toNat : M (Option TlbEnt)) ⟨s, []⟩ with
  | .ok (r, w) => (r, w.s)
  | .error _ => (none, s)

/-- An access of the executing strand reaches device memory at `pa` and meets no trap of 09 R255: it is aligned, its probe finds a local page, and neither poison nor a watchpoint stops it. `s'` is the state that the lookup and the slices leave. -/
structure State.Reaches (s : State) (va : Word) (n : Nat) (a : Acc) (pa : Nat) (s' : State) : Prop where
  aligned : va.toNat % n = 0
  found : s.looks s.cur va n a = (.ok (.mem pa), s')
  clean : (a.rd || decide (n < 8)) = true → s'.poisonedAt pa n = false
  unwatched : s.here.watched va n a = false
  /-- the strand's block is no ordered or shadow task (05 R134) -/
  untasked : s.taskOf s.cur = none
  /-- no access of the instruction is under way -/
  unheld : s.here.held = []
  /-- no pending VLDA is still to read these bytes (05 R131) -/
  apart : s.here.pendingAt (.at_ (.mem pa)) n = false

/-- An access of the executing strand to the pan space (02 R58 to R62) that meets no trap: it is aligned and inside 8 MiB, in the context's partition, and not poisoned. -/
structure State.ReachesPan (s : State) (va : Word) (n : Nat) (a : Acc) : Prop where
  full : isMgmt s.cur = false
  aligned : va.toNat % n = 0
  space : va.toNat < 2 ^ 23
  inside : s.inPartition (panOf s.cur) s.here.ctx va.toNat n = true
  clean : (a.rd || decide (n < 8)) = true → s.panPoisonedAt (panKey (panOf s.cur) va.toNat) n = false
  unheld : s.here.held = []
  apart : s.here.pendingAt (.pan (panKey (panOf s.cur) va.toNat)) n = false

/-- Nothing but strands, storage with its poison, caches, traffic counters and the free-value counter differs. -/
def State.Aside (s t : State) : Prop :=
  t = { s with
    strands := t.strands, mem := t.mem, poison := t.poison, panMem := t.panMem, panPoison := t.panPoison
    pans := t.pans, bays := t.bays, dies := t.dies, free := t.free }

/-- A strand that differs from another at most in its monitor latch having been set (09 R271). -/
def Strand.Woken (st st' : Strand) : Prop := st' = st ∨ st' = { st with latch := true }

/-- `t` is `s` after the executing strand has become `st` and the `n` bytes of `v` have been stored at the homes of [pa, pa + n) in device memory: every other byte, all of pan memory and everything else is as it was, but for poison that the store covers and the latches of strands that monitor the line. -/
structure State.Stored (s t : State) (st : Strand) (pa n v : Nat) : Prop where
  here : t.here = st
  bytes : ∀ i < n, t.byte (s.home (pa + i)) = BitVec.ofNat 8 (v / 2 ^ (8 * i))
  others : ∀ x, (∀ i < n, x ≠ s.home (pa + i)) → t.byte x = s.byte x
  poison : ∀ g, NSet.mem g t.poison = true → NSet.mem g s.poison = true
  panMem : t.panMem = s.panMem
  panPoison : t.panPoison = s.panPoison
  strands : ∀ k, k ≠ s.cur → (s.strand k).Woken (t.strand k)
  aside : s.Aside t

/-- The same for the `n` bytes from a key of pan memory (02 R47, R62). -/
structure State.StoredPan (s t : State) (st : Strand) (key n v : Nat) : Prop where
  here : t.here = st
  bytes : ∀ i < n, t.panByte (key + i) = BitVec.ofNat 8 (v / 2 ^ (8 * i))
  others : ∀ x, (∀ i < n, x ≠ key + i) → t.panByte x = s.panByte x
  poison : ∀ w, NSet.mem w t.panPoison = true → NSet.mem w s.panPoison = true
  mem : t.mem = s.mem
  memPoison : t.poison = s.poison
  strands : ∀ k, k ≠ s.cur → (s.strand k).Woken (t.strand k)
  aside : s.Aside t

/-- A store can be performed at once: no pending VLDA of the strand reads storage (05 R131), no posted store is outstanding (05 R146), no ordered or shadow task exists, and the homes of its bytes are addresses of device memory. -/
structure State.CanStore (s : State) (pa n : Nat) : Prop where
  vlda : s.here.vlda = []
  posted : s.here.posted = []
  quiet : s.fabric.requests = []
  unreleased : s.here.relAt = none
  tasks : s.tasks = []
  home : ∀ i < n, s.home (pa + i) < memLimit

/-- The outcome of an instruction of the executing strand that raises one cause at its own address. -/
def State.traps (s : State) (cause : Nat) (tval : Word) : Host.Outcome State Fault Refusal :=
  trapAt s.cur ⟨cause, tval, 2 ^ cause⟩ s.here.pc s

/-- The executing strand can issue a vector or small-matrix instruction that uses these general registers and goes on at once: it is no management core, no loop of it runs, its vector queue has room, no VLDA of it is pending, and no register of it is marked (08 R227, 06 R165, 10 R297, R307). -/
structure State.VecReady (s : State) (rs : List (BitVec 5)) : Prop where
  good : s.Good
  issue : s.here.canIssue rs = true
  full : isMgmt s.cur = false
  idle : s.here.looping = false
  room : s.here.vq.length < 16
  pending : s.here.vlda = []
  marks : ∀ r, (s.here.vreg r).marks = []

/-- `st'` is `st` with the listed elements of a register group written, least significant byte first, and every other byte of every vector register, and every other part of the strand, as it was (02 R64, 10 R283). -/
structure Strand.Wrote (st st' : Strand) (vlen d w : Nat) (is : List Nat) (f : Nat → Nat) : Prop where
  elems : ∀ i ∈ is, st'.velem vlen d w i = f i % 2 ^ (8 * w)
  others : ∀ r off, off < vlen → (∀ i ∈ is, ¬ (r = (d + i * w / vlen) % 32 ∧ i * w % vlen ≤ off ∧ off < i * w % vlen + w)) →
    imgGet (st'.vreg r).img off 1 = imgGet (st.vreg r).img off 1
  rest : st' = { st with v := st'.v }

/-- The flags of the elements of an instruction, in the order listed (10 R286). -/
def Strand.raiseElems (st : Strand) (fs : List (Nat × Fl)) : Strand :=
  fs.foldl (fun st x => if x.2 = 0 then st else st.raise x.2 x.1) st

/-- 07 R188: the mask register that an `.xm` instruction leaves. -/
def Strand.exceptions (st : Strand) (xm : Bool) (m : BitVec 3) (fs : List (Nat × Fl)) : Strand :=
  if xm then st.setMask m.toNat (BitVec.ofNat 2048 (bitsOf (((fs.filter fun x => inXm x.2).map (·.1)).foldl (fun a i => NSet.ins i a) []))) else st

/-- The strand after a vector instruction: its entry in the vector queue where it has an element group (06 R165, 10 R287), and the pc past its word. -/
def Strand.vecDone (st : Strand) (k pipe vl sew : Nat) : Strand :=
  { st with
    vq := if groupsOf k vl sew = 0 then st.vq else st.vq ++ [⟨pipe, groupsOf k vl sew⟩]
    pc := st.pc + word 4 }

/-- The vector instruction `i` writes `f j` to each element `j` of `is` of the group at register `d`, with elements of `w` bytes, raises the flags of each, leaves the exception mask where it is `.xm`, and changes nothing else of the machine. -/
def State.VecWrites (s : State) (i : Instr) (pipe d w : Nat) (is : List Nat) (xm : Bool) (m : BitVec 3) (f : Nat → Nat × Fl) : Prop :=
  ∃ st', s.here.Wrote st' (vlenOf s.cur) d w is (fun j => (f j).1) ∧
    exec i s = .next (s.withHere (((st'.raiseElems (is.map fun j => (j, (f j).2))).exceptions xm m (is.map fun j => (j, (f j).2))).vecDone
      s.cur pipe s.here.vl s.here.sew))

/-! Accesses of vector and small-matrix instructions, in device memory (`p` false) or the pan space (`p` true). -/

/-- An access that meets no trap, with a translation and a line that are cached as it needs them, so that it changes nothing; `x` is its physical address, or the key of its pan byte. -/
def State.Meets (s : State) (p : Bool) (va : Word) (n : Nat) (a : Acc) (x : Nat) : Prop :=
  if p then s.ReachesPan va n a ∧ x = panKey (panOf s.cur) va.toNat else s.Reaches va n a x s

/-- The `n` bytes there, least significant first. -/
def State.readsAt (s : State) (p : Bool) (x n : Nat) : Nat := if p then s.panRead x n else s.physRead x n

/-- A store there can be performed at once. -/
def State.Storable (s : State) (p : Bool) (x n : Nat) : Prop :=
  if p then s.CanStore 0 0 ∧ Config.panExists (panOf s.cur) = true else s.CanStore x n

/-- Where the byte at `x` is: itself in pan memory, its home in device memory (01 R44). -/
def State.place (s : State) (p : Bool) (x : Nat) : Nat := if p then x else s.home x

/-- The byte there. -/
def State.cell (s : State) (p : Bool) (x : Nat) : Byte := if p then s.panByte x else s.byte x

/-- `t` is `s` after strand `k` has become `st` and the values of `xs`, `n` bytes each, have been stored in order: a byte of several stores takes the last, every other byte of storage and everything else is as it was, but for poison that the stores cover and the latches of strands that monitor a line or word. -/
structure State.StoredSeq (s t : State) (p : Bool) (k : Nat) (st : Strand) (n : Nat) (xs : List (Nat × Nat)) : Prop where
  strand : t.strand k = st
  bytes : ∀ l x v r, xs = l ++ (x, v) :: r → ∀ i < n, (∀ y ∈ r, ∀ j < n, s.place p (y.1 + j) ≠ s.place p (x + i)) →
    t.cell p (s.place p (x + i)) = BitVec.ofNat 8 (v / 2 ^ (8 * i))
  others : ∀ a, (∀ y ∈ xs, ∀ i < n, a ≠ s.place p (y.1 + i)) → t.cell p a = s.cell p a
  poison : ∀ g, NSet.mem g t.poison = true → NSet.mem g s.poison = true
  panPoison : ∀ g, NSet.mem g t.panPoison = true → NSet.mem g s.panPoison = true
  kept : if p then t.mem = s.mem ∧ t.poison = s.poison else t.panMem = s.panMem ∧ t.panPoison = s.panPoison
  strands : ∀ j, j ≠ k → (s.strand j).Woken (t.strand j)
  aside : s.Aside t

/-- The old values that a sequence of atomics finds, each at its place, given what the places hold first. -/
def amoOlds (new : Nat → Nat → Nat) (at_ : Nat → Nat) : List Nat → (Nat → Nat) → List Nat
  | [], _ => []
  | j :: js, mem => mem (at_ j) :: amoOlds new at_ js (fun x => if x = at_ j then new j (mem (at_ j)) else mem x)

/-! Small-matrix registers (02 R66, 11 R341, R342). -/

/-- Slot (i, j) of lane l. -/
def QReg.slot (q : QReg) (l i j : Nat) : Nat := (q.slots.get 0 (36 * l + 6 * i + j)).toNat

/-- `st'` is `st` with matrix register `q` under the shape r × c and format `f`, dirty, with `v l i j` at (i, j) of lane l inside the shape and 0 outside it; nothing else differs. -/
structure Strand.QWrote (st st' : Strand) (q : BitVec 2) (lanes r c : Nat) (f : Bool) (v : Nat → Nat → Nat → Nat) : Prop where
  shape : (st'.qreg q).shape = word ((if f then 64 else 0) + c * 8 + r)
  dirty : (st'.qreg q).dirty = true
  slots : ∀ l < lanes, ∀ i < 6, ∀ j < 6, (st'.qreg q).slot l i j = if i < r ∧ j < c then v l i j % 2 ^ 64 else 0
  others : ∀ q', q' ≠ q → st'.qreg q' = st.qreg q'
  rest : st' = { st with q := st'.q }

/-- The strand after a small-matrix instruction: one entry in the vector queue, and the pc past its two words. -/
def Strand.smDone (st : Strand) (pipe : Nat) : Strand := { st with vq := st.vq ++ [⟨pipe, 1⟩], pc := st.pc + 8 }

/-! Instruction fetch and the vector loop. -/

/-- What the fetch of strand `k` finds at `pc` (08 R210), and the state that it leaves. -/
def State.fetched (s : State) (k : Nat) (pc : Word) : Fetched × State :=
  match fetchAt k pc ⟨s, []⟩ with
  | .ok (f, w) => (f, w.s)
  | .error _ => (.fault 7 pc, s)

/-- The halfword that strand `k` fetches at an address, or the cause of its failure, and the state with the line that it fetched (08 R210, R211). -/
def State.half (s : State) (k : Nat) (va : Word) : Except Nat Nat × State :=
  match fetch16 k va ⟨s, []⟩ with
  | .ok (r, w) => (r, w.s)
  | .error _ => (.error 4, s)

/-- Capturable instructions stand in cached lines at `pc`, one after the other, and `stop` is the address after them (10 R306). -/
def State.holdsBody (s : State) : Word → List (Word × Instr) → Word → Prop
  | pc, [], stop => stop = pc
  | pc, (a, i) :: r, stop => a = pc ∧ s.fetched s.cur pc = (.inst i, s) ∧ (vectorBody i s).isSome = true ∧ s.holdsBody (pc + word i.len) r stop

/-- Strand `k` issues the body instructions of its loop one after the other without a trap: each performs what it performs outside a loop and enters the vector queue. -/
def State.issuesBody (k : Nat) : List (Word × Instr) → State → State → Prop
  | [], s, t => t = s
  | x :: xs, s, t => ∃ pipe core w l, (s.strand k).loop = some l ∧ vectorBody x.2 s = some (pipe, core) ∧ (s.strand k).vq.length < 16 ∧
      (do core; enqueueVec pipe (groupsOf k (s.strand k).vl (s.strand k).sew) : M Unit) ⟨s, []⟩ = .ok ((), w) ∧
      State.issuesBody k xs ((Upd.strand k { w.s.strand k with loop := some { l with pos := l.pos + 1 } }).apply w.s) t

/-! Commands: rings, counters, launches, copies and collectives, as strands give them. -/

/-- Nothing holds a domain-scope release of the executing strand back, or fails at it (05 R146, R149): no posted store is outstanding but to the release's own target, none of the strand's has failed, and no release is under way. -/
def State.releases (s : State) (target : Option Nat) : Prop :=
  s.postedBefore s.nextId target = false ∧ s.here.relAt = none ∧ ∀ p ∈ s.here.posted, p.fail = none

/-- The executing strand can issue a command that uses these general registers: it is no management core, its block is no ordered or shadow task, and nothing of the current instruction is under way. -/
structure State.CanCommand (s : State) (rs : List (BitVec 5)) : Prop where
  good : s.Good
  issue : s.here.canIssue rs = true
  full : isMgmt s.cur = false
  idle : s.here.looping = false
  untasked : s.taskOf s.cur = none
  fresh : s.here.replies = []
  unheld : s.here.held = []
  begun : s.here.spawn = none
  unasked : ∀ r ∈ s.fabric.requests, r.who ≠ .strand s.cur

/-- `dw` are the dwords from `va` on, each in device memory and read without a trap and with a cached translation. -/
def State.Words (s : State) (va : Word) (dw : List Word) : Prop :=
  ∀ i < dw.length, ∃ pa, s.Reaches (va + word (8 * i)) 8 accLoad pa s ∧ nth 0 dw i = word (s.physRead pa 8)

/-- The operations that a counter hands over when it becomes `c` (03 R96). -/
def Counter.goes (c : Counter) : List Armed := c.armed.filter fun a => satisfied c.c a.t

/-- No armed collective is among them. -/
def Counter.plain (c : Counter) : Prop := ∀ a ∈ c.goes, ∀ x, a.op ≠ .coll x

/-- The state once counter `id` has become `c` and the copies and remote accesses that this lets go have been handed to their engines. -/
def State.counts (s : State) (id : Nat) (c : Counter) : State :=
  { (Upd.counter id { c with armed := c.armed.filter fun a => !satisfied c.c a.t }).apply s with
    sched := { s.sched with
      fired := s.sched.fired ++ c.goes.filterMap fun a => match a.op with | .copy ch x => some (ch, x) | _ => none
      firedRem := s.sched.firedRem ++ c.goes.filterMap fun a => match a.op with | .remote g o => some (g, o) | _ => none } }

/-- The queue after a record, as it receives one (13 R375, R383). -/
def LQueue.received (q : LQueue) (now id : Nat) (dw : List Word) : LQueue :=
  { q with
    recs := q.recs ++ [{ id := id, dw := dw, kernel := none, next := 0, bound := none }]
    since := if q.recs = [] then now else q.since
    hist := (q.hist ++ [[dwAt dw 0, dwAt dw 1] ++ (recArgs dw).take (recNargs dw)]).drop (q.hist.length + 1 - 16) }

/-- `t` is `s` after launch queue `q`, which no shadow task waits for, has received a record, and the executing strand has become `st`; image loads may have begun, and nothing else differs. -/
def State.Received (s t : State) (st : Strand) (q : Nat) (dw : List Word) : Prop :=
  ∃ h, t = { (Upd.queue q ((s.queue q).received s.gtime s.nextId dw)).apply (s.withHere st) with nextId := s.nextId + 1, harbour := h } ∧
    h = { s.harbour with loads := h.loads, waitLogged := h.waitLogged, logPending := h.logPending }

/-- What the checks of a collective find (12 R370): the status of the first that fails, and the state that the lookups leave. -/
def State.checksColl (s : State) (c : Coll) : Option Nat × State :=
  match collStatus c.who c ⟨s, []⟩ with
  | .ok (r, w) => (r, w.s)
  | .error _ => (some 1, s)

/-! Regions and grains. -/

/-- Handle `h` names slot `i` of region `r` (its record `x`) of the executing strand's context on its pan (11 R311). -/
structure State.Names (s : State) (h : Word) (r i : Nat) (x : Region) : Prop where
  small : h.toNat < 64
  region : r = 16 * panOf s.cur + h.toNat % 16
  slot : i = h.toNat / 16
  found : s.region r = some x
  owner : s.resOf (panOf s.cur) s.here.ctx = some x.res

/-- The state with slot `i` of region `r` replaced. -/
def State.putSlot (s : State) (r i : Nat) (y : Slot) : State :=
  (Upd.region r ((s.region r).map fun x => { x with slots := Tbl.put {} i y x.slots })).apply s

/-- The frame-op word of grain `gr` in the current frame of its slot `x` is that of OP `op` and fields `w`, the slot is served, the grain `g` holds no token and waits for nothing, and its outputs are neighbours. -/
structure State.Served (s : State) (gr : GrainRef) (op : BitVec 6) (w : FropWord) (x : Slot) (g : Grain) : Prop where
  served : s.servable gr.region gr.slot = true
  slot : s.slot gr.region gr.slot = x
  grain : x.grains.get {} gr.grain = g
  inside : gr.grain < x.numGrains
  word : x.fropAt gr.grain = fropBits op w
  held : g.out = []
  waiting : g.waiting = []
  near : w.outs.toNat < 16

/-- The sequencer offers its index to grain `gi`. -/
def Slot.offer (x : Slot) (gi : Nat) : Bool := x.offers gi (fld (x.fropAt gi) 26 3)

/-- A served grain can fire on data: the inputs `sels` give `vals` (11 R327, R328, R330); `pops` are the queues that give up their heads, `gen` says that an index of the nest is consumed. -/
structure State.Fires (s : State) (gr : GrainRef) (op : BitVec 6) (w : FropWord) (x : Slot) (g : Grain) (sels pops : List Nat) (gen : Bool) (vals : List Word) : Prop
    extends State.Served s gr op w x g where
  heads : headsOf w g x.idx (x.offer gr.grain) sels = .data pops gen vals

/-- What a firing leaves: the grain, its queues aside, the tokens with their sets of ports, the flags. -/
abbrev FireOut := Grain × List (Nat × Token) × Fl

/-- The tokens of a firing on a grain's ports N, E, S and W, as they arrive at its neighbours: grain, queue, token (11 R327). -/
def landings (cols gi : Nat) (toks : List (Nat × Token)) : List (Nat × Nat × Token) :=
  toks.flatMap fun t => ((portsOf t.1).filter fun p => decide (p ≠ 5)).map fun p => let d := landing cols gi p; (d.1, d.2, t.2)

/-- The slot after grain `gi` has fired: its queues gave up their heads, its tokens have arrived, the flags are raised, and the sequencer has gone on where every grain due at its index has fired. -/
def Slot.firedAt (x : Slot) (gi : Nat) (pops : List Nat) (gen : Bool) (o : FireOut) : Slot :=
  let y := { x with
    grains := Tbl.put {} gi { o.1 with q := pops.foldl (fun q p => Tbl.put [] p (q.get [] p).tail q) (x.grains.get {} gi).q } x.grains
    flags := x.flags ||| BitVec.ofNat 9 o.2.2
    fired := if gen then NSet.ins gi x.fired else x.fired }
  ((landings x.cols gi o.2.1).foldl (fun (y : Slot) l =>
    let h := y.grains.get {} l.1
    { y with grains := Tbl.put {} l.1 { h with q := Tbl.put [] l.2.1 (arriveQ (h.q.get [] l.2.1) l.2.2) h.q } y.grains }) y).advance

/-- The frop `i` of grain `gr` fires on data: with room for its tokens, the machine is left with the slot of `Slot.firedAt`, and nothing else differs. -/
def State.DataFires (s : State) (i : Instr) (gr : GrainRef) (op : BitVec 6) (w : FropWord) (x : Slot) (g : Grain) (sels : List Nat) (res : List Word → FireOut) : Prop :=
  ∀ pops gen vals, s.Fires gr op w x g sels pops gen vals → hasRoom s x x [] gr.grain (res vals).2.1 = true →
    (∀ p, (((res vals).2.1).countP fun t => (portsOf t.1).contains p) ≤ 8) → (∀ t ∈ (res vals).2.1, (portsOf t.1).contains 5 = false) →
    exec i s = .next (s.putSlot gr.region gr.slot (x.firedAt gr.grain pops gen (res vals)))

/-- The check of an access of an engine or grain: its place or the cause of a failure, and the state that the lookup leaves. -/
def State.engineAt (s : State) (w : Who) (pan : Option Nat) (va : Word) (n : Nat) (a : Acc) : Except Nat Place × State :=
  match enginePlace w none [] pan va n a ⟨s, []⟩ with
  | .ok (r, x) => (r, x.s)
  | .error _ => (.error 5, s)

/-- `t` is `s` after a party that is no strand has stored the values of `xs`, `n` bytes each: `State.StoredSeq` with every strand as it was but for its latch. -/
def State.StoredOnly (s t : State) (p : Bool) (n : Nat) (xs : List (Nat × Nat)) : Prop :=
  ∃ st, (s.strand 0).Woken st ∧ s.StoredSeq t p 0 st n xs

/-! The save engine (14 R398, R399). -/

/-- What strand `k` becomes when it is filled from the save area at physical address `a` (02 R70, R71). -/
def State.savedStrand (s : State) (k a : Nat) : Except Nat Strand :=
  let shoal := Config.shoal (dieOf k)
  (s.strand k).fill ((s.mem.filter fun c => decide (a ≤ c.1 ∧ c.1 < a + imageSpan shoal)).map fun c => (c.1 - a, c.2)) (fun o n => s.rangePoison (a + o) n) shoal false (unitVlen shoal)

/-- The pieces of a save lie apart in a strand's part of the save area, each with its bytes in canonical form. -/
def Strand.savesApart (st : Strand) (shoal : Bool) : Bool :=
  let l := st.savePieces shoal (!st.saved)
  (l.all fun p => decide (p.1 + p.2.1 ≤ 2 ^ 17) && Tbl.wf 0 p.2.2 && p.2.2.all fun c => decide (p.1 ≤ c.1 ∧ c.1 < p.1 + p.2.1)) &&
  decide (l.Pairwise fun p q => p.1 + p.2.1 ≤ q.1)

/-- The bytes that a save writes for strand `k` in the save area at `a`: those of the registers that are dirty, of all for the first time. -/
def State.saves (s : State) (k a x : Nat) (v : Byte) : Prop :=
  let shoal := Config.shoal (dieOf k)
  ∃ p ∈ (s.strand k).savePieces shoal (!(s.strand k).saved), a + p.1 ≤ x ∧ x < a + p.1 + p.2.1 ∧ v = Tbl.get 0 (x - a) p.2.2

/-- The translation of an access from another device (01 R27), and the state that the lookup leaves. -/
def State.inbound (s : State) (da : Nat) (rd wr : Bool) : Except Nat Nat × State :=
  match inboundXlate da rd wr ⟨s, []⟩ with
  | .ok (r, x) => (r, x.s)
  | .error _ => (.error 5, s)

/-- The state after bytes of a context's data have been counted by counter `n` of die `d` (03 R77, R78). -/
def State.counted (s : State) (d n ctx bytes : Nat) : State :=
  let x := s.die d
  (Upd.die d (if tcOwn d n || !x.counts n ctx then x else { x with tc := Tbl.put 0 n (x.tc.get 0 n + word bytes) x.tc })).apply s

/-- An access of a peer at `va`, or of the owner of a token that is away, leaves for `who` (05 R145, R147, R152): the message is in the outbox, its answer awaited, and the data of a write counted at its die. -/
def State.sent (s : State) (who : Requester) (va : Word) (dev da n : Nat) (kind : RKind) (data cmp : Word) (posted : Bool) (rel : Option Nat) : State :=
  let w := s.traffic who
  let via := if 2 ^ 44 ≤ da then some s.harbour.devid else none
  let a := if 2 ^ 44 ≤ da then da - 2 ^ 44 else da
  let m : RMsg := { src := s.harbour.devid, dst := dev, tag := s.nextId, addr := a, size := n, kind := kind, data := data, cmp := cmp, posted := posted, rel := rel
                    ctx := w.2, after := s.sameLine dev a n via, via := via }
  let t := { s with nextId := s.nextId + 1, fabric := { s.fabric with
    requests := s.fabric.requests ++ [⟨s.nextId, who, some m, none, va⟩]
    outbox := s.fabric.outbox ++ [m] } }
  match w.1, kindWrites kind with
  | some d, true => t.counted d 19 w.2 n
  | _, _ => t

/-- The tables of a slot are in canonical form. -/
def Slot.canon (x : Slot) : Prop := Tbl.wf {} x.grains = true ∧ ∀ g ∈ x.grains, Tbl.wf [] g.2.q = true

/-- Nothing of a slot is due at the end of a cycle: it has no binding, no stop is requested of it, no token waits for room at L, and its nest is not spent. -/
structure Slot.settled (x : Slot) : Prop where
  canon : x.canon
  unbound : x.binds = []
  unstopped : x.stopReq = false
  drained : ∀ g ∈ x.grains, g.2.lin = []
  unspent : x.ndim = 0 ∨ x.nspent = false

/-- A place whose accesses stay on the device and read or write storage: `p` tells device memory (false) from pan memory. -/
def storageAt (p : Bool) (x : Nat) : Place := if p then .pan x else .at_ (.mem x)

/-- A command of channel `ch` whose turn it is: checked without a failure, its descriptor read. -/
structure State.AtHead (s : State) (ch : Nat) (c : Cmd) : Prop where
  good : s.Good
  head : s.chanHead ch = some c
  untasked : c.task = none
  read : c.dw ≠ []
  unasked : ∀ r ∈ s.fabric.requests, r.who ≠ .chan ch c.id
  tasks : s.tasks = []

end Sys2Proof.Machine
end

