-- ==== Sys2Proof/Certificates/Slice0/Obligations.lean ====
section
/-! DEFINITION. The statements about the model, each a proposition over its own names; the docstring names the rules of spec/ that a statement follows. -/

open Sys2Proof Sys2Proof.Machine

/-- 09 R243 to R245: the binary operations of class 0. With x = Src(g_a), y = Src(g_b), p and q their low W bits, g_d takes Dst of the value of the table, the pc goes past the word, and nothing else of the machine changes but, for DIV and REM by 0, the flag DZ. 09 R244: the one-operand operations of class 0, by the bits of the value v that each writes through Dst. -/
def Obligations.ScalarIntegerResults : Prop :=
  (∀ (s : State) (d a b : BitVec 5) (t : BitVec 3), s.here.canIssue [d, a, b] = true →
    let T := t.toNat
    let W := tyW T
    let x := srcI T (s.here.gpr a)
    let y := srcI T (s.here.gpr b)
    let p := (s.here.gpr a).toNat % 2 ^ W
    let q := (s.here.gpr b).toNat % 2 ^ W
    let n := q % W
    let wrote := fun (v : Int) => Host.Outcome.next (s.withHere (s.here.retired d (dstW T v) 4))
    let divided := fun (v : Int) => Host.Outcome.next (s.withHere (s.here.retiredF d (dstW T v) (if y = 0 then flDZ else 0) 4))
    exec (.add d a b t) s = wrote (x + y) ∧
    exec (.sub d a b t) s = wrote (x - y) ∧
    exec (.and d a b t) s = wrote (p &&& q : Nat) ∧
    exec (.or d a b t) s = wrote (p ||| q : Nat) ∧
    exec (.xor d a b t) s = wrote (p ^^^ q : Nat) ∧
    exec (.andn d a b t) s = wrote (p &&& (2 ^ W - 1 - q) : Nat) ∧
    exec (.sll d a b t) s = wrote (p * 2 ^ n : Nat) ∧
    exec (.srl d a b t) s = wrote (p / 2 ^ n : Nat) ∧
    exec (.sra d a b t) s = wrote (sext p W / (2 ^ n : Nat)) ∧
    exec (.ror d a b t) s = wrote (p / 2 ^ n + p % 2 ^ n * 2 ^ (W - n) : Nat) ∧
    exec (.slt d a b t) s = wrote (if x < y then 1 else 0) ∧
    exec (.min d a b t) s = wrote (min x y) ∧
    exec (.max d a b t) s = wrote (max x y) ∧
    exec (.mul d a b t) s = wrote (x * y) ∧
    exec (.mulh d a b t) s = wrote (x * y / (2 ^ W : Nat)) ∧
    exec (.div d a b t) s = divided (if y = 0 then -1 else x.tdiv y) ∧
    exec (.rem d a b t) s = divided (if y = 0 then x else x - y * x.tdiv y) ∧
    exec (.sel d a b t) s = .next (s.withHere (s.here.retired d (if s.here.gpr d = 0 then s.here.gpr b else s.here.gpr a) 4))) ∧
  (∀ (s : State) (d a : BitVec 5) (t : BitVec 3), s.here.canIssue [d, a] = true →
    let T := t.toNat
    let W := tyW T
    let p := (s.here.gpr a).toNat % 2 ^ W
    let wrote := fun (v : Nat) => Host.Outcome.next (s.withHere (s.here.retired d (dstW T v) 4))
    (∃ v, exec (.clz d a t) s = wrote v ∧ v ≤ W ∧ p < 2 ^ (W - v) ∧ (p ≠ 0 → 2 ^ (W - v) ≤ 2 * p)) ∧
    (∃ v, exec (.ctz d a t) s = wrote v ∧ v ≤ W ∧ p % 2 ^ v = 0 ∧ (v < W → p.testBit v = true)) ∧
    exec (.popc d a t) s = wrote ((List.range W).countP p.testBit) ∧
    (∃ v, exec (.brev d a t) s = wrote v ∧ v < 2 ^ W ∧ ∀ i < W, v.testBit i = p.testBit (W - 1 - i)) ∧
    (∃ v, exec (.bswap d a t) s = wrote v ∧ v < 2 ^ W ∧ ∀ j < W / 8, v / 2 ^ (8 * j) % 256 = p / 2 ^ (8 * (W / 8 - 1 - j)) % 256) ∧
    exec (.sext d a t) s = wrote p ∧
    exec (.zext d a t) s = wrote p)

/-- 09 R246, R247 and the 16-bit forms of 08 R225: immediates, upper immediates, and the register and immediate forms on x and y. -/
def Obligations.ScalarImmediateResults : Prop :=
  ∀ (s : State) (d a : BitVec 5),
    let x := s.here.gpr a
    (s.here.canIssue [d, a] = true → ∀ (i : BitVec 12) (n : BitVec 6),
      let wrote := fun (v : Word) => Host.Outcome.next (s.withHere (s.here.retired d v 4))
      exec (.addi d a i) s = wrote (x + i.signExtend 64) ∧
      exec (.andi d a i) s = wrote (x &&& i.signExtend 64) ∧
      exec (.ori d a i) s = wrote (x ||| i.signExtend 64) ∧
      exec (.xori d a i) s = wrote (x ^^^ i.signExtend 64) ∧
      exec (.slti d a i) s = wrote (if x.toInt < i.toInt then 1 else 0) ∧
      exec (.slli d a n) s = wrote (BitVec.ofNat 64 (x.toNat * 2 ^ n.toNat)) ∧
      exec (.srli d a n) s = wrote (BitVec.ofNat 64 (x.toNat / 2 ^ n.toNat)) ∧
      exec (.srai d a n) s = wrote (BitVec.ofInt 64 (x.toInt / (2 ^ n.toNat : Nat)))) ∧
    (s.here.canIssue [d] = true → ∀ (i : BitVec 17) (j n : BitVec 6),
      let y := s.here.gpr d
      exec (.ldhi d i) s = .next (s.withHere (s.here.retired d (BitVec.ofInt 64 (i.toInt * 4096)) 4)) ∧
      exec (.addpc d i) s = .next (s.withHere (s.here.retired d (s.here.pc + BitVec.ofInt 64 (i.toInt * 4096)) 4)) ∧
      exec (.addiH j d) s = .next (s.withHere (s.here.retired d (y + j.signExtend 64) 2)) ∧
      exec (.slliH n d) s = .next (s.withHere (s.here.retired d (BitVec.ofNat 64 (y.toNat * 2 ^ n.toNat)) 2)) ∧
      exec (.srliH n d) s = .next (s.withHere (s.here.retired d (BitVec.ofNat 64 (y.toNat / 2 ^ n.toNat)) 2))) ∧
    (s.here.canIssue [d, a] = true →
      let y := s.here.gpr d
      let wrote := fun (v : Word) => Host.Outcome.next (s.withHere (s.here.retired d v 2))
      exec (.addH a d) s = wrote (y + x) ∧
      exec (.subH a d) s = wrote (y - x) ∧
      exec (.andH a d) s = wrote (y &&& x) ∧
      exec (.orH a d) s = wrote (y ||| x) ∧
      exec (.xorH a d) s = wrote (y ^^^ x))

/-- 09 R248 to R253: a floating-point operation writes the encoding that the arithmetic of its format gives under `acr.frm`, with the flags it gives, and the pc goes past the word. -/
def Obligations.ScalarFloatResults : Prop :=
  ∀ (s : State) (d a b : BitVec 5) (t c : BitVec 2) (v u : BitVec 4) (sat : Bool), s.here.canIssue [d, a, b] = true →
    let F := fmtOf (8 + t.toNat)
    let mode := s.here.frm
    let x := (s.here.gpr a).toNat
    let y := (s.here.gpr b).toNat
    let wrote := fun (r : Nat × Fl) => Host.Outcome.next (s.withHere (s.here.retiredF d (word r.1) r.2 4))
    exec (.fadd d a b t) s = wrote (F.arith 0 mode x y) ∧
    exec (.fsub d a b t) s = wrote (F.arith 1 mode x y) ∧
    exec (.fmul d a b t) s = wrote (F.arith 2 mode x y) ∧
    exec (.fdiv d a b t) s = wrote (F.arith 3 mode x y) ∧
    exec (.fsqrt d a t) s = wrote (F.sqrt mode (F.unpack x)) ∧
    exec (.ffma d a b t) s = wrote (F.fma mode (F.unpack x) (F.unpack y) (F.unpack (s.here.gpr d).toNat)) ∧
    exec (.fmin d a b t) s = wrote (F.minmax false x y) ∧
    exec (.fmax d a b t) s = wrote (F.minmax true x y) ∧
    exec (.fcmp d a b c t) s = wrote (if (F.cmp c.toNat x y).1 then 1 else 0, (F.cmp c.toNat x y).2) ∧
    exec (.fclass d a t) s = wrote (F.classOf x, 0) ∧
    (let r := convert v.toNat u.toNat sat mode x
     exec (.fcvt d a v sat u) s =
      .next (s.withHere (s.here.retiredF d (if u.toNat < 8 then dstW u.toNat r.1 else word r.1) r.2 4)))

/-- 09 R254, R255, R271, 08 R225: a load that reaches device memory, or the pan space, writes Dst of the bytes it reads; an acquire load also arms the monitor on what it read; nothing else changes but what the access leaves in the translation caches and cache slices. -/
def Obligations.ScalarLoads : Prop :=
  ∀ (s s' : State) (d a : BitVec 5) (i : BitVec 12) (t sc : BitVec 3) (pa : Nat), s.here.canIssue [d, a] = true → s.here.looping = false →
    let base := s.here.gpr a
    let va := base + i.signExtend 64
    let n := tyBytes t.toNat
    let key := fun (x : Word) => panKey (panOf s.cur) x.toNat
    let loaded := fun (v : Nat) => s.here.retired d (dstW t.toNat v) 4
    (s.Reaches va n accLoad pa s' → exec (.ld t d a i) s = .next (s'.withHere (loaded (s'.physRead pa n)))) ∧
    (s.ReachesPan va n accLoad → exec (.ldP t d a i) s = .next (s.withHere (loaded (s.panRead (key va) n)))) ∧
    (s.Reaches base n accLoad pa s' → exec (.ldacq d a sc t) s =
      .next (s'.withHere { loaded (s'.physRead pa n) with monitor := .line (s'.home (pa / 128 * 128) / 128) })) ∧
    (s.ReachesPan base n accLoad → exec (.ldacqP d a sc t) s =
      .next (s.withHere { loaded (s.panRead (key base) n) with monitor := .bank (key base / 8) })) ∧
    (s.Reaches base 8 accLoad pa s' → exec (.ldH a d) s =
      .next (s'.withHere (s.here.retired d (BitVec.ofNat 64 (s'.physRead pa 8)) 2)))

/-- 09 R254, R256, 08 R225: a store that reaches device memory, or the pan space, stores the low bytes of g_b there, least significant first; every byte outside them, every register and everything else is as it was. -/
def Obligations.ScalarStores : Prop :=
  ∀ (s s' : State) (a b : BitVec 5) (i : BitVec 12) (sc : BitVec 3) (w : BitVec 2) (pa : Nat), s.Good → s.here.canIssue [a, b] = true → s.here.looping = false →
    let base := s.here.gpr a
    let va := base + i.signExtend 64
    let n := 2 ^ w.toNat
    let v := (s.here.gpr b).toNat
    let key := fun (x : Word) => panKey (panOf s.cur) x.toNat
    let st := s.here.past 4
    (s.Reaches va n accStore pa s' → s'.CanStore pa n → ∃ t, exec (.st w a b i) s = .next t ∧ s'.Stored t st pa n v) ∧
    (s.ReachesPan va n accStore → s.CanStore 0 0 → Config.panExists (panOf s.cur) = true →
      ∃ t, exec (.stP w a b i) s = .next t ∧ s.StoredPan t st (key va) n v) ∧
    (s.Reaches base n accStore pa s' → s'.CanStore pa n → ∃ t, exec (.strel a b sc w) s = .next t ∧ s'.Stored t st pa n v) ∧
    (s.ReachesPan base n accStore → s.CanStore 0 0 → Config.panExists (panOf s.cur) = true →
      ∃ t, exec (.strelP a b sc w) s = .next t ∧ s.StoredPan t st (key base) n v) ∧
    (s.Reaches base 8 accStore pa s' → s'.CanStore pa 8 → ∃ t, exec (.stH a b) s = .next t ∧ s'.Stored t (s.here.past 2) pa 8 v)

/-- 09 R258 to R260: an atomic that reaches device memory, or the pan space, writes Dst of the old value to g_d, stores the new value of its function, and raises the flags of a float addition; AMOCAS stores g_b only where the old value is that of g_d. -/
def Obligations.ScalarAtomics : Prop :=
  ∀ (s s' : State) (f : BitVec 3) (d a b : BitVec 5) (sc : BitVec 3) (y p : BitVec 2) (pa : Nat), s.Good → s.here.canIssue [d, a, b] = true → s.here.looping = false →
    let va := s.here.gpr a
    let n := if y.toNat % 2 = 0 then 4 else 8
    let signed := decide (y.toNat < 2)
    let x := (s.here.gpr b).toNat
    let key := panKey (panOf s.cur) va.toNat
    let dst := fun (fn old : Nat) => if fn = 7 then word (old % 2 ^ (8 * n)) else wordI (intOf signed (8 * n) old)
    let new := fun (old : Nat) => amoNew f.toNat signed n old x
    let same := fun (old : Nat) => old % 2 ^ (8 * n) = (s.here.gpr d).toNat % 2 ^ (8 * n)
    (s.Reaches va n accRmw pa s' → s'.CanStore pa n →
      let old := s'.physRead pa n
      (∃ t, exec (.amo f d a b sc y p) s = .next t ∧
        s'.Stored t (s.here.retiredF d (dst f.toNat old) (new old).2 4) pa n (new old).1) ∧
      (if same old then ∃ t, exec (.amocas d a b sc y p) s = .next t ∧ s'.Stored t (s.here.retired d (dst 0 old) 4) pa n x
       else exec (.amocas d a b sc y p) s = .next (s'.withHere (s.here.retired d (dst 0 old) 4)))) ∧
    (s.ReachesPan va n accRmw → s.CanStore 0 0 → Config.panExists (panOf s.cur) = true →
      let old := s.panRead key n
      (∃ t, exec (.amoP f d a b sc y p) s = .next t ∧
        s.StoredPan t (s.here.retiredF d (dst f.toNat old) (new old).2 4) key n (new old).1) ∧
      (if same old then ∃ t, exec (.amocasP d a b sc y p) s = .next t ∧ s.StoredPan t (s.here.retired d (dst 0 old) 4) key n x
       else exec (.amocasP d a b sc y p) s = .next (s.withHere (s.here.retired d (dst 0 old) 4))))

/-- 09 R263, R264, 08 R213, R225: a branch goes to pc + 2 × offset where its condition holds and past its word otherwise; JAL links into g1 and goes to its target, JALR computes its target from the old registers, links and goes there, and at an odd target raises ALIGN with it and writes nothing; the words of JAL (format J) and JALR (format I). -/
def Obligations.BranchesAndJumps : Prop :=
  ∀ (s : State) (a b d : BitVec 5) (i : BitVec 12) (h : BitVec 6) (j : BitVec 22) (l : BitVec 11),
    let st := s.here
    let x := st.gpr a
    let y := st.gpr b
    let goes := fun (c : Prop) [Decidable c] (off : Int) (len : Nat) =>
      Host.Outcome.next (s.withHere { st with pc := if c then st.pc + BitVec.ofInt 64 (2 * off) else st.pc + word len })
    (st.canIssue [a, b] = true →
      exec (.beq a b i) s = goes (x = y) i.toInt 4 ∧
      exec (.bne a b i) s = goes (x ≠ y) i.toInt 4 ∧
      exec (.blt a b i) s = goes (x.toInt < y.toInt) i.toInt 4 ∧
      exec (.bge a b i) s = goes (y.toInt ≤ x.toInt) i.toInt 4 ∧
      exec (.bltZ a b i) s = goes (x.toNat < y.toNat) i.toInt 4 ∧
      exec (.bgeZ a b i) s = goes (y.toNat ≤ x.toNat) i.toInt 4) ∧
    (st.canIssue [a] = true →
      exec (.beqH h a) s = goes (x = 0) h.toInt 2 ∧
      exec (.bneH h a) s = goes (x ≠ 0) h.toInt 2) ∧
    (st.canIssue [1] = true →
      exec (.jal j) s = .next (s.withHere { st.setG 1 (st.pc + 4) with pc := st.pc + BitVec.ofInt 64 (2 * j.toInt) }) ∧
      exec (.jalH l) s = .next (s.withHere { st.setG 1 (st.pc + 2) with pc := st.pc + BitVec.ofInt 64 (2 * l.toInt) })) ∧
    (st.canIssue [d, a] = true → st.looping = false →
      ((x + i.signExtend 64).toNat % 2 = 1 → exec (.jalr d a i) s = s.traps 3 (x + i.signExtend 64)) ∧
      (x.toNat % 2 = 1 → exec (.jalrH a d) s = s.traps 3 x)) ∧
    decodeBits (0#32 ++ (j ++ 0x08#6 ++ 3#3 ++ 1#1)) = some (.jal j, 4) ∧
    decodeBits (0#32 ++ (i ++ a ++ d ++ 0x09#6 ++ 3#3 ++ 1#1)) = some (.jalr d a i, 4) ∧
    (st.canIssue [d, a] = true →
      ((x + i.signExtend 64).toNat % 2 = 0 →
        exec (.jalr d a i) s = .next (s.withHere { st.setG d (st.pc + 4) with pc := x + i.signExtend 64 })) ∧
      (x.toNat % 2 = 0 →
        exec (.jalrH a d) s = .next (s.withHere { st.setG d (st.pc + 2) with pc := x })))

/-- 09 R255, R259, R264: an access that is not a multiple of its size, or a jump to an odd address, raises ALIGN with that address and has no other effect. -/
def Obligations.AlignmentTraps : Prop :=
  ∀ (s : State) (d a b : BitVec 5) (i : BitVec 12) (t sc f : BitVec 3) (w y p : BitVec 2), s.here.looping = false → s.here.held = [] →
    let base := s.here.gpr a
    let va := base + i.signExtend 64
    let m := if y.toNat % 2 = 0 then 4 else 8
    (s.here.canIssue [d, a] = true →
      (va.toNat % tyBytes t.toNat ≠ 0 → exec (.ld t d a i) s = s.traps 3 va ∧ exec (.ldP t d a i) s = s.traps 3 va) ∧
      (base.toNat % tyBytes t.toNat ≠ 0 → exec (.ldacq d a sc t) s = s.traps 3 base ∧ exec (.ldacqP d a sc t) s = s.traps 3 base) ∧
      (base.toNat % 8 ≠ 0 → exec (.ldH a d) s = s.traps 3 base ∧ exec (.stH a d) s = s.traps 3 base) ∧
      (va.toNat % 2 = 1 → exec (.jalr d a i) s = s.traps 3 va) ∧
      (base.toNat % 2 = 1 → exec (.jalrH a d) s = s.traps 3 base)) ∧
    (s.here.canIssue [a, b] = true →
      (va.toNat % 2 ^ w.toNat ≠ 0 → exec (.st w a b i) s = s.traps 3 va ∧ exec (.stP w a b i) s = s.traps 3 va) ∧
      (base.toNat % 2 ^ w.toNat ≠ 0 → exec (.strel a b sc w) s = s.traps 3 base ∧ exec (.strelP a b sc w) s = s.traps 3 base)) ∧
    (s.here.canIssue [d, a, b] = true → base.toNat % m ≠ 0 →
      exec (.amo f d a b sc y p) s = s.traps 3 base ∧ exec (.amoP f d a b sc y p) s = s.traps 3 base ∧
      exec (.amocas d a b sc y p) s = s.traps 3 base ∧ exec (.amocasP d a b sc y p) s = s.traps 3 base)

/-- 09 R265, 08 R210, R226: SVC in user mode, BRK, a failed fetch and an encoding that is not well formed take the trap that each names, with the immediate as `tval` and the pc as the address; SVC in supervisor mode raises ILL with the instruction's bits; the words of SVC and BRK (format I, d = a = 0). 14 R391: delivery of a trap to a strand that belongs to no shadow task, whose K is 0, and which is not inside its handler in supervisor mode; a MIGRATE of a migratable image waits for a migration instead. 14 R392: a trap taken while K = 1 ends the strand, and the error log records its cause, with the `tval` as the address concerned, the model's reading (log 37). -/
def Obligations.TrapsTaken : Prop :=
  (∀ (s : State) (n : BitVec 12) (cause : Nat) (v : Word),
    decodeBits (0#32 ++ (n ++ 0#5 ++ 0#5 ++ 0x10#6 ++ 3#3 ++ 1#1)) = some (.svc n, 4) ∧
    decodeBits (0#32 ++ (n ++ 0#5 ++ 0#5 ++ 0x11#6 ++ 3#3 ++ 1#1)) = some (.brk n, 4) ∧
    (s.here.issues = true → s.here.looping = false →
      exec (.brk n) s = s.traps 0x08 (n.setWidth 64) ∧
      (s.here.sup = false → exec (.svc n) s = s.traps 0x09 (n.setWidth 64)) ∧
      (s.here.sup = true → exec (.svc n) s = s.traps 0x01 (Instr.bits (.svc n))) ∧
      exec (.fetchFault cause v) s = s.traps cause v ∧
      exec (.illegalEncoding v) s = s.traps 0x01 v)) ∧
  (∀ (s : State) (k cause : Nat) (v addr : Word), s.Good → cause < 18 → s.shadowOf k = none →
    let st := s.strand k
    bitOf st.tstatus 3 = false → (st.sup = true → bitOf st.tstatus 1 = true → cause = 0x10) → (cause = 2 → s.migratable k = false) →
    ∃ t, trapAt k ⟨cause, v, 2 ^ cause⟩ addr s = .next t ∧
      (let new := t.strand k
       new.tcause = word cause ∧ new.tval = v ∧ new.tpc = addr ∧ new.tsummary = word (2 ^ cause) ∧
       new.tstatus = word ((if st.sup then 1 else 0) + 2 + (if st.looping then 4 else 0) + (if cause = 0x10 then 8 else 0)) ∧
       new.sup = true ∧ new.pc = word (fld st.tvec 2 62 * 4) ∧ new.st = .trap ∧ new.looping = false ∧
       new = { st with tcause := new.tcause, tval := v, tpc := addr, tsummary := new.tsummary, tstatus := new.tstatus,
                       sup := true, pc := new.pc, st := .trap, wait := .none, replies := [], held := [], amo := [], spawn := none, relAt := none,
                       loop := new.loop }) ∧
      (∀ j, j ≠ k → t.strand j = s.strand j) ∧
      (∃ q, t = { s with strands := t.strands, fabric := { s.fabric with requests := q } } ∧
        ∀ r, r ∈ q ↔ r ∈ s.fabric.requests ∧ r.who ≠ .strand k)) ∧
  (∀ (s : State) (k cause : Nat) (v addr : Word), s.Good → s.shadowOf k = none → bitOf (s.strand k).tstatus 3 = true →
    ∃ t, trapAt k ⟨cause, v, 2 ^ cause⟩ addr s = .next t ∧ (t.strand k).st = .idle ∧
      (t.strand k).tcause = (s.strand k).tcause ∧ (t.strand k).tpc = (s.strand k).tpc ∧
      t.harbour.logPending = s.harbour.logPending ++ [⟨s.gtime, srcOf k, 3, v, word cause⟩] ∧ t.mem = s.mem ∧ t.panMem = s.panMem)

/-- 09 R266, 14 R392, 10 R308: ERET, whose fields are all zero, in supervisor mode restores the mode from PM, clears IN, goes to `tpc` and ends a stopped loop, or resumes the loop whose body instruction trapped at `tpc`; an odd `tpc` raises ALIGN at its fetch; while K = 1 it raises ILL, and in user mode PRIV. -/
def Obligations.ExceptionReturn : Prop :=
  ∀ (s : State), s.here.issues = true →
    let st := s.here
    let back := { st with st := .run, sup := bitOf st.tstatus 0, tstatus := word (fld st.tstatus 2 1 * 4 + fld st.tstatus 0 1) }
    decodeBits (0#32 ++ (0#4 ++ 0#3 ++ 0#5 ++ 0#5 ++ 0#5 ++ 0x12#6 ++ 3#3 ++ 1#1)) = some (.eret, 4) ∧
    (st.sup = true → bitOf st.tstatus 3 = false → st.looping = false →
      ((∀ l, st.loop = some l → nth 0 (l.body.map (·.1)) l.pos ≠ st.tpc) → exec .eret s = .next (s.withHere { back with pc := st.tpc, loop := none })) ∧
      (∀ l, st.loop = some l → nth 0 (l.body.map (·.1)) l.pos = st.tpc → exec .eret s = .next (s.withHere { back with pc := l.resume, loop := some { l with stopped := false } }))) ∧
    (bitOf st.tpc 0 = true → ∀ u : State, u.fetched s.cur st.tpc = (.fault 0x03 st.tpc, u)) ∧
    (st.sup = true → bitOf st.tstatus 3 = true → st.looping = false → exec .eret s = s.traps 0x01 (Instr.bits .eret)) ∧
    (st.sup = false → st.looping = false → exec .eret s = s.traps 0x0A (Instr.bits .eret))

/-- 14 R388, 09 R266 to R269, R278: in user mode the privileged instructions, and MFC and MTC of a privileged control word, raise PRIV with the instruction's bits. 09 R268: MTC of `vcfg`, `gtime`, a block word, `ctxid` or a clamp raises PRIV in both modes. -/
def Obligations.PrivilegeTraps : Prop :=
  (∀ (s : State) (d a b : BitVec 5) (n : BitVec 12), s.here.looping = false → s.here.sup = false → s.here.canIssue [d, a, b] = true →
    let refused := fun (i : Instr) => exec i s = s.traps 0x0A (Instr.bits i)
    refused .eret ∧ refused .xinvAll ∧ refused (.xinvCtx a) ∧ refused (.xinvVa a b) ∧ refused (.xinvIn a) ∧
    (0x800 ≤ n.toNat → (isMgmt s.cur = true → mgmtLacks n.toNat = false) → refused (.mfc d n) ∧ refused (.mtc a n))) ∧
  (∀ (s : State) (a : BitVec 5), s.here.canIssue [a] = true → s.here.looping = false → isMgmt s.cur = false →
    ∀ n ∈ [0x000, 0x020, 0x021, 0x022, 0x023, 0x030, 0x031],
      exec (.mtc a (BitVec.ofNat 12 n)) s = s.traps 0x0A (Instr.bits (.mtc a (BitVec.ofNat 12 n))))

/-- 09 R267, R268: MFC writes the value of the control word to g_d and changes nothing else, of a word below 0x800 in both modes, and in a management core of the words that it has. -/
def Obligations.ControlReads : Prop :=
  ∀ (s : State) (d : BitVec 5), s.here.canIssue [d] = true → s.here.looping = false →
    let st := s.here
    let p := panOf s.cur
    let w := fun (i : Nat) => (s.strand (4 * p + i)).weight
    (∀ x ∈ [(0x000, st.vcfg), (0x001, st.acr), (0x002, st.fsr),
        (0x008, st.fidx.get 0 0), (0x009, st.fidx.get 0 1), (0x00A, st.fidx.get 0 2), (0x00B, st.fidx.get 0 3),
        (0x00C, st.fidx.get 0 4), (0x00D, st.fidx.get 0 5), (0x00E, st.fidx.get 0 6), (0x00F, st.fidx.get 0 7),
        (0x010, word (w 0 + w 1 * 16 + w 2 * 256 + w 3 * 4096)),
        (0x021, st.blockid), (0x022, st.blockcount), (0x030, (s.pan p).vlclamp), (0x031, (s.pan p).rgclamp),
        (0x800, st.tvec), (0x801, st.tcause), (0x802, st.tval), (0x803, st.tpc), (0x804, st.tstatus), (0x805, st.tsummary), (0x806, st.kill),
        (0x812, match s.context st.ctx with | some c => c.troot | none => if st.ctx = 0xFFFF then s.harbour.fwRoot else 0)],
      (isMgmt s.cur = true → mgmtLacks x.1 = false) → (0x800 ≤ x.1 → st.sup = true) → exec (.mfc d (BitVec.ofNat 12 x.1)) s = .next (s.withHere (st.retired d x.2 4))) ∧
    (isMgmt s.cur = false → ∀ c, s.context st.ctx = some c → exec (.mfc d 0x023) s = .next (s.withHere (st.retired d (word (c.lclass % 4 * 65536 + st.ctx)) 4))) ∧
    (isMgmt s.cur = false → st.sup = true → ∀ i, s.resOf p st.ctx = some i →
      exec (.mfc d 0x810) s = .next (s.withHere (st.retired d ((s.pan p).res.get {} i).spbase 4)) ∧
      exec (.mfc d 0x811) s = .next (s.withHere (st.retired d ((s.pan p).res.get {} i).splim 4)))

/-- 09 R267 to R269, 07 R182, R185, R186, 14 R390: MTC of a word of the strand writes its writable fields, and every other register, all of memory and everything else is as it was; the words from 0x800 on in supervisor mode. 06 R165, 02 R58, R60, 01 R16: MTC of `vshare` writes the weights, in user mode the strand's own, and clears the credits; of `spbase` and `splim` the partition words of its context on its pan, once no checked access to the pan is pending; of `troot` the root word of its context. 14 R400: MTC of `kill` with 1 marks every strand of its block. -/
def Obligations.ControlWrites : Prop :=
  ∀ (s : State) (a : BitVec 5), s.here.canIssue [a] = true → s.here.looping = false →
    let v := s.here.gpr a
    let st := s.here.past 4
    let p := panOf s.cur
    let wrote := fun (n : BitVec 12) (x : Strand) => ∃ t, exec (.mtc a n) s = .next t ∧
      t = { s with strands := t.strands } ∧ (s.Good → t.here = x ∧ ∀ k, k ≠ s.cur → t.strand k = s.strand k)
    wrote 0x001 { st with acr := word (fld v 4 2 * 16 + (if 6 ≤ fld v 0 3 then fld st.acr 0 3 else fld v 0 3)) } ∧
    wrote 0x002 { st with fsr := word (fld v 0 9) } ∧
    (∀ j < 8, wrote (BitVec.ofNat 12 (8 + j)) { st with fidx := Tbl.put 0 j (word (fld v 31 1 * 2 ^ 31 + fld v 0 12)) st.fidx }) ∧
    (isMgmt s.cur = false → ∃ t, exec (.mtc a 0x010) s = .next t ∧ t = { s with strands := t.strands, pans := t.pans } ∧ (s.Good →
      (∀ q, t.pan q = if q = p then { s.pan p with credit := [0, 0, 0, 0] } else s.pan q) ∧ (∀ k, panOf k ≠ p → t.strand k = s.strand k) ∧
      ∀ k, panOf k = p → let x := if k = s.cur then st else s.strand k
        t.strand k = if st.sup = true ∨ k = s.cur then { x with weight := fld v (4 * (k % 4)) 4 } else x)) ∧
    (st.sup = true →
      wrote 0x800 { st with tvec := word (fld v 2 62 * 4) } ∧
      wrote 0x801 { st with tcause := word (fld v 0 8) } ∧
      wrote 0x802 { st with tval := v } ∧
      wrote 0x803 { st with tpc := v } ∧
      wrote 0x804 { st with tstatus := word (fld st.tstatus 2 2 * 4 + fld v 0 2) } ∧
      wrote 0x805 st ∧
      (bitOf v 0 = false → wrote 0x806 st) ∧
      (bitOf v 0 = true → s.Good → s.shadowOf s.cur = none → ∀ b blk, st.block = some b → s.block b = some blk →
        ∃ t, exec (.mtc a 0x806) s = .next t ∧ t.mem = s.mem ∧ t.panMem = s.panMem ∧ ∀ k ∈ s.blockStrands blk, (t.strand k).kill = 1) ∧
      (isMgmt s.cur = false → ∀ i, s.resOf p st.ctx = some i → s.panHeld p = false →
        let r := (s.pan p).res.get {} i
        let sets := fun (n : BitVec 12) (r' : Residency) => exec (.mtc a n) s = .next ((Upd.pan p { s.pan p with res := Tbl.put {} i r' (s.pan p).res }).apply (s.withHere st))
        sets 0x810 { r with spbase := word (fld v 8 12 * 256) } ∧ sets 0x811 { r with splim := word (min 4096 (fld v 8 13) * 256) }) ∧
      (∀ c, s.context st.ctx = some c → st.ctx ≠ 0xFFFF →
        exec (.mtc a 0x812) s = .next ((Upd.context st.ctx (some { c with troot := word (fld v 12 27 * 4096) })).apply (s.withHere st))))

/-- 09 R262, R271, R272, R274 to R277, 01 R37: fences, waits, hints (2 fetches the line at g1's target), the time (which goes on by a free amount, log 4), the position of a page and of the strand, and cache maintenance: CFLUSH leaves no copy of its line in the slices of its scope. 09 R273, 06 R164: EXIT of a strand with nothing outstanding passes it to IDLE, and its block to ENDING with the last of its strands. Which posted stores a FENCE at scope 5 waits for is the model's reading (log 41). -/
def Obligations.SystemInstructions : Prop :=
  (∀ (s s' : State) (d a : BitVec 5) (n : BitVec 12) (sc k : BitVec 3) (t : TlbEnt),
    let st := s.here
    let stepped := Host.Outcome.next (s.withHere (st.past 4))
    (st.issues = true →
      (n ≠ 2 → exec (.hint n) s = stepped) ∧
      exec .hintH s = .next (s.withHere (st.past 2)) ∧
      (st.looping = false → sc.toNat ≠ 5 ∨ (k = 0 ∧ ∀ p ∈ st.posted, p.fail = none) ∨ s.releases none →
        exec (.fence sc k) s = stepped) ∧
      (st.latch = true → exec .wfe s = .next (s.withHere { st with latch := false, pc := st.pc + 4 })) ∧
      (st.latch = false → exec .wfe s = .next (s.withHere { st with st := .wait, wait := .latch s.gtime })) ∧
      (s.Good → (∀ b blk, st.block = some b → s.block b = some blk → blk.preempt = false) → exec .yield s = stepped)) ∧
    (st.canIssue [1] = true → exec (.hint 2) s = .next ((s.half s.cur (st.gpr 1 &&& ~~~1)).2.withHere (st.past 4))) ∧
    (st.canIssue [a] = true →
      (st.looping = false → s.probes s.cur (st.gpr a) { accLoad with cached := true } = (.ok t, s') →
        ((∀ pa, s'.locOf t (st.gpr a).toNat ≠ .mem pa) → exec (.cflush a sc) s = .next (s'.withHere (st.past 4))) ∧
        (∀ pa, s'.locOf t (st.gpr a).toNat = .mem pa → ∃ u, exec (.cflush a sc) s = .next u ∧ s'.Aside u ∧ u.here = st.past 4 ∧
          u.mem = s'.mem ∧ u.panMem = s'.panMem ∧ (∀ j, j ≠ s.cur → u.strand j = s'.strand j) ∧
          ∀ y, (u.bay y).line (s'.home pa / 128) = if flushes s.cur sc.toNat y then .i else (s'.bay y).line (s'.home pa / 128))) ∧
      (isMgmt s.cur = false → s.finds s.cur (st.gpr a) = (some t, s') → (st.sup = true ∨ bitOf (st.gpr a) 63 = false) →
        s'.checkCinv st.sup t (st.gpr a).toNat = none →
        exec (.cinv a) s = .next (((Upd.pan (panOf s.cur) { s'.pan (panOf s.cur) with
          icache := (s'.pan (panOf s.cur)).icache.filter fun l => !(l.ctx == st.ctx && l.va == (st.gpr a).toNat / 128) }).apply s').withHere (st.past 4)))) ∧
    (st.canIssue [d, a] = true →
      (s.finds s.cur (st.gpr a) = (some t, s') → exec (.placeAddr d a) s = .next (s'.withHere (st.retired d (placeWord t) 4))) ∧
      (s.finds s.cur (st.gpr a) = (none, s') → exec (.placeAddr d a) s = .next (s'.withHere (st.retired d 0 4)))) ∧
    (st.canIssue [d] = true →
      exec (.placeSelf d) s = .next (s.withHere (st.retired d (if isMgmt s.cur then 0 else s.placeSelf s.cur) 4)) ∧
      (st.looping = false → st.vq = [] → (∀ p ∈ st.posted, p.fail.isSome = true) → ∃ g, s.gtime ≤ g ∧
        exec (.rdgt d) s = .next ({ s with free := s.free + 1, gtime := g }.withHere (st.retired d (word g) 4))) ∧
      (st.looping = false → ∃ g, s.gtime ≤ g ∧
        exec (.mfc d 0x020) s = .next ({ s with free := s.free + 1, gtime := g }.withHere (st.retired d (word g) 4))))) ∧
  (∀ (s : State), s.Good → s.here.issues = true → s.here.busy = false → s.here.posted = [] → s.here.copies = [] →
    ∃ t, exec .exit s = .next t ∧ t.here.st = .idle ∧ t.here.wait = .none ∧ t.here.g = s.here.g ∧ t.here.pc = s.here.pc ∧
      t.mem = s.mem ∧ t.panMem = s.panMem ∧ (∀ k, k ≠ s.cur → t.strand k = s.strand k) ∧
      (∀ b blk, s.here.block = some b → s.block b = some blk →
        t.block b = some (if (s.blockStrands blk).all (fun j => decide (j = s.cur) || decide ((s.strand j).st = .idle)) then { blk with st := .ending } else blk)))

/-- 01 R39, R40, 09 R278: an XINV with operands in range starts its invalidation and the strand waits at it; once the invalidation is done, the strand goes past it. 01 R40 step 3: when an invalidation retires, no translation cache of a pan or bay and no inbound cache of a die holds an entry it covers; storage and registers are as they were. -/
def Obligations.Invalidations : Prop :=
  (∀ (s : State) (a b : BitVec 5), s.here.canIssue [a, b] = true → s.here.looping = false → (∀ p ∈ s.here.posted, p.fail.isSome = true) → s.here.sup = true →
    let x := s.here.gpr a
    let y := s.here.gpr b
    let starts := fun (i : Instr) (kind : InvKind) => (∀ v ∈ s.invs, v.key ≠ s.cur) →
      exec i s = .next { s with nextId := s.nextId + 1, invs := s.invs ++ [⟨s.nextId, kind, s.cur, false⟩] }
    let ends := fun (i : Instr) => ∀ v, s.invs.find? (fun x => decide (x.key = s.cur)) = some v → v.done = true →
      exec i s = .next ({ s with invs := s.invs.filter fun y => decide (y.id ≠ v.id) }.withHere (s.here.past 4))
    (starts .xinvAll .all ∧ ends .xinvAll) ∧
    (x.toNat < 2 ^ 16 → starts (.xinvCtx a) (.ctx x.toNat) ∧ ends (.xinvCtx a)) ∧
    (x.toNat < 2 ^ 16 → starts (.xinvVa a b) (.va x.toNat y.toNat) ∧ ends (.xinvVa a b)) ∧
    (x.toNat < 2 ^ 44 → starts (.xinvIn a) (.inbound x.toNat) ∧ ends (.xinvIn a))) ∧
  (∀ (s : State) (v : Inv), s.Good → s.noHolder = true → s.invs.find? (fun x => decide (x.id = v.id)) = some v → v.done = false →
    ∃ t, exec (.xinvRetire v.id) s = .next t ∧
      (∀ p, ∀ e ∈ (t.pan p).tlb, v.kind.hitsLeaf e = false) ∧
      (∀ y, (∀ e ∈ (t.bay y).tlb, v.kind.hitsLeaf e = false) ∧ ∀ e ∈ (t.bay y).walk, v.kind.hitsWalk e = false) ∧
      (∀ d, (∀ e ∈ (t.die d).inTlb, v.kind.hitsInLeaf e = false) ∧ ∀ e ∈ (t.die d).inWalk, v.kind.hitsInWalk e = false) ∧
      (∀ p, ∀ e ∈ (s.pan p).tlb, v.kind.hitsLeaf e = false → e ∈ (t.pan p).tlb) ∧
      (∀ y ∈ t.invs, y.id = v.id → y.done = true) ∧ t.strands = s.strands ∧ t.mem = s.mem ∧ t.panMem = s.panMem)

/-- 10 R283, R286, R288: the integer instructions at one element width. Each active element j of the destination takes the value of the table on the exact values x and y of the sources (and c, the old element), modulo 2^W; inactive elements, the other registers and everything else are as they were; DZ and SAT are raised by element, and an `.xm` form is unmasked and leaves the exception mask. The effect is placed at issue, the model's reading (log 6). -/
def Obligations.VectorIntegerResults : Prop :=
  ∀ (s : State) (d a b : BitVec 5) (m : BitVec 3) (z xm : Bool) (f : BitVec 2), s.VecReady (if f = 1 then [b] else []) →
    let st := s.here
    let w := st.sew
    let W := 8 * w
    let n := vlenOf s.cur
    let last := fun (u : Bool) (j : Nat) => match f.toNat with
      | 0 => st.velem n b.toNat w j
      | 1 => (st.gpr b).toNat % 2 ^ W
      | _ => lowBits W (if u then (b.toNat : Int) else sext b.toNat 5)
    let p := fun j => st.velem n a.toNat w j
    let q := last false
    let x := fun j => intOf (!z) W (p j)
    let y := fun j => intOf (!z) W (q j)
    let c := fun j => intOf (!z) W (st.velem n d.toNat w j)
    let count := fun j => last true j % W
    let on := st.active m.toNat st.vl
    let writes := fun (i : Instr) (v : Nat → Int) => s.VecWrites i 0 d.toNat w on false m fun j => (lowBits W (v j), 0)
    let divides := fun (i : Instr) (v : Nat → Int) =>
      s.VecWrites i 1 d.toNat w (if xm then List.range st.vl else on) xm m fun j => (lowBits W (v j), if y j = 0 then flDZ else 0)
    let clamps := fun (i : Instr) (v : Nat → Int) =>
      s.VecWrites i 0 d.toNat w (if xm then List.range st.vl else on) xm m fun j =>
        (lowBits W (max (minInt (!z) W) (min (maxInt (!z) W) (v j))), if v j < minInt (!z) W ∨ maxInt (!z) W < v j then flSAT else 0)
    writes (.vadd d a b m z f) (fun j => x j + y j) ∧
    writes (.vsub d a b m z f) (fun j => x j - y j) ∧
    writes (.vmul d a b m z f) (fun j => x j * y j) ∧
    writes (.vmulh d a b m z f) (fun j => x j * y j / (2 ^ W : Nat)) ∧
    writes (.vmac d a b m z f) (fun j => c j + x j * y j) ∧
    writes (.vmin d a b m z f) (fun j => min (x j) (y j)) ∧
    writes (.vmax d a b m z f) (fun j => max (x j) (y j)) ∧
    writes (.vand d a b m z f) (fun j => (p j &&& q j : Nat)) ∧
    writes (.vor d a b m z f) (fun j => (p j ||| q j : Nat)) ∧
    writes (.vxor d a b m z f) (fun j => (p j ^^^ q j : Nat)) ∧
    writes (.vsll d a b m z f) (fun j => (p j * 2 ^ count j : Nat)) ∧
    writes (.vsrl d a b m z f) (fun j => (p j / 2 ^ count j : Nat)) ∧
    writes (.vsra d a b m z f) (fun j => sext (p j) W / (2 ^ count j : Nat)) ∧
    divides (.vdiv d a b m z xm f) (fun j => if y j = 0 then -1 else (x j).tdiv (y j)) ∧
    divides (.vrem d a b m z xm f) (fun j => if y j = 0 then x j else x j - y j * (x j).tdiv (y j)) ∧
    clamps (.vsadd d a b m z xm f) (fun j => x j + y j) ∧
    clamps (.vssub d a b m z xm f) (fun j => x j - y j)

/-- 10 R284, R288: widening multiplies write elements of 2W bits into a group of two registers, and VNSHR narrows elements of 2W bits with rounding and saturation, under SEW 1, 2 and 4 and with the group aligned. 10 R284, 14 R389: a widening or narrowing instruction under SEW 8, or with its group unaligned, raises ILL with `tval` 0 and writes nothing. The effect is placed at issue, the model's reading (log 6). -/
def Obligations.VectorWidthChanges : Prop :=
  (∀ (s : State) (d a b : BitVec 5) (m : BitVec 3) (z xm : Bool) (f : BitVec 2), s.VecReady (if f = 1 then [b] else []) → s.here.sew < 8 →
    let st := s.here
    let w := st.sew
    let W := 8 * w
    let n := vlenOf s.cur
    let on := st.active m.toNat st.vl
    let last := fun (u : Bool) (j : Nat) => match f.toNat with
      | 0 => st.velem n b.toNat w j
      | 1 => (st.gpr b).toNat % 2 ^ W
      | _ => lowBits W (if u then (b.toNat : Int) else sext b.toNat 5)
    let x := fun j => intOf (!z) W (st.velem n a.toNat w j)
    let y := fun j => intOf (!z) W (last false j)
    let c := fun j => intOf (!z) (2 * W) (st.velem n d.toNat (2 * w) j)
    (d.toNat % 2 = 0 →
      s.VecWrites (.vwmul d a b m z f) 0 d.toNat (2 * w) on false m (fun j => (lowBits (2 * W) (x j * y j), 0)) ∧
      s.VecWrites (.vwmac d a b m z f) 0 d.toNat (2 * w) on false m (fun j => (lowBits (2 * W) (c j + x j * y j), 0))) ∧
    (a.toNat % 2 = 0 →
      let v := fun j => fxShift (intOf (!z) (2 * W) (st.velem n a.toNat (2 * w) j)) (last true j % (2 * W)) st.xrm
      s.VecWrites (.vnshr d a b m z xm f) 0 d.toNat w (if xm then List.range st.vl else on) xm m fun j =>
        (lowBits W (max (minInt (!z) W) (min (maxInt (!z) W) (v j))), if v j < minInt (!z) W ∨ maxInt (!z) W < v j then flSAT else 0))) ∧
  (∀ (s : State) (d a b : BitVec 5) (m : BitVec 3) (z xm : Bool) (f : BitVec 2), s.VecReady (if f = 1 then [b] else []) →
    (s.here.sew = 8 ∨ d.toNat % 2 = 1 → exec (.vwmul d a b m z f) s = s.traps 0x01 0 ∧ exec (.vwmac d a b m z f) s = s.traps 0x01 0) ∧
    (s.here.sew = 8 ∨ a.toNat % 2 = 1 → exec (.vnshr d a b m z xm f) s = s.traps 0x01 0))

/-- 10 R290 to R292: the float instructions, in the format of SEW and ALT, by the scalar operations of 07 on the encodings of the elements. The effect is placed at issue, the model's reading (log 6). -/
def Obligations.VectorFloatResults : Prop :=
  ∀ (s : State) (d a b u : BitVec 5) (m : BitVec 3) (alt sat xm : Bool) (f : BitVec 2) (v : BitVec 4), s.VecReady (if f = 1 then [b] else []) →
    (s.here.sew = 4 ∨ s.here.sew = 8 → alt = false) →
    let st := s.here
    let w := st.sew
    let n := vlenOf s.cur
    let code := if w = 8 then 8 else if w = 4 then 9 else if w = 2 then (if alt then 11 else 10) else if alt then 13 else 12
    let F := fmtOf code
    let md := st.frm
    let on := if xm then List.range st.vl else st.active m.toNat st.vl
    let x := fun j => st.velem n a.toNat w j
    let y := fun j => match f.toNat with
      | 0 => st.velem n b.toNat w j
      | 1 => (st.gpr b).toNat % 2 ^ (8 * w)
      | _ => (F.round 0 (decide (sext b.toNat 5 < 0)) (sext b.toNat 5).natAbs 0).1 % 2 ^ (8 * w)
    let c := fun j => st.velem n d.toNat w j
    let writes := fun (i : Instr) (pipe : Nat) (r : Nat → Nat × Fl) => s.VecWrites i pipe d.toNat w on xm m r
    writes (.vfadd d a b m alt xm f) 0 (fun j => F.arith 0 md (x j) (y j)) ∧
    writes (.vfsub d a b m alt xm f) 0 (fun j => F.arith 1 md (x j) (y j)) ∧
    writes (.vfmul d a b m alt xm f) 0 (fun j => F.arith 2 md (x j) (y j)) ∧
    writes (.vfdiv d a b m alt xm f) 1 (fun j => F.arith 3 md (x j) (y j)) ∧
    writes (.vfma d a b m alt xm f) 0 (fun j => F.fma md (F.unpack (x j)) (F.unpack (y j)) (F.unpack (c j))) ∧
    writes (.vfms d a b m alt xm f) 0 (fun j => F.fma md (F.unpack (x j)) (F.unpack (y j)) (F.unpack (c j)).neg) ∧
    writes (.vfnma d a b m alt xm f) 0 (fun j => F.fma md (F.unpack (x j)).neg (F.unpack (y j)) (F.unpack (c j))) ∧
    writes (.vfmin d a b m alt xm f) 0 (fun j => F.minmax false (x j) (y j)) ∧
    writes (.vfmax d a b m alt xm f) 0 (fun j => F.minmax true (x j) (y j)) ∧
    writes (.vfsqrt d a m alt xm) 1 (fun j => F.sqrt md (F.unpack (x j))) ∧
    (w ≠ 1 → s.VecWrites (.vfclass d a m alt) 0 d.toNat w (st.active m.toNat st.vl) false m (fun j => (F.classOf (x j), 0))) ∧
    (d.toNat % max 1 (tyBytes v.toNat / w) = 0 → v.toNat < 14 →
      s.VecWrites (.vfcvt d a v sat m alt xm) 0 d.toNat (tyBytes v.toNat) on xm m (fun j => convert code v.toNat sat md (x j))) ∧
    (4 ≤ w → s.VecWrites (.vsfn d a u m false xm) 3 d.toNat w on xm m (fun j => F.sfn u.toNat (x j)))

/-- 10 R283, R289, R300, 02 R65: compares and mask instructions write their mask register bit by bit: bits at or above VL become 0, and an inactive bit below VL of a compare keeps its value; MPOPC and MFIRST write g_d. 10 R293, 07 R203: a reduction combines element 0 of the last source with the active elements into element 0 of the destination, in ascending order (VRED, VFREDO) or over the fixed tree (VFREDT); with VL = 0 nothing is written. The effect is placed at issue, the model's reading (log 6). -/
def Obligations.VectorMasksAndReductions : Prop :=
  (∀ (s : State) (c : BitVec 2) (md ma mb : BitVec 3) (d a b : BitVec 5) (m : BitVec 3) (z alt : Bool) (f : BitVec 2), s.VecReady (d :: if f = 1 then [b] else []) →
    let st := s.here
    let w := st.sew
    let W := 8 * w
    let n := vlenOf s.cur
    let done := fun (x : Strand) => Host.Outcome.next (s.withHere (x.vecDone s.cur 0 st.vl w))
    let p := fun j => st.velem n a.toNat w j
    let q := fun j => match f.toNat with
      | 0 => st.velem n b.toNat w j
      | 1 => (st.gpr b).toNat % 2 ^ W
      | _ => lowBits W (sext b.toNat 5)
    let x := fun j => intOf (!z) W (p j)
    let y := fun j => intOf (!z) W (q j)
    let holds := fun j => match c.toNat with
      | 0 => decide (x j = y j)
      | 1 => decide (x j ≠ y j)
      | 2 => decide (x j < y j)
      | _ => decide (x j ≤ y j)
    let compared := fun (r : BitVec 2048) (h : Nat → Bool) => ∀ j < 2048, r.getLsbD j =
      (decide (j < st.vl) && if st.maskBit m.toNat j then h j else (st.mreg md.toNat).getLsbD j)
    let F := fmtOf (if w = 8 then 8 else if w = 4 then 9 else if w = 2 then (if alt then 11 else 10) else if alt then 13 else 12)
    let v := fun j => F.cmp c.toNat (p j) (st.velem n b.toNat w j)
    let logic := fun (i : Instr) (g : Bool → Bool → Bool) => ∃ r, exec i s = done (st.setMask md.toNat r) ∧
      ∀ j < 2048, r.getLsbD j = (decide (j < st.vl) && g ((st.mreg ma.toNat).getLsbD j) ((st.mreg mb.toNat).getLsbD j))
    (∃ r, exec (.vcmp c md a b m z f) s = done (st.setMask md.toNat r) ∧ compared r holds) ∧
    ((w = 4 ∨ w = 8 → alt = false) → ∃ r, compared r (fun j => (v j).1) ∧
      exec (.vfcmp c md a b m alt) s = done ((st.setMask md.toNat r).raiseElems ((st.active m.toNat st.vl).map fun j => (j, (v j).2)))) ∧
    logic (.mand md ma mb) (fun x y => x && y) ∧
    logic (.mor md ma mb) (fun x y => x || y) ∧
    logic (.mxor md ma mb) (fun x y => x != y) ∧
    logic (.mandn md ma mb) (fun x y => x && !y) ∧
    exec (.mpopc d ma) s = done (st.setG d (word ((List.range st.vl).countP (st.mreg ma.toNat).getLsbD))) ∧
    exec (.mfirst d ma) s = done (st.setG d (match (List.range st.vl).find? (st.mreg ma.toNat).getLsbD with
      | some j => word j
      | none => word (2 ^ 64 - 1)))) ∧
  (∀ (s : State) (o : BitVec 3) (d a b : BitVec 5) (m : BitVec 3) (z alt xm : Bool), s.VecReady [] →
    let st := s.here
    let w := st.sew
    let W := 8 * w
    let n := vlenOf s.cur
    let el := fun j => st.velem n a.toNat w j
    let init := st.velem n b.toNat w 0
    let on := st.active m.toNat st.vl
    let F := fmtOf (if w = 8 then 8 else if w = 4 then 9 else if w = 2 then (if alt then 11 else 10) else if alt then 13 else 12)
    let fon := if xm then List.range st.vl else on
    let levels := bitLen (st.vl - 1)
    let tree := redTree F st.frm levels ((List.range (2 ^ levels)).map fun j => (j, if j ∈ fon then el j else F.zeroCode true))
    let total := F.arith 0 st.frm init tree.1
    let reduced := fun (i : Instr) (r : Nat) (fs : List (Nat × Fl)) => ∃ st', st.Wrote st' n d.toNat w [0] (fun _ => r) ∧
      exec i s = .next (s.withHere (((st'.raiseElems fs).exceptions xm m fs).vecDone s.cur 0 st.vl w))
    let step := fun (acc x : Nat) => match o.toNat with
      | 0 => (acc + x) % 2 ^ W
      | 1 => lowBits W (min (intOf (!z) W acc) (intOf (!z) W x))
      | 2 => lowBits W (max (intOf (!z) W acc) (intOf (!z) W x))
      | 3 => acc &&& x
      | 4 => acc ||| x
      | _ => acc ^^^ x
    (st.vl = 0 → exec (.vred o d a b m z) s = .next (s.withHere (st.past 4))) ∧
    (st.vl ≠ 0 → s.VecWrites (.vred o d a b m z) 0 d.toNat w [0] false m fun _ => ((on.map el).foldl step init, 0)) ∧
    (st.vl ≠ 0 → (w = 4 ∨ w = 8 → alt = false) →
      (let r := redOrdered F st.frm init (fon.map fun j => (j, el j))
       reduced (.vfredo d a b m alt xm) r.1 r.2) ∧
      reduced (.vfredt d a b m alt xm) total.1 (tree.2 ++ [(0, total.2)])))

/-- 10 R301, R302: permutes and moves, by the element or value that each active destination element takes. 10 R303, R304: VHAD applies its stages to the VL elements, a power of two of at least 2^(j + stages), converts each result where CV says so, and goes past its two words; otherwise it raises RANGE with VL. The effect is placed at issue, the model's reading (log 6). -/
def Obligations.VectorPermutes : Prop :=
  (∀ (s : State) (d a b : BitVec 5) (ma m : BitVec 3) (f : BitVec 2), s.VecReady (d :: a :: if f = 1 then [b] else []) →
    let st := s.here
    let w := st.sew
    let n := vlenOf s.cur
    let top := s.vlmax s.cur w
    let on := st.active m.toNat st.vl
    let el := fun j => st.velem n a.toNat w j
    let k := if f = 1 then (st.gpr b).toNat else b.toNat
    let writes := fun (i : Instr) (is : List Nat) (v : Nat → Nat) => s.VecWrites i 0 d.toNat w is false m fun j => (v j, 0)
    let done := fun (x : Strand) => Host.Outcome.next (s.withHere (x.vecDone s.cur 0 st.vl w))
    let rank := fun j => (on.filter (· < j)).length
    writes (.vslideup d a b m f) (on.filter (k ≤ ·)) (fun j => el (j - k)) ∧
    writes (.vslidedn d a b m f) on (fun j => if j + k < top then el (j + k) else 0) ∧
    writes (.vgather d a b m) on (fun j => if st.velem n b.toNat w j < top then el (st.velem n b.toNat w j) else 0) ∧
    writes (.vcompress d a m) (List.range on.length) (fun j => el (nth 0 on j)) ∧
    writes (.vexpand d a m) on (fun j => el (rank j)) ∧
    (f = 1 → writes (.vbcast d b m f) on (fun _ => (st.gpr b).toNat % 2 ^ (8 * w))) ∧
    (f = 2 → writes (.vbcast d b m f) on (fun _ => lowBits (8 * w) (sext b.toNat 5))) ∧
    writes (.viota d ma m) on (fun j => ((List.range j).countP (st.mreg ma.toNat).getLsbD) % 2 ^ (8 * w)) ∧
    writes (.vmerge d a b m) (List.range st.vl) (fun j => if st.maskBit m.toNat j then st.velem n b.toNat w j else el j) ∧
    (k < top → writes (.vins d a b f) [k] (fun _ => (st.gpr a).toNat) ∧
      exec (.vmvx d a b f) s = done (st.setG d (wordI (sext (el k) (8 * w))))) ∧
    (top ≤ k → exec (.vins d a b f) s = done st ∧ exec (.vmvx d a b f) s = done (st.setG d 0)) ∧
    (∀ l, st.vl = 2 ^ l →
      (k ≤ l → writes (.vperms d a b m f) on (fun j => el (j % 2 ^ (l - k) * 2 ^ k + j / 2 ^ (l - k)))) ∧
      writes (.vbrev d a m) on (fun j => el (revBits l j)))) ∧
  (∀ (s : State) (d a : BitVec 5) (alt sat : Bool) (sh : BitVec 5) (ot j k : BitVec 4), s.VecReady [] → (s.here.sew = 4 ∨ s.here.sew = 8 → alt = false) →
    let st := s.here
    let w := st.sew
    let W := 8 * w
    let n := vlenOf s.cur
    let xs := (List.range st.vl).map (st.velem n a.toNat w)
    let F := fmtOf (if w = 8 then 8 else if w = 4 then 9 else if w = 2 then (if alt then 11 else 10) else if alt then 13 else 12)
    let ri := hadStages (fun x y => (((x + y) % 2 ^ W, 0), ((x + 2 ^ W - y) % 2 ^ W, 0))) j.toNat k.toNat xs
    let rf := hadStages (fun x y => (F.arith 0 st.frm x y, F.arith 1 st.frm x y)) j.toNat k.toNat xs
    let fine := st.vl ≠ 0 ∧ (∃ l, st.vl = 2 ^ l) ∧ 2 ^ (j.toNat + k.toNat) ≤ st.vl
    let wrote := fun (i : Instr) (r : List Nat) (fs : List (Nat × Fl)) => ∃ st', st.Wrote st' n d.toNat w (List.range st.vl) (nth 0 r) ∧
      exec i s = .next (s.withHere (((st'.raiseElems fs).vecDone s.cur 0 st.vl w).past 4))
    (fine → wrote (.vhad d a true alt false sat sh ot j k) ri.1 ri.2) ∧
    (fine → wrote (.vhad d a false alt false sat sh ot j k) rf.1 rf.2) ∧
    (fine → tyBytes ot.toNat = w → ot.toNat < 8 → wrote (.vhad d a true alt true true sh ot j k)
      (ri.1.map fun x => lowBits W (max (minInt (tySigned ot.toNat) W) (min (maxInt (tySigned ot.toNat) W) (fxShift (sext x W) sh.toNat st.xrm))))
      (ri.2 ++ (enumFrom 0 ri.1).map fun x => (x.1,
        let v := fxShift (sext x.2 W) sh.toNat st.xrm
        if v < minInt (tySigned ot.toNat) W ∨ maxInt (tySigned ot.toNat) W < v then flSAT else 0))) ∧
    (st.vl ≠ 0 → ¬ fine → exec (.vhad d a true alt false sat sh ot j k) s = s.traps 0x0B (word st.vl)))

/-- 10 R281, R282: VSETL sets VL to the smaller of g_a and VLMAX, with SEW and the scope of its fields, and writes VL to g_d. 10 R309, R310, 02 R68 to R70: VSPILL stores the record of its register and writes the record's length to g_b; VFILL reads a record back into the register, and raises RANGE at one that is malformed. 02 R68 to R70: VFILL of what VSPILL of a register stores gives back the bytes below its valid length, the record being shorter than the register only where it is compressed. The effect is placed at issue, the model's reading (log 6). -/
def Obligations.VectorLengthAndSpill : Prop :=
  (∀ (s : State) (d a : BitVec 5) (w : BitVec 2) (sc : BitVec 3), s.Good → s.here.canIssue [d, a] = true → isMgmt s.cur = false → s.here.looping = false →
    let vl := min (s.here.gpr a).toNat (min (vlenOf s.cur) (fld (s.pan (panOf s.cur)).vlclamp 0 12) / 2 ^ w.toNat)
    exec (.vsetl d a w sc) s =
      .next (s.withHere (({ s.here with vcfg := word (sc.toNat * 65536 + w.toNat * 4096 + vl) } : Strand).retired d (word vl) 4))) ∧
  (∀ (s : State) (d a b : BitVec 5) (p : Bool) (x : Nat → Nat), s.VecReady [a, b] → (s.here.gpr a).toNat % 8 = 0 →
    let st := s.here
    let va := st.gpr a
    let queued := fun (n : Nat) => ({ st with vq := st.vq ++ [⟨2, groupsOf s.cur n 8⟩] } : Strand)
    let at_ := fun i => va + word (8 * i)
    (let r := (st.vreg d.toNat).record (fld st.vcfg 12 2)
     let n := r.length / 8
     (∀ i < n, s.Meets p (at_ i) 8 accStore (x i) ∧ s.Storable p (x i) 8) →
      ∃ t, exec (.vspill d a b p) s = .next t ∧
        s.StoredSeq t p s.cur ((queued n).retired b (word r.length) 4) 8 ((List.range n).map fun i => (x i, bytesAt r (8 * i) 8))) ∧
    (s.Meets p va 8 accLoad (x 0) → (∀ r ∈ s.fabric.requests, r.who ≠ .strand s.cur) →
      let h := s.readsAt p (x 0) 8
      let n := recLen h
      (recBad h (vlenOf s.cur) = true → exec (.vfill d a b p) s = s.traps 0x0B va) ∧
      (recBad h (vlenOf s.cur) = false → (∀ i < n / 8, s.Meets p (at_ i) 8 accLoad (x i)) →
        exec (.vfill d a b p) s = .next (s.withHere (({ queued (n / 8) with
          replies := [], v := Tbl.put {} d.toNat (recReg ((List.range (n / 8)).flatMap fun i => bytesOf (s.readsAt p (x i) 8) 8)) st.v } : Strand).retired b (word n) 4))))) ∧
  (∀ (v : VReg) (wl n : Nat), wl < 4 → n ≤ 2048 → v.vlb ≤ n → v.vlb % 8 = 0 →
    let r := v.record wl
    let h := bytesAt r 0 8
    recBad h n = false ∧ recLen h = r.length ∧ r.length ≤ roundUp8 (3 + v.vlb) ∧
    ∀ i < v.vlb, imgGet (recReg r).img i 1 = imgGet v.img i 1)

/-- 10 R294 to R296: a vector load whose active elements meet no trap writes each with what it reads, at consecutive, strided or indexed addresses; VLSEG writes field c of element j to element j of register d + c. Nothing is stored. 10 R295, 14 R389: a vector load or store whose base is misaligned raises ALIGN, which ranks first, for its lowest active element, and neither a register nor a byte of storage is written; without active elements there is no trap. The effect is placed at issue, the model's reading (log 6). What a trap records of later elements is the model's reading (log 37). -/
def Obligations.VectorLoads : Prop :=
  (∀ (s : State) (d a b : BitVec 5) (c m : BitVec 3) (p o : Bool) (x : Nat → Nat),
    let st := s.here
    let w := st.sew
    let n := vlenOf s.cur
    let on := st.active m.toNat st.vl
    let base := st.gpr a
    let loads := fun (i : Instr) (va : Nat → Word) => (∀ j ∈ on, s.Meets p (va j) w accLoad (x j)) →
      s.VecWrites i 2 d.toNat w on false m (fun j => (s.readsAt p (x j) w, 0))
    (s.VecReady [a] → loads (.vld d a m p o) (fun j => base + word (j * w)) ∧
      loads (.vldx d a b m p o) (fun j => base + word (st.velem n b.toNat w j))) ∧
    (s.VecReady [a, b] → loads (.vlds d a b m p o) (fun j => base + word j * st.gpr b)) ∧
    (s.VecReady [a] → d.toNat + c.toNat ≤ 31 → st.vl * w ≤ n →
      (∀ j ∈ on, ∀ f ≤ c.toNat, s.Meets p (base + word ((j * (c.toNat + 1) + f) * w)) w accLoad (x (j * (c.toNat + 1) + f))) →
      ∃ st' : Strand, exec (.vlseg d a c m p o) s = .next (s.withHere (st'.vecDone s.cur 2 st.vl w)) ∧ st' = { st with v := st'.v } ∧
        (∀ j ∈ on, ∀ f ≤ c.toNat, st'.velem n (d.toNat + f) w j = s.readsAt p (x (j * (c.toNat + 1) + f)) w) ∧
        (∀ r off, off < n → (∀ j ∈ on, ¬ (d.toNat ≤ r ∧ r ≤ d.toNat + c.toNat ∧ j * w ≤ off ∧ off < j * w + w)) →
          imgGet (st'.vreg r).img off 1 = imgGet (st.vreg r).img off 1)) ∧
    (s.VecReady [a] → 31 < d.toNat + c.toNat → exec (.vlseg d a c m p o) s = s.traps 0x01 0 ∧ exec (.vsseg d a c m p o) s = s.traps 0x01 0)) ∧
  (∀ (s : State) (d a : BitVec 5) (m : BitVec 3) (p o : Bool), s.VecReady [a] → s.here.held = [] →
    let st := s.here
    let w := st.sew
    let base := st.gpr a
    let on := st.active m.toNat st.vl
    let raises := fun (i : Instr) (va : Word) => ∃ c, c.testBit 3 = true ∧ exec i s = trapAt s.cur ⟨3, va, c⟩ st.pc s
    (base.toNat % w ≠ 0 → ∀ j rest, on = j :: rest →
      raises (.vld d a m p o) (base + word (j * w)) ∧ raises (.vst d a m p o) (base + word (j * w))) ∧
    (on = [] → exec (.vld d a m p o) s = .next (s.withHere (st.vecDone s.cur 2 st.vl w)) ∧ exec (.vst d a m p o) s = .next (s.withHere (st.vecDone s.cur 2 st.vl w))))

/-- 10 R294 to R296, R298, 02 R56: a vector store whose active elements meet no trap stores each, in ascending order, so that a byte of several takes the highest element; VSTN with `.ntf` also leaves one notification for each element group with active elements, numbered as one instruction's and of the scope of `vcfg` at issue (05 R132). The effect is placed at issue, the model's reading (log 6). -/
def Obligations.VectorStores : Prop :=
  ∀ (s : State) (d a b : BitVec 5) (c m : BitVec 3) (p o nt : Bool) (x : Nat → Nat) (pw : Nat),
    let st := s.here
    let w := st.sew
    let n := vlenOf s.cur
    let on := st.active m.toNat st.vl
    let base := st.gpr a
    let el := fun r j => st.velem n r w j
    let done := st.vecDone s.cur 2 st.vl w
    let stores := fun (i : Instr) (va : Nat → Word) => (∀ j ∈ on, s.Meets p (va j) w accStore (x j) ∧ s.Storable p (x j) w) →
      ∃ t, exec i s = .next t ∧ s.StoredSeq t p s.cur done w (on.map fun j => (x j, el d.toNat j))
    let unit := fun j => base + word (j * w)
    let group := fun (g : Nat) => (on.filter fun j => decide (j * w / (n / 8) = g)).length
    (s.VecReady [a] → stores (.vst d a m p o) unit ∧ stores (.vstx d a b m p o) (fun j => base + word (el b.toNat j)) ∧ stores (.vstn d a b m false p o) unit) ∧
    (s.VecReady [a, b] → stores (.vsts d a b m p o) (fun j => base + word j * st.gpr b)) ∧
    (s.VecReady [a, b] → (∀ j ∈ on, s.Meets p (unit j) w accStore (x j) ∧ s.Storable p (x j) w) → s.Meets false (st.gpr b) 8 accRmw pw →
      ∃ t, exec (.vstn d a b m nt p o) s = .next t ∧
        { s with nextId := s.nextId + if nt ∧ on ≠ [] then 1 else 0 }.StoredSeq t p s.cur
          { done with ntf := st.ntf ++ if nt then (((List.range 8).map group).filter (· ≠ 0)).map (fun g => (⟨s.nextId, st.vscope, st.gpr b, .mem pw, g⟩ : Ntf)) else [] }
          w (on.map fun j => (x j, el d.toNat j))) ∧
    (s.VecReady [a] → d.toNat + c.toNat ≤ 31 → st.vl * w ≤ n →
      (∀ j ∈ on, ∀ f ≤ c.toNat, let y := j * (c.toNat + 1) + f; s.Meets p (base + word (y * w)) w accStore (x y) ∧ s.Storable p (x y) w) →
      ∃ t, exec (.vsseg d a c m p o) s = .next t ∧
        s.StoredSeq t p s.cur done w (on.flatMap fun j => (List.range (c.toNat + 1)).map fun f => (x (j * (c.toNat + 1) + f), el (d.toNat + f) j)))

/-- 10 R297, R298: VLDA checks its elements and leaves one pending load for each group of them; VLDA_GROUP_WRITE reads the oldest and writes its elements, or marks the group with the first poisoned address; VSTN_NOTIFY adds the oldest notification to its progress word, at scope 5 once no posted store issued before its instruction is outstanding. That the effect is placed at issue, and which posted stores are waited for, is the model's reading (logs 6, 41). -/
def Obligations.VectorPending : Prop :=
  (∀ (s : State) (d a : BitVec 5) (m : BitVec 3) (p : Bool) (x : Nat → Nat), s.VecReady [a] →
    let st := s.here
    let w := st.sew
    let on := st.active m.toNat st.vl
    let va := fun j => st.gpr a + word (j * w)
    let entry := fun j => (j, va j, if p then Place.pan (x j) else .at_ (.mem (x j)))
    (∀ j ∈ on, s.Meets p (va j) w { accLoad with cached := true } (x j)) →
    let groups := (List.range 8).map fun g => (g, (on.map entry).filter fun e => decide (e.1 * w / (vlenOf s.cur / 8) = g))
    exec (.vlda d a m p) s = .next (s.withHere (({ st with vlda := (groups.filter fun g => !g.2.isEmpty).map fun g => ⟨d.toNat, g.1, w, g.2, []⟩ } : Strand).vecDone s.cur 2 st.vl w))) ∧
  (∀ (s : State) (k : Nat) (g : VldaGroup) (rest : List VldaGroup), s.Good → (s.strand k).vlda = g :: rest → s.taskOf k = none →
    (∀ r ∈ s.fabric.requests, r.who ≠ .vlda k) → (∀ e ∈ g.elems, (∃ y, e.2.2 = .pan y) ∨ ∃ y, e.2.2 = .at_ (.mem y)) →
    (∃ q, g.sew = 2 ^ q ∧ q < 4) → (∀ e ∈ g.elems, e.1 < 2048) → (g.elems.map (·.1)).Nodup →
    let st := s.strand k
    let value := fun (e : Nat × Word × Place) => match e.2.2 with | .pan y => s.panRead y g.sew | .at_ (.mem y) => s.physRead y g.sew | _ => 0
    let bad := g.elems.find? fun e => match e.2.2 with | .pan y => s.panPoisonedAt y g.sew | .at_ (.mem y) => s.poisonedAt y g.sew | _ => false
    match bad with
    | none => ∃ st', Strand.Wrote { st with vlda := rest } st' (vlenOf k) g.vd g.sew (g.elems.map (·.1)) (fun j => ((g.elems.find? fun e => decide (e.1 = j)).map value).getD 0) ∧
        (∀ r, ∀ y ∈ (st'.vreg r).marks, y ∈ (st.vreg r).marks) ∧ exec (.vldaGroupWrite k) s = .next ((Upd.strand k st').apply s)
    | some e => exec (.vldaGroupWrite k) s = .next ((Upd.strand k { st with
        vlda := rest
        v := Tbl.put {} g.vd { st.vreg g.vd with marks := ((st.vreg g.vd).marks.filter fun y => y.1 != g.group) ++ [(g.group, e.2.1)] } st.v }).apply s)) ∧
  (∀ (s : State) (k pa : Nat) (y : Ntf) (rest : List Ntf), s.Good → (s.strand k).ntf = y :: rest → y.loc = .mem pa → (y.sc = 5 → s.postedBefore y.id none = false) → s.tasks = [] → pa % 8 = 0 → (∀ i < 8, s.home (pa + i) < memLimit) →
    ∃ t st, exec (.vstnNotify k) s = .next t ∧ Strand.Woken { s.strand k with ntf := rest } st ∧
      s.StoredSeq t false k st 8 [(pa, s.physRead pa 8 + y.add)])

/-- 10 R299: VAMO under SEW 4 and 8 performs its active elements in ascending order, each old value going to the destination and each new one to its place; under SEW 1 and 2 it raises ILL. The effect is placed at issue, the model's reading (log 6). -/
def Obligations.VectorAtomics : Prop :=
  ∀ (s : State) (fn m : BitVec 3) (d a b : BitVec 5) (p : Bool) (y : BitVec 2) (x : Nat → Nat), s.VecReady [a] → s.here.held = [] → s.here.amo = [] → (∀ r ∈ s.fabric.requests, r.who ≠ .strand s.cur) →
    let st := s.here
    let w := st.sew
    let n := vlenOf s.cur
    let on := st.active m.toNat st.vl
    let i := Instr.vamo fn d a b m p y
    (w < 4 → exec i s = s.traps 0x01 0) ∧
    (4 ≤ w → (∀ j ∈ on, s.Meets p (st.gpr a + word (st.velem n b.toNat w j)) w accRmw (x j) ∧ s.Storable p (x j) w) →
      let f := fun j old => amoNew fn.toNat true w old (st.velem n d.toNat w j)
      let read := fun z => if p then s.panRead z w else (List.range w).foldl (fun v i => v + (s.byte (z + i)).toNat * 256 ^ i) 0
      let olds := on.zip (amoOlds (fun j old => (f j old).1) (fun j => s.place p (x j)) on read)
      let old := fun j => ((olds.find? fun z => decide (z.1 = j)).map (·.2)).getD 0
      ∃ st' t, st.Wrote st' n d.toNat w on old ∧ exec i s = .next t ∧
        s.StoredSeq t p s.cur ((st'.raiseElems (on.map fun j => (j, (f j (old j)).2))).vecDone s.cur 2 st.vl w) w (on.map fun j => (x j, (f j (old j)).1)))

/-- 10 R305, R306: VLOOP reads its descriptor and captures its body; with no iteration it goes past the body, else the loop runs and issue goes on after the body; a bad descriptor raises RANGE. 10 R306, R307: a strip sets VL and the named registers, then issues the body, each instruction performing what it performs outside a loop; after its last, the next strip, index or end follows. With the vector queue full, the strip waits. The effect is placed at issue, the model's reading (log 6). -/
def Obligations.VectorLoops : Prop :=
  (∀ (s : State) (a n : BitVec 5) (pa : Nat → Nat) (body : List (Word × Instr)) (stop : Word), s.Good → s.here.canIssue [a] = true → isMgmt s.cur = false → s.here.looping = false →
    s.here.replies = [] → (∀ r ∈ s.fabric.requests, r.who ≠ .strand s.cur) → (s.here.gpr a).toNat % 64 = 0 →
    (∀ i < 24, s.Reaches (s.here.gpr a + word (8 * i)) 8 accLoad (pa i) s) →
    let st := s.here
    let dw := (List.range 24).map fun i => word (s.physRead (pa i) 8)
    let w := fun i => nth 0 dw i
    let nd := fld (w 0) 0 3
    let nr := fld (w 0) 3 3
    let half := fun d i => fld (w (d + i / 2)) (i % 2 * 32) 32
    let regs := (List.range nr).map fun r => fld (w 0) (5 * r + 11) 5
    let cnt := (List.range (nd - 1)).map (half 2)
    let n0 := fld (w 1) 0 48
    (loopBad dw = true → exec (.vloop a n) s = s.traps 0x0B (st.gpr a)) ∧
    (loopBad dw = false → body.length = n.toNat + 1 → s.holdsBody (st.pc + 8) body stop →
      (n0 = 0 ∨ 0 ∈ cnt → exec (.vloop a n) s = .next (s.withHere { st with loop := none, pc := stop })) ∧
      (n0 ≠ 0 ∧ 0 ∉ cnt → exec (.vloop a n) s = .next (s.withHere { st with
        pc := stop
        loop := some {
          ndim := nd, regs := regs, n0 := n0, cnt := cnt
          es := (List.range nr).map fun r => sext (half 5 r) 32
          str := (List.range nr).flatMap fun r => (List.range (nd - 1)).map fun j => sext (half 8 (5 * r + j)) 32
          vlmax := min (vlenOf s.cur) (fld (s.pan (panOf s.cur)).vlclamp 0 12) / st.sew
          base := regs.map fun r => st.gpr (BitVec.ofNat 5 r)
          body := body, idx := cnt.map fun _ => 0, i0 := 0, pos := 0, resume := stop, stopped := false } })))) ∧
  ((∀ i s pipe core, vectorBody i s = some (pipe, core) →
    exec i s = run (do vec i pipe core; if i.len = 8 then next 4 else pure ()) s) ∧
  ∀ (s : State) (k : Nat) (l : Loop), s.Good → (s.strand k).loop = some l → l.stopped = false →
    ((s.strand k).st = .run ∨ (s.strand k).st = .wait ∨ (s.strand k).st = .trap) → l.body ≠ [] → l.pos < l.body.length →
    let entered := fun (st : Strand) =>
      let vl := min (l.n0 - l.i0) l.vlmax
      let v := fun r => nth 0 l.base r + wordI ((l.i0 : Int) * nth 0 l.es r +
        ((List.range (l.ndim - 1)).map fun j => ((nth 0 l.idx j : Nat) : Int) * nth 0 l.str (r * (l.ndim - 1) + j)).foldl (· + ·) 0)
      (enumFrom 0 l.regs).foldl (fun st x => st.setG (BitVec.ofNat 5 x.2) (v x.1))
        { st with vcfg := word (fld st.vcfg 16 3 * 65536 + fld st.vcfg 12 2 * 4096 + vl) }
    let st := s.strand k
    let s1 := { (Upd.strand k (if l.pos = 0 then entered st else st)).apply s with cur := k }
    (16 ≤ st.vq.length → exec (.vloopStrip k) s = .next s1) ∧
    (∀ t, s1.issuesBody k (l.body.drop l.pos) t →
      let vl := (t.strand k).vl
      let l' := { l with pos := 0 }
      exec (.vloopStrip k) s = .next ((Upd.strand k { t.strand k with
        loop := if l.i0 + vl < l.n0 then some { l' with i0 := l.i0 + vl }
          else (nextIdx l.idx l.cnt).map fun x => { l' with idx := x, i0 := 0 } }).apply t)))

/-- 02 R66, 11 R342, R343: SMSHAPE gives a register a shape of zeros; SMLD and SMST move the lanes' matrices, row by row; SMTRN transposes; SMGET and SMPUT move one element of each lane between a matrix and a vector register. Lanes that are not active keep what the shape still holds. The effect is placed at issue, the model's reading (log 6). A shape is written with VL = 0 too (log 37). -/
def Obligations.SmallMatrixMoves : Prop :=
  ∀ (s : State) (qd qa : BitVec 2) (x y : BitVec 5) (r c i j m : BitVec 3) (f p : Bool) (z : Nat → Nat → Nat),
    let st := s.here
    let lanes := Config.lanes (dieOf s.cur)
    let on := st.active m.toNat (min st.vl lanes)
    let n := vlenOf s.cur
    let A := st.qreg qa
    let D := st.qreg qd
    let shaped := fun (q : QReg) => q.rows ≤ 6 ∧ q.cols ≤ 6
    let old := fun l i j => D.slot l i j
    let at_ := fun (q : QReg) l e => st.gpr x + word l * st.gpr y + word (e * q.bytes)
    (s.VecReady [] → r.toNat ≤ 6 → c.toNat ≤ 6 → ∃ st', st.QWrote st' qd lanes r.toNat c.toNat f (fun _ _ _ => 0) ∧
      exec (.smshape qd r c f) s = .next (s.withHere (st'.smDone 0))) ∧
    (s.VecReady [x, y] → shaped D → (∀ l ∈ on, ∀ e < D.rows * D.cols, s.Meets p (at_ D l e) D.bytes accLoad (z l e)) →
      ∃ st', st.QWrote st' qd lanes D.rows D.cols D.f64 (fun l i j => if l ∈ on then s.readsAt p (z l (i * D.cols + j)) D.bytes else old l i j) ∧
        exec (.smld qd x y m p) s = .next (s.withHere (st'.smDone 2))) ∧
    (s.VecReady [x, y] → shaped D → (∀ l ∈ on, ∀ e < D.rows * D.cols, s.Meets p (at_ D l e) D.bytes accStore (z l e) ∧ s.Storable p (z l e) D.bytes) →
      ∃ t, exec (.smst qd x y m p) s = .next t ∧
        s.StoredSeq t p s.cur (st.smDone 2) D.bytes (on.flatMap fun l => (List.range (D.rows * D.cols)).map fun e => (z l e, D.slot l (e / D.cols) (e % D.cols)))) ∧
    (s.VecReady [] → shaped A → ∃ st', st.QWrote st' qd lanes A.cols A.rows A.f64 (fun l i j => if l ∈ on then A.slot l j i else old l i j) ∧
      exec (.smtrn qd qa m) s = .next (s.withHere (st'.smDone 0))) ∧
    (s.VecReady [] → st.sew = A.bytes → i.toNat < A.rows → j.toNat < A.cols → shaped A →
      ∃ st', st.Wrote st' n x.toNat st.sew on (fun l => A.slot l i.toNat j.toNat) ∧ exec (.smget qa x m i j) s = .next (s.withHere (st'.smDone 0))) ∧
    (s.VecReady [] → st.sew = D.bytes → i.toNat < D.rows → j.toNat < D.cols → shaped D →
      ∃ st' : Strand, (st'.qreg qd).shape = D.shape ∧ (∀ l < lanes, ∀ a < 6, ∀ b < 6, (st'.qreg qd).slot l a b =
          if l ∈ on ∧ a = i.toNat ∧ b = j.toNat then st.velem n x.toNat st.sew l else D.slot l a b) ∧
        (∀ q, q ≠ qd → st'.qreg q = st.qreg q) ∧ st' = { st with q := st'.q } ∧ exec (.smput qd x m i j) s = .next (s.withHere (st'.smDone 0)))

/-- 11 R342 to R346: the arithmetic of a lane goes to its matrix, its flags are raised with the lane as the element, the exception mask of an `.xm` form holds the lanes that raised one, and a factorization's failures go to its failure mask and, for SMLU, the pivot records to a vector register. 11 R342, R344 to R347, 14 R388: an operand of a wrong shape raises RANGE with its shape word, SMLU and SMSOLVE.lu under SEW 1 or 2 raise ILL, and a profile B pan raises MIGRATE for a factorization or solve. The effect is placed at issue, the model's reading (log 6). -/
def Obligations.SmallMatrixArithmetic : Prop :=
  (∀ (s : State) (qd qa qb : BitVec 2) (x : BitVec 5) (m mf : BitVec 3) (xm acc neg : Bool) (mode : BitVec 2), s.VecReady [] → isShoal s.cur = false →
    let st := s.here
    let lanes := Config.lanes (dieOf s.cur)
    let on := st.active (if xm then 0 else m.toNat) (min st.vl lanes)
    let n := vlenOf s.cur
    let md := st.frm
    let A := st.qreg qa
    let B := st.qreg qb
    let D := st.qreg qd
    let F := A.fmt
    let wrote := fun (r c : Nat) (v : Nat → Nat → Nat → Nat) (fl : Nat → Fl) (st' : Strand) =>
      ∃ w, st.QWrote w qd lanes r c A.f64 (fun l i j => if l ∈ on then v l i j else D.slot l i j) ∧
        st' = (w.raiseElems (on.map fun l => (l, fl l))).exceptions xm m (on.map fun l => (l, fl l))
    let failed := fun (st : Strand) (fails : Nat → Bool) => if mf = 0 then st else st.setMask mf.toNat (BitVec.ofNat 2048 (bitsOf (on.filter fails)))
    let done := fun (st : Strand) => Host.Outcome.next (s.withHere (st.smDone 0))
    A.rows ≤ 6 → A.cols ≤ 6 → B.rows ≤ 6 → B.cols ≤ 6 →
    (A.f64 = B.f64 → A.cols = B.rows → (acc = true → D.shape = word ((if A.f64 then 64 else 0) + B.cols * 8 + A.rows)) →
      let R := fun l => mulMat F md A.rows A.cols B.cols (A.mat l) (B.mat l) fun i j => if acc then D.slot l i j else F.sign true
      ∃ st', wrote A.rows B.cols (fun l i j => ((List.range A.cols).foldl (fun t e => (F.fma md (F.unpack (A.slot l i e)) (F.unpack (B.slot l e j)) (F.unpack t)).1)
          (if acc then D.slot l i j else F.sign true))) (fun l => (R l).fl) st' ∧ exec (.smmul qd qa qb m xm acc) s = done st') ∧
    (A.shape = B.shape → ∃ fl st', (∀ l b, (fl l).testBit b = true ↔ ∃ i < A.rows, ∃ j < A.cols, (F.arith (if neg then 1 else 0) md (A.slot l i j) (B.slot l i j)).2.testBit b = true) ∧
      wrote A.rows A.cols (fun l i j => (F.arith (if neg then 1 else 0) md (A.slot l i j) (B.slot l i j)).1) fl st' ∧ exec (.smadd qd qa qb m xm neg) s = done st') ∧
    (A.rows = A.cols →
      (let R := fun l => cholMat F md A.rows (A.mat l)
       ∃ st', wrote A.rows A.rows (fun l => (R l).1.m.at) (fun l => (R l).1.fl) st' ∧ exec (.smchol qd qa m xm mf) s = done (failed st' fun l => (R l).2)) ∧
      (4 ≤ st.sew → let R := fun l => luMat F md A.rows (A.mat l)
       ∃ v w st', st.Wrote v n x.toNat st.sew on (fun l => (R l).piv) ∧
        v.QWrote w qd lanes A.rows A.rows A.f64 (fun l i j => if l ∈ on then (R l).a.m.at i j else D.slot l i j) ∧
        st' = (w.raiseElems (on.map fun l => (l, (R l).a.fl))).exceptions xm m (on.map fun l => (l, (R l).a.fl)) ∧
        exec (.smlu qd qa x m xm mf) s = done (failed st' fun l => (R l).fail)) ∧
      (A.f64 = B.f64 → B.rows = A.rows → (mode = 1 → 4 ≤ st.sew) →
        let piv := fun l => if mode = 1 then st.velem n x.toNat st.sew l else 0
        (mode = 1 → ∀ l ∈ on, piv l < 8 ^ A.rows ∧ ∀ k < A.rows, piv l / 8 ^ k % 8 < A.rows) →
        let R := fun l => solveMat F md mode.toNat A.rows B.cols (A.mat l) (B.mat l) (piv l)
        ∃ st', wrote A.rows B.cols (fun l => (R l).m.at) (fun l => (R l).fl) st' ∧ exec (.smsolve qd qa qb x m xm mode) s = done st'))) ∧
  (∀ (s : State) (qd qa qb : BitVec 2) (x : BitVec 5) (m mf i j : BitVec 3) (xm acc neg : Bool) (mode : BitVec 2), s.VecReady [] →
    let A := s.here.qreg qa
    let B := s.here.qreg qb
    (A.f64 ≠ B.f64 ∨ A.cols ≠ B.rows → exec (.smmul qd qa qb m xm acc) s = s.traps 0x0B B.shape) ∧
    (A.shape ≠ B.shape → exec (.smadd qd qa qb m xm neg) s = s.traps 0x0B B.shape) ∧
    (s.here.sew = A.bytes → A.rows ≤ i.toNat ∨ A.cols ≤ j.toNat → exec (.smget qa x m i j) s = s.traps 0x0B A.shape ∧ exec (.smput qa x m i j) s = s.traps 0x0B A.shape) ∧
    (s.here.sew ≠ A.bytes → exec (.smget qa x m i j) s = s.traps 0x01 0 ∧ exec (.smput qa x m i j) s = s.traps 0x01 0) ∧
    (isShoal s.cur = false → A.rows ≠ A.cols →
      exec (.smchol qd qa m xm mf) s = s.traps 0x0B A.shape ∧ (4 ≤ s.here.sew → exec (.smlu qd qa x m xm mf) s = s.traps 0x0B A.shape) ∧
      ((mode = 1 → 4 ≤ s.here.sew) → exec (.smsolve qd qa qb x m xm mode) s = s.traps 0x0B A.shape)) ∧
    (isShoal s.cur = false → s.here.sew < 4 → exec (.smlu qd qa x m xm mf) s = s.traps 0x01 0 ∧ exec (.smsolve qd qa qb x m xm 1) s = s.traps 0x01 0) ∧
    (isShoal s.cur = true →
      exec (.smchol qd qa m xm mf) s = s.traps 0x02 (Instr.bits (.smchol qd qa m xm mf)) ∧
      exec (.smlu qd qa x m xm mf) s = s.traps 0x02 (Instr.bits (.smlu qd qa x m xm mf)) ∧
      exec (.smsolve qd qa qb x m xm mode) s = s.traps 0x02 (Instr.bits (.smsolve qd qa qb x m xm mode))))

/-- 11 R344: the recurrences of SMCHOL. With t(i, j) the element a(i, j) less the products l(i, k) l(j, k) for k below j, in ascending order, each rounded: l(j, j) is the root of t(j, j), l(i, j) the quotient of t(i, j) by it below the diagonal and 0 above. A lane fails at its first column whose t(j, j) is a NaN, 0 or negative, and from there on its lower triangle is the canonical NaN. 11 R345: the recurrences of SMLU for a matrix without a zero pivot. With the rows of `a` exchanged as the pivot record says, t(i, j) is the element less the products l(i, k) u(k, j) for k below both, in ascending order, each rounded; u is t on and above the diagonal, l the quotient by the pivot below it, and no row from k on has a larger t(i, k) than the pivot row. The effect is placed at issue, the model's reading (log 6). -/
def Obligations.FactorizationRecurrences : Prop :=
  (∀ (F : Fmt) (md n : Nat) (a : Mat), n ≤ 6 →
    let l := (cholMat F md n a).1.m
    let t := fun i j => ((List.range j).foldl (fun t k => (F.fma md (F.unpack (l.at i k)).neg (F.unpack (l.at j k)) (F.unpack t)).1) (a.at i j))
    let bad := fun j => let v := F.unpack (t j j); v.isNan || v.isZero || v.sgn
    ∀ j < n, (∀ k < j, bad k = false) →
      ((cholMat F md n a).2 = true ↔ ∃ k < n, bad k = true ∧ ∀ k' < k, bad k' = false) ∧
      (bad j = false → l.at j j = (F.sqrt md (F.unpack (t j j))).1 ∧ (∀ i < n, j < i → l.at i j = (F.arith 3 md (t i j) (l.at j j)).1) ∧ ∀ i < j, l.at i j = 0) ∧
      (bad j = true → ∀ k < n, j ≤ k → ∀ i < n, k ≤ i → l.at i k = F.qnan)) ∧
  (∀ (F : Fmt) (md n : Nat) (a : Mat), n ≤ 6 → a.length = 36 → (luMat F md n a).fail = false →
    let r := luMat F md n a
    let m := r.a.m
    let col := fun j => pivotCol n r.piv ((List.range n).map fun i => a.at i j)
    let t := fun i j k => ((List.range k).foldl (fun t k => (F.fma md (F.unpack (m.at i k)).neg (F.unpack (m.at k j)) (F.unpack t)).1) (nth 0 (col j) i))
    (∀ i < n, ∀ j < n, m.at i j = if i ≤ j then t i j i else (F.arith 3 md (t i j j) (m.at j j)).1) ∧
    (∀ k < n, ∀ i < n, k ≤ i → pivKey F (t i k k) ≤ pivKey F (t k k k)) ∧
    (∀ k < n, k ≤ r.piv / 8 ^ k % 8 ∧ r.piv / 8 ^ k % 8 < n))

/-- 12 R354 to R357, 03 R94, R95: RNGINIT sets up or removes a ring, or answers why not; RAWAIT gives the slot that is ready, or waits; RRELS releases it; RNGQ reads the state. A ring that the strand's context does not own raises RANGE. 12 R358, 03 R96: TCSET takes and sets a counter, or gives it up; TCADD adds modulo 2^48; both let armed operations go whose thresholds are passed; TCWAIT reads the counter once its threshold is passed, or at once. The order of the statuses, and which posted stores a release at scope 5 waits for, is the model's choice (logs 26, 41). -/
def Obligations.RingsAndCounters : Prop :=
  (∀ (s : State) (d a b : BitVec 5) (sel : Bool) (dw : List Word),
    let st := s.here
    let id := st.gpr a
    let r := s.ring id.toNat
    let ctx := st.ctx
    let wrote := fun (v : Word) => s.withHere (st.retired d v 4)
    (s.CanCommand [d, a, b] → id.toNat < 2 ^ 15 → (if st.gpr b = 0 then dw = [] else dw.length = 4 ∧ (st.gpr b).toNat % 32 = 0 ∧ s.Words (st.gpr b) dw) →
      let status := if dw ≠ [] ∧ ringBad dw = true then 1 else if r.owner ≠ none ∧ r.owner ≠ some ctx then 2
        else if r.owner ≠ none ∧ s.ringBusy id.toNat = true then 3 else 0
      let t := wrote (word status)
      exec (.rnginit d a b) s = .next (if status ≠ 0 then t else
        (Upd.ring id.toNat (if dw = [] then {} else { owner := some ctx, base := nth 0 dw 0, lsz := fld (nth 0 dw 1) 0 5, nslot := fld (nth 0 dw 1) 8 17, scope := fld (nth 0 dw 1) 25 3, space := bitOf (nth 0 dw 1) 28, psel := fld (nth 0 dw 1) 29 16 })).apply t)) ∧
    (s.CanCommand [d, a] → id.toNat < 2 ^ 15 → r.owner = some ctx →
      let slot := r.base + word (r.rd % r.nslot * 2 ^ r.lsz)
      (ringReady r = true → exec (.rawait d a) s = .next (wrote (word (slot.toNat / 2 * 2 + if r.fault.isSome then 1 else 0)))) ∧
      (ringReady r = false → exec (.rawait d a) s = .next (s.withHere { st with st := .wait, wait := .ring id.toNat })) ∧
      exec (.rngq d a sel) s = .next (wrote (if sel then word ((if r.fault.isSome then 2 ^ 63 else 0) + r.fault.getD 0 % 128 * 2 ^ 56 + r.rsv) else word (r.wr * 2 ^ 32 + r.rd)))) ∧
    (s.CanCommand [a] → id.toNat < 2 ^ 15 → r.owner = some ctx →
      (r.rd ≠ r.wr → (r.scope = 5 → s.releases none) →
        exec (.rrels a) s = .next ((Upd.ring id.toNat { r with rd := (r.rd + 1) % 2 ^ 32 }).apply (s.withHere (st.past 4)))) ∧
      (r.rd = r.wr → exec (.rrels a) s = s.traps 0x0B id)) ∧
    (s.CanCommand [d, a] → 2 ^ 15 ≤ id.toNat ∨ r.owner ≠ some ctx →
      exec (.rawait d a) s = s.traps 0x0B id ∧ exec (.rngq d a sel) s = s.traps 0x0B id ∧ exec (.rrels a) s = s.traps 0x0B id)) ∧
  (∀ (s : State) (d a b : BitVec 5) (sc : BitVec 3) (poll : Bool),
    let st := s.here
    let g := st.gpr a
    let id := g.toNat
    let v := st.gpr b
    let c := s.counter id
    let free := sc.toNat = 5 → s.releases none
    (s.CanCommand [a, b] → id < 2 ^ 13 → c.owner = none ∨ c.owner = some st.ctx → fld v 48 15 = 0 → free →
      let c' := { c with owner := some st.ctx, c := fld v 0 48, fault := none }
      (bitOf v 63 = false → c'.plain → exec (.tcset a b sc) s = .next ((s.counts id c').withHere (st.past 4))) ∧
      (bitOf v 63 = true → c.armed = [] → exec (.tcset a b sc) s = .next ((Upd.counter id {}).apply (s.withHere (st.past 4)))) ∧
      (bitOf v 63 = true → c.armed ≠ [] → exec (.tcset a b sc) s = s.traps 0x0B v)) ∧
    (s.CanCommand [a, b] → id < 2 ^ 13 → c.owner = some st.ctx → v.toNat < 2 ^ 32 → free →
      let c' := { c with c := (c.c + v.toNat) % 2 ^ 48 }
      c'.plain → exec (.tcadd a b sc) s = .next ((s.counts id c').withHere (st.past 4))) ∧
    (s.CanCommand [d, a, b] → id < 2 ^ 13 → c.owner = some st.ctx → v.toNat < 2 ^ 48 →
      let passed := (c.c + 2 ^ 48 - v.toNat) % 2 ^ 48 < 2 ^ 47
      (poll = true ∨ passed → exec (.tcwait d a b sc poll) s =
        .next (s.withHere (st.retired d (word ((if c.fault.isSome then 2 ^ 63 else 0) + c.fault.getD 0 % 128 * 2 ^ 56 + c.c)) 4))) ∧
      (poll = false ∧ ¬ passed → exec (.tcwait d a b sc poll) s = .next (s.withHere { st with st := .wait, wait := .counter id v.toNat }))) ∧
    (s.CanCommand [d, a, b] → 2 ^ 13 ≤ id ∨ c.owner ≠ some st.ctx → exec (.tcadd a b sc) s = s.traps 0x0B g ∧ exec (.tcwait d a b sc poll) s = s.traps 0x0B g))

/-- 12 R359, R360, R365: LAUNCH and SPAWN read the record and answer 1 where it is malformed or of the wrong kind, 2 where its queue is not usable, and 3 where the queue is full (LAUNCH); else the record enters its queue. SPAWN first counts the child into its join record, or answers 1 where the record is not open; with its queue full the child is held, and the strand waits at the instruction until it has been enqueued. The tval of a launch that fails an access is the model's reading (log 36). -/
def Obligations.LaunchCommands : Prop :=
  ∀ (s : State) (d a : BitVec 5) (dw : List Word), s.CanCommand [d, a] → (s.here.gpr a).toNat % 8 = 0 →
    (5 ≤ dw.length ∧ dw.length = if recNargs dw ≤ 14 then 5 + recNargs dw else 5) → s.Words (s.here.gpr a) dw →
    let st := s.here
    let q := recQueue dw
    let answers := fun (i : Instr) (v : Nat) => exec i s = .next (s.withHere (st.retired d (word v) 4))
    let bad := s.recMalformed st.ctx dw = true
    let usable := (s.queue q).ctx = st.ctx ∧ (s.queue q).prio ≠ 7
    let full := (s.queue q).cap ≤ (s.queue q).recs.length
    let done := st.retired d 0 4
    (bad ∨ recCkind dw = 3 → answers (.launch d a) 1) ∧
    (bad ∨ recCkind dw ≠ 3 → answers (.spawn d a) 1) ∧
    (¬ bad → ¬ usable → (recCkind dw ≠ 3 → answers (.launch d a) 2) ∧ (recCkind dw = 3 → answers (.spawn d a) 2)) ∧
    (¬ bad → usable → recCkind dw ≠ 3 →
      (full → answers (.launch d a) 3) ∧
      (¬ full → (s.queue q).shadow = none → ∃ t, exec (.launch d a) s = .next t ∧ s.Received t done q dw)) ∧
    (∀ pa, ¬ bad → usable → recCkind dw = 3 → s.Reaches (nth 0 dw 3) 16 accRmw pa s → s.tasks = [] → (∀ i < 4, s.home (pa + i) < memLimit) →
      let n := s.physRead pa 8
      let stop := n / 2 ^ 33 ≠ 0 ∨ s.physRead (pa + 8) 8 ≠ 0 ∨ n % 2 ^ 32 = 0 ∨ n % 2 ^ 32 = 2 ^ 32 - 1
      (stop → answers (.spawn d a) 1) ∧
      (¬ stop → ∃ t u, exec (.spawn d a) s = .next t ∧ s.StoredSeq u false s.cur st 4 [(pa, n % 2 ^ 32 + 1)] ∧
        (¬ full → (∀ x ∈ s.sched.held, x.1 ≠ q) → (s.queue q).shadow = none → u.Received t done q dw) ∧
        (full ∨ (∃ x ∈ s.sched.held, x.1 = q) → t = { u.withHere { st with spawn := some (.room s.nextId) } with
          nextId := s.nextId + 1, sched := { s.sched with held := s.sched.held ++ [(q, dw, some s.nextId)] } }))) ∧
    (∀ id, ∀ r : State, r.here.canIssue [d, a] = true → isMgmt r.cur = false → r.here.looping = false → r.here.spawn = some (.room id) →
      ((∃ x ∈ r.sched.held, x.2.2 = some id) → exec (.spawn d a) r = .next r) ∧
      ((∀ x ∈ r.sched.held, x.2.2 ≠ some id) → exec (.spawn d a) r = .next (r.withHere (({ r.here with spawn := none } : Strand).retired d 0 4))))

/-- 05 R151 to R153, 12 R366: ownership tokens. OWNACQ answers 2 for a page without TM, 1 where the device has the token and 3 with the table full; else it asks for a transfer and waits, and answers 0 once it has been made. OWNREL answers likewise, and at the home there is nothing to move. 05 R151 to R153: a token moves once no access of its region is in flight at the device that gives it up: this device then owns it, or no longer does, and the home records the owner and gives up the cached lines of the region. What the token table counts, and which posted stores OWNREL waits for, is the model's reading (logs 18, 41). -/
def Obligations.OwnershipAndTokens : Prop :=
  (∀ (s : State) (d a : BitVec 5) (t : TlbEnt), s.CanCommand [d, a] → s.probes s.cur (s.here.gpr a) accLoad = (.ok t, s) →
    let st := s.here
    let r := s.regionOf t (st.gpr a).toNat
    let managed := lfTM t.leaf = true ∧ lfKind t.leaf < 2
    let me_ := s.harbour.devid
    let answers := fun (i : Instr) (v : Nat) => exec i s = .next (s.withHere (st.retired d (word v) 4))
    let asks := fun (i : Instr) (q : TokenReq) => exec i s = .next { s.withHere { st with st := .wait, wait := .token q } with
      fabric := { s.fabric with moving := if q ∈ s.fabric.moving then s.fabric.moving else s.fabric.moving ++ [q] } }
    (¬ managed → answers (.ownacq d a) 2 ∧ answers (.ownrel d a) 2) ∧
    (managed →
      (st.wait = .token ⟨r.1, r.2, me_⟩ → exec (.ownacq d a) s = .next (s.withHere (({ st with wait := .none } : Strand).retired d 0 4))) ∧
      (st.wait = .token ⟨r.1, r.2, r.1⟩ → exec (.ownrel d a) s = .next (s.withHere (({ st with wait := .none } : Strand).retired d 0 4))) ∧
      ((∀ q, st.wait ≠ .token q) →
        (s.ownsToken r.1 r.2 = true → answers (.ownacq d a) 1 ∧ (s.releases none → if r.1 = me_ then answers (.ownrel d a) 0 else asks (.ownrel d a) ⟨r.1, r.2, r.1⟩)) ∧
        (s.ownsToken r.1 r.2 = false → answers (.ownrel d a) 1 ∧
          if 4096 ≤ s.fabric.owned.length + s.fabric.back.length then answers (.ownacq d a) 3 else asks (.ownacq d a) ⟨r.1, r.2, me_⟩)))) ∧
  (∀ (s : State) (t : TokenReq),
    let here := s.harbour.devid
    let f := s.fabric
    let f' := { f with moving := f.moving.filter fun x => decide (x ≠ t) }
    let owns := if t.home = here then f.away.get 0 t.region = 0 else (t.home, t.region) ∈ f.owned
    let busy := s.regionInFlight t.home t.region = true
    let rest := f.owned.filter fun x => decide (x ≠ (t.home, t.region))
    let becomes := fun (g : Fabric) => exec (.tokenTransferComplete t) s = .next { s with fabric := g }
    let leaves := ∃ u, exec (.tokenTransferComplete t) s = .next u ∧ u.strands = s.strands ∧ u.mem = s.mem ∧ u.panMem = s.panMem ∧
      u.fabric = { f' with away := Tbl.put 0 t.region (t.toDev + 1) f.away, back := NSet.del t.region f.back } ∧
      ∀ y l, (u.bay y).line l = if l / 16384 = t.region then .i else (s.bay y).line l
    (t ∈ f.moving → t.toDev = here → t.home ≠ here → becomes { f' with owned := rest ++ [(t.home, t.region)] }) ∧
    (t ∈ f.moving → t.toDev = here → t.home = here → becomes { f' with away := Tbl.put 0 t.region 0 f.away, back := NSet.ins t.region f.back }) ∧
    (owns → t.toDev ≠ here → ¬ busy → t.home ≠ here → becomes { f' with owned := rest }) ∧
    (owns → t.toDev ≠ here → ¬ busy → t.home = here → leaves) ∧
    (owns → t.toDev ≠ here → busy → exec (.tokenTransferComplete t) s = .next s) ∧
    (¬ owns → t.home = here → t.toDev ≠ here → leaves))

/-- 12 R351 to R353, 03 R80: CPY puts its command at the end of its channel's queue, or waits for room; a descriptor that is misaligned makes a command that has failed; CPY with a trigger arms it on a counter, or hands it over where the threshold has been passed. The mode of a copy's accesses and its tval are the model's reading (logs 15, 36). -/
def Obligations.CopyCommands : Prop :=
  ∀ (s : State) (a g : BitVec 5) (c : BitVec 3) (dw : List Word),
    let st := s.here
    let va := st.gpr a
    let gt := st.gpr g
    let ch := 8 * panOf s.cur + c.toNat
    let read := if va.toNat % 128 = 0 then dw.length = 16 ∧ s.Words va dw ∧ (isShoal s.cur = true → fld (nth 0 dw 0) 5 2 ≠ 2) else dw = []
    let cmd := fun (src : CmdSrc) => ({ id := s.nextId, ctx := st.ctx, src := src, descVA := va, dw := if dw = [] then List.replicate 16 0 else dw, bad := if dw = [] then some 2 else none, running := false, chunk := 0, count := 0, slot := none, cancel := false, block := st.block, task := none, sup := st.sup, spos := 0, replies := [] } : Cmd)
    let given := { s with nextId := s.nextId + 1 }
    (s.CanCommand [a] → read →
      ((s.chan ch).q.length < 8 → exec (.cpy a c) s = .next ((Upd.chan ch { s.chan ch with q := (s.chan ch).q ++ [cmd (.strand s.cur)] }).apply (given.withHere { st with
        copies := st.copies ++ [⟨s.nextId, va, if fld (nth 0 dw 0) 11 2 = 0 then .waiting else .unchecked⟩], pc := st.pc + 8 }))) ∧
      (8 ≤ (s.chan ch).q.length → exec (.cpy a c) s = .next (s.withHere { st with st := .wait, wait := .chan ch }))) ∧
    (s.CanCommand [a, g] → read → fld gt 61 3 = 0 →
      let id := fld gt 0 13
      let n := fld gt 13 48
      let k := s.counter id
      (k.owner = some st.ctx →
        (satisfied k.c n = true → exec (.cpyTrg a c g) s =
          .next { given.withHere (st.past 8) with sched := { s.sched with fired := s.sched.fired ++ [(ch, cmd .armed)] } }) ∧
        (satisfied k.c n = false → s.armedOn (id / 1024) < 2048 → exec (.cpyTrg a c g) s =
          .next ((Upd.counter id { k with armed := k.armed ++ [⟨n, s.cur, st.block, .copy ch (cmd .armed)⟩] }).apply (given.withHere (st.past 8))))) ∧
      (k.owner ≠ some st.ctx → exec (.cpyTrg a c g) s = s.traps 0x0B gt))

/-- 12 R369 to R371, 03 R96: COLL makes the collective of its descriptor pending on its stream where its checks pass, waits behind a pending one, and reports a misaligned descriptor in the error log; COLL with a trigger arms it. 12 R367, R368, R373: ROUTESET binds a router entry to a stream or removes one, or answers why not; COLLAB answers 0 for a sequence that is not current, and otherwise aborts the instance, after which the stream expects the next sequence. The order of the statuses, the causes of COLLAB and the posted stores that a publication at scope 5 waits for are the model's choice (logs 26, 37, 41). -/
def Obligations.CollectiveCommands : Prop :=
  (∀ (s : State) (a g : BitVec 5) (dw : List Word),
    let st := s.here
    let va := st.gpr a
    let gt := st.gpr g
    let vs := fld (nth 0 dw 0) 0 12
    let c : Coll := ⟨s.nextId, st.ctx, s.cur, dw, none, st.sup, none, none⟩
    let given := { s with nextId := s.nextId + 1 }
    let logged := fun v status => s.harbour.logPending ++ [⟨s.gtime, srcOf s.cur, 4, v, word status⟩]
    (s.CanCommand [a] → va.toNat % 64 = 0 → dw.length = 8 → s.Words va dw →
      ((s.stream vs).pend ≠ none → exec (.coll a) s = .next (s.withHere { st with st := .wait, wait := .coll vs })) ∧
      ((s.stream vs).pend = none → given.checksColl c = (none, given) →
        exec (.coll a) s = .next ((Upd.stream vs { s.stream vs with pend := some c }).apply (given.withHere (st.past 8)))) ∧
      (∀ n, n ≠ 0 → (s.stream vs).pend = none → given.checksColl c = (some n, given) → fld (nth 0 dw 0) 21 2 = 0 → nth 0 dw 2 = 0 →
        s.publishWaits s.nextId (fld (nth 0 dw 0) 18 3) = false →
        exec (.coll a) s = .next { given.withHere (st.past 8) with harbour := { s.harbour with logPending := logged (word vs) n } })) ∧
    (s.CanCommand [a] → va.toNat % 64 ≠ 0 →
      exec (.coll a) s = .next { s.withHere (st.past 8) with harbour := { s.harbour with logPending := logged va 2 } }) ∧
    (s.CanCommand [a, g] → va.toNat % 64 = 0 → dw.length = 8 → s.Words va dw → fld gt 61 3 = 0 →
      let id := fld gt 0 13
      let n := fld gt 13 48
      let k := s.counter id
      k.owner = some st.ctx → satisfied k.c n = false → s.armedOn (id / 1024) < 2048 →
        exec (.collTrg a g) s = .next ((Upd.counter id { k with armed := k.armed ++ [⟨n, s.cur, st.block, .coll c⟩] }).apply (given.withHere (st.past 8))))) ∧
  (∀ (s : State) (d a b : BitVec 5) (dw : List Word), s.CanCommand [d, a, b] →
    let st := s.here
    let id := st.gpr a
    let vs := id.toNat
    let v := s.stream vs
    let q := st.gpr b
    let answers := fun (i : Instr) (n : Nat) => exec i s = .next (s.withHere (st.retired d (word n) 4))
    (vs < 2 ^ 12 → (if q = 0 then dw = [] else dw.length = 16 ∧ q.toNat % 64 = 0 ∧ s.Words q dw) →
      let bad := dw ≠ [] ∧ s.entryBad st.ctx vs dw = true
      let other := v.owner ≠ none ∧ v.owner ≠ some st.ctx
      (bad → answers (.routeset d a b) 1) ∧
      (¬ bad → v.busy = true → answers (.routeset d a b) 2) ∧
      (¬ bad → v.busy = false → other → answers (.routeset d a b) 3) ∧
      (¬ bad → v.busy = false → ¬ other → exec (.routeset d a b) s = .next ((Upd.stream vs
        (if dw = [] then { aborts := v.aborts } else { owner := some st.ctx, dw := dw, seq := fld (nth 0 dw 1) 0 32, aborts := v.aborts })).apply (s.withHere (st.retired d 0 4))))) ∧
    (vs < 2 ^ 12 → v.owner = some st.ctx → q.toNat < 2 ^ 32 →
      (v.seq ≠ q.toNat → answers (.collab d a b) 0) ∧
      (v.seq = q.toNat → v.dw ≠ [] → v.pend = none → v.waitq = [] → v.remembered = none → ∃ t, exec (.collab d a b) s = .next t ∧ t.here = st.retired d 1 4 ∧
        (t.stream vs).seq = (v.seq + 1) % 2 ^ 32 ∧ (t.stream vs).set = 0 ∧ (t.stream vs).pend = none ∧ t.mem = s.mem ∧ t.panMem = s.panMem)) ∧
    (vs < 2 ^ 12 → v.owner ≠ some st.ctx → exec (.collab d a b) s = s.traps 0x0B id))

/-- 11 R311, R316: RGALLOC takes the lowest free region number of the pan for a rectangle of quads inside the 4 × 4 array that meets no other, at the given origin or the first in quad-row-major order, and answers −1 where there is none; RGFREE frees a slot, or the region, that is not running. The clause for a strand whose context has no residency on the pan is the model's choice (log 11). -/
def Obligations.RegionAllocation : Prop :=
  ∀ (s : State) (d a : BitVec 5) (qr qc row col : BitVec 2) (at_ whole : Bool),
    let st := s.here
    let pan := panOf s.cur
    let meets := fun (r c : Nat) (y : Region) => r < y.row + y.qr ∧ y.row < r + (qr.toNat + 1) ∧ c < y.col + y.qc ∧ y.col < c + (qc.toNat + 1)
    let fits := fun (r c : Nat) => r + qr.toNat + 1 ≤ 4 ∧ c + qc.toNat + 1 ≤ 4 ∧ ∀ n < 16, ∀ y, s.region (16 * pan + n) = some y → ¬ meets r c y
    let i := Instr.rgalloc d qr qc at_ row col
    let given := fun (n res r c : Nat) => exec i s = .next ((Upd.region (16 * pan + n) (some ⟨res, r, c, qr.toNat + 1, qc.toNat + 1, 3, []⟩)).apply (s.withHere (st.retired d (word n) 8)))
    let none_ := exec i s = .next (s.withHere (st.retired d (word (2 ^ 64 - 1)) 8))
    (s.CanCommand [d] →
      (∀ n res, n < 16 → s.region (16 * pan + n) = none → (∀ m < n, s.region (16 * pan + m) ≠ none) → s.resOf pan st.ctx = some res →
        (at_ = true → fits row.toNat col.toNat → given n res row.toNat col.toNat) ∧
        (at_ = false → ∀ z < 16, fits (z / 4) (z % 4) → (∀ y < z, ¬ fits (y / 4) (y % 4)) → given n res (z / 4) (z % 4))) ∧
      ((∀ n < 16, s.region (16 * pan + n) ≠ none) ∨ s.resOf pan st.ctx = none ∨ (at_ = true ∧ ¬ fits row.toNat col.toNat) ∨ (at_ = false ∧ ∀ z < 16, ¬ fits (z / 4) (z % 4)) → none_)) ∧
    (s.CanCommand [a] → ∀ r i x, s.Names (st.gpr a) r i x →
      let done := s.withHere { st with wait := .none, pc := st.pc + 8 }
      (whole = false → s.slotHeld r i = false → (x.slot i).st ≠ .running → (x.slot i).binds = [] → exec (.rgfree a false) s = .next (done.putSlot r i {})) ∧
      (whole = true → (∀ j < 4, s.slotHeld r j = false ∧ (x.slot j).st ≠ .running ∧ (x.slot j).binds = []) →
        exec (.rgfree a true) s = .next ((Upd.region r none).apply done)))

/-- 11 R317, R324, R325: RGLOAD reads an image into a slot that is FREE or LOADED; RGIMP reads a state image into a slot that is FREE; each answers 1 for a malformed image, 2 for another shape, 3 without room in the configuration cache and 4 for the slot's state. RGEXP stores the state image of a slot that is LOADED or STOPPED and answers its length, else 0. The layout of a record in an image, and that RGEXP answers 0 for a FREE slot, is the model's reading (logs 13, 43). -/
def Obligations.RegionImages : Prop :=
  ∀ (s : State) (d a b : BitVec 5) (r i : Nat) (x : Region) (dw : List Word), s.CanCommand [d, a, b] → s.Names (s.here.gpr a) r i x → s.slotHeld r i = false →
    (s.here.gpr b).toNat % 8 = 0 → isShoal s.cur = false →
    let st := s.here
    let va := st.gpr b
    let y := x.slot i
    let answers := fun (i : Instr) (n : Nat) => exec i s = .next (s.withHere (st.retired d (word n) 8))
    let shaped := fun (c : List Word) => fld (nth 0 c 1) 0 2 + 1 = x.qr ∧ fld (nth 0 c 1) 2 2 + 1 = x.qc
    let size := fun (c : List Word) => fld (nth 0 c 2) 0 32
    let room := fun (c : List Word) => s.cacheUsed (r / 16) r i + (size c + 255) / 256 * 256 ≤ 65536
    let set := fun (z : Slot) => (s.withHere (st.retired d 0 8)).putSlot r i z
    (y.st ≠ .free ∧ y.st ≠ .loaded → answers (.rgload d a b) 4) ∧
    (y.st = .free ∨ y.st = .loaded →
      (dw.length = 4 → s.Words va dw → hdrOk dw = false → answers (.rgload d a b) 1) ∧
      (hdrOk dw = true → s.Words va dw →
        (dw.length = 4 → ¬ shaped dw → answers (.rgload d a b) 2) ∧
        (shaped dw → dw.length = size dw / 8 →
          (bodyOk dw = false → answers (.rgload d a b) 1) ∧
          (bodyOk dw = true → ¬ room dw → answers (.rgload d a b) 3) ∧
          (bodyOk dw = true → room dw → y.binds = [] → exec (.rgload d a b) s = .next { set { st := .loaded, img := ⟨dw⟩, serial := s.nextId } with nextId := s.nextId + 1 })))) ∧
    (y.st ≠ .free → answers (.rgimp d a b) 4) ∧
    (y.st = .free → s.Words va dw →
      let h := dw.take 8
      let c := (dw.drop 8).take (size (dw.drop 8) / 8)
      let gr := dw.drop (8 + size (dw.drop 8) / 8)
      let well := hdrOk (dw.drop 8) = true ∧ stateHdrOk h (dw.drop 8) = true
      (dw.length = 12 → ¬ well → answers (.rgimp d a b) 1) ∧
      (dw.length = 12 → well → ¬ shaped (dw.drop 8) → answers (.rgimp d a b) 2) ∧
      (well → shaped (dw.drop 8) → dw.length = fld (nth 0 dw 1) 0 32 / 8 →
        (stateBad h c gr = true → answers (.rgimp d a b) 1) ∧
        (stateBad h c gr = false → ¬ room c → answers (.rgimp d a b) 3) ∧
        (stateBad h c gr = false → room c → exec (.rgimp d a b) s = .next { set { slotOf h c gr with serial := s.nextId } with nextId := s.nextId + 1 }))) ∧
    (y.st ≠ .loaded ∧ y.st ≠ .stopped ∨ y.preempted = true → answers (.rgexp d a b) 0) ∧
    (∀ pa : Nat → Nat, y.st = .loaded ∨ y.st = .stopped → y.preempted = false → st.vlda = [] →
      let ws := slotImage y
      (∀ j < ws.length, s.Meets false (va + word (8 * j)) 8 accStore (pa j) ∧ s.Storable false (pa j) 8) →
      ∃ t, exec (.rgexp d a b) s = .next t ∧
        s.StoredSeq t false s.cur (st.retired d (word (8 * ws.length)) 8) 8 ((List.range ws.length).map fun j => (pa j, (nth 0 ws j).toNat)))

/-- 11 R318 to R322, R315: RGRUN starts or resumes a slot, and raises RANGE for one in another state or with an extent above the clamp; RGWAIT and RGSTOP wait until it has left RUNNING; RGSTAT reads its status word, after which a FAULTED slot is LOADED; SBIND adds a binding; RGSETC sets a register of one grain or all. 11 R311: a handle of another context's region, or of none, raises RANGE with the handle. -/
def Obligations.RegionRuns : Prop :=
  (∀ (s : State) (d a b : BitVec 5) (sc n : BitVec 3) (all : Bool) (gi : BitVec 8) (r i : Nat) (x : Region), s.CanCommand [d, a, b] → s.Names (s.here.gpr a) r i x →
    let st := s.here
    let hv := st.gpr a
    let v := st.gpr b
    let y := x.slot i
    let free := s.slotHeld r i = false
    let done := s.withHere (st.past 8)
    let ended := s.withHere { st with wait := .none, pc := st.pc + 8 }
    let told := fun (w : Word) (t : State) => t.withHere (st.retired d w 8)
    (free → (y.st ≠ .loaded ∧ y.st ≠ .stopped ∨ y.tooLong (fld (s.pan (r / 16)).rgclamp 0 21) = true → exec (.rgrun a) s = s.traps 0x0B hv) ∧
      (y.tooLong (fld (s.pan (r / 16)).rgclamp 0 21) = false →
        (y.st = .stopped → exec (.rgrun a) s = .next (done.putSlot r i { y with st := .running, stopReq := false, preempted := false })) ∧
        (y.st = .loaded → ∃ z, exec (.rgrun a) s = .next (done.putSlot r i z) ∧ z.st = .running ∧ z.step = 0 ∧ z.img = y.img ∧ z.idx = [0, 0, 0, 0, 0, 0] ∧ z.fired = [] ∧
          z.flags = y.flags ∧ z.binds = y.binds ∧ ∀ g, (z.grains.get {} g).c = (y.grains.get {} g).c ∧ (z.grains.get {} g).q = [] ∧ (z.grains.get {} g).inner = [] ∧ (z.grains.get {} g).out = []))) ∧
    ((∀ w, st.wait = .slotDone w → exec (.rgwait d a sc) s = .next (s.withHere (({ st with wait := .none } : Strand).retired d w 8)) ∧ exec (.rgstop a) s = .next ended) ∧
     ((∀ w, st.wait ≠ .slotDone w) →
      (y.st = .running ∨ y.preempted = true → exec (.rgwait d a sc) s = .next (s.withHere { st with st := .wait, wait := .slot r i })) ∧
      (y.st ≠ .running → y.preempted = false → exec (.rgwait d a sc) s = .next (told y.word s) ∧ (free → exec (.rgstop a) s = .next ended)) ∧
      (free → y.st = .running → y.preempted = false → y.atBoundary = false → exec (.rgstop a) s = .next ((s.withHere { st with wait := .slot r i }).putSlot r i { y with stopReq := true, preempted := false })) ∧
      (free → y.st = .running → y.preempted = false → y.atBoundary = true → (∀ k, (s.strand k).wait ≠ .slot r i) →
        exec (.rgstop a) s = .next (ended.putSlot r i { y with st := .stopped, last := 4, stopReq := false })))) ∧
    (y.st ≠ .faulted → exec (.rgstat d a) s = .next (told y.word s)) ∧
    (y.st = .faulted → exec (.rgstat d a) s = .next ((told y.word s).putSlot r i { y with st := .loaded })) ∧
    (free → y.st = .loaded ∨ y.st = .stopped →
      (let g := fld v 13 8
       let out := bitOf v 12
       let ring := r / 16 / 128 * 4096 + fld v 0 12
       let good := fld v 21 43 = 0 ∧ g < y.numGrains ∧ s.ownsRing (s.regionCtx r) ring = true ∧ 4 ≤ (s.ring ring).lsz ∧ (∀ e ∈ y.binds, ¬ (e.grain = g ∧ e.out = out)) ∧ y.binds.length < 8
       (good → exec (.sbind a b) s = .next (done.putSlot r i { y with binds := y.binds ++ [⟨g, out, ring, none, 0, [], []⟩] })) ∧
       (¬ good → exec (.sbind a b) s = s.traps 0x0B v)) ∧
      (all = true ∨ gi.toNat < y.numGrains → ∃ z, exec (.rgsetc a b n all gi) s = .next (done.putSlot r i z) ∧ z = { y with grains := z.grains } ∧
        ∀ j, z.grains.get {} j = if (all = true ∧ j < y.numGrains) ∨ (all = false ∧ j = gi.toNat) then
          { y.grains.get {} j with c := Tbl.put 0 n.toNat v (y.grains.get {} j).c } else y.grains.get {} j) ∧
      (all = false → y.numGrains ≤ gi.toNat → exec (.rgsetc a b n all gi) s = s.traps 0x0B hv))) ∧
  (∀ (s : State) (d a b : BitVec 5) (sc n : BitVec 3) (all whole : Bool) (gi : BitVec 8), s.CanCommand [d, a, b] → (∀ w, s.here.wait ≠ .slotDone w) →
    let h := s.here.gpr a
    let r := 16 * panOf s.cur + h.toNat % 16
    64 ≤ h.toNat ∨ s.region r = none ∨ (∀ x, s.region r = some x → s.resOf (panOf s.cur) s.here.ctx ≠ some x.res) →
      ∀ i ∈ [Instr.rgfree a whole, .rgload d a b, .rgrun a, .rgwait d a sc, .rgstop a, .rgstat d a, .rgexp d a b, .rgimp d a b, .sbind a b, .rgsetc a b n all gi],
        exec i s = s.traps 0x0B h)

/-- 11 R327 to R335, 07 R199 to R202: what the data firings of the arithmetic frops emit and keep, by payloads x and y of the inputs A and B. Results of integer types wrap to the type and are extended by it; float results round to nearest even. 07 R206, 11 R333: SMAC takes its metadata tokens from A first, whose positions must rise and stay below 48; then each firing takes a dense element from B, and at a kept position an element from A, whose products an integer accumulator takes at once. The form of a record, the corners of KEEP and SMAC, the index that a firing on a marker consumes, and the bound tag of an input that has none are the model's reading (logs 13, 25, 42, 43). -/
def Obligations.GrainArithmetic : Prop :=
  (∀ (s : State) (gr : GrainRef) (w : FropWord) (x : Slot) (g : Grain),
    let t := w.dtype.toNat
    let W := tyW t
    let F := fmtOf t
    let fn := modF w 0 4
    let out := fun (v : Word) => (w.outs.toNat, (⟨0, v⟩ : Token))
    let second := fun (v : Word) => (if modF w 8 3 = 0 then w.outs.toNat else 2 ^ (modF w 8 3 - 1), (⟨0, v⟩ : Token))
    let d := w.dreg.toNat
    let kept := fun (v : Word) => if w.md.getLsbD 15 then g.setReg d v else g
    let A := w.ina.toNat
    let B := w.inb.toNat
    let gives := fun (i : Instr) (op : BitVec 6) (sels : List Nat) (v : Word → Word → Word × Fl) =>
      s.DataFires i gr op w x g sels fun l => (kept (v (nth 0 l 0) (nth 0 l 1)).1, [out (v (nth 0 l 0) (nth 0 l 1)).1], (v (nth 0 l 0) (nth 0 l 1)).2)
    let pair := fun (i : Instr) (op : BitVec 6) (a b : Word → Word → Word) (fl : Word → Word → Fl) =>
      s.DataFires i gr op w x g [A, B] fun l => let p := nth 0 l 0; let q := nth 0 l 1; (kept (a p q), [out (a p q), second (b p q)], fl p q)
    let int := fun (v : Word) => intOf (tySigned t) W v.toNat
    let low := fun (v : Word) => v.toNat % 2 ^ W
    let as_ := fun (i : Int) => extBy t (lowBits W i)
    let clamp := fun (i : Int) => (as_ (max (minInt (tySigned t) W) (min (maxInt (tySigned t) W) i)), if i < minInt (tySigned t) W ∨ maxInt (tySigned t) W < i then flSAT else 0)
    let m := (g.reg 7).toNat
    let sound := m % 2 = 1 ∧ 2 ^ 16 < m ∧ m < if Config.shoal (gr.region / 2048) then 2 ^ 31 else 2 ^ 62
    let nv := fun (v : Word) => if v.toNat < m then 0 else flNV
    (t < 8 → gives (.eop gr w) 0x06 (if 11 ≤ fn ∧ fn ≤ 13 then [A] else [A, B]) fun p q => match fn with
      | 0 => (as_ (int p + int q), 0)
      | 1 => (as_ (int p - int q), 0)
      | 2 => (as_ (int p * int q), 0)
      | 3 => (as_ (min (int p) (int q)), 0)
      | 4 => (as_ (max (int p) (int q)), 0)
      | 5 => (extBy t (low p &&& low q), 0)
      | 6 => (extBy t (low p ||| low q), 0)
      | 7 => (extBy t (low p ^^^ low q), 0)
      | 8 => (extBy t (low p * 2 ^ (low q % W)), 0)
      | 9 => (extBy t (low p / 2 ^ (low q % W)), 0)
      | 10 => (as_ (sext (low p) W / (2 ^ (low q % W) : Nat)), 0)
      | 11 => (as_ (int p).natAbs, 0)
      | 12 => (as_ (-int p), 0)
      | 13 => (as_ (int p), 0)
      | 14 => clamp (int p + int q)
      | _ => clamp (int p - int q)) ∧
    (8 ≤ t → 11 ≤ fn → fn ≤ 13 → gives (.eop gr w) 0x06 [A] fun p _ => (if fn = 13 then p else word (signOp t fn p.toNat), 0)) ∧
    (8 ≤ t → t < 14 → fn < 5 → gives (.eop gr w) 0x06 [A, B] (fun p q =>
      let r := if fn < 3 then F.arith fn 0 p.toNat q.toNat else F.minmax (decide (fn = 4)) p.toNat q.toNat
      (word r.1, r.2))) ∧
    (let c := modF w 0 3
     let holds := fun p q => condVal t c p q
     (t < 8 → ∀ p q, (holds p q).2 = 0 ∧ ((holds p q).1 = true ↔ match c with
        | 0 => srcI t p = srcI t q
        | 1 => srcI t p ≠ srcI t q
        | 2 => srcI t p < srcI t q
        | 3 => srcI t p ≤ srcI t q
        | 4 => srcI t q < srcI t p
        | _ => srcI t q ≤ srcI t p)) ∧
     gives (.cmps gr w) 0x0D [A, B] (fun p q => (if w.md.getLsbD 3 then (if (holds p q).1 then p else q) else if (holds p q).1 then 1 else 0, (holds p q).2))) ∧
    (let u := modF w 0 4
     (t < 8 → u < 8 → gives (.cvt gr w) 0x0B [A] (fun p _ =>
       let i := fxShift (srcI t p) (modF w 10 5) (modF w 8 2)
       let sat := w.md.getLsbD 4 = true ∧ (i < minInt (tySigned u) (tyW u) ∨ maxInt (tySigned u) (tyW u) < i)
       (extBy u (lowBits (tyW u) (if sat then max (minInt (tySigned u) (tyW u)) (min (maxInt (tySigned u) (tyW u)) i) else i)), if sat then flSAT else 0))) ∧
     (8 ≤ t ∨ 8 ≤ u → gives (.cvt gr w) 0x0B [A] (fun p _ =>
       let r := convert t u (w.md.getLsbD 4 && decide (u = 0xC ∨ u = 0xD)) (modF w 5 3) (p.toNat % 2 ^ (8 * tyBytes t))
       (extBy u r.1, r.2)))) ∧
    (t = 9 ∨ t = 0xA → gives (.cmul gr w) 0x03 [A, B] (fun p q =>
      let n := if t = 9 then 32 else 16
      let c := fun (v : Word) (i : Nat) => F.unpack (fld v (n * i) n)
      let im := if w.md.getLsbD 0 then (c q 1).neg else c q 1
      let re := exactSum F [fvMul (c p 0) (c q 0), ((fvMul (c p 1) im).1.neg, (fvMul (c p 1) im).2)]
      let jm := exactSum F [fvMul (c p 0) im, fvMul (c p 1) (c q 0)]
      (word (re.1 + jm.1 * 2 ^ n), flOr re.2 jm.2))) ∧
    (t = 0xE → pair (.hadb gr w) 0x02 (fun p q => p + q) (fun p q => p - q) (fun _ _ => 0) ∧
      let k := fun (i : Nat) => sext (fld (g.reg (modF w 0 3)) (16 * i) 16) 16
      pair (.bfly gr w) 0x01 (fun p q => wordI (k 0 * p.toInt + k 1 * q.toInt)) (fun p q => wordI (k 2 * p.toInt + k 3 * q.toInt)) (fun _ _ => 0)) ∧
    (t = 0xF → sound →
      let c := (fld (g.reg (modF w 0 3)) 0 62 : Nat)
      pair (.hadb gr w) 0x02 (fun p q => word ((p.toNat + q.toNat) % m)) (fun p q => word ((p.toNat % m + m - q.toNat % m) % m)) (fun p q => flOr (nv p) (nv q)) ∧
      pair (.bfly gr w) 0x01 (fun p q => word ((p.toNat + c * q.toNat) % m)) (fun p q => word ((p.toNat % m + m - c * q.toNat % m) % m)) (fun p q => flOr (nv p) (flOr (nv q) (nv (word c))))) ∧
    (t < 8 → s.DataFires (.mac gr w) gr 0x04 w x g [A, B] fun l => (g.setReg d (g.reg d + wordI (srcI t (nth 0 l 0) * srcI t (nth 0 l 1))), [], 0)) ∧
    (8 ≤ t → g.inner.length < 94 → s.DataFires (.mac gr w) gr 0x04 w x g [A, B] fun l => ({ g with inner := g.inner ++ [nth 0 l 0, nth 0 l 1] }, [], 0)) ∧
    (8 ≤ t → g.inner.length = 94 → s.DataFires (.mac gr w) gr 0x04 w x g [A, B] fun l =>
      let r := dotGroup t (pairsOf (g.inner ++ [nth 0 l 0, nth 0 l 1])) [] (fld (g.reg d) 0 32)
      ((({ g with inner := [] } : Grain).setReg d (word r.1)), [], r.2)) ∧
    (sound →
      let last := (nth 0 g.inner 5).toNat
      let changed := fun (b : Nat) => (nth 0 g.inner 2).toNat = 1 ∨ (last ≠ 0 ∧ last ≠ min b 63 + 1)
      let bnd := fun (b : Nat) (v : Word) => (if changed b then [(w.outs.toNat, (⟨5, word (min b 63)⟩ : Token))] else []) ++ [out v]
      let rec_ := fun (b : Nat) (h : Grain) => if changed b then { h with inner := upd (upd g.inner 2 fun _ => 0) 5 fun _ => word (min b 63 + 1) } else h
      let past := fun (b : Nat) => if bitLen m - 1 ≤ b then flMODOV else 0
      let a := (nth 0 g.inner 0).toNat - 1
      let b := (nth 0 g.inner 1).toNat - 1
      s.DataFires (.mmul gr w) gr 0x07 w x g [A, B] (fun l =>
        let p := nth 0 l 0; let q := nth 0 l 1; let v := word (p.toNat % m * (q.toNat % m) % m)
        (rec_ (a + b) (kept v), bnd (a + b) v, flOr (past (a + b)) (flOr (nv p) (nv q)))) ∧
      s.DataFires (.madd gr w) gr 0x08 w x g [A, B] (fun l =>
        let p := nth 0 l 0; let q := nth 0 l 1
        let v := word ((if w.md.getLsbD 0 then p.toNat % m + m - q.toNat % m else p.toNat % m + q.toNat % m) % m)
        (rec_ (max a b + 1) (kept v), bnd (max a b + 1) v, flOr (past (max a b + 1)) (flOr (nv p) (nv q)))) ∧
      (g.inner.length = 6 → (nth 0 g.inner 3).toNat + 1 < w.imm.toNat → s.DataFires (.mred gr w) gr 0x09 w x g [A] fun l =>
        let p := nth 0 l 0
        (({ g with inner := upd (upd g.inner 3 fun _ => word ((nth 0 g.inner 3).toNat + 1)) 4 fun _ => word (max (nth 0 g.inner 4).toNat a) } : Grain).setReg d
          (word (((g.reg d).toNat % m + p.toNat % m) % m)), [], flOr (nv p) (nv (g.reg d))))) ∧
    ((g.inner.length < if w.md.getLsbD 0 then 128 else 64) → s.DataFires (.bfps gr w) gr 0x0A w x g [A] fun l => ({ g with inner := g.inner ++ [nth 0 l 0] }, [], 0)) ∧
    (let sum := decide (modF w 5 2 = 0)
     let more := fun (l : List Word) => { g with inner := g.inner ++ if sum then [scOne t, nth 0 l 0] else [nth 0 l 0, nth 0 l 1] }
     let n := g.inner.length / 2 + 1
     let sels := if sum then [A] else [A, B]
     (n < 2 ^ modF w 0 3 → s.DataFires (.scan gr w) gr 0x0C w x g sels fun l => (more l, [], 0)) ∧
     (2 ^ modF w 0 3 ≤ n → s.DataFires (.scan gr w) gr 0x0C w x g sels fun l =>
       let r := scChunk t (modF w 0 3) (scElems t g.bitmap 0 (more l).inner) ((g.reg d).toNat % 2 ^ (8 * tyBytes t))
       (({ more l with inner := [], held := [], bitmap := if g.bitmap.testBit ((more l).inner.length / 2) then 1 else 0 } : Grain).setReg d (extBy t (r.1.getLast?.getD 0)),
        scMerge w.outs.toNat t g.held 0 r.1, r.2)))) ∧
  (∀ (s : State) (gr : GrainRef) (w : FropWord) (x : Slot) (g : Grain),
    let t := w.dtype.toNat
    let d := w.dreg.toNat
    let n := nth 6 [6, 12, 24] (modF w 4 2)
    let need := (n + 9) / 10
    let metas := (g.inner.drop 1).take need
    let pos := fld (nth 0 g.inner 0) 0 8
    let keptAt := (List.range (min n (10 * metas.length))).map fun k => fld (nth 0 metas (k / 10)) (6 * (k % 10)) 6
    let fired := fun (pops : List Nat) (gen : Bool) (o : FireOut) => exec (.smac gr w) s = .next (s.putSlot gr.region gr.slot (x.firedAt gr.grain pops gen o))
    s.Served gr 0x05 w x g →
    (∀ v, metas.length < need → w.dim = 6 ∨ x.offer gr.grain = true → 1 ≤ w.ina.toNat → w.ina.toNat ≤ 5 → g.head w.ina.toNat = some ⟨6, v⟩ →
      let ms := metas ++ [v]
      let at_ := (List.range (min n (10 * ms.length))).map fun k => fld (nth 0 ms (k / 10)) (6 * (k % 10)) 6
      at_.Pairwise (· < ·) → (∀ k ∈ at_, k < 48) → fired [w.ina.toNat - 1] (decide (w.dim ≠ 6)) ({ g with inner := (0 : Word) :: ms }, [], 0)) ∧
    (∀ pops gen p q, metas.length = need → t < 8 → pos ∈ keptAt → pos < 47 →
      headsOf w g x.idx (x.offer gr.grain) [w.ina.toNat, w.inb.toNat] = .data pops gen [p, q] →
      ∃ o, fired pops gen (o, [], 0) ∧ o.reg d = g.reg d + wordI (srcI t p * srcI t q) ∧ fld (nth 0 o.inner 0) 0 8 = pos + 1 ∧ (o.inner.drop 1).take need = metas) ∧
    (∀ v, metas.length = need → t < 8 → pos ∉ keptAt → pos < 47 → w.dim = 6 → 1 ≤ w.inb.toNat → w.inb.toNat ≤ 5 → g.head w.inb.toNat = some ⟨0, v⟩ →
      ∃ o, fired [w.inb.toNat - 1] false (o, [], 0) ∧ o.c = g.c ∧ fld (nth 0 o.inner 0) 0 8 = pos + 1 ∧ (o.inner.drop 1).take need = metas))

/-- 11 R340: the data firings of the stream-control frops. MERG alternates between inputs that are both there; CNT and GATE take either, which is open (log 4). What leaves when a firing has more tokens than room, the corners of MERG and DUPL, and the index that a firing of MERG, CNT or GATE consumes, are the model's reading (logs 12, 25, 42). -/
def Obligations.GrainStreamControl : Prop :=
  ∀ (s : State) (gr : GrainRef) (w : FropWord) (x : Slot) (g : Grain),
    let out := fun (v : Word) => (w.outs.toNat, (⟨0, v⟩ : Token))
    let d := w.dreg.toNat
    let kept := fun (v : Word) => if w.md.getLsbD 15 then g.setReg d v else g
    let A := w.ina.toNat
    let B := w.inb.toNat
    let n := modF w 0 4
    let t := w.dtype.toNat
    let fired := fun (i : Instr) (s : State) (pops : List Nat) (gen : Bool) (o : FireOut) =>
      hasRoom s x x [] gr.grain o.2.1 = true → exec i s = .next (s.putSlot gr.region gr.slot (x.firedAt gr.grain pops gen o))
    (∀ pops gen vals, s.Fires gr 0x20 w x g [A, B] pops gen vals → (portsOf w.outs.toNat).contains (fld (nth 0 vals 1) 0 3) = true →
      fired (.rout gr w) s pops gen (kept (nth 0 vals 0), [(2 ^ (fld (nth 0 vals 1) 0 3 - 1), ⟨0, nth 0 vals 0⟩)], 0)) ∧
    s.DataFires (.filt gr w) gr 0x22 w x g [A, B] (fun l => if (nth 0 l 1 ≠ 0) ↔ w.md.getLsbD 0 = false then (kept (nth 0 l 0), [out (nth 0 l 0)], 0) else (g, [], 0)) ∧
    s.DataFires (.dupl gr w) gr 0x23 w x g [A] (fun l => (kept (nth 0 l 0), List.replicate (n + 1) (out (nth 0 l 0)), 0)) ∧
    (w.ina ≠ 0 → s.DataFires (.mark gr w) gr 0x25 w x g [A] fun l =>
      let c := (nth 0 g.inner 0).toNat + 1
      let full := w.imm ≠ 0 ∧ w.imm.toNat ≤ c
      ({ kept (nth 0 l 0) with inner := if w.imm = 0 then [] else [word (if full then 0 else c)] },
       out (nth 0 l 0) :: if full then [(w.outs.toNat, ⟨n, 0⟩)] else [], 0)) ∧
    (w.ina = 0 → s.DataFires (.mark gr w) gr 0x25 w x g [A] fun _ =>
      let v := word (nth 0 x.idx w.dim.toNat); (kept v, [(w.outs.toNat, ⟨n, v⟩)], 0)) ∧
    s.DataFires (.rdce gr w) gr 0x26 w x g [A] (fun l =>
      let r := eopVal t (nth 0 [0, 3, 4, 5, 6, 7] (modF w 0 3)) (g.reg d) (nth 0 l 0)
      (g.setReg d r.1, [], r.2)) ∧
    (let L := loneHead w g x.idx (x.offer gr.grain)
     let gen := decide (w.dim ≠ 6)
     let pop := fun (sel : Nat) (queue : Bool) => if queue then [sel - 1] else []
     let goes := fun (i : Instr) (sel : Nat) (qu : Bool) (o : FireOut) => fired i s (pop sel qu) gen o
     let either := fun (i : Instr) (p : Nat) (qp : Bool) (o : FireOut) (q : Nat) (qq : Bool) (u : FireOut) =>
       hasRoom s x x [] gr.grain o.2.1 = true → hasRoom s x x [] gr.grain u.2.1 = true → exec i s = .next ({ s with free := s.free + 1 }.putSlot gr.region gr.slot
         (if Config.freeNat s.free % 2 = 1 then x.firedAt gr.grain (pop q qq) gen u else x.firedAt gr.grain (pop p qp) gen o))
     let e := d + 1
     let added := fun (h : Grain) (v : Word) =>
       let h1 := h.setReg d (h.reg d + v)
       if h.reg d ≠ 0 ∧ h.reg d + v = 0 then (h1.setReg e 0, [(w.outs.toNat, (⟨n, h1.reg e⟩ : Token))], 0) else (h1, [], 0)
     let up := fun (v : Word) => (added (g.setReg e (g.reg e + 1)) v : FireOut)
     let down := fun (v : Word) => (added g (-v) : FireOut)
     let pass := fun (v : Word) => ((g.setReg d (g.reg d - 1), [out v], 0) : FireOut)
     let fill := fun (v : Word) => ((g.setReg d (g.reg d + v), [], 0) : FireOut)
     let merged := fun (v : Word) (r : List Word) => (({ kept v with inner := r }, [out v], 0) : FireOut)
     ∀ p qp q qq,
      (s.Served gr 0x21 w x g →
        (L A = .dat p qp → L B = .dat q qq → if nth 0 g.inner 0 = 1 then goes (.merg gr w) B qq (merged q []) else goes (.merg gr w) A qp (merged p [1])) ∧
        (L A = .dat p qp → L B = .nothing → goes (.merg gr w) A qp (merged p g.inner)) ∧
        (L A = .nothing → L B = .dat q qq → goes (.merg gr w) B qq (merged q g.inner))) ∧
      (s.Served gr 0x24 w x g →
        (L A = .dat p qp → L B = .nothing → goes (.cnt gr w) A qp (up p)) ∧
        (L A = .nothing → L B = .dat q qq → goes (.cnt gr w) B qq (down q)) ∧
        (L A = .dat p qp → L B = .dat q qq → either (.cnt gr w) A qp (up p) B qq (down q))) ∧
      (s.Served gr 0x27 w x g →
        (g.reg d ≠ 0 → L A = .dat p qp → L B = .nothing → goes (.gate gr w) A qp (pass p)) ∧
        (L A = .nothing → L B = .dat q qq → goes (.gate gr w) B qq (fill q)) ∧
        (g.reg d ≠ 0 → L A = .dat p qp → L B = .dat q qq → either (.gate gr w) A qp (pass p) B qq (fill q))))

/-- 11 R330, R338, R339, 03 R93: memory frops read, write or set a bit at the address of their index or operand, in device memory or in the pan view or the grain's local view; REQ enters a copy in a channel; RLD, RST and RAT act at once in device memory and leave as a request where a peer has the page. The mode in which an access is checked, and the corners of RLD and of the local view, are the model's reading (logs 15, 43). -/
def Obligations.GrainMemory : Prop :=
  ∀ (s : State) (gr : GrainRef) (w : FropWord) (x : Slot) (g : Grain) (pops : List Nat) (gen : Bool) (vals : List Word) (pa : Nat), s.regionTask gr.region = none → s.tasks = [] →
    let t := w.dtype.toNat
    let n := tyBytes t
    let A := w.ina.toNat
    let B := w.inb.toNat
    let d := w.dreg.toNat
    let kept := fun (v : Word) => if w.md.getLsbD 15 then g.setReg d v else g
    let out := fun (v : Word) => (w.outs.toNat, (⟨0, v⟩ : Token))
    let one := if w.dim = 6 then [A] else []
    let two := if w.dim = 6 then [A, B] else [A]
    let arg := nth 0 vals
    let va := g.reg (modF w 3 3) + (if w.dim = 6 then arg 0 <<< modF w 6 3 else word (nth 0 x.idx w.dim.toNat) * w.imm.signExtend 64)
    let stored := if w.dim = 6 then arg 1 else arg 0
    let fired := fun (u : State) (o : FireOut) => u.putSlot gr.region gr.slot (x.firedAt gr.grain pops gen o)
    let room := fun (ts : List (Nat × Token)) => hasRoom s x x [] gr.grain ts = true
    let done := if w.outs = 0 then [] else [out 0]
    let at_ := fun (va : Word) (n : Nat) (a : Acc) (l : Loc) => va.toNat % n = 0 ∧ s.engineAt (s.regionWho gr.region) none va n a = (.ok (.at_ l), s)
    let fine := s.poisonedAt pa n = false ∧ ∀ i < n, s.home (pa + i) < memLimit
    (s.Fires gr 0x10 w x g one pops gen vals → at_ va n accLoad (.mem pa) → fine → room [out 0] →
      let v := extBy t (s.physRead pa n)
      exec (.ldg gr w) s = .next (fired s (kept v, [out v], 0))) ∧
    (s.Fires gr 0x11 w x g two pops gen vals → at_ va n accStore (.mem pa) → fine → room [out 0] → s.Good →
      ∃ u, s.StoredOnly u false n [(pa, stored.toNat)] ∧ exec (.stg gr w) s = .next (fired u (g, done, 0))) ∧
    (∀ (y : Region) (view : Word → Nat → Nat → Prop), s.region gr.region = some y → s.Good → Config.panExists (gr.region / 16) = true →
      (∀ v m key, view v m key ↔ ∃ z : Word, key = panKey (gr.region / 16) z.toNat ∧ s.inPartition (gr.region / 16) (s.regionCtx gr.region) z.toNat m = true ∧ z.toNat < 2 ^ 23 ∧ s.panPoisonedAt key m = false ∧
        if w.md.getLsbD 9 then v.toNat < 32768 ∧ z = word (panWordOf (16 * (4 * y.row + gr.grain / x.cols) + (4 * y.col + gr.grain % x.cols)) (v.toNat / 8) * 8 + v.toNat % 8)
        else z = v) →
      ∀ key,
      (s.Fires gr 0x12 w x g one pops gen vals → va.toNat % n = 0 → view va n key → room [out 0] →
        let v := extBy t (s.panRead key n)
        exec (.ldp gr w) s = .next (fired s (kept v, [out v], 0))) ∧
      (s.Fires gr 0x13 w x g two pops gen vals → va.toNat % n = 0 → view va n key → room [out 0] →
        ∃ u, s.StoredOnly u true n [(key, stored.toNat)] ∧ exec (.stp gr w) s = .next (fired u (g, done, 0))) ∧
      (s.Fires gr 0x14 w x g [A] pops gen vals → room [out 0] →
        let b := g.reg (modF w 3 3) + (if w.dim = 6 then arg 0 <<< modF w 6 3 else word (nth 0 x.idx w.dim.toNat) * w.imm.signExtend 64)
        let byte := if w.md.getLsbD 9 then b else word (b.toNat / 8)
        let bit := if w.md.getLsbD 9 then (if w.ina = 0 then 0 else (arg 0).toNat % 8) else b.toNat % 8
        (w.md.getLsbD 9 = false → b.toNat < 2 ^ 26) → view byte 1 key →
          let v := s.panRead key 1
          let old := v.testBit bit
          ∃ u, s.StoredOnly u true 1 [(key, v ||| 2 ^ bit)] ∧ exec (.tas gr w) s = .next (fired u
            (if w.md.getLsbD 10 then (if old then (g, [], 0) else (kept (arg 0), [out (arg 0)], 0)) else (kept (if old then 1 else 0), [out (if old then 1 else 0)], 0))))) ∧
    (s.Fires gr 0x18 w x g [A, B] pops gen vals → w.outs = 0 →
      let p := arg 0
      let ch := 8 * (gr.region / 16) + fld p 4 3
      let kind := fld p 0 4
      let scope := fld p 7 3
      let paddr := fld p 22 23
      let len := fld p 10 12
      (s.chan ch).q.length < 8 → kind < 2 → 1 ≤ scope → scope ≤ 5 → paddr % 8 = 0 → (arg 1).toNat % 8 = 0 → len % 8 = 7 →
      let near := word paddr
      let dw : List Word := [word (7 + scope * 256 + if kind = 0 then 2 ^ 14 + 0x8000 * 2 ^ 32 else 2 ^ 13 + 0x8000 * 2 ^ 16), 0,
        if kind = 0 then arg 1 else near, if kind = 0 then near else arg 1, word ((len + 1) / 8), 0, 0, 8, 0, 0, 8, 0, 0, 0, 0, 0]
      let c : Cmd := {
        id := s.nextId, ctx := s.regionCtx gr.region, src := .grain gr (if bitOf p 45 then some (fld p 46 18) else none), descVA := arg 1, dw := dw
        bad := none, running := false, chunk := 0, count := 0, slot := none, cancel := false, block := s.regionBlock gr.region, task := none, sup := false, spos := 0, replies := [] }
      exec (.req gr w) s = .next (fired ((Upd.chan ch { s.chan ch with q := (s.chan ch).q ++ [c] }).apply { s with nextId := s.nextId + 1 }) (g, [], 0))) ∧
    (let z := nth 0 [A, B, modF w 0 4]
     let held := fun (v : Option Word) => (match v with | some y => [out (extBy t y.toNat)] | none => []) ++ if modF w 9 3 = 0 then [] else [(2 ^ (modF w 9 3 - 1), (⟨0, 0⟩ : Token))]
     let grain := fun (v : Option Word) => { (match v with | some y => kept (extBy t y.toNat) | none => g) with out := held v }
     let asked := fun (kind : RKind) (k : Nat) (dev da : Nat) => s.sent (.grain gr k w) (arg 0) dev da n kind (arg 2) 0 false none
     let waits := ({ g with waiting := [s.nextId] }, [], 0)
     w.md.getLsbD 12 = false → room [out 0] → s.Good →
     (s.Fires gr 0x19 w x g [z 0, z 1] pops gen vals →
       (at_ (arg 0) n accLoad (.mem pa) → fine → exec (.rld gr w) s = .next (fired s (grain (some (word (s.physRead pa n))), [], 0)))) ∧
     (s.Fires gr 0x1A w x g [z 0, z 1, z 2] pops gen vals →
       (at_ (arg 0) n accStore (.mem pa) → fine → ∃ u, s.StoredOnly u false n [(pa, (arg 2).toNat)] ∧ exec (.rst gr w) s = .next (fired u (grain none, [], 0))) ∧
       ∀ dev da, at_ (arg 0) n accStore (.remote dev da) → exec (.rst gr w) s = .next (fired (asked .store 3 dev da) waits)) ∧
     (s.Fires gr 0x1B w x g [z 0, z 1, z 2] pops gen vals →
       let k := RKind.amo (modF w 4 3) (decide (t < 4))
       let old := s.physRead pa n
       let new := amoNew (modF w 4 3) (decide (t < 4)) n old (arg 2).toNat
       (at_ (arg 0) n accRmw (.mem pa) → fine → ∃ u, s.StoredOnly u false n [(pa, new.1)] ∧ exec (.rat gr w) s = .next (fired u (grain (some (word old)), [], new.2))) ∧
       ∀ dev da, at_ (arg 0) n accRmw (.remote dev da) → exec (.rat gr w) s = .next (fired (asked k 2 dev da) waits)))

/-- 06 R164, 09 R271: STRAND_WAKE lets a waiting strand run once its condition is met; what a waited-for run or token transfer has left is kept. WFE_TIMEOUT sets the latch of a strand that waits in WFE. 06 R165: in a cycle of the vector unit the ready strands with a weight gain it as credit, held to [-64, 63]; the largest credit wins, the lowest strand on a tie, and pays the sum of the weights; without one, the strands of weight 0 go in turn after the last; the winner's next element group is granted. 02 R51, R52: a bank serves port G unless it has gone three cycles with others waiting, else the next port after the last in the order V, S, E, X, and at S and X the next strand and the next grain. Which waits enter WAIT, that the instruction is executed again, and that a cycle's readiness and requests are operands, is the model's reading (logs 6, 14). -/
def Obligations.WaitsAndArbiters : Prop :=
  (∀ (s : State) (k : Nat), (s.strand k).st = .wait →
    let st := s.strand k
    let ended := match st.wait with
      | .none => True
      | .latch _ => st.latch = true
      | .ring id => (s.ring id).wr % 2 ^ 32 ≠ (s.ring id).rd % 2 ^ 32
      | .counter id t => ((s.counter id).c + 2 ^ 48 - t) % 2 ^ 48 < 2 ^ 47
      | .slot r i => (s.slot r i).st ≠ .running ∧ (s.slot r i).preempted = false
      | .slotDone _ => True
      | .chan ch => (s.chan ch).q.length < 8
      | .token t => t ∉ s.fabric.moving
      | .coll vs => (s.stream vs).pend = none
    let kept := match st.wait with
      | .slotDone x => Wait.slotDone x
      | .token t => .token t
      | _ => .none
    ((∀ id, st.wait = .ring id → (s.ring id).wr < 2 ^ 32 ∧ (s.ring id).rd < 2 ^ 32) →
      (ended → exec (.strandWake k) s = .next ((Upd.strand k { st with st := .run, wait := kept }).apply s)) ∧
      (¬ ended → exec (.strandWake k) s = .next s)) ∧
    (∀ since, st.wait = .latch since →
      exec (.wfeTimeout k) s = .next ((Upd.strand k { st with latch := true }).apply { s with gtime := max s.gtime (since + 65536) }))) ∧
  (∀ (s : State) (pan bank waits busy : Nat) (g v e : Bool) (se x : Nat),
    let p := s.pan pan
    let st := fun (i : Nat) => s.strand (4 * pan + i)
    let w := fun (i : Nat) => (st i).weight
    let accepts := fun (i : Nat) => !waits.testBit i && (st i).vq.head?.any fun y => !busy.testBit y.pipe
    let ready := fun (i : Nat) => accepts i = true
    let cand := fun (i : Nat) => ready i ∧ 0 < w i
    let held := fun (c : Int) => max (-64) (min 63 c)
    let c := fun (i : Nat) => if accepts i = true ∧ 0 < w i then held (nth 0 p.credit i + w i) else nth 0 p.credit i
    let total := (([0, 1, 2, 3].filter fun i => accepts i && decide (0 < w i)).map w).sum
    let granted := fun (q : List VqEntry) => match q with | [] => [] | y :: t => if y.groups ≤ 1 then t else { y with groups := y.groups - 1 } :: t
    let grants := fun (i : Nat) (p : Pan) => exec (.vectorIssueCycle ⟨pan, waits, busy⟩) s =
      .next ((Upd.strand (4 * pan + i) { st i with vq := granted (st i).vq }).apply ((Upd.pan pan p).apply s))
    (∀ i < 4, cand i → (∀ j < 4, cand j → c j < c i ∨ (c j = c i ∧ i ≤ j)) →
      grants i { p with credit := [0, 1, 2, 3].map fun j => if j = i then held (c i - total) else c j }) ∧
    (∀ n, 1 ≤ n → n ≤ 4 → (∀ j < 4, ¬ cand j) → ready ((p.lastZero + n) % 4) → (∀ m, 1 ≤ m → m < n → ¬ ready ((p.lastZero + m) % 4)) →
      grants ((p.lastZero + n) % 4) { p with lastZero := (p.lastZero + n) % 4 }) ∧
    ((∀ j < 4, ¬ ready j) → exec (.vectorIssueCycle ⟨pan, waits, busy⟩) s = .next s) ∧
    (Config.panExists pan = true → bank < 256 →
      let b := p.banks.get {} bank
      let port := fun (i : Nat) => nth false [v, (List.range 4).any se.testBit, e, (List.range 256).any x.testBit] i
      let waiting := ∃ i < 4, port i = true
      let turn := fun (n last req i : Nat) => i < n ∧ req.testBit i = true ∧ ∀ j < n, req.testBit j = true → (i + 2 * n - 1 - last % n) % n ≤ (j + 2 * n - 1 - last % n) % n
      let leaves := fun (b' : Bank) => exec (.bankArbitrationCycle pan bank g v se e x) s = .next ((Upd.pan pan { p with banks := Tbl.put {} bank b' p.banks }).apply s)
      (g = true → ¬ waiting → leaves b) ∧
      (g = true → waiting → b.starve < 3 → leaves { b with starve := b.starve + 1 }) ∧
      (g = false ∨ 3 ≤ b.starve → ∀ n, 1 ≤ n → n ≤ 4 → port ((b.lastPan + n) % 4) = true → (∀ m, 1 ≤ m → m < n → port ((b.lastPan + m) % 4) = false) →
        ∃ k j, leaves ⟨0, (b.lastPan + n) % 4, k, j⟩ ∧ (if (b.lastPan + n) % 4 = 1 then turn 4 b.lastS se k else k = b.lastS) ∧ (if (b.lastPan + n) % 4 = 3 then turn 256 b.lastX x j else j = b.lastX)) ∧
      (g = false → ¬ waiting → leaves b)))

/-- 06 R168 to R170, 11 R323, 14 R396. REGION_SERVICE_CYCLE: a region serves, of its slots in order after its counter, the first that is ready, here one whose one grain that is not idle fires an integer sum; its counter then names it, and nothing else differs; with no slot running nothing happens. FRAME_CHANGE_DONE: a change of frame ends. RING_OUTPUT_PUBLISH_TIMEOUT: a partly filled output slot is padded with entries that bit 63 marks and published. RING_INPUT_ACQUIRE: a filled input slot is acquired, its tokens delivered and the slot released; an empty ring gives nothing. REGION_STOP_TIMEOUT: a stop by pre-emption takes effect between firings where the pan has a clamp, and without one only at a boundary. Which posted stores a publication at scope 5 waits for is the model's reading (log 41). (Rings in device memory.) -/
def Obligations.RegionEvents : Prop :=
  ∀ (s : State) (r i : Nat) (x : Region), s.Good → s.region r = some x → Tbl.wf {} x.slots = true →
    let y := x.slot i
    (∀ (gr : GrainRef) (w : FropWord) (g : Grain) (pops : List Nat) (gen : Bool) (vals : List Word) (n : Nat),
      gr.region = r → gr.slot = i → n < 4 → i = (x.ptr + 1 + n) % 4 → (∀ m < n, (x.slot ((x.ptr + 1 + m) % 4)).st ≠ .running) →
      (∀ j < 4, (x.slot j).settled) → (∀ o ∈ s.sched.firedRem, o.2.pan ≠ r / 16) →
      (∀ k < y.numGrains, k ≠ gr.grain → y.fropAt k = 0 ∧ (y.grains.get {} k).out = []) →
      w.dtype.toNat < 8 → modF w 0 4 = 0 → w.outs ≠ 0 → s.Fires gr 0x06 w y g [w.ina.toNat, w.inb.toNat] pops gen vals →
      let t := w.dtype.toNat
      let int := fun (v : Word) => intOf (tySigned t) (tyW t) v.toNat
      let v := extBy t (lowBits (tyW t) (int (nth 0 vals 0) + int (nth 0 vals 1)))
      let o : FireOut := (if w.md.getLsbD 15 then g.setReg w.dreg.toNat v else g, [(w.outs.toNat, ⟨0, v⟩)], 0)
      hasRoom s y y [] gr.grain o.2.1 = true →
      exec (.regionServiceCycle r) s = .next ((Upd.region r (some { x with ptr := i, slots := Tbl.put {} i (y.firedAt gr.grain pops gen o) x.slots })).apply s)) ∧
    ((∀ j < 4, (x.slot j).settled ∧ (x.slot j).st ≠ .running) → (∀ o ∈ s.sched.firedRem, o.2.pan ≠ r / 16) → exec (.regionServiceCycle r) s = .next s) ∧
    (y.changing = true → y.settled → exec (.frameChangeDone r i) s = .next (s.putSlot r i { y with changing := false })) ∧
    (∀ (b : Nat) (bd : Bind) (sl : Nat) (pa : Nat → Nat), y.binds[b]? = some bd → bd.slot = some sl → s.regionTask r = none → s.tasks = [] →
      let q := s.ring bd.ring
      let per := 2 ^ q.lsz / 16
      let va := fun (j : Nat) => q.base + word (sl % q.nslot * 2 ^ q.lsz) + word (8 * j)
      bd.out = true → 0 < bd.pos → bd.pos < per → q.space = false → q.filled = [] → q.wr = sl → (y.grains.get {} bd.grain).waiting = [] →
      (q.scope = 5 → s.postedBefore s.nextId none = false) →
      (∀ j, 2 * bd.pos ≤ j → j < 2 * per → (va j).toNat % 8 = 0 ∧ s.engineAt (s.regionWho r) none (va j) 8 accStore = (.ok (.at_ (.mem (pa j))), s) ∧ ∀ o < 8, s.home (pa j + o) < memLimit) →
      ∃ u, s.StoredOnly u false 8 ((List.range (2 * (per - bd.pos))).map fun n => (pa (2 * bd.pos + n), if n % 2 = 1 then 2 ^ 63 else 0)) ∧
        exec (.ringOutputPublishTimeout r i b) s = .next ((Upd.ring bd.ring { q with wr := (sl + 1) % 2 ^ 32 }).apply
          (u.putSlot r i { y with binds := upd y.binds b fun z => { z with slot := none, pos := 0 } }))) ∧
    (∀ (b : Nat) (bd : Bind), y.binds[b]? = some bd → bd.out = false → bd.slot = none → y.st = .running → bd.replies = [] → s.regionTask r = none →
      (∀ o ∈ s.fabric.requests, o.who ≠ .bind r i b) →
      let q := s.ring bd.ring
      let n := 2 * (2 ^ q.lsz / 16)
      let va := fun (j : Nat) => q.base + word (q.rd % q.nslot * 2 ^ q.lsz) + word (8 * j)
      let g := y.grains.get {} bd.grain
      q.fault = none → q.space = false → q.wr < 2 ^ 32 → q.rd < 2 ^ 32 →
      (q.wr = q.rd → exec (.ringInputAcquire r i b) s = .next s) ∧
      (∀ pa : Nat → Nat, q.wr ≠ q.rd → y.binds = [bd] → y.canon → (∀ h ∈ y.grains, h.2.lin = []) → g.q.get [] 4 = [] →
        (∀ j < n, (va j).toNat % 8 = 0 ∧ s.engineAt (s.regionWho r) none (va j) 8 accLoad = (.ok (.at_ (.mem (pa j))), s) ∧ s.poisonedAt (pa j) 8 = false) →
        let ents := ((List.range (n / 2)).map fun e => (s.physRead (pa (2 * e)) 8, s.physRead (pa (2 * e + 1)) 8)).takeWhile fun e => e.2 < 2 ^ 63
        ents.length ≤ 8 → (∀ e ∈ ents, e.2 % 16 ≤ 8) →
        exec (.ringInputAcquire r i b) s = .next ((Upd.ring bd.ring { q with rd := (q.rd + 1) % 2 ^ 32 }).apply (s.putSlot r i { y with
          binds := [{ bd with toks := [] }]
          grains := Tbl.put {} bd.grain { g with q := Tbl.put [] 4 ((ents.map fun e => (⟨e.2 % 16, word e.1⟩ : Token)).foldl arriveQ []) g.q } y.grains })))) ∧
    (y.st = .running → y.stopReq = true → y.preempted = true →
      (fld (s.pan (r / 16)).rgclamp 0 21 ≠ 0 → exec (.regionStopTimeout r i) s = .next (s.putSlot r i { y with st := .stopped, stopReq := false })) ∧
      (fld (s.pan (r / 16)).rgclamp 0 21 = 0 → exec (.regionStopTimeout r i) s = .next s))

/-- 03 R81, R85, R88, R89, R95, 05 R129, 12 R353: a command of a channel starts once its checks have passed, no earlier command of the engine conflicts with it and, where its publications are at scope 5, the posted stores before it are answered; one that fails them leaves its status; a command that completes at a ring reserves its slot first; a chunk reads its elements, then writes them, and the last one ends the command; a fired copy enters its channel where there is room. Which posted stores are waited for is the model's reading (log 41). (Completion kind 0, and local places, for the start and the chunk.) -/
def Obligations.SluiceEvents : Prop :=
  (∀ (s : State) (ch : Nat) (c : Cmd), s.AtHead ch c → c.slot = none → c.cancel = false → c.bad = none →
    let own := ch / 8
    let dw := c.dw
    let who : Who := ⟨some own, c.ctx, c.sup⟩
    let q := s.chan ch
    let dropped := fun (t : State) => (Upd.chan ch { q with q := q.q.filter fun y => decide (y.id ≠ c.id) }).apply t
    let put := fun (f : Cmd → Cmd) (t : State) => (Upd.chan ch { q with q := q.q.map fun y => if y.id = c.id then f y else y }).apply t
    let told := fun (k : Nat) (l : List CopyRef) (t : State) => (Upd.strand k { t.strand k with copies := l }).apply t
    let forgets := fun (k : Nat) => (s.strand k).copies.filter fun y => decide (y.id ≠ c.id)
    let e := ndE dw
    let total := ndTotal dw
    let starts := exec (.sluiceCommandStart ch) s
    let free := ndScope dw = 5 → s.postedBefore c.id none = false
    (c.running = false → free → ndCkind dw = 0 → dwAt dw 1 = 0 →
      (descStatus own dw = none → total ≠ 0 →
        (s.conflicts own c = false → starts = .next (put (fun y => { y with running := true }) s)) ∧
        (s.conflicts own c = true → starts = .next s)) ∧
      (∀ k, c.src = .strand k →
        (descStatus own dw = none → total = 0 → starts = .next (told k (forgets k) (dropped s))) ∧
        (∀ st, descStatus own dw = some st → starts = .next (told k ((s.strand k).copies.map fun y => if y.id = c.id then { y with st := .failed st } else y)
          { (Upd.chan ch { q := q.q.filter fun y => decide (y.id ≠ c.id), status := st }).apply s with
            harbour := { s.harbour with logPending := s.harbour.logPending ++ [⟨s.gtime, own / 128 * 256 + own % 128, 4, c.descVA, word st⟩] } })))) ∧
    (¬ free → c.running = false → starts = .next s) ∧
    (∀ k, c.running = false → free → ndCkind dw = 2 → fld (dwAt dw 1) 48 16 = 0 → fld (dwAt dw 1) 13 3 = 0 → (s.counter (fld (dwAt dw 1) 0 13)).owner = some c.ctx →
      c.src = .strand k → descStatus own dw = none → total ≠ 0 → s.conflicts own c = false →
      starts = .next (put (fun y => { y with running := true }) (told k (forgets k) s))) ∧
    (c.running = false → ndCkind dw = 3 → fld (dwAt dw 1) 12 52 = 0 →
      let ring := own / 128 * 4096 + fld (dwAt dw 1) 0 12
      let r := s.ring ring
      r.owner = some c.ctx →
      (ringRoom r = true → exec (.ringReserve ch) s = .next (put (fun y => { y with slot := some (ring, r.rsv) }) ((Upd.ring ring { r with rsv := (r.rsv + 1) % 2 ^ 32 }).apply s))) ∧
      (ringRoom r = false → exec (.ringReserve ch) s = .next s)) ∧
    (∀ (ps pd : Bool) (sx dx : Nat → Nat), c.running = true → c.phase = .idle → c.elems = [] → c.vals = [] → c.wrote = 0 → c.held = [] → c.replies = [] → ndCkind dw = 0 → ndXf dw < 2 → ndDring dw = false →
      let n0 := c.chunk * (4096 / e)
      let n1 := min total (n0 + 4096 / e)
      (∀ n, n0 ≤ n → n < n1 →
        s.engineAt who (if ndSspc dw then selPan own (ndSsel dw) else none) (nestAddr dw (dwAt dw 2) (ndSstr dw) n) e accLoad = (.ok (storageAt ps (sx n)), s) ∧
        s.engineAt who (if ndDspc dw then selPan own (ndDsel dw) else none) (nestAddr dw (dwAt dw 3) (ndDstr dw) n) e accStore = (.ok (storageAt pd (dx n)), s) ∧
        (if ps then s.panPoisonedAt (sx n) e = false else s.poisonedAt (sx n) e = false) ∧
        (if pd then s.panPoisonedAt (dx n) e = false ∧ ∀ i < e, panKeyOk (dx n + i) = true else s.poisonedAt (dx n) e = false ∧ ∀ i < e, s.home (dx n + i) < memLimit)) →
      ∃ u, s.StoredOnly u pd e ((List.range (n1 - n0)).map fun n => (dx (n0 + n), s.readsAt ps (sx (n0 + n)) e)) ∧
        (n1 ≠ total → exec (.sluiceChunk ch) s = .next (put (fun _ => { c with chunk := c.chunk + 1, count := n1 * e }) u)) ∧
        (n1 = total → ∀ k, c.src = .strand k → exec (.sluiceChunk ch) s = .next (told k ((u.strand k).copies.filter fun y => decide (y.id ≠ c.id)) (dropped u))))) ∧
  (∀ (s : State) (ch : Nat) (c : Cmd) (l r : List (Nat × Cmd)), s.sched.fired = l ++ (ch, c) :: r → (∀ x ∈ l, x.1 ≠ ch) →
    ((s.chan ch).q.length < 8 → exec (.armedCopyEnqueue ch) s =
      .next ((Upd.chan ch { s.chan ch with q := (s.chan ch).q ++ [{ c with id := s.nextId }] }).apply { s with nextId := s.nextId + 1, sched := { s.sched with fired := l ++ r } })) ∧
    (8 ≤ (s.chan ch).q.length → exec (.armedCopyEnqueue ch) s = .next s))

/-- 01 R43 to R46: a doorbell queues a descriptor, or sets the overflow flag; the descriptor at the head is checked, and the failing check is its progress word, or the migration begins and the slices give up the lines of both frames (03 R73); each chunk of 4 KiB is copied with its poison, takes the monitors of its lines with it, and advances the cutover index and the progress word; the last is followed by the update of the leaf, where it still is as it was read; once no translation of the old frame is left the redirection ends and the progress word says how. -/
def Obligations.PageMigration : Prop :=
  ∀ (s : State) (die : Nat) (v : Word), s.Good → s.tasks = [] →
    let d := s.die die
    (die < 8 → exec (.pmigdbWrite die v) s = .next ((Upd.die die (if d.pmigQ.length < 16 then { d with pmigQ := d.pmigQ ++ [fld v 5 34 * 32] } else { d with ovf := true })).apply s)) ∧
    (∀ qa qs, d.pmig = none → d.pmigQ = qa :: qs →
      let w := fun (i : Nat) => word (s.physRead (qa + 8 * i) 8)
      let entryPA := fld (w 0) 3 36 * 8
      let prog := fld (w 2) 3 36 * 8
      let leaf := word (s.physRead entryPA 8)
      let s' := (Upd.die die { d with pmigQ := qs }).apply s
      (∀ st, s.pmigStatus (w 0) (w 1) (w 2) (w 3) leaf = some st → (∀ i < 8, s.home (prog + i) < memLimit) →
        ∃ u, s'.StoredOnly u false 8 [(prog, st)] ∧ exec (.pageMigrationStart die) s = .next u) ∧
      (s.pmigStatus (w 0) (w 1) (w 2) (w 3) leaf = none →
        let m : Pmig := ⟨entryPA, leaf, fld leaf 16 23, fld (w 1) 16 23, prog, 0, false, false⟩
        let frames := fun (l : Nat) => l / 512 = m.old ∨ l / 512 = m.new
        (∃ t, exec (.pageMigrationStart die) s = .next t ∧ (t.die die).pmig = some m ∧ (t.die die).pmigQ = qs ∧ t.mem = s.mem ∧ t.poison = s.poison ∧
          ∀ y l, frames l → (t.bay y).line l = .i) ∧
        ((∀ y ∈ s.bays, ∀ x ∈ y.2.lines, ¬ frames x.1) → exec (.pageMigrationStart die) s = .next ((Upd.die die { d with pmigQ := qs, pmig := some m }).apply s)))) ∧
    (∀ m, d.pmig = some m → m.old ≠ m.new → m.old < 2 ^ 23 → m.new < 2 ^ 23 → m.prog % 8 = 0 → m.prog / 65536 ≠ m.old → m.prog / 65536 ≠ m.new → m.prog < memLimit →
      (∀ d' x, d' ≠ die → (s.die d').pmig = some x → x.old ≠ m.old ∧ x.old ≠ m.new ∧ x.old ≠ m.prog / 65536 ∧ x.old ≠ m.entryPA / 65536) →
      let o := m.old * 65536 + m.c * 4096
      let n := m.new * 65536 + m.c * 4096
      (m.invalidating = false → m.c < 16 → m.entryPA % 8 = 0 → m.entryPA / 65536 ≠ m.old → m.entryPA / 65536 ≠ m.new → m.entryPA ≠ m.prog → m.entryPA < memLimit →
        let last := m.c = 15
        let same := s.physRead m.entryPA 8 = m.entry.toNat
        ∃ t, exec (.pageMigrationChunk die) s = .next t ∧
          (∀ i < 4096, t.byte (n + i) = s.byte (o + i)) ∧
          (∀ i < 64, NSet.mem (n / 64 + i) t.poison = NSet.mem (o / 64 + i) s.poison) ∧
          t.physRead m.prog 8 = (m.c + 1) * 256 ∧
          (∀ x, ¬ (n ≤ x ∧ x < n + 4096) → ¬ (m.prog ≤ x ∧ x < m.prog + 8) → ¬ (last ∧ m.entryPA ≤ x ∧ x < m.entryPA + 8) → t.byte x = s.byte x) ∧
          (∀ k l, (s.strand k).monitor = .line l → (t.strand k).monitor = if l / 32 = o / 4096 then .line (n / 128 + l % 32) else .line l) ∧
          (¬ last → (t.die die).pmig = some { m with c := m.c + 1 }) ∧
          (last → same → fld m.entry 16 23 = m.old → (t.die die).pmig = some { m with c := 16, race := false, invalidating := true } ∧
            t.physRead m.entryPA 8 = m.entry.toNat - m.old * 65536 + m.new * 65536) ∧
          (last → ¬ same → (t.die die).pmig = some { m with c := 16, race := true, invalidating := true } ∧ t.physRead m.entryPA 8 = s.physRead m.entryPA 8)) ∧
      (m.invalidating = true → s.noHolder = true →
        ∃ t, exec (.frameInvalidationRetire die) s = .next t ∧ (t.die die).pmig = none ∧ t.physRead m.prog 8 = 16 * 256 + (if m.race then 7 else 1) ∧
          (∀ x, ¬ (m.prog ≤ x ∧ x < m.prog + 8) → t.byte x = s.byte x) ∧
          ∀ e, lfKind e.leaf = 0 → fld e.leaf 16 23 / 2 ^ (e.size - 16) = m.old / 2 ^ (e.size - 16) →
            (∀ p, e ∉ (t.pan p).tlb) ∧ (∀ y, e ∉ (t.bay y).tlb) ∧ ∀ d, e ∉ (t.die d).inTlb))

/-- 01 R24, R27, 05 R147 to R149, R152, 15 R415, R422: an access from another device of the domain is performed at its home, or fails with the cause of the first check, and is answered; where the token of its region is away it goes on to the owner, unless it comes from there, and one that is passed on to this device goes back to the home. A release waits until the stores that it counts are applied, and an access until the posted stores of its source to its lines before it are. An answer reaches the strand that waits, an acknowledgement ends a posted store, and a failure stays with it; an access that is not delivered fails with POISON. Slices and traffic counters follow the access (03 R73, R77). The order in which an instruction takes its answers, and arrivals as operands, are the model's (logs 19, 20, 38, 39). -/
def Obligations.RemoteAccesses : Prop :=
  (∀ (s : State) (m : RMsg) (l r : List RMsg), s.Good → s.tasks = [] → (∀ y ∈ s.links, y.2.arrived = []) → m.dst = s.harbour.devid →
    let ready := (∀ n, m.rel = some n → (s.fabric.applied.get 0 m.src + 2 ^ 32 - n) % 2 ^ 32 < 2 ^ 31) ∧ ∀ t ∈ m.after, (m.src, t) ∈ s.fabric.stored
    let rd := m.kind ≠ .store
    let wr := m.kind ≠ .load
    let performs := fun (i : Instr) (f : Fabric) =>
      let s' := { s with fabric := f }
      let answers := fun (u : State) (x : RResp) => exec i s = .next { u with fabric := { f with
        responses := f.responses ++ [(m.src, m.tag, x)]
        applied := if m.posted then Tbl.put 0 m.src ((f.applied.get 0 m.src + 1) % 2 ^ 32) f.applied else f.applied
        stored := if m.posted then f.stored ++ [(m.src, m.tag)] else f.stored } }
      let member := m.src = s.harbour.devid ∨ bitOf (s.harbour.domtab.get 0 (m.src / 64)) (m.src % 64) = true
      (¬ member → answers s' (.fault 5)) ∧
      (∀ c, member → s'.inbound m.addr (decide rd) (decide wr) = (.error c, s') → answers s' (.fault c)) ∧
      (∀ pa, member → s'.inbound m.addr (decide rd) (decide wr) = (.ok pa, s') →
        let owner := s.fabric.away.get 0 (pa / 2 ^ 21)
        let old := s.physRead pa m.size
        let reads := fun (x : RResp) => ∃ u, u = { s' with bays := u.bays, dies := u.dies } ∧ answers u x
        let stores := fun (v : Nat) (x : RResp) => ∃ u, s'.StoredOnly u false m.size [(pa, v)] ∧ answers u x
        (m.size = 0 → answers s' .ack) ∧
        (0 < m.size → owner ≠ 0 → owner ≠ m.src + 1 → exec i s = .next (s'.sent (.forward m) 0 (owner - 1) (2 ^ 44 + pa) m.size m.kind m.data m.cmp false none)) ∧
        (0 < m.size → owner = 0 ∨ owner = m.src + 1 →
          (rd ∨ m.size < 8 → s.poisonedAt pa m.size = true → answers s' (.fault 7)) ∧
          ((rd ∨ m.size < 8 → s.poisonedAt pa m.size = false) → (∀ i < m.size, s.home (pa + i) < memLimit) → match m.kind with
            | .load => reads (.value (word old))
            | .store => stores (m.data.toNat % 2 ^ (8 * m.size)) .ack
            | .amo fn sg => stores (amoNew fn sg m.size old m.data.toNat).1 (.value (word old))
            | .cas => if old % 2 ^ (8 * m.size) = m.cmp.toNat % 2 ^ (8 * m.size) then stores (m.data.toNat % 2 ^ (8 * m.size)) (.value (word old)) else reads (.value (word old)))))
    (m.via = none →
      (ready → performs (.remoteAccessArrival m) s.fabric) ∧
      (¬ ready → exec (.remoteAccessArrival m) s = .next { s with fabric := { s.fabric with inbound := s.fabric.inbound ++ [m] } })) ∧
    (m.via ≠ none → exec (.remoteAccessArrival m) s = .next { s with fabric := { s.fabric with responses := s.fabric.responses ++ [(m.src, m.tag, .atHome)] } }) ∧
    (s.fabric.inbound = l ++ m :: r →
      (ready → performs (.remoteReleasePerform l.length) { s.fabric with inbound := l ++ r }) ∧
      (¬ ready → exec (.remoteReleasePerform l.length) s = .next s))) ∧
  (∀ (s : State) (tag k : Nat) (q : Request), s.request tag = some q → (∀ y ∈ s.links, y.2.arrived = []) →
    (∀ m, q.msg = some m → ∀ j, (s.strand j).monitor ≠ .remote m.dst (m.addr / 128)) →
    let f := { s.fabric with requests := s.fabric.requests.filter fun x => decide (x.tag ≠ tag) }
    let st := s.strand k
    let counted := fun (n bytes : Nat) => if isMgmt k then s else s.counted (dieOf k) n st.ctx bytes
    let puts := fun (i : Instr) (t : State) (f : Fabric) (x : RResp) => q.who = .strand k → ∀ l r, st.replies = l ++ r → (∀ y ∈ l, y.1 < tag) → (∀ y ∈ r, tag ≤ y.1) →
      exec i s = .next ((Upd.strand k { st with replies := l ++ (tag, x) :: r }).apply { t with fabric := f })
    let ends := fun (i : Instr) (f : Fabric) => q.who = .posted k →
      exec i s = .next ((Upd.strand k { st with posted := st.posted.filter fun p => decide (p.tag ≠ tag) }).apply { s with fabric := f })
    let fails := fun (i : Instr) (f : Fabric) (c : Nat) => q.who = .posted k →
      exec i s = .next ((Upd.strand k { st with posted := st.posted.map fun p => if p.tag = tag then { p with fail := some c } else p }).apply { s with fabric := f })
    (∀ m, q.msg = some m →
      (∀ v, puts (.remoteResponseArrival tag (.value v)) (if m.via = none then counted 18 m.size else s) f (.value v)) ∧
      (∀ c, puts (.remoteResponseArrival tag (.fault c)) s f (.fault c)) ∧
      (puts (.remoteResponseArrival tag .ack) s f .ack) ∧
      (ends (.remoteResponseArrival tag .ack) f) ∧
      (∀ c, fails (.remoteResponseArrival tag (.fault c)) f c) ∧
      (let f' := { f with outbox := (f.outbox.filter fun m => decide (m.tag ≠ tag)).map fun m => { m with after := m.after.filter fun x => decide (x ≠ tag) } }
       puts (.flitDeliveryTimeout tag) s f' .lost ∧ fails (.flitDeliveryTimeout tag) f' 7)) ∧
    (∀ port addr n v, q.msg = none → q.host = some (port, addr, n) → puts (.hostReadCompletion tag v) (counted 20 n) f (.value (word (v.toNat % 2 ^ (8 * n))))))

/-- 12 R371 to R373, 15 R418 to R420: flits of the current sequence of a bound group join the share of their link, those of the next are held, those of no group are logged; a reducer step combines its elements with the destination in mask order; an abort or a timeout ends the sequence, and passes on the links of the entry; the acknowledgement goes upstream with the last. When an instance's steps are taken and what an abort leaves of it is the model's reading (log 27). -/
def Obligations.CollectiveEvents : Prop :=
  (∀ (s : State) (link group gseq vs : Nat) (body : FlitBody), (∀ y ∈ s.links, y.2.arrived = []) →
    let v := s.stream vs
    let logs := fun (i : Instr) => exec i s = .next { s with harbour := { s.harbour with logPending := s.harbour.logPending ++ [⟨s.gtime, 0xF000, 5, word link, word group⟩] } }
    (s.streamOfGroup group = none → logs (.collFlitReceive link group gseq body) ∧ logs (.abtReceive link group gseq)) ∧
    (s.streamOfGroup group = some vs →
      (gseq = v.seq → v.pend = none → ((rtSets v.dw).any fun j => (rtIn v.dw j).testBit link) = true →
        exec (.collFlitReceive link group gseq body) s = .next ((Upd.stream vs { v with shares := takeBody link body v.shares }).apply s)) ∧
      (v.seq < 2 ^ 32 → gseq = (v.seq + 1) % 2 ^ 32 → v.ahead.length < 256 →
        exec (.collFlitReceive link group gseq body) s = .next ((Upd.stream vs { v with ahead := v.ahead ++ [(link, body)] }).apply s)) ∧
      (rtGroup v.dw = group → v.pend = none → v.slot = none → v.waitq = [] → v.remembered = none → v.ahead = [] →
        (∀ q ∈ s.fabric.requests, q.who ≠ .coll vs) → (∀ d, ∀ r ∈ (s.die d).reducer, r.vs ≠ vs) →
        let outs := fun (from_ : Option Nat) => (entryLinks v.dw).filter fun l => decide (some l ≠ from_) && (s.link l).up
        let d := s.harbour.devid
        let ended := { v with seq := (v.seq + 1) % 2 ^ 32, set := 0, done := 0, replies := [], held := [], shares := [] }
        let aborts := fun (i : Instr) (from_ : Option Nat) => outs from_ ≠ [] → ∃ t, exec i s = .next t ∧
          t.stream vs = { ended with aborts := v.aborts ++ [⟨group, v.seq, from_, outs from_⟩] } ∧
          ∀ l, (t.link l).waiting = (s.link l).waiting ++ if l ∈ outs from_ then [⟨none, 0, v.seq, group, d, neighbour d l, 3, false, .abt, (0, 0)⟩] else []
        aborts (.abtReceive link group v.seq) (some link) ∧
        (fld s.harbour.colltmo 0 32 ≠ 0 → v.dw ≠ [] → v.busy = true → aborts (.collTimeout vs) none))) ∧
    (∀ l r a, v.aborts = l ++ a :: r → a.group = group → a.seq = gseq → (∀ x ∈ l ++ r, x.links ≠ [] ∧ ¬ (x.group = group ∧ x.seq = gseq)) →
      (∀ w, w ≠ vs → ∀ x ∈ (s.stream w).aborts, x.links ≠ [] ∧ ¬ (x.group = group ∧ x.seq = gseq)) →
      let left := a.links.filter fun y => decide (y ≠ link)
      ∃ t, exec (.abtackReceive link group gseq) s = .next t ∧
        (left ≠ [] → (t.stream vs).aborts = l ++ { a with links := left } :: r) ∧
        (left = [] → (t.stream vs).aborts = l ++ r ∧ ∀ up, a.from_ = some up →
          (t.link up).waiting = (s.link up).waiting ++ [⟨none, 0, gseq, group, s.harbour.devid, neighbour s.harbour.devid up, 3, false, .abtack, (0, 0)⟩]))) ∧
  (∀ (s : State) (die : Nat) (r : RStep) (rest : List RStep) (c : Coll) (pa sa : Nat → Nat), s.Good → s.tasks = [] → c.task = none → (s.die die).reducer = r :: rest →
    (∃ y ∈ rest, y.vs = r.vs) → (∀ w, w ≠ r.vs → (s.stream w).pend = none) → (∀ q ∈ s.fabric.requests, q.who ≠ .coll r.vs) →
    let v := s.stream r.vs
    let ed := clEd c.dw
    v.pend = some c → c.failed = none → (clCkind c.dw = 3 → c.slot ≠ none) → v.replies = [] → v.held = [] → v.done = clNelem c.dw → r.set = v.set → v.shareBad c = false → rtAction v.dw v.set = 1 → portsIn (rtIn v.dw v.set) ≠ [] → linksIn (rtOut v.dw v.set) = [] →
    (∀ i < r.n, s.engineAt c.who none (c.dst v.set (r.first + i)) ed { accRmw with cached := true } = (.ok (.at_ (.mem (pa i))), s) ∧ s.poisonedAt (pa i) ed = false ∧ ∀ o < ed, s.home (pa i + o) < memLimit) →
    (hasLocal (rtIn v.dw v.set) = true → ∀ i < r.n, s.engineAt c.who none (c.src v.set (r.first + i)) (clEs c.dw) accLoad = (.ok (.at_ (.mem (sa i))), s) ∧ s.poisonedAt (sa i) (clEs c.dw) = false) →
    let part := fun (i p : Nat) => if p = 12 then s.physRead (sa i) (clEs c.dw) else v.elem c p (r.first + i)
    ∃ u, s.StoredOnly u false ed ((List.range r.n).map fun i =>
        (pa i, (portsIn (rtIn v.dw v.set)).foldl (fun a p => redOp (clDtype c.dw) (clOp c.dw) a (part i p)) (s.physRead (pa i) ed))) ∧
      exec (.reducerStep die) s = .next ((Upd.die die { s.die die with reducer := rest }).apply u))

/-- 15 R409 to R413: a link that is up and not retraining sends a stored flit again while some are due; at the limit of its counter it switches to the other slot where its keys are ready, and else stops and reports it; a new flit takes the next number, carries the acknowledgement that is due and is kept; a link that is down or retraining, or has 512 flits outstanding, sends nothing. 15 R409 to R414, R417: a received flit is accepted when its number is the expected one, its slot is the current one and it opens; it then acknowledges what it carries, and is kept for the layer above, switches the slot, or is reported; one that fails is answered with a NAK, and the third failure in a row starts retraining; retraining, which the neighbour may have begun, seals every stored flit anew under slot 0, and its third failure marks the link down; a write of LKKEY readies the idle slot; the links to a spare train anew. The choice among waiting flits is free (log 4); what a peer sends, and where a flit keeps its detours, are the model's (log 20). -/
def Obligations.LinkEvents : Prop :=
  (∀ (s : State) (n : Nat),
    let l := s.link n
    let d := s.harbour.devid
    let sends := fun (l' : Link) => exec (.flitTransmit n) s = .next ((Upd.link n l').apply s)
    let kept := fun (f : Flit) => { l with replay := l.replay ++ [{ f with ack := l.ackDue, lseq := l.txLseq, ks := l.txSlot }], txLseq := (l.txLseq + 1) % 4096, txCtr := l.txCtr + 1, ackDue := none }
    let own := fun (vc : Nat) (dst : Nat) (b : FlitBody) => (⟨none, 0, 0, 0, d, dst, vc, false, b, (0, 0)⟩ : Flit)
    (l.up = false ∨ l.retraining = true → exec (.flitTransmit n) s = .next s) ∧
    (l.up = true → l.retraining = false →
      (0 < l.resend → sends { l with resend := l.resend - 1, replayed := l.replayed + 1 }) ∧
      (l.resend = 0 →
        (512 ≤ l.replay.length → exec (.flitTransmit n) s = .next s) ∧
        (l.replay.length < 512 →
          (l.keylim ≤ l.txCtr →
            (l.slotRdy = true → sends { kept (own 3 (neighbour d n) (.keysw (!l.txSlot))) with txSlot := !l.txSlot, txCtr := 0, slotRdy := false, stalled := false }) ∧
            (l.slotRdy = false → l.stalled = true → exec (.flitTransmit n) s = .next s) ∧
            (l.slotRdy = false → l.stalled = false → exec (.flitTransmit n) s = .next { (Upd.link n { l with stalled := true }).apply s with
              harbour := { s.harbour with logPending := s.harbour.logPending ++ [⟨s.gtime, 0xF000, 5, word n, word l.txCtr⟩] } })) ∧
          (l.txCtr < l.keylim →
            let free := { s with free := s.free + 1 }
            (l.waiting = [] → s.fabric.responses = [] → s.fabric.outbox = [] → sends (kept (own 0 (neighbour d n) .idle))) ∧
            (∀ f, l.waiting = [f] → f.vc < 8 → s.fabric.responses = [] → s.fabric.outbox = [] →
              exec (.flitTransmit n) s = .next ((Upd.link n { kept f with waiting := [] }).apply free)) ∧
            (∀ dst tag r, l.waiting = [] → s.fabric.responses = [(dst, tag, r)] → s.fabric.outbox = [] → n ∈ s.routes dst (0, 0) →
              exec (.flitTransmit n) s = .next ((Upd.link n (kept { own 1 dst (.mrsp tag r) with detour := s.onward dst (0, 0) n })).apply { free with fabric := { s.fabric with responses := [] } })) ∧
            (∀ m, l.waiting = [] → s.fabric.responses = [] → s.fabric.outbox = [m] → n ∈ s.routes m.dst (0, 0) →
              exec (.flitTransmit n) s = .next ((Upd.link n (kept { own 0 m.dst (.mreq m) with detour := s.onward m.dst (0, 0) n })).apply { free with fabric := { s.fabric with outbox := [] } }))))))) ∧
  (∀ (s : State) (n : Nat) (f : Flit) (opens : Bool),
    let l := s.link n
    let becomes := fun (i : Instr) (l' : Link) => exec i s = .next ((Upd.link n l').apply s)
    let rx := Instr.flitReceive n f opens
    (l.up = false ∨ l.retraining = true ∨ f.lseq ≠ l.rxExp → exec rx s = .next s) ∧
    (l.up = true → l.retraining = false → f.lseq = l.rxExp →
      (f.ks ≠ l.rxSlot ∨ opens = false → becomes rx { l with fails := l.fails + 1, ackDue := some (true, l.rxExp), retraining := decide (3 ≤ l.fails + 1) }) ∧
      (f.ks = l.rxSlot → opens = true →
        let a := { l with fails := 0, rxExp := (l.rxExp + 1) % 4096, rxCtr := l.rxCtr + 1, ackDue := some (false, f.lseq) }
        let takes := fun (a : Link) =>
          (f.body = .idle → becomes rx a) ∧
          (∀ slot, f.body = .keysw slot → becomes rx { a with rxSlot := slot, rxCtr := 0 }) ∧
          (f.body = .abt ∨ f.body = .abtack ∨ (∃ es, f.body = .cdata es) ∨ (∃ j, f.body = .cmark j) → becomes rx { a with arrived := l.arrived ++ [f] }) ∧
          (f.dst = s.harbour.devid → (∃ m, f.body = .mreq m) ∨ (∃ t r, f.body = .mrsp t r) → becomes rx { a with arrived := l.arrived ++ [f] }) ∧
          (f.body = .reserved → exec rx s = .next { (Upd.link n a).apply s with
            harbour := { s.harbour with logPending := s.harbour.logPending ++ [⟨s.gtime, 0xF000, 5, word n, word f.lseq⟩] } })
        (f.ack = none → takes a) ∧
        (∀ p q x, l.replay = p ++ x :: q → (∀ y ∈ p, y.lseq ≠ x.lseq) →
          (f.ack = some (false, x.lseq) → takes { a with replay := q, resend := min l.resend q.length }) ∧
          (f.ack = some (true, x.lseq) → takes { a with replay := x :: q, resend := q.length + 1, nak := l.nak + 1 })))) ∧
    (l.retraining = true ∨ l.up = true →
      becomes (.retrainComplete n true) { l with
        up := true, retraining := false, fails := 0, badRetrains := 0, retrains := l.retrains + 1, txSlot := false, rxSlot := false, rxCtr := 0, txCtr := l.replay.length, slotRdy := true, stalled := false
        replay := l.replay.map fun x => { x with ks := false, body := match x.body with | .keysw _ => .idle | b => b }, resend := l.replay.length } ∧
      (l.badRetrains + 1 < 3 → becomes (.retrainComplete n false) { l with retraining := true, retrains := l.retrains + 1, badRetrains := l.badRetrains + 1 }) ∧
      (l.badRetrains + 1 = 3 → l.waiting = [] → s.streams = [] →
        becomes (.retrainComplete n false) { l with retrains := l.retrains + 1, badRetrains := 0, up := false, retraining := false })) ∧
    (∀ v, n < 12 → bitOf v 0 = true → (∀ x ∈ l.replay, ∀ slot, x.body ≠ .keysw slot) → becomes (.lkkeyWrite n v true) { l with slotRdy := true }) ∧
    (∀ v, exec (.lkkeyWrite n v false) s = .next s) ∧
    (∀ dev : BitVec 19, ∃ t, exec (.spareTakeover dev) s = .next t ∧ ∀ m, t.link m =
      if m < 12 ∧ linkPresent s.harbour.devid m = true ∧ (neighbour s.harbour.devid m = dev.toNat ∨ s.harbour.devid = dev.toNat) then
        { keylim := (s.link m).keylim, nak := (s.link m).nak, replayed := (s.link m).replayed, retrains := (s.link m).retrains, up := true, slotRdy := true, waiting := (s.link m).waiting }
      else s.link m))

/-- 15 R423, 01 R29, R32, 13 R380: a claim takes the device when it has no owner, or when another owner offers it; only the owner's port may offer it or write windows and the image table, others are reported; a link that stays down ends the ownership; a change of an image's entry makes the cached image stale. 13 R379: the tokens of an ingress stream come in order, IHEAD first, IEND last; one out of order drops the stream with SEQUENCE; a closed stream's record is checked in LAUNCH's order, and enqueued; writes of another port than the owner's are reported. That an ownership which times out ends an offered handover, and which refused writes are logged and how, are the model's reading (logs 23, 31). -/
def Obligations.HostEvents : Prop :=
  (∀ (s : State) (port : Nat) (v : Word), port < 2 →
    let h := s.harbour
    let becomes := fun (i : Instr) (h' : Harbour) => exec i s = .next { s with harbour := h' }
    let logs := fun (i : Instr) (off : Nat) (v : Word) => becomes i { h with logPending := h.logPending ++ [⟨s.gtime, 0xF000, 7, word off, v⟩] }
    let up := h.portUp.get true port
    let mine := h.owner = port + 1
    (h.bootStep = 4 →
      (h.owner = 0 ∨ (¬ mine ∧ h.hpend = true) → becomes (.ownclaimWrite (decide (port = 0)) (decide (port = 1))) { h with owner := port + 1, hpend := false, downTimer := !up }) ∧
      (mine ∨ (h.owner ≠ 0 ∧ h.hpend = false) → becomes (.ownclaimWrite (decide (port = 0)) (decide (port = 1))) h) ∧
      (h.owner = 0 → becomes (.ownclaimWrite true true) { h with owner := 1, hpend := false, downTimer := !h.portUp.get true 0 })) ∧
    (h.bootStep ≠ 4 → becomes (.ownclaimWrite true true) h) ∧
    (mine → becomes (.ownhandWrite port v) { h with hpend := bitOf v 0 }) ∧
    (¬ mine → logs (.ownhandWrite port v) 0x10 v) ∧
    (h.owner ≠ 0 → h.downTimer = true → becomes .ownerLinkTimeout { h with owner := 0, hpend := false, downTimer := false }) ∧
    (∀ up, becomes (.hostPortLinkDown port up) { h with portUp := Tbl.put true port up h.portUp, downTimer := if h.owner = port + 1 then !up else h.downTimer }) ∧
    (∀ w dw, w < 1024 → dw < 2 →
      (mine → becomes (.hostWindowWrite port w dw v) { h with windows := Tbl.put 0 (2 * w + dw) (v &&& if dw = 0 then 0xFFFFFFFFFFFF0000 else 0xFFFFFFFF0000000F) h.windows }) ∧
      (¬ mine → logs (.hostWindowWrite port w dw v) (0x20000 + 16 * w + 8 * dw) v)) ∧
    (∀ e dw, e < 4096 → dw < 2 → s.queues = [] →
      (mine → ∃ t, exec (.imageTableWrite port e dw v) s = .next t ∧
        t.harbour.images = Tbl.put 0 (2 * e + dw) (word (fld v 0 (if dw = 0 then 49 else 39))) h.images ∧
        (∀ c ∈ t.harbour.cache, (bitOf (h.images.get 0 (2 * e)) 48 = true ∧ c.handle = fld (h.images.get 0 (2 * e)) 0 48) ∨
          (bitOf (t.harbour.images.get 0 (2 * e)) 48 = true ∧ c.handle = fld (t.harbour.images.get 0 (2 * e)) 0 48) → c.stale = true) ∧
        t.harbour.cache.map (·.handle) = h.cache.map (·.handle)) ∧
      (¬ mine → logs (.imageTableWrite port e dw v) (0x30000 + 16 * e + 8 * dw) v)) ∧
    ((∀ r ∈ s.fabric.requests, r.host = none) → (∀ x ∈ s.strands, x.2.vlda = [] ∧ x.2.held = [] ∧ x.2.ntf = []) → (∀ c ∈ s.chans, ∀ x ∈ c.2.q, x.phase = .idle ∧ x.held = []) →
      (∀ v ∈ s.streams, v.2.held = []) → becomes (.hwsyncRead port) { h with hostOut := h.hostOut ++ [.answer port 0], unconfirmed := [] }) ∧
    (∀ r ∈ s.fabric.requests, r.host ≠ none → exec (.hwsyncRead port) s = .next s) ∧
    (becomes (.hirqWrite port v) { h with hostOut := h.hostOut ++ [.msix port (fld v 0 6)] })) ∧
  (∀ (s : State) (port i : Nat) (v : Word), s.Good → port < 2 → i < 64 →
    let h := s.harbour
    let x := s.ingress port i
    let put := fun (y : Ingress) => { s with harbour := { h with ingress := Tbl.put {} (64 * port + i) y h.ingress } }
    let fails := fun (j : Instr) => exec j s = .next (put { x with words := [], active := false, status := 4 })
    let takes := fun (j : Instr) (ok : Prop) =>
      (x.active = true ∧ ok → exec j s = .next (put { x with words := x.words ++ [v] })) ∧ (¬ (x.active = true ∧ ok) → fails j)
    let n := recNargs x.words
    (h.owner = port + 1 →
      exec (.ihead port i v) s = .next (put { x with words := [v], active := true, status := if x.active then 4 else x.status }) ∧
      takes (.ictrl port i v) (x.words.length = 1) ∧
      takes (.itstamp port i v) (x.words.length = 2) ∧
      takes (.icmpl port i v) (x.words.length = 3) ∧
      takes (.iarg port i v) (4 ≤ x.words.length ∧ x.words.length < 4 + n) ∧
      (¬ (x.active = true ∧ x.words.length = 4 + n) → fails (.iend port i v)) ∧
      (x.active = true → x.words.length = 4 + n →
        let dw := x.words.take 4 ++ [0] ++ x.words.drop 4
        let q := recQueue dw
        let closes := fun (st : Nat) => put { x with words := [], active := false, count := if st = 0 then (x.count + 1) % 2 ^ 32 else x.count, status := st }
        let bad := s.recMalformed (s.queue q).ctx dw = true ∨ recCkind dw = 3
        let usable := (s.queue q).hostok = true ∧ (s.queue q).prio ≠ 7
        let full := (s.queue q).cap ≤ (s.queue q).recs.length
        (bad → exec (.iend port i v) s = .next (closes 1)) ∧
        (¬ bad → ¬ usable → exec (.iend port i v) s = .next (closes 2)) ∧
        (¬ bad → usable → full → exec (.iend port i v) s = .next (closes 3)) ∧
        (¬ bad → usable → ¬ full → (s.queue q).shadow = none → ∃ t, exec (.iend port i v) s = .next t ∧ (closes 0).Received t s.here q dw))) ∧
    (h.owner ≠ port + 1 →
      let logs := fun (j : Instr) (off : Nat) => exec j s = .next { s with harbour := { h with logPending := h.logPending ++ [⟨s.gtime, 0xF000, 7, word (0x40000 + 0x1000 * i + off), v⟩] } }
      logs (.ihead port i v) 0 ∧ logs (.ictrl port i v) 8 ∧ logs (.itstamp port i v) 0x10 ∧ logs (.icmpl port i v) 0x18 ∧ logs (.iarg port i v) 0x20 ∧ logs (.iend port i v) 0x28) ∧
    exec (.istatRead port i) s = .next { s with harbour := { h with hostOut := h.hostOut ++ [.answer port (word (x.count * 2 ^ 32 + x.status))] } })

/-- 01 R33, R34, 03 R77, 06 R176, 13 R374, 14 R390, 19 R454: writes of the device registers. Firmware sets a pan's clamps and partition words; a strand's write of them is ignored and reported; a queue that is not busy takes its configuration; traffic counters are cleared and frozen; the power limit only falls, and a raise is reported. What is logged of a refused write, and that a write of QCFG discards a shadow task, are the model's reading (logs 31, 37). -/
def Obligations.RegisterWrites : Prop :=
  ∀ (s : State) (v : Word), s.Good →
    let h := s.harbour
    let logs := fun (i : Instr) (off : Nat) (v : Word) => exec i s = .next { s with harbour := { h with logPending := h.logPending ++ [⟨s.gtime, 0xF000, 7, word off, v⟩] } }
    let unmonitored := ∀ k n, (s.strand k).monitor ≠ .io n
    (∀ p, Config.panExists p = true →
      let x := s.pan p
      let sets := fun (off : Nat) (y : Pan) => exec (.panControlWrite p off v true) s = .next ((Upd.pan p y).apply s) ∧
        (unmonitored → exec (.registerWrite (0x200000 + 0x100 * p + off) v true) s = .next ((Upd.pan p y).apply s))
      sets 0 { x with vlclamp := word (max 8 (fld v 0 12)) } ∧
      sets 8 { x with rgclamp := word (fld v 0 21) } ∧
      (∀ k < 4, let r := x.res.get {} k
        sets (0x10 + 0x10 * k) { x with res := Tbl.put {} k { r with spbase := word (fld v 8 12 * 256) } x.res } ∧
        sets (0x18 + 0x10 * k) { x with res := Tbl.put {} k { r with splim := word (min 4096 (fld v 8 13) * 256) } x.res }) ∧
      (∀ off, off < 0x100 → off % 8 = 0 → logs (.panControlWrite p off v false) (0x200000 + 0x100 * p + off) v)) ∧
    (∀ q < 512,
      let y := s.queue q
      let c := v &&& 0xFFFFFFFF7000FFFF
      let locked := fld y.cfg 48 16 ≠ fld c 48 16 ∨ bitOf y.cfg 45 ≠ bitOf c 45 ∨ bitOf y.cfg 44 ≠ bitOf c 44
      let busy := y.recs ≠ [] ∨ ∃ k z, s.kernel k = some z ∧ z.queue = q
      (y.shadow = none → ¬ (locked ∧ busy) → exec (.qcfgWrite q v true) s =
        .next ((Upd.queue q { y with cfg := c, level := if fld y.cfg 28 3 = fld c 28 3 then y.level else fld c 28 3 }).apply s)) ∧
      (locked → busy → logs (.qcfgWrite q v true) (0x10000 + 16 * q) c) ∧
      exec (.qcfgWrite q v false) s = .next s) ∧
    (∀ d < 8, exec (.tcctlClear d) s = .next ((Upd.die d { s.die d with tc := [] }).apply s) ∧
      ∀ on, exec (.tcctlFreeze d on) s = .next ((Upd.die d { s.die d with freeze := on }).apply s)) ∧
    (fld v 0 16 ≤ s.pwrlim → exec (.pwrlimWrite v) s = .next { s with pwrlim := fld v 0 16 }) ∧
    (s.pwrlim < fld v 0 16 → logs (.pwrlimWrite v) 0x70000 v) ∧
    (unmonitored →
      (∀ fw, exec (.registerWrite 0x70300 v fw) s = .next { s with harbour := { h with inroot := word (fld v 12 27 * 4096) } }) ∧
      exec (.registerWrite 0x60000 v true) s = .next { s with harbour := { h with colltmo := word (fld v 0 32) } } ∧
      exec (.registerWrite 0x60000 v false) s = .next s) ∧
    (∀ off fw t, off % 8 = 0 → (∀ q, (s.queue q).shadow = none) → exec (.registerWrite off v fw) s = .next t → ∀ k, (s.strand k).monitor = .io (off / 128) → (t.strand k).latch = true)

/-- 19 R453 to R456: the power sample withholds issue above the limit; a hot die throttles; a trip takes every link down, ends every host access with an error and is reported; reset puts everything in its reset state; boot runs its steps in order, clears memory and pan storage, trains the links, and stops at a step that fails; a scrubbed word with a corrected error is reported, one with an uncorrectable error is poisoned and reported; the log takes its entries in order of time, then of source, and loses the oldest when it is full. 15 R423: an attestation report covers the ROM, the firmware, the resident images and the nonce. The contents of a report, the fields of the model's own that a reset keeps, and the details of boot, trip, scrub and log are the model's choices (logs 5, 24, 32). -/
def Obligations.DeviceEvents : Prop :=
  ∀ (s : State), s.Good →
    let h := s.harbour
    let becomes := fun (i : Instr) (h' : Harbour) => exec i s = .next { s with harbour := h' }
    let entry := fun (src cls : Nat) (a v : Word) => h.logPending ++ [(⟨s.gtime, src, cls, a, v⟩ : LogEnt)]
    (∀ avg, becomes (.powerLimiterSample avg) { h with withheld := decide (s.pwrlim < avg) }) ∧
    (∀ die hot, die < 8 → becomes (.thermalThrottle die hot) { h with throttled := if hot then NSet.ins die h.throttled else NSet.del die h.throttled }) ∧
    ((∀ r ∈ s.fabric.requests, r.host ≠ none → ∃ k, r.who = .strand k) →
      ∃ t, exec .thermalTrip s = .next t ∧ t.harbour.tripped = true ∧ (∀ n < 12, (t.link n).up = false) ∧ (∀ r ∈ t.fabric.requests, r.host = none) ∧
        t.harbour.hostOut = h.hostOut ++ (s.fabric.requests.filterMap fun r => r.host.map fun x => .error x.1) ∧
        t.harbour.logPending = entry 0xF000 6 0 0 ∧ t.mem = s.mem ∧ t.panMem = s.panMem) ∧
    (exec .reset s = .next { State.reset with free := s.free, nextId := s.nextId, turns := s.turns, cur := s.cur }) ∧
    (h.bootFail = true ∨ 4 ≤ h.bootStep → ∀ ok, exec (.bootStepComplete ok) s = .next s) ∧
    (h.bootFail = false → h.bootStep < 4 → becomes (.bootStepComplete false) { h with bootFail := true }) ∧
    (h.bootFail = false →
      (h.bootStep = 0 → becomes (.bootStepComplete true) { h with bootStep := 1 }) ∧
      (h.bootStep = 1 → exec (.bootStepComplete true) s = .next { s with mem := [], poison := [], harbour := { h with bootStep := 2 } }) ∧
      (h.bootStep = 2 → ∃ t, exec (.bootStepComplete true) s = .next t ∧ t.harbour = { h with bootStep := 3, sramPoison := [] } ∧ t.mem = s.mem ∧ (∀ a, t.panByte a = 0) ∧
        (∀ k < 4096, t.strand k = {}) ∧ (∀ k, 4096 ≤ k → t.strand k = s.strand k) ∧ (∀ p, t.pan p = {}) ∧ (∀ r, t.region r = none) ∧ (∀ c, t.chan c = {}) ∧ ∀ q, t.queue q = {}) ∧
      (h.bootStep = 3 → ∃ t, exec (.bootStepComplete true) s = .next t ∧ t.harbour = { h with bootStep := 4, portUp := [] } ∧ t.mem = s.mem ∧
        (∀ n, linkPresent h.devid n = true → n < 12 → (t.link n).up = true ∧ (t.link n).slotRdy = true ∧ (t.link n).rxExp = 0 ∧ (t.link n).replay = []) ∧
        ∀ q, bitOf (t.queue q).cfg 47 = false ∧ (t.queue q).recs = (s.queue q).recs)) ∧
    (∀ port nonce, port < 2 →
      (h.owner = port + 1 → nonce.length = 32 → becomes (.attestationRequest port nonce)
        { h with reports := h.reports ++ [⟨port, (List.range 8).map Config.deviceDigest, (h.cache.filter fun c => !c.stale && !c.hdr.isEmpty).map fun c => c.hdr.drop 12, nonce⟩] }) ∧
      (h.owner ≠ port + 1 → becomes (.attestationRequest port nonce) { h with logPending := entry 0xF000 7 0 0 })) ∧
    (∀ u n, exec (.patrolScrub u n .clean) s = .next s) ∧
    (∀ g, g < 2 ^ 33 →
      becomes (.patrolScrub .hbm g .corrected) { h with logPending := entry (g / 2 ^ 30 * 256 + 255) 1 (word (64 * g)) 0 } ∧
      exec (.patrolScrub .hbm g .uncorrectable) s = .next { s with poison := NSet.ins g s.poison, harbour := { h with logPending := entry (g / 2 ^ 30 * 256 + 255) 2 (word (64 * g)) 0 } }) ∧
    (∀ p w, Config.panExists p = true → w < 1048576 →
      becomes (.patrolScrub .bank (1048576 * p + w) .corrected) { h with logPending := entry (p / 128 * 256 + p % 128) 1 (word (8 * w)) 0 } ∧
      exec (.patrolScrub .bank (1048576 * p + w) .uncorrectable) s =
        .next { s with panPoison := NSet.ins (1048576 * p + w) s.panPoison, harbour := { h with logPending := entry (p / 128 * 256 + p % 128) 2 (word (8 * w)) 0 } }) ∧
    (∀ src n,
      becomes (.patrolScrub (.sram src) n .corrected) { h with logPending := entry src 1 (word n) 0 } ∧
      becomes (.patrolScrub (.sram src) n .uncorrectable) { h with
        sramPoison := (src, n) :: h.sramPoison.filter (fun x => decide (x ≠ (src, n))), logPending := entry src 2 (word n) 0 }) ∧
    (∀ l e r, h.logPending = l ++ e :: r → (∀ x ∈ l, e.time < x.time ∨ (e.time = x.time ∧ e.source < x.source)) → (∀ x ∈ r, e.time < x.time ∨ (e.time = x.time ∧ e.source ≤ x.source)) →
      let full := 4096 ≤ h.log.length
      exec .errorLogPlace s = .next { s with gtime := max s.gtime (e.time + 1), harbour := { h with
        logPending := l ++ r, log := (if full then h.log.drop (h.log.length - 4095) else h.log) ++ [e], elost := if full then h.elost + 1 else h.elost } })

/-- 06 R160, R162, 14 R395 to R402: the events of a block's life. Its strands start at the kernel's entry point with the registers of the table; a pre-emption stops them between instructions and parks the block once all is quiet, with what has changed of them written to their save areas (14 R398); a resumed block goes on where its pans are free, its strands filled from there; a kill marks every strand and traps those that do not handle one; a block that has ended retires, and the last one ends its kernel. 14 R399, R404, R405, 06 R166: eviction ends a parked residency on a pan, and writes the partition's image (02 R61) to the context's eviction area; migration moves a block's strands and the bytes of its partitions to its new pans, where the block goes on. Where an image is mapped and a stack begins are free values (log 16); when a pre-empted block stops and what is kept is the model's reading (log 29). -/
def Obligations.BlockEvents : Prop :=
  (∀ (s : State) (b : Nat) (blk : Block), s.Good → s.block b = some blk →
    let alone := ∀ b' y, s.block b' = some y → b' ≠ b → y.st = .parked → ∀ p ∈ y.pans, p ∉ blk.pans
    let stands := blk.pans.Nodup ∧ blk.home = blk.pans
    (∀ k c, blk.st = .placed → stands → alone → blk.killOnResume = false → s.kernel blk.kernel = some k → s.context blk.ctx = some c → k.strands ≤ 4 →
      ∃ t, exec (.blockStart b) s = .next t ∧ t.block b = some { blk with st := .running, preempt := false, resume := false } ∧
        ∀ i p j, blk.pans[i]? = some p → j < k.strands →
          let key := 4 * p + j
          let st := t.strand key
          let base := Config.imageVA k.ctx (recImage k.dw)
          let g := fun (n : Nat) => st.g.get 0 n
          st.st = .run ∧ st.pc = base + word ((imgSec k.hdr 0).1 + imgEntry k.hdr (recEntry k.dw)) ∧ st.ctx = k.ctx ∧ st.block = some b ∧ st.weight = 4 ∧ st.sup = false ∧
          st.kill = 0 ∧ bitOf st.tstatus 3 = false ∧ st.blockid = word blk.idx ∧ st.blockcount = word k.nblk ∧ st.tvec = (s.strand key).tvec ∧
          g 1 = c.stub ∧ g 2 = Config.stackTop k.ctx key * 16 ∧ g 3 = base + word (fld (dwAt k.hdr 7) 32 32) ∧
          (∀ n < 8, g (4 + n) = dwAt ((recArgs k.dw).take (recNargs k.dw)) n) ∧ g 12 = word blk.idx ∧ g 13 = c.argBase + word (128 * k.arg) ∧ g 14 = word (4 * i + j) ∧
          ∀ n, 15 ≤ n → g n = 0) ∧
    (blk.st = .running → ∃ t, exec (.preemptRequest b) s = .next t ∧ t.block b = some { blk with preempt := true, migReq := false } ∧
      ∀ k ∈ s.blockStrands blk, let st := s.strand k
        (t.strand k).pc = st.pc ∧ (t.strand k).latch = true ∧
        (st.st = .run ∨ st.st = .trap → (t.strand k).st = .saved ∧ (t.strand k).resumeTo = st.st) ∧
        (st.st = .wait → (t.strand k).st = .saved ∧ (t.strand k).resumeTo = .run) ∧ (st.st = .idle → (t.strand k).st = .idle)) ∧
    (∀ c, blk.st = .running → blk.preempt = true → s.blockQuiet blk = true → stands → s.context blk.ctx = some c → s.strandsOf blk ≤ 4 → c.saveBase + 2 ^ 23 * (blk.area + 1) ≤ memLimit →
      (∀ k ∈ s.blockStrands blk, (s.strand k).savesApart (Config.shoal (dieOf k)) = true) → blk.pans.length ≤ 16 →
      let at_ := fun (i p j x : Nat) (v : Byte) => blk.pans[i]? = some p ∧ j < s.strandsOf blk ∧ s.saves (4 * p + j) (saveSlot c blk.area i j) x v
      ∃ t, exec (.preemptComplete b) s = .next t ∧
      t.block b = some { blk with st := .parked, preempt := false } ∧ (∀ p ∈ blk.pans, ∀ i, s.resOf p blk.ctx = some i → ((t.pan p).res.get {} i).st = .parked) ∧
      (∀ k ∈ s.blockStrands blk, (t.strand k).st = (s.strand k).st ∧ (t.strand k).saved = true ∧ (t.strand k).mdirty = [] ∧ (Tbl.wf {} (s.strand k).v = true → ∀ r, (t.strand k).vreg r = { (s.strand k).vreg r with dirty := false })) ∧
      (∀ i p j x v, at_ i p j x v → t.byte x = v) ∧ ∀ x, (∀ i p j v, ¬ at_ i p j x v) → t.byte x = s.byte x) ∧
    (blk.st = .parked → exec (.resumeRequest b) s = .next ((Upd.block b (some { blk with resume := true })).apply s)) ∧
    (∀ k c, blk.st = .parked → blk.resume = true → stands → alone → blk.killOnResume = false → s.ckpt.halted = false → s.kernel blk.kernel = some k → s.context blk.ctx = some c → k.strands ≤ 4 →
      (∀ p ∈ blk.pans, s.panFree noSkip p blk.ctx k.slots none = true) →
      let image := fun (i p j : Nat) => s.savedStrand (4 * p + j) (saveSlot c blk.area i j)
      (∀ i p j, blk.pans[i]? = some p → j < k.strands → ∃ y, image i p j = .ok y) →
      ∃ t, exec (.blockResume b) s = .next t ∧ t.block b = some { blk with st := .running, preempt := false, resume := false } ∧
        ∀ i p j y, blk.pans[i]? = some p → j < k.strands → image i p j = .ok y → t.strand (4 * p + j) =
          { y with saved := true, st := if y.st = .saved then y.resumeTo else y.st, resumeTo := if y.st = .saved then .idle else y.resumeTo }) ∧
    (∀ k, k < 4096 → Config.panExists (panOf k) = true → (s.strand k).block = some b → s.shadowOf k = none → blk.st = .running → blk.preempt = false → (s.blockStrands blk).Nodup →
      ∃ t y, exec (.killWrite k) s = .next t ∧ t.block b = some y ∧ ((∃ x ∈ s.blockStrands blk, (s.strand x).st ≠ .idle ∧ bitOf (s.strand x).tstatus 3 = false) → y.st = .killed) ∧ (∀ z, s.kernel blk.kernel = some z → t.kernel blk.kernel = some { z with killed := true }) ∧
        ∀ x ∈ s.blockStrands blk, let st := s.strand x
          (t.strand x).kill = 1 ∧
          (st.st ≠ .idle → bitOf st.tstatus 3 = false → (t.strand x).st = .trap ∧ (t.strand x).tcause = 0x10 ∧ (t.strand x).tval = 0 ∧ (t.strand x).tpc = st.nextPc ∧
            (t.strand x).pc = word (fld st.tvec 2 62 * 4) ∧ (t.strand x).sup = true ∧ bitOf (t.strand x).tstatus 3 = true)) ∧
    (∀ k, blk.st = .ending → s.blockWorks b blk = false → s.kernel blk.kernel = some k →
      ∃ t, exec (.blockRetire b) s = .next t ∧ t.block b = none ∧ (∀ x ∈ s.blockStrands blk, (t.strand x).block ≠ some b) ∧
        (k.retired + 1 ≠ k.nblk → t.kernel blk.kernel = some { k with retired := k.retired + 1 }) ∧
        (k.retired + 1 = k.nblk → k.task = none → recCkind k.dw = 0 → dwAt k.dw 4 = 0 → t.kernel blk.kernel = none ∧
          (t.queue k.queue).begun = (s.queue k.queue).begun.filter fun r => decide (r ≠ k.rid)))) ∧
  (∀ (s : State), s.Good →
    (∀ p i, i < 4 → let r := (s.pan p).res.get {} i
      (r.st = .parked → exec (.evictRequest p i) s = .next ((Upd.pan p { s.pan p with res := Tbl.put {} i { r with st := .evicting } (s.pan p).res }).apply s)) ∧
      (∀ c, r.st = .evicting → s.evictQuiet p r.ctx = true → s.context r.ctx = some c → s.resOf p r.ctx = some i → s.regionsOf p r.ctx = [] → p < 1024 →
        (∀ b y, s.block b = some y → y.ctx = r.ctx → y.st = .parked → p ∉ y.pans) →
        let base := fld r.spbase 8 12
        let lim := fld r.splim 8 13
        let area := evictArea c (s.freeArea r.ctx c)
        lim ≤ 4096 → area + 2 ^ 28 ≤ memLimit →
        ∃ t, exec (.evictionComplete p i) s = .next t ∧ (t.pan p).res.get {} i = {} ∧ t.context r.ctx = some { c with away := c.away ++ [(2 ^ 64 + s.nextId, ⟨r.spbase, r.splim, area, Config.shoal (p / 128)⟩)] } ∧
          (∀ b l j, b < 256 → base ≤ l → l < lim → j < 8 → t.byte (area + 8 * (256 * (l - base) + b) + j) = s.panByte (panKey p (8 * panWordOf b l + j))) ∧
          ∀ a, a < area ∨ area + (lim - base) * 2048 ≤ a → t.byte a = s.byte a)) ∧
    (∀ b blk, s.block b = some blk → blk.st = .moving → s.blockQuiet blk = true → s.writesDone b blk = true → s.chansFit b blk.pans blk.target = true → blk.preempt = false → blk.killOnResume = false → blk.home = blk.pans →
      blk.target.length = blk.pans.length → (blk.pans ++ blk.target).Nodup → s.strandsOf blk ≤ 4 →
      (∀ p ∈ blk.target, Config.panExists p = true ∧ s.resOf p blk.ctx = none ∧ (s.freeRes p).isSome = true) →
      (∀ p ∈ blk.pans, Config.panExists p = true ∧ s.regionsOf p blk.ctx = []) →
      ∃ t, exec (.migrationCopyComplete b) s = .next t ∧
        t.block b = some { blk with st := .running, die := blk.target.headD 0 / 128, bay := blk.target.headD 0 / 16 % 8, pans := blk.target, home := blk.target, mig := true, target := [], resume := false } ∧
        ∀ n old new : Nat, blk.pans[n]? = some old → blk.target[n]? = some new →
          (∃ i, t.resOf new blk.ctx = some i) ∧
          (∀ j < s.strandsOf blk, (t.strand (4 * new + j)).pc = (s.strand (4 * old + j)).pc ∧ ∀ x, (t.strand (4 * new + j)).g.get 0 x = (s.strand (4 * old + j)).g.get 0 x) ∧
          ∀ i a, s.resOf old blk.ctx = some i → let r := (s.pan old).res.get {} i
            fld r.splim 8 13 ≤ 4096 → fld r.spbase 8 12 * 2048 ≤ a → a < fld r.splim 8 13 * 2048 → t.panByte (panKey new a) = s.panByte (panKey old a)))

/-- 06 R156, R160, R167, 13 R383, R386, R459: firmware makes a context under a free number from what it records, and destroys one that has no kernel, whose rings, counters and streams are then free; it clears a queue of the records that have not begun. 15 R424 to R426, R457: a checkpoint starts by stopping dispatch; a device on which nothing is left to stop keeps its cut and reports itself, and streams it once every device of the domain has; the completed cut joins the one before it; recovery puts memory, rings, counters and ownership back as they were, and drops translations and work. What the events check and free, and what a cut holds and recovery restores, are the model's reading (logs 22, 30). -/
def Obligations.ContextsAndCheckpoints : Prop :=
  ((∀ (s : State) (c : CtxSpec),
    let ok := c.num < 0xFFFF ∧ s.context c.num = none ∧ c.lclass < 4 ∧ c.psize ≤ 4096 ∧ c.argBase.toNat % 128 = 0 ∧ 1 ≤ c.argN ∧ c.argN ≤ 65536
    (ok → exec (.contextCreate c) s = .next ((Upd.context c.num (some ⟨c.troot, c.lclass, c.psize, c.argBase, c.argN, c.argN - 1, [], c.stub, c.saveBase, c.evictBase, []⟩)).apply s)) ∧
    (s.context c.num ≠ none → exec (.contextCreate c) s = .next s)) ∧
  (∀ (s : State) (c : Nat) (x : Ctx), s.Good → s.context c = some x → s.tasks = [] →
    ((∀ k y, s.kernel k = some y → y.ctx ≠ c) →
      ∃ t, exec (.contextDestroy c) s = .next t ∧ t.context c = none ∧ (∀ d, d ≠ c → t.context d = s.context d) ∧
        (∀ i, t.ring i = if (s.ring i).owner = some c then {} else s.ring i) ∧
        (∀ i, t.counter i = if (s.counter i).owner = some c then {} else s.counter i) ∧
        (∀ i, t.stream i = if (s.stream i).owner = some c then { seq := (s.stream i).seq } else s.stream i) ∧
        t.mem = s.mem ∧ t.panMem = s.panMem ∧ t.strands = s.strands) ∧
    ((∃ k y, s.kernel k = some y ∧ y.ctx = c) → exec (.contextDestroy c) s = .next s)) ∧
  (∀ (s : State) (q : Nat), (s.queue q).shadow = none → (∀ r ∈ (s.queue q).recs, r.kernel = none → r.prior = none) →
    ∃ h, exec (.queueClear q) s = .next { (Upd.queue q { s.queue q with recs := (s.queue q).recs.filter fun r => r.kernel.isSome, hist := [] }).apply s with harbour := h } ∧
      h = { s.harbour with loads := h.loads, waitLogged := h.waitLogged, logPending := h.logPending })) ∧
  (∀ (s : State), s.Good → Tbl.wf 0 s.harbour.domtab = true →
    let k := s.ckpt
    let others := fun (rep : NSet) => ∀ i j, j < 64 → bitOf (s.harbour.domtab.get 0 i) j = true → i * 64 + j ≠ s.harbour.devid → i * 64 + j ∈ rep
    (k.active = false → s.blocks = [] → s.tasks = [] → s.pans = [] → s.streams = [] → s.fabric.requests = [] → s.fabric.outbox = [] → s.fabric.inbound = [] → s.fabric.moving = [] →
      ∃ t cut, exec .checkpointStart s = .next t ∧ t.ckpt.active = true ∧ t.ckpt.quiesced = true ∧ t.ckpt.cut = some cut ∧ t.ckpt.kept = k.kept ∧
        (t.ckpt.streaming = true ↔ others []) ∧ cut.time = s.gtime ∧ cut.mem = s.mem ∧ cut.poison = s.poison ∧ cut.rings = s.rings ∧ cut.counters = s.counters ∧ cut.owned = s.fabric.owned ∧ cut.away = s.fabric.away ∧ cut.back = s.fabric.back ∧
        t.mem = s.mem ∧ t.panMem = s.panMem ∧ ∀ q, bitOf (t.queue q).cfg 47 = false) ∧
    (∀ dev : BitVec 19, k.streaming = false → ∃ rep, (∀ d, d ∈ rep ↔ d = dev.toNat ∨ d ∈ k.reports) ∧
      (k.quiesced = true → others rep → exec (.quiescedReport dev) s = .next { s with ckpt := { k with reports := rep, streaming := true } }) ∧
      (k.quiesced = false ∨ ¬ others rep → exec (.quiescedReport dev) s = .next { s with ckpt := { k with reports := rep } })) ∧
    (∀ cut, k.streaming = true → k.cut = some cut → exec .checkpointComplete s = .next { s with ckpt := { kept := (cut :: k.kept).take 2 } }) ∧
    (k.streaming = false → exec .checkpointComplete s = .next s) ∧
    (k.kept = [] → exec .faultRecovery s = .next s) ∧
    (∀ cut older, k.kept = cut :: older → Memory.wf cut.mem → ∃ t, exec .faultRecovery s = .next t ∧ t.mem = cut.mem ∧ (∀ a, t.panByte a = 0) ∧
      (∀ i, t.ring i = cut.rings.get {} i) ∧ (∀ i, t.counter i = cut.counters.get {} i) ∧ (∀ i, t.stream i = cut.streams.get {} i) ∧ (∀ i, t.block i = cut.blocks.get none i) ∧
      (∀ i, i < 4096 → t.strand i = cut.strands.get {} i) ∧ t.fabric = { owned := cut.owned, away := cut.away, back := cut.back } ∧ (∀ p, (t.pan p).tlb = [] ∧ (t.pan p).icache = []) ∧
      t.invs = [] ∧ t.ckpt.kept = cut :: older ∧ t.ckpt.active = false))

/-- 13 R377, R380, 05 R136 to R138: a queue that has waited a million ticks with a front goes up a level, but not above 6; a load ends with the image kept, with its header where the loader's checks pass; a record that waits for room enters its queue; the oldest finished task commits its bytes, and its kernel completes. 13 R376, R378, R380, R381, R459, 06 R166: with one queue that is ready for the die whose turn it is, and nothing else to place, a dispatch cycle takes the queue's front: its kernel begins, its one block is placed on the pans that fit, where its context becomes resident; the record is gone, and the next cycle begins with the next die. The order of the decisions of one cycle is the model's reading (log 28). -/
def Obligations.Scheduling : Prop :=
  (∀ (s : State), s.Good →
    (∀ q, let x := s.queue q
      (x.recs ≠ [] → x.prio ≠ 7 → x.level < 6 → exec (.queueAging q) s =
        .next ((Upd.queue q { x with level := x.level + 1, since := x.since + 1000000 }).apply { s with gtime := max s.gtime (x.since + 1000000) })) ∧
      (x.recs = [] ∨ x.prio = 7 ∨ 6 ≤ x.level → exec (.queueAging q) s = .next s)) ∧
    (∀ id : BitVec 48, let h := s.harbour
      let cache := h.cache.filter fun c => decide (c.handle ≠ id.toNat)
      (id.toNat ∉ h.loads → exec (.imageLoadComplete id) s = .next s) ∧
      (id.toNat ∈ h.loads → cache.length < 256 → s.queues = [] → ∀ hdr, (s.imageSrc id.toNat).bind s.checkImage = some hdr →
        exec (.imageLoadComplete id) s = .next { s with nextId := s.nextId + 1, harbour := { h with loads := h.loads.filter fun y => decide (y ≠ id.toNat), cache := cache ++ [⟨id.toNat, hdr, false, s.nextId⟩] } }) ∧
      (id.toNat ∈ h.loads → (s.imageSrc id.toNat).bind s.checkImage = none → ∃ t, exec (.imageLoadComplete id) s = .next t ∧ t.harbour.cache = cache ∧
        ∀ q, (t.queue q).recs = (s.queue q).recs.map fun r => if r.kernel.isNone && decide (recImage r.dw = id.toNat) then { r with bad := true } else r)) ∧
    (∀ l q dw x r, s.sched.held = l ++ (q, dw, x) :: r → (∀ y ∈ l, y.1 ≠ q) →
      ((s.queue q).recs.length < (s.queue q).cap → (s.queue q).shadow = none →
        ∃ t, exec (.heldRecordEnqueue l.length) s = .next t ∧ ({ s with sched := { s.sched with held := l ++ r } } : State).Received t s.here q dw) ∧
      ((s.queue q).cap ≤ (s.queue q).recs.length → exec (.heldRecordEnqueue l.length) s = .next s)) ∧
    (∀ id x k, s.tasks = [(id, some x)] → x.finished = true → x.shadow = false → x.direct = false → x.recs = [] → s.isOldest id = true → s.dies = [] →
      (x.buf.map (·.1)).Nodup → (∀ c ∈ x.buf, c.1 < memLimit) → s.kernel x.kernel = some k → recCkind k.dw = 0 → dwAt k.dw 4 = 0 →
      ∃ t, exec (.taskCommit id) s = .next t ∧ t.tasks = [] ∧ t.kernel x.kernel = none ∧ t.sched.commits = s.sched.commits ++ [(x.ts, x.lines.map (·.1))] ∧
        (∀ c ∈ x.buf, t.byte c.1 = c.2) ∧ ∀ a, (∀ c ∈ x.buf, c.1 ≠ a) → t.byte a = s.byte a)) ∧
  (∀ (s : State) (q : Nat) (x : LQueue) (r : QRec) (c : CachedImg) (y : Ctx) (pans : List Nat), s.Good →
    s.queues = [(q, x)] → q < 512 → x.recs = [r] → x.en = true → x.ordered = false → x.specok = false → x.shadow = none → r.kernel = none → r.bound = none → r.bad = false → r.next = 0 → recNblk r.dw = 1 →
    s.blocks = [] → s.tasks = [] → s.kernels = [] → s.dies = [] → s.ckpt.halted = false → s.resident (recImage r.dw) = some c → agrees c.hdr r.dw = true → s.context x.ctx = some y → y.away = [] →
    s.sched.dieptr < 8 → s.ready noSkip q r s.sched.dieptr = true → s.recFit noSkip q r s.sched.dieptr = some pans → pans ≠ [] →
    ∃ t arg, exec .dispatchCycle s = .next t ∧
      t.kernel s.nextId = some ⟨r.id, q, x.ctx, r.dw, c.hdr, 1, needPans c.hdr r.dw, needStrands c.hdr r.dw, needSlots c.hdr r.dw, 1, 0, false, arg, none, false⟩ ∧
      t.block (s.nextId + 1) = some ⟨s.nextId, x.ctx, 0, .placed, pans.headD 0 / 128, pans.headD 0 / 16 % 8, pans, pans, 0, false, false, false, false, false, [], []⟩ ∧
      (∀ p ∈ pans, p / 128 = s.sched.dieptr ∧ ∃ i, t.resOf p x.ctx = some i ∧ ((t.pan p).res.get {} i).st = .running) ∧
      (t.queue q).recs = [] ∧ (t.queue q).begun = x.begun ++ [r.id] ∧ (t.queue q).deficit = 0 ∧
      t.sched.dieptr = (s.sched.dieptr + 1) % 8)

/-- 08 R209, R210, R226: words written out from the encoding tables decode to the instructions they stand for. -/
def Obligations.DecodeWords : Prop :=
  decodeBits (0#32 ++ (3#4 ++ 0#3 ++ 4#5 ++ 2#5 ++ 1#5 ++ 0x00#6 ++ 0#3 ++ 1#1)) = some (.add 1 2 4 3, 4) ∧
  decodeBits (0#32 ++ (0xFFF#12 ++ 2#5 ++ 1#5 ++ 0x00#6 ++ 1#3 ++ 1#1)) = some (.addi 1 2 0xFFF, 4) ∧
  decodeBits (0#32 ++ (0x008#12 ++ 2#5 ++ 1#5 ++ 0x03#6 ++ 2#3 ++ 1#1)) = some (.ld 3 1 2 8, 4) ∧
  decodeBits (0#32 ++ (0x01#7 ++ 7#5 ++ 2#5 ++ 0x05#5 ++ 0x13#6 ++ 2#3 ++ 1#1)) = some (.st 3 2 7 0x025, 4) ∧
  decodeBits (0#32 ++ (0x7F#7 ++ 7#5 ++ 2#5 ++ 0x1E#5 ++ 0x00#6 ++ 3#3 ++ 1#1)) = some (.beq 2 7 0xFFE, 4) ∧
  decodeBits (0#32 ++ (0x3FFFFF#22 ++ 0x08#6 ++ 3#3 ++ 1#1)) = some (.jal 0x3FFFFF, 4) ∧
  decodeBits (0#32 ++ (1#4 ++ 2#3 ++ 5#5 ++ 4#5 ++ 3#5 ++ 0x00#6 ++ 4#3 ++ 1#1)) = some (.vadd 3 4 5 2 true 0, 4) ∧
  decodeBits (0#32 ++ (6#4 ++ 0#3 ++ 0#5 ++ 4#5 ++ 3#5 ++ 0x00#6 ++ 5#3 ++ 1#1)) = some (.vld 3 4 0 true true, 4) ∧
  decodeBits (0x0694009D#64) = some (.tcadd 8 9 3, 4) ∧
  decodeBits (0x0005110D#64) = some (.launch 4 10, 4) ∧
  decodeBits (0x000000050000000F#64) = some (.cpy 5 0, 8) ∧
  decodeBits (0x000007450000001F#64) = some (.cpyTrg 5 2 7, 8) ∧
  decodeBits (0x000000060000002F#64) = some (.coll 6, 8) ∧
  decodeBits (0x00000000001D810F#64) = some (.smshape 0 6 6 true, 8) ∧
  decodeBits (0x000000010000816F#64) = some (.smchol 1 0 0 false 2, 8) ∧
  decodeBits (0x000000A00000023F#64) = some (.rgrun 5, 8) ∧
  decodeBits (0#48 ++ (9#5 ++ 4#5 ++ 0#1 ++ 1#4 ++ 0#1)) = some (.addH 4 9, 2) ∧
  decodeBits (0#48 ++ (0x7FF#11 ++ 14#4 ++ 0#1)) = some (.jalH 0x7FF, 2) ∧
  decodeBits 0xFFFF#64 = none ∧
  decodeBits 0xFFFFFFFF#64 = none ∧
  decodeBits 0#64 = none ∧
  (∀ g : GrainRef, fropOf g (0x0005#16 ++ 7#16 ++ 1#3 ++ 6#3 ++ 2#3 ++ 0x10#5 ++ 3#4 ++ 7#4 ++ 3#4 ++ 0x06#6) = some (.eop g ⟨3, 7, 3, 0x10, 2, 6, 1, 7, 5⟩))

/-- 08 R209 to R226, R228, R229: decoding the encoding of a well-formed instruction gives it back with its length, and every word that decodes is the encoding of its instruction, the bits after it aside; a word of a frop gives the frop of its OP with every other field. -/
def Obligations.EncodeDecode : Prop :=
  (∀ (i : Instr) (w : Word) (n : Nat), i.wf = true → i.encode = some (w, n) →
    decodeBits w = some (i, n) ∧ ∀ rest, decodeBytes (bytesOf w.toNat n ++ rest) = some (i, rest)) ∧
  (∀ (w : Word) (i : Instr) (n : Nat), decodeBits w = some (i, n) → i.wf = true ∧ i.encode = some (word (w.toNat % 2 ^ (8 * n)), n)) ∧
  (∀ (g : GrainRef) (w : FropWord),
    fropOf g (fropBits 1 w) = some (.bfly g w) ∧
    fropOf g (fropBits 2 w) = some (.hadb g w) ∧
    fropOf g (fropBits 3 w) = some (.cmul g w) ∧
    fropOf g (fropBits 4 w) = some (.mac g w) ∧
    fropOf g (fropBits 5 w) = some (.smac g w) ∧
    fropOf g (fropBits 6 w) = some (.eop g w) ∧
    fropOf g (fropBits 7 w) = some (.mmul g w) ∧
    fropOf g (fropBits 8 w) = some (.madd g w) ∧
    fropOf g (fropBits 9 w) = some (.mred g w) ∧
    fropOf g (fropBits 10 w) = some (.bfps g w) ∧
    fropOf g (fropBits 11 w) = some (.cvt g w) ∧
    fropOf g (fropBits 12 w) = some (.scan g w) ∧
    fropOf g (fropBits 13 w) = some (.cmps g w) ∧
    fropOf g (fropBits 16 w) = some (.ldg g w) ∧
    fropOf g (fropBits 17 w) = some (.stg g w) ∧
    fropOf g (fropBits 18 w) = some (.ldp g w) ∧
    fropOf g (fropBits 19 w) = some (.stp g w) ∧
    fropOf g (fropBits 20 w) = some (.tas g w) ∧
    fropOf g (fropBits 24 w) = some (.req g w) ∧
    fropOf g (fropBits 25 w) = some (.rld g w) ∧
    fropOf g (fropBits 26 w) = some (.rst g w) ∧
    fropOf g (fropBits 27 w) = some (.rat g w) ∧
    fropOf g (fropBits 32 w) = some (.rout g w) ∧
    fropOf g (fropBits 33 w) = some (.merg g w) ∧
    fropOf g (fropBits 34 w) = some (.filt g w) ∧
    fropOf g (fropBits 35 w) = some (.dupl g w) ∧
    fropOf g (fropBits 36 w) = some (.cnt g w) ∧
    fropOf g (fropBits 37 w) = some (.mark g w) ∧
    fropOf g (fropBits 38 w) = some (.rdce g w) ∧
    fropOf g (fropBits 39 w) = some (.gate g w))

/-- 08 R209 to R211: when the halfwords at the pc of the strand whose turn it is, in cached lines or in one line of local memory that the fetch then caches, are those of an instruction, a step is `exec` of that instruction; a failed fetch and an encoding that is not well formed step to their traps; a strand that cannot issue does nothing; the turn of an event is `exec` of the event. 01 R14, R35: firmware sets a die's reserved range, and a host's read of its port's registers is answered. The order of turns is the model's own list (log 5), the form of the reserved range its choice (log 2). -/
def Obligations.StepRunsDecoded : Prop :=
  ∀ (s : State) (ts : List Turn) (k : Nat), s.harbour.tripped = false →
    let s0 := { s with turns := ts, cur := k }
    let st := s.strand k
    (s.turns = .strand k :: ts ∨ (s.turns = [] ∧ ts = [] ∧ s.autoTurn = .strand k) →
      (st.issues = false → step s = .next s0) ∧
      (st.issues = true →
        (∀ i s', s0.fetched k st.pc = (.inst i, s') → step s = exec i s') ∧
        (∀ c v s', s0.fetched k st.pc = (.fault c v, s') → step s = exec (.fetchFault c v) s') ∧
        (∀ b s', s0.fetched k st.pc = (.illegal b, s') → step s = exec (.illegalEncoding b) s') ∧
        (∀ w i n, k < 4096 → st.pc.toNat % 2 = 0 → decodeBits w = some (i, n) → (∀ j, 2 * j < n → st.watched (st.pc + word (2 * j)) 2 accFetch = false) →
          let half := fun (j : Nat) => w.toNat / 2 ^ (16 * j) % 65536
          let line := fun (a : Word) => (s.pan (panOf k)).icache.find? fun l => l.ctx == st.ctx && l.va == a.toNat / 128
          let finds := fun (x : State) (j : Nat) => ∃ t, x.probes k (st.pc + word (2 * j)) accFetch = (.ok t, x)
          ((∀ j, 2 * j < n → finds s0 j ∧ ∃ l, line (st.pc + word (2 * j)) = some l ∧ l.data.toNat / 2 ^ (8 * ((st.pc + word (2 * j)).toNat % 128)) % 65536 = half j) → step s = exec i s0) ∧
          (∀ pa s1, line st.pc = none → st.pc.toNat % 128 + n ≤ 128 → s0.looks k st.pc 128 accFetch = (.ok (.mem pa), s1) → pa % 128 = st.pc.toNat % 128 → s1.poisonedAt (pa / 128 * 128) 128 = false →
            let s2 := (Upd.pan (panOf k) { s1.pan (panOf k) with icache := (s1.pan (panOf k)).icache ++ [⟨st.ctx, st.pc.toNat / 128, s1.physLine pa⟩] }).apply s1
            (∀ j, 2 * j < n → s1.physRead (pa + 2 * j) 2 = half j) → (∀ j, 0 < j → 2 * j < n → finds s2 j) → step s = exec i s2)))) ∧
    (∀ i, s.turns = .event i :: ts → i.isEvent = true → step s = exec i { s with turns := ts }) ∧
    (∀ d base limit, d < 8 → s.turns = .reserve d base limit :: ts →
      step s = .next ((Upd.die d { s.die d with rsvBase := base, rsvLimit := limit }).apply { s with turns := ts })) ∧
    (∀ port off, port < 2 → off ≠ 0x18 → s.turns = .hostRead port off :: ts →
      step s = .next { s with turns := ts, harbour := { s.harbour with hostOut := s.harbour.hostOut ++ [.answer port (s.portWord port off)] } })

/-- Storage and every table keep their canonical form, every listed address exists, and the power limit stays within the board limit (19 R452), whatever a step does. -/
def Obligations.StepKeepsGood : Prop :=
  ∀ (s t : State), s.Good → step s = .next t → t.Good

/-- 19 R453 and the reset columns of the registers' tables: what reset leaves. The values that the spec does not give (the pc, mode and registers of a strand, the state of the ports and the time) are the model's choice (log 1 to 3). -/
def Obligations.ResetState : Prop :=
  State.reset.Good ∧
  (∀ k < 4096, let st := State.reset.strand k
    st.st = .idle ∧ st.vcfg = 0x43000 ∧ st.acr = 0x20 ∧ st.fsr = 0 ∧ st.tstatus = 0 ∧ st.kill = 0 ∧ st.weight = 0 ∧ (∀ r, st.gpr r = 0) ∧ (∀ r, st.vreg r = {}) ∧ st.latch = false ∧ st.monitor = .none) ∧
  (∀ p, (State.reset.pan p).vlclamp = 0x800 ∧ (State.reset.pan p).rgclamp = 0 ∧ (State.reset.pan p).lastZero = 3 ∧ ∀ i, ((State.reset.pan p).res.get {} i).st = .absent) ∧
  (∀ p b, (((State.reset.pan p).banks.get {} b).starve = 0 ∧ ((State.reset.pan p).banks.get {} b).lastPan = 3)) ∧
  (∀ q, (State.reset.queue q).cfg = 0xFF000000000 ∧ (State.reset.queue q).recs = []) ∧
  (∀ d, (State.reset.die d).shres = 32 ∧ (State.reset.die d).shctl = 1 ∧ (State.reset.die d).pmig = none) ∧
  (∀ n, (State.reset.link n).up = false ∧ (State.reset.link n).keylim = 2 ^ 48 - 1) ∧
  State.reset.harbour.colltmo = 100000 ∧ State.reset.harbour.owner = 0 ∧ State.reset.harbour.bootStep = 0 ∧ State.reset.pwrlim = 4800 ∧ State.reset.gtime = 0 ∧
  (∀ a, State.reset.byte a = 0 ∧ State.reset.panByte a = 0) ∧ State.reset.contexts = [] ∧ State.reset.regions = [] ∧ State.reset.tasks = []

/-- Every instruction and every event has a next state in every state: what cannot go on stays, what fails takes its trap. That a turn which cannot act leaves the state as it is, is the form of the model (log 5). -/
def Obligations.EveryInstructionAnswers : Prop :=
  ∀ (i : Instr) (s : State), ∃ t, exec i s = .next t

/-- 09 R239: g0 reads as zero, a write to it is discarded, and every other effect still takes place: memory is accessed, traps are raised, flags are set; shown of an operation, a division by zero, a conversion, PLACE, an atomic and a load. -/
def Obligations.RegisterZero : Prop :=
  (∀ st : Strand, st.gpr 0 = 0) ∧
  (∀ (st : Strand) (v : Word), st.setG 0 v = st) ∧
  (∀ (st : Strand) (d r : BitVec 5) (v : Word), d ≠ 0 → (st.setG d v).gpr r = if r = d then v else st.gpr r) ∧
  (∀ (s : State) (a b : BitVec 5) (t : BitVec 3), s.here.canIssue [0, a, b] = true →
    exec (.add 0 a b t) s = .next (s.withHere (s.here.past 4)) ∧
    (srcI t.toNat (s.here.gpr b) = 0 → exec (.div 0 a b t) s = .next (s.withHere { s.here.flagged flDZ with pc := s.here.pc + 4 }))) ∧
  (∀ (s : State) (a : BitVec 5) (v u : BitVec 4) (sat : Bool), s.here.canIssue [0, a] = true →
    exec (.fcvt 0 a v sat u) s = .next (s.withHere { s.here.flagged (convert v.toNat u.toNat sat s.here.frm (s.here.gpr a).toNat).2 with pc := s.here.pc + 4 })) ∧
  (∀ (s s' : State) (a : BitVec 5) (o : Option TlbEnt), s.here.canIssue [0, a] = true → s.finds s.cur (s.here.gpr a) = (o, s') →
    exec (.placeAddr 0 a) s = .next (s'.withHere (s.here.past 4))) ∧
  (∀ (s s' : State) (f : BitVec 3) (a b : BitVec 5) (sc : BitVec 3) (y p : BitVec 2) (pa : Nat), s.Good → s.here.canIssue [0, a, b] = true → s.here.looping = false →
    let n := if y.toNat % 2 = 0 then 4 else 8
    s.Reaches (s.here.gpr a) n accRmw pa s' → s'.CanStore pa n →
      let new := amoNew f.toNat (decide (y.toNat < 2)) n (s'.physRead pa n) (s.here.gpr b).toNat
      ∃ t, exec (.amo f 0 a b sc y p) s = .next t ∧ s'.Stored t { s.here.flagged new.2 with pc := s.here.pc + 4 } pa n new.1) ∧
  (∀ (s : State) (a : BitVec 5) (i : BitVec 12) (t : BitVec 3), s.here.canIssue [0, a] = true → s.here.looping = false →
    let va := s.here.gpr a + i.signExtend 64
    (va.toNat % tyBytes t.toNat ≠ 0 → exec (.ld t 0 a i) s = s.traps 3 va) ∧
    (∀ pa s', s.Reaches va (tyBytes t.toNat) accLoad pa s' → exec (.ld t 0 a i) s = .next (s'.withHere (s.here.past 4))))
end

