-- ==== Sys2Proof/Laws/Tables.lean ====
section
/-! SUPPORT. Tables and sets: what a read finds after a write, and the canonical form that every operation keeps. -/

namespace Sys2Proof.Machine

section
variable {α : Type} [DecidableEq α]

theorem Tbl.get_filter_same (d : α) (k : Nat) (t : Tbl α) : Tbl.get d k (t.filter fun c => decide (c.1 ≠ k)) = d := by
  induction t with
  | nil => rfl
  | cons x t ih =>
    rw [List.filter_cons]
    split
    · rename_i h
      have : x.1 ≠ k := by simpa using h
      simp only [Tbl.get, this, if_false, ih]
    · exact ih

theorem Tbl.get_filter_other (d : α) (k j : Nat) (h : j ≠ k) (t : Tbl α) : Tbl.get d j (t.filter fun c => decide (c.1 ≠ k)) = Tbl.get d j t := by
  induction t with
  | nil => rfl
  | cons x t ih =>
    rw [List.filter_cons]
    split
    · simp only [Tbl.get, ih]
    · rename_i hx
      have hk : x.1 = k := by simpa using hx
      have : x.1 ≠ j := by omega
      simp only [Tbl.get, this, if_false, ih]

theorem Tbl.get_ins_same (d : α) (k : Nat) (v : α) (t : Tbl α) : Tbl.get d k (Tbl.ins k v t) = v := by
  induction t with
  | nil => simp [Tbl.ins, Tbl.get]
  | cons x t ih =>
    unfold Tbl.ins
    split
    · rename_i h
      have : x.1 ≠ k := by omega
      simp only [Tbl.get, this, if_false, ih]
    · simp [Tbl.get]

theorem Tbl.get_ins_other (d : α) (k j : Nat) (v : α) (h : j ≠ k) (t : Tbl α) : Tbl.get d j (Tbl.ins k v t) = Tbl.get d j t := by
  have hk : k ≠ j := fun e => h e.symm
  induction t with
  | nil => simp [Tbl.ins, Tbl.get, hk]
  | cons x t ih =>
    unfold Tbl.ins
    split
    · simp only [Tbl.get, ih]
    · simp [Tbl.get, hk]

/-- What a read finds at the key just written. -/
theorem Tbl.get_put (d : α) (k : Nat) (v : α) (t : Tbl α) : (t.put d k v).get d k = v := by
  unfold Tbl.put
  simp only
  split
  · rename_i h; rw [h]; exact Tbl.get_filter_same d k t
  · exact Tbl.get_ins_same d k v _

theorem Tbl.get_put_same (d : α) (k : Nat) (v : α) (t : Tbl α) (lo : Nat) (_ : t.wfFrom d lo = true) : (t.put d k v).get d k = v := Tbl.get_put d k v t

theorem Tbl.get_put_other (d : α) (k j : Nat) (v : α) (t : Tbl α) (hjk : j ≠ k) : (t.put d k v).get d j = t.get d j := by
  unfold Tbl.put
  simp only
  split
  · exact Tbl.get_filter_other d k j hjk t
  · rw [Tbl.get_ins_other d k j v hjk]; exact Tbl.get_filter_other d k j hjk t

theorem Tbl.filter_ins (k : Nat) (v : α) (t : Tbl α) : (Tbl.ins k v (t.filter fun c => decide (c.1 ≠ k))).filter (fun c => decide (c.1 ≠ k)) = t.filter fun c => decide (c.1 ≠ k) := by
  induction t with
  | nil => simp [Tbl.ins]
  | cons x t ih =>
    rw [List.filter_cons]
    split
    · rename_i h
      unfold Tbl.ins
      split
      · rw [List.filter_cons, if_pos h, ih]
      · rw [List.filter_cons, if_neg (by simp), List.filter_cons, if_pos h, List.filter_filter]
        simp
    · exact ih

/-- A second write of an entry is all that counts. -/
theorem Tbl.put_again (d : α) (k : Nat) (u v : α) (t : Tbl α) : (t.put d k u).put d k v = t.put d k v := by
  have : (t.put d k u).filter (fun c => decide (c.1 ≠ k)) = t.filter fun c => decide (c.1 ≠ k) := by
    unfold Tbl.put
    simp only
    split
    · rw [List.filter_filter]; simp
    · exact Tbl.filter_ins k u t
  unfold Tbl.put at this ⊢
  simp only at this ⊢
  rw [this]

theorem Tbl.wfFrom_mono (d : α) (t : Tbl α) (a b : Nat) (hab : a ≤ b) (h : t.wfFrom d b = true) : t.wfFrom d a = true := by
  cases t with
  | nil => rfl
  | cons z t =>
    simp only [Tbl.wfFrom, Bool.and_eq_true, decide_eq_true_eq] at h ⊢
    exact ⟨⟨by omega, h.1.2⟩, h.2⟩

theorem Tbl.filter_wfFrom (d : α) (p : Nat × α → Bool) (t : Tbl α) (lo : Nat) (h : t.wfFrom d lo = true) : Tbl.wfFrom d lo (t.filter p) = true := by
  induction t generalizing lo with
  | nil => rfl
  | cons x t ih =>
    obtain ⟨j, y⟩ := x
    simp only [Tbl.wfFrom, Bool.and_eq_true, decide_eq_true_eq] at h
    rw [List.filter_cons]
    split
    · simp only [Tbl.wfFrom, Bool.and_eq_true, decide_eq_true_eq]
      exact ⟨h.1, ih _ h.2⟩
    · exact Tbl.wfFrom_mono d _ lo (j + 1) (by omega) (ih _ h.2)

theorem Tbl.ins_wfFrom (d : α) (k : Nat) (v : α) (t : Tbl α) (lo : Nat) (hv : v ≠ d) (hlo : lo ≤ k) (hk : ∀ c ∈ t, c.1 ≠ k) (h : t.wfFrom d lo = true) :
    (Tbl.ins k v t).wfFrom d lo = true := by
  induction t generalizing lo with
  | nil => simp [Tbl.ins, Tbl.wfFrom, hlo, hv]
  | cons x t ih =>
    obtain ⟨j, y⟩ := x
    have hj : j ≠ k := hk (j, y) (List.mem_cons_self ..)
    simp only [Tbl.wfFrom, Bool.and_eq_true, decide_eq_true_eq] at h
    unfold Tbl.ins
    split
    · simp only [Tbl.wfFrom, Bool.and_eq_true, decide_eq_true_eq]
      exact ⟨h.1, ih (j + 1) (by omega) (fun c hc => hk c (List.mem_cons_of_mem _ hc)) h.2⟩
    · simp only [Tbl.wfFrom, Bool.and_eq_true, decide_eq_true_eq]
      exact ⟨⟨hlo, hv⟩, ⟨by omega, h.1.2⟩, h.2⟩

theorem Tbl.put_wfFrom (d : α) (k : Nat) (v : α) (t : Tbl α) (lo : Nat) (hlo : lo ≤ k) (h : t.wfFrom d lo = true) : (t.put d k v).wfFrom d lo = true := by
  unfold Tbl.put
  simp only
  split
  · exact Tbl.filter_wfFrom d _ t lo h
  · rename_i hv
    refine Tbl.ins_wfFrom d k v _ lo hv hlo ?_ (Tbl.filter_wfFrom d _ t lo h)
    intro c hc
    simpa using (List.mem_filter.mp hc).2

theorem Tbl.put_wf (d : α) (k : Nat) (v : α) (t : Tbl α) (h : Tbl.wf d t = true) : Tbl.wf d (t.put d k v) = true :=
  Tbl.put_wfFrom d k v t 0 (Nat.zero_le k) h

/-- The keys of a written table satisfy what the old keys and the new one do. -/
theorem Tbl.put_all (d : α) (k : Nat) (v : α) (p : Nat → Bool) (t : Tbl α) (hk : p k = true) (h : t.all (fun c => p c.1) = true) :
    (t.put d k v).all (fun c => p c.1) = true := by
  have hf : ∀ t : Tbl α, t.all (fun c => p c.1) = true → (t.filter fun c => decide (c.1 ≠ k)).all (fun c => p c.1) = true := by
    intro t h
    rw [List.all_eq_true] at h ⊢
    exact fun c hc => h c (List.mem_filter.mp hc).1
  have hi : ∀ t : Tbl α, t.all (fun c => p c.1) = true → (Tbl.ins k v t).all (fun c => p c.1) = true := by
    intro t h
    induction t with
    | nil => simp [Tbl.ins, hk]
    | cons x t ih =>
      simp only [List.all_cons, Bool.and_eq_true] at h
      unfold Tbl.ins
      split
      · simp only [List.all_cons, Bool.and_eq_true]; exact ⟨h.1, ih h.2⟩
      · simp only [List.all_cons, Bool.and_eq_true]; exact ⟨hk, h⟩
  unfold Tbl.put
  simp only
  split
  · exact hf t h
  · exact hi _ (hf t h)

end

theorem NSet.wfFrom_mono (l : NSet) (a b : Nat) (hab : a ≤ b) (h : NSet.wfFrom b l = true) : NSet.wfFrom a l = true := by
  cases l with
  | nil => rfl
  | cons x t =>
    simp only [NSet.wfFrom, Bool.and_eq_true, decide_eq_true_eq] at h ⊢
    exact ⟨by omega, h.2⟩

theorem NSet.ins_wfFrom (k : Nat) (l : NSet) (lo : Nat) (hlo : lo ≤ k) (h : NSet.wfFrom lo l = true) : NSet.wfFrom lo (NSet.ins k l) = true := by
  induction l generalizing lo with
  | nil => simp [NSet.ins, NSet.wfFrom, hlo]
  | cons j t ih =>
    simp only [NSet.wfFrom, Bool.and_eq_true, decide_eq_true_eq] at h
    unfold NSet.ins
    split
    · simp only [NSet.wfFrom, Bool.and_eq_true, decide_eq_true_eq]
      exact ⟨h.1, ih _ (by omega) h.2⟩
    · split
      · simp only [NSet.wfFrom, Bool.and_eq_true, decide_eq_true_eq]; exact h
      · simp only [NSet.wfFrom, Bool.and_eq_true, decide_eq_true_eq]
        exact ⟨hlo, by omega, h.2⟩

theorem NSet.filter_wfFrom (p : Nat → Bool) (l : NSet) (lo : Nat) (h : NSet.wfFrom lo l = true) : NSet.wfFrom lo (l.filter p) = true := by
  induction l generalizing lo with
  | nil => rfl
  | cons j t ih =>
    simp only [NSet.wfFrom, Bool.and_eq_true, decide_eq_true_eq] at h
    rw [List.filter_cons]
    split
    · simp only [NSet.wfFrom, Bool.and_eq_true, decide_eq_true_eq]
      exact ⟨h.1, ih _ h.2⟩
    · exact NSet.wfFrom_mono _ lo (j + 1) (by omega) (ih _ h.2)

theorem canonSet_wf (l : NSet) : NSet.wfFrom 0 (canonSet l) = true := by
  unfold canonSet
  have : ∀ (l t : NSet), NSet.wfFrom 0 t = true → NSet.wfFrom 0 (l.foldl (fun t g => NSet.ins g t) t) = true := by
    intro l
    induction l with
    | nil => intro t h; exact h
    | cons g l ih => intro t h; exact ih _ (NSet.ins_wfFrom g t 0 (Nat.zero_le g) h)
  exact this l [] rfl

/-- Cells written onto a canonical memory leave it canonical. -/
theorem putCells_wf (m : List Host.Cell) : ∀ t : List Host.Cell, Memory.wf t → Memory.wf (putCells m t) := by
  unfold putCells
  induction m with
  | nil => intro t h; exact h
  | cons c m ih =>
    intro t h
    refine ih _ ?_
    show Memory.wf (if c.1 < memLimit then Tbl.put 0 c.1 c.2 t else t)
    split
    · rename_i hc
      exact ⟨Tbl.put_wf 0 _ _ _ h.1, Tbl.put_all 0 _ _ (fun a => decide (a < memLimit)) _ (decide_eq_true hc) h.2⟩
    · exact h

theorem canonMem_wf (m : List Host.Cell) : Memory.wf (canonMem m) := putCells_wf m [] ⟨rfl, rfl⟩

/-- A part of a canonical memory is canonical. -/
theorem memFilter_wf (p : Host.Cell → Bool) (m : List Host.Cell) (h : Memory.wf m) : Memory.wf (m.filter p) := by
  refine ⟨Tbl.filter_wfFrom _ _ _ _ h.1, ?_⟩
  have := h.2
  simp only [List.all_eq_true] at this ⊢
  exact fun c hc => this c (List.mem_filter.mp hc).1

end Sys2Proof.Machine
end

