-- ==== Sys2Proof/Laws/Good.lean ====
section
/-! SUPPORT. Every primitive update keeps what `State.Good` says, so every list of them does. -/

namespace Sys2Proof.Machine

theorem Upd.apply_good (u : Upd) (s : State) (h : s.Good) : (u.apply s).Good := by
  cases u with
  | memByte a v =>
    simp only [Upd.apply]
    split
    · rename_i ha
      exact { h with mem := ⟨Tbl.put_wf 0 _ _ _ h.mem.1, Tbl.put_all 0 _ _ (fun a => decide (a < memLimit)) _ (decide_eq_true ha) h.mem.2⟩ }
    · exact h
  | panByte a v =>
    simp only [Upd.apply]
    split
    · rename_i ha
      exact { h with panMem := ⟨Tbl.put_wf 0 _ _ _ h.panMem.1, Tbl.put_all 0 _ _ panKeyOk _ ha h.panMem.2⟩ }
    · exact h
  | poison g on =>
    refine { h with poison := ?_ }
    show NSet.wfFrom 0 (if on then NSet.ins g s.poison else NSet.del g s.poison) = true
    split
    · exact NSet.ins_wfFrom _ _ _ (Nat.zero_le _) h.poison
    · exact NSet.filter_wfFrom _ _ _ h.poison
  | panPoison g on =>
    refine { h with panPoison := ?_ }
    show NSet.wfFrom 0 (if on then NSet.ins g s.panPoison else NSet.del g s.panPoison) = true
    split
    · exact NSet.ins_wfFrom _ _ _ (Nat.zero_le _) h.panPoison
    · exact NSet.filter_wfFrom _ _ _ h.panPoison
  | strand k v => exact { h with strands := Tbl.put_wf _ _ _ _ h.strands }
  | pan k v => exact { h with pans := Tbl.put_wf _ _ _ _ h.pans }
  | bay k v => exact { h with bays := Tbl.put_wf _ _ _ _ h.bays }
  | die k v => exact { h with dies := Tbl.put_wf _ _ _ _ h.dies }
  | chan k v => exact { h with chans := Tbl.put_wf _ _ _ _ h.chans }
  | region k v => exact { h with regions := Tbl.put_wf _ _ _ _ h.regions }
  | ring k v => exact { h with rings := Tbl.put_wf _ _ _ _ h.rings }
  | counter k v => exact { h with counters := Tbl.put_wf _ _ _ _ h.counters }
  | stream k v => exact { h with streams := Tbl.put_wf _ _ _ _ h.streams }
  | queue k v => exact { h with queues := Tbl.put_wf _ _ _ _ h.queues }
  | context k v => exact { h with contexts := Tbl.put_wf _ _ _ _ h.contexts }
  | kernel k v => exact { h with kernels := Tbl.put_wf _ _ _ _ h.kernels }
  | block k v => exact { h with blocks := Tbl.put_wf _ _ _ _ h.blocks }
  | task k v => exact { h with tasks := Tbl.put_wf _ _ _ _ h.tasks }
  | link k v => exact { h with links := Tbl.put_wf _ _ _ _ h.links }
  | lowerPower w => exact { h with power := Nat.le_trans (Nat.min_le_left _ _) h.power }
  | memRange base n cells => exact { h with mem := putCells_wf cells _ (memFilter_wf _ _ h.mem) }
  | restoreMem m p => exact { h with mem := canonMem_wf m, poison := canonSet_wf p }
  | panZero key n =>
    refine { h with panMem := ⟨Tbl.filter_wfFrom _ _ _ _ h.panMem.1, ?_⟩, panPoison := NSet.filter_wfFrom _ _ _ h.panPoison }
    have := h.panMem.2
    simp only [List.all_eq_true] at this ⊢
    exact fun c hc => this c (List.mem_filter.mp hc).1
  | hardReset => constructor <;> first | exact ⟨rfl, rfl⟩ | rfl | exact Nat.le_refl _
  | sched v => exact { h with }
  | harbour v => exact { h with }
  | fabric v => exact { h with }
  | ckpt v => exact { h with }
  | invs v => exact { h with }
  | gtime n => exact { h with }
  | nextFree => exact { h with }
  | nextId => exact { h with }
  | turns t => exact { h with }
  | cur k => exact { h with }

theorem applyAll_good (us : List Upd) (s : State) (h : s.Good) : (applyAll us s).Good := by
  induction us with
  | nil => exact h
  | cons u us ih => exact u.apply_good _ ih

end Sys2Proof.Machine
end

