-- ==== Sys2Proof/Laws/Monad.lean ====
section
/-! SUPPORT. The sequential notation on a given work: what each of its words does. -/

namespace Sys2Proof.Machine

theorem bind_eq {α β : Type} (m : M α) (f : α → M β) (w : Work) :
    (m >>= f) w = (match m w with | .ok (a, w') => f a w' | .error e => .error e) := by
  show (StateT.bind m f) w = _
  unfold StateT.bind
  cases h : m w with
  | ok p => simp only [bind, Except.bind, h]
  | error e => simp only [bind, Except.bind, h]

@[simp] theorem pure_eq {α : Type} (a : α) (w : Work) : (pure a : M α) w = .ok (a, w) := rfl
@[simp] theorem gs_eq (w : Work) : gs w = .ok (w.s, w) := rfl
@[simp] theorem emit_eq (u : Upd) (w : Work) : emit u w = .ok ((), ⟨u.apply w.s, u :: w.log⟩) := rfl
@[simp] theorem trap_eq {α : Type} (c : Nat) (v : Word) (w : Work) : (trap c v : M α) w = .error (.trap ⟨c, v, 2 ^ c⟩ none []) := rfl
@[simp] theorem stall_eq {α : Type} (w : Work) : (stall : M α) w = .error (.stop []) := rfl
@[simp] theorem finish_eq {α : Type} (w : Work) : (finish : M α) w = .error (.stop w.log) := rfl
@[simp] theorem curKey_eq (w : Work) : curKey w = .ok (w.s.cur, w) := rfl
@[simp] theorem getStrand_eq (k : Nat) (w : Work) : getStrand k w = .ok (w.s.strand k, w) := rfl
@[simp] theorem me_eq (w : Work) : me w = .ok (w.s.here, w) := rfl
@[simp] theorem modStrand_eq (k : Nat) (f : Strand → Strand) (w : Work) :
    modStrand k f w = .ok ((), ⟨(Upd.strand k (f (w.s.strand k))).apply w.s, .strand k (f (w.s.strand k)) :: w.log⟩) := rfl
@[simp] theorem modMe_eq (f : Strand → Strand) (w : Work) :
    modMe f w = .ok ((), ⟨w.s.withHere (f w.s.here), .strand w.s.cur (f w.s.here) :: w.log⟩) := rfl
@[simp] theorem rg_eq (r : BitVec 5) (w : Work) : rg r w = .ok (w.s.here.gpr r, w) := rfl
@[simp] theorem retire_eq (d : BitVec 5) (v : Word) (len : Nat) (w : Work) :
    retire d v len w = .ok ((), ⟨w.s.withHere (w.s.here.retired d v len), .strand w.s.cur (w.s.here.retired d v len) :: w.log⟩) := rfl
@[simp] theorem next_eq (len : Nat) (w : Work) :
    next len w = .ok ((), ⟨w.s.withHere (w.s.here.past len), .strand w.s.cur (w.s.here.past len) :: w.log⟩) := rfl
@[simp] theorem jump_eq (t : Word) (w : Work) :
    jump t w = .ok ((), ⟨w.s.withHere { w.s.here with pc := t }, .strand w.s.cur { w.s.here with pc := t } :: w.log⟩) := rfl

theorem retireF_eq (d : BitVec 5) (r : Word × Fl) (len : Nat) (w : Work) :
    retireF d r len w = .ok ((), ⟨w.s.withHere (w.s.here.retiredF d r.1 r.2 len), .strand w.s.cur (w.s.here.retiredF d r.1 r.2 len) :: w.log⟩) := by
  simp only [retireF, modMe_eq, Strand.retiredF, Strand.flagged]

/-- A conditional step of the notation. -/
theorem ite_eq {α : Type} (c : Prop) [Decidable c] (m n : M α) (w : Work) :
    (if c then m else n) w = if c then m w else n w := by split <;> rfl

theorem issue_eq (rs : List (BitVec 5)) (w : Work) :
    issue rs w = if w.s.here.canIssue rs then .ok ((), w) else .error (.stop []) := by
  simp only [issue, bind_eq, me_eq, ite_eq, pure_eq, stall_eq]

/-- An instruction that emits updates and ends. -/
theorem run_ok {m : M Unit} {s : State} {w : Work} (h : m ⟨s, []⟩ = .ok ((), w)) : run m s = .next (applyAll w.log s) := by
  simp only [run, runAs, h]

/-- An instruction that stays where it is. -/
theorem run_stop {m : M Unit} {s : State} {log : List Upd} (h : m ⟨s, []⟩ = .error (.stop log)) : run m s = .next (applyAll log s) := by
  simp only [run, runAs, h]

@[simp] theorem applyAll_nil (s : State) : applyAll [] s = s := rfl
@[simp] theorem applyAll_cons (u : Upd) (us : List Upd) (s : State) : applyAll (u :: us) s = u.apply (applyAll us s) := rfl
theorem strand_apply_here (s : State) (st : Strand) : (Upd.strand s.cur st).apply s = s.withHere st := rfl

end Sys2Proof.Machine
end

