-- ==== Sys2Proof/Laws/Performs.lean ====
section
/-! SUPPORT. Everything an instruction can do: a next state made by a list of primitive updates. -/

namespace Sys2Proof.Machine

/-- The outcome is a next state, made from `s` by primitive updates. -/
def Performs (o : Host.Outcome State Fault Refusal) (s : State) : Prop := ∃ us, o = .next (applyAll us s)

theorem performs_self (s : State) : Performs (.next s) s := ⟨[], rfl⟩

theorem applyAll_append (us vs : List Upd) (s : State) : applyAll (us ++ vs) s = applyAll us (applyAll vs s) := by
  induction us with
  | nil => rfl
  | cons u us ih => simp only [List.cons_append, applyAll, ih]

theorem trapAt_performs (k : Nat) (t : TrapInfo) (a : Word) (s : State) : Performs (trapAt k t a s) s := by
  unfold trapAt
  split
  · exact ⟨_, rfl⟩
  · exact performs_self s

theorem runAs_performs (k : Nat) (m : M Unit) (s : State) : Performs (runAs k m s) s := by
  unfold runAs
  split
  · exact ⟨_, rfl⟩
  · exact ⟨_, rfl⟩
  · split
    · exact performs_self s
    · rename_i t a keep _ _
      obtain ⟨us, h⟩ := trapAt_performs k t (a.getD (s.strand k).pc) (applyAll keep s)
      exact ⟨us ++ keep, by rw [h, applyAll_append]⟩

theorem run_performs (m : M Unit) (s : State) : Performs (run m s) s := runAs_performs s.cur m s

theorem exec_performs (i : Instr) (s : State) : Performs (exec i s) s := by
  unfold exec
  cases i
  all_goals dsimp only
  all_goals first
    | exact run_performs _ s
    | exact runAs_performs _ _ s

end Sys2Proof.Machine
end

