-- ==== Sys2Proof/Laws/Only.lean ====
section
/-! SUPPORT. Which updates a meaning emits. `Only P m`: where `m` ends normally it has emitted updates that satisfy `P`, and its state is the old one with them applied. -/

namespace Sys2Proof.Machine

structure Only {α : Type} (P : Upd → Prop) (m : M α) : Prop where
  out : ∀ w a w', m w = .ok (a, w') → ∃ us, (∀ u ∈ us, P u) ∧ w'.log = us ++ w.log ∧ w'.s = applyAll us w.s

section
variable {α β : Type} {P : Upd → Prop}

theorem only_of_same {m : M α} (h : ∀ w a w', m w = .ok (a, w') → w' = w) : Only P m := by
  refine ⟨fun w a w' he => ?_⟩
  rw [h w a w' he]
  exact ⟨[], by simp, rfl, rfl⟩

theorem only_pure (a : α) : Only P (pure a : M α) := only_of_same fun w b w' h => by cases h; rfl
theorem only_gs : Only P gs := only_of_same fun w b w' h => by cases h; rfl
theorem only_me : Only P me := only_of_same fun w b w' h => by cases h; rfl
theorem only_curKey : Only P curKey := only_of_same fun w b w' h => by cases h; rfl
theorem only_getStrand (k : Nat) : Only P (getStrand k) := only_of_same fun w b w' h => by cases h; rfl
theorem only_rg (r : BitVec 5) : Only P (rg r) := only_of_same fun w b w' h => by cases h; rfl
theorem only_trap (c : Nat) (v : Word) : Only P (trap c v : M α) := only_of_same fun w b w' h => by cases h
theorem only_stall : Only P (stall : M α) := only_of_same fun w b w' h => by cases h
theorem only_finish : Only P (finish : M α) := only_of_same fun w b w' h => by cases h

theorem only_emit {u : Upd} (h : P u) : Only P (emit u) := by
  refine ⟨fun w a w' he => ?_⟩
  cases he
  exact ⟨[u], by simpa using h, rfl, rfl⟩

theorem only_bind {m : M α} {f : α → M β} (hm : Only P m) (hf : ∀ a, Only P (f a)) : Only P (m >>= f) := by
  refine ⟨fun w b w' he => ?_⟩
  rw [bind_eq] at he
  cases h : m w with
  | error e => rw [h] at he; cases he
  | ok p =>
    obtain ⟨a, w1⟩ := p
    rw [h] at he
    obtain ⟨us, hu, hl, hs⟩ := hm.out _ _ _ h
    obtain ⟨vs, hv, hl', hs'⟩ := (hf a).out _ _ _ he
    refine ⟨vs ++ us, ?_, ?_, ?_⟩
    · intro u hmem
      rcases List.mem_append.mp hmem with h1 | h1
      · exact hv u h1
      · exact hu u h1
    · rw [hl', hl, List.append_assoc]
    · rw [hs', hs, applyAll_append]

theorem only_ite {c : Prop} [Decidable c] {m n : M α} (hm : Only P m) (hn : Only P n) : Only P (if c then m else n) := by
  split
  · exact hm
  · exact hn

theorem only_mono {Q : Upd → Prop} {m : M α} (hpq : ∀ u, P u → Q u) (h : Only P m) : Only Q m := by
  refine ⟨fun w a w' he => ?_⟩
  obtain ⟨us, hu, r⟩ := h.out w a w' he
  exact ⟨us, fun u hm => hpq u (hu u hm), r⟩

theorem only_each (xs : List β) (f : β → M Unit) (hf : ∀ x, Only P (f x)) : Only P (each xs f) := by
  induction xs with
  | nil => exact only_pure ()
  | cons x xs ih => exact only_bind (hf x) fun _ => ih

theorem only_collect (xs : List β) (f : β → M α) (hf : ∀ x, Only P (f x)) : Only P (collect xs f) := by
  induction xs with
  | nil => exact only_pure []
  | cons x xs ih => exact only_bind (hf x) fun _ => only_bind ih fun _ => only_pure _

theorem only_modStrand (k : Nat) (f : Strand → Strand) (h : ∀ st, P (.strand k st)) : Only P (modStrand k f) :=
  only_bind (only_getStrand k) fun _ => only_emit (h _)

theorem only_freshNat (h : P .nextFree) : Only P freshNat :=
  only_bind only_gs fun _ => only_bind (only_emit h) fun _ => only_pure _

theorem only_freshWord (h : P .nextFree) : Only P freshWord :=
  only_bind only_gs fun _ => only_bind (only_emit h) fun _ => only_pure _

theorem only_modPan (p : Nat) (f : Pan → Pan) (h : ∀ v, P (.pan p v)) : Only P (modPan p f) :=
  only_bind only_gs fun _ => only_emit (h _)

theorem only_modBay (p : Nat) (f : Bay → Bay) (h : ∀ v, P (.bay p v)) : Only P (modBay p f) :=
  only_bind only_gs fun _ => only_emit (h _)

theorem only_modDie (p : Nat) (f : Die → Die) (h : ∀ v, P (.die p v)) : Only P (modDie p f) :=
  only_bind only_gs fun _ => only_emit (h _)

end

/-! Translation: the caches and the free-value counter are all that a lookup changes. -/

/-- An update of a cache or a traffic counter, or of the free-value counter. -/
def Upd.isCache : Upd → Prop
  | .pan _ _ => True
  | .bay _ _ => True
  | .die _ _ => True
  | .nextFree => True
  | _ => False

theorem isCache_pan (p : Nat) (v : Pan) : (Upd.pan p v).isCache := trivial
theorem isCache_bay (p : Nat) (v : Bay) : (Upd.bay p v).isCache := trivial
theorem isCache_die (p : Nat) (v : Die) : (Upd.die p v).isCache := trivial
theorem isCache_free : Upd.nextFree.isCache := trivial

theorem only_insertCapped {α : Type} (cap : Nat) (l : List α) (x : α) : Only Upd.isCache (insertCapped cap l x) := by
  unfold insertCapped
  repeat' first
    | with_reducible exact only_pure _
    | with_reducible exact only_gs
    | with_reducible exact only_freshNat isCache_free
    | with_reducible exact only_modPan _ _ (isCache_pan _)
    | with_reducible exact only_modBay _ _ (isCache_bay _)
    | with_reducible exact only_modDie _ _ (isCache_die _)
    | with_reducible apply only_bind
    | dsimp only
    | split
    | intro _

theorem only_keepWalk (w : Walker) (e : WalkEnt) : Only Upd.isCache (w.keepWalk e) := by
  unfold Walker.keepWalk
  repeat' first
    | with_reducible exact only_pure _
    | with_reducible exact only_gs
    | with_reducible exact only_freshNat isCache_free
    | with_reducible exact only_modPan _ _ (isCache_pan _)
    | with_reducible exact only_modBay _ _ (isCache_bay _)
    | with_reducible exact only_modDie _ _ (isCache_die _)
    | with_reducible exact only_insertCapped _ _ _
    | with_reducible apply only_bind
    | dsimp only
    | split
    | intro _

theorem only_keepLeaf (w : Walker) (e : TlbEnt) : Only Upd.isCache (w.keepLeaf e) := by
  unfold Walker.keepLeaf
  repeat' first
    | with_reducible exact only_pure _
    | with_reducible exact only_gs
    | with_reducible exact only_freshNat isCache_free
    | with_reducible exact only_modPan _ _ (isCache_pan _)
    | with_reducible exact only_modBay _ _ (isCache_bay _)
    | with_reducible exact only_modDie _ _ (isCache_die _)
    | with_reducible exact only_insertCapped _ _ _
    | with_reducible apply only_bind
    | dsimp only
    | split
    | intro _

theorem only_walkFrom (w : Walker) (ctx va level base : Nat) : Only Upd.isCache (walkFrom w ctx va level base) := by
  induction level generalizing base with
  | zero =>
    unfold walkFrom
    repeat' first
      | with_reducible exact only_pure _
      | with_reducible exact only_gs
      | with_reducible exact only_freshNat isCache_free
      | with_reducible exact only_modPan _ _ (isCache_pan _)
      | with_reducible exact only_modBay _ _ (isCache_bay _)
      | with_reducible exact only_modDie _ _ (isCache_die _)
      | with_reducible exact only_insertCapped _ _ _
      | with_reducible exact only_keepWalk _ _
      | with_reducible exact only_keepLeaf _ _
      | with_reducible apply only_bind
      | dsimp only
      | split
      | intro _
  | succ l ih =>
    unfold walkFrom
    repeat' first
      | with_reducible exact only_pure _
      | with_reducible exact only_gs
      | with_reducible exact only_freshNat isCache_free
      | with_reducible exact only_modPan _ _ (isCache_pan _)
      | with_reducible exact only_modBay _ _ (isCache_bay _)
      | with_reducible exact only_modDie _ _ (isCache_die _)
      | with_reducible exact only_insertCapped _ _ _
      | with_reducible exact only_keepWalk _ _
      | with_reducible exact only_keepLeaf _ _
      | with_reducible exact ih _
      | with_reducible apply only_bind
      | dsimp only
      | split
      | intro _

theorem only_lookup (w : Walker) (ctx : Nat) (root : Word) (va : Nat) : Only Upd.isCache (lookup w ctx root va) := by
  unfold lookup
  repeat' first
    | with_reducible exact only_pure _
    | with_reducible exact only_gs
    | with_reducible exact only_freshNat isCache_free
    | with_reducible exact only_modPan _ _ (isCache_pan _)
    | with_reducible exact only_modBay _ _ (isCache_bay _)
    | with_reducible exact only_modDie _ _ (isCache_die _)
    | with_reducible exact only_insertCapped _ _ _
    | with_reducible exact only_keepWalk _ _
    | with_reducible exact only_keepLeaf _ _
    | with_reducible exact only_walkFrom _ _ _ _ _
    | with_reducible apply only_bind
    | dsimp only
    | split
    | intro _

/-- What a probe changes. -/
theorem only_probe (w : Who) (va : Word) (a : Acc) : Only Upd.isCache (probe w va a) := by
  unfold probe
  repeat' first
    | with_reducible exact only_pure _
    | with_reducible exact only_gs
    | with_reducible exact only_freshNat isCache_free
    | with_reducible exact only_modPan _ _ (isCache_pan _)
    | with_reducible exact only_modBay _ _ (isCache_bay _)
    | with_reducible exact only_modDie _ _ (isCache_die _)
    | with_reducible exact only_insertCapped _ _ _
    | with_reducible exact only_keepWalk _ _
    | with_reducible exact only_keepLeaf _ _
    | with_reducible exact only_walkFrom _ _ _ _ _
    | with_reducible exact only_lookup _ _ _ _
    | with_reducible apply only_bind
    | dsimp only
    | split
    | intro _

/-! The way of an access through the cache slices: their lines, the counters and the free-value counter. -/

theorem only_count (d n ctx b : Nat) : Only Upd.isCache (count d n ctx b) := by
  unfold count
  repeat' first
    | with_reducible exact only_pure _
    | with_reducible exact only_gs
    | with_reducible exact only_freshNat isCache_free
    | with_reducible exact only_modPan _ _ (isCache_pan _)
    | with_reducible exact only_modBay _ _ (isCache_bay _)
    | with_reducible exact only_modDie _ _ (isCache_die _)
    | with_reducible apply only_bind
    | with_reducible apply only_each
    | dsimp only
    | split
    | intro _

theorem only_carry (a b c n : Nat) : Only Upd.isCache (carry a b c n) := by
  unfold carry
  repeat' first
    | with_reducible exact only_pure _
    | with_reducible exact only_gs
    | with_reducible exact only_freshNat isCache_free
    | with_reducible exact only_modPan _ _ (isCache_pan _)
    | with_reducible exact only_modBay _ _ (isCache_bay _)
    | with_reducible exact only_modDie _ _ (isCache_die _)
    | with_reducible exact only_count _ _ _ _
    | with_reducible apply only_bind
    | with_reducible apply only_each
    | dsimp only
    | split
    | intro _

theorem only_stackRead (d : Option Nat) (h c b : Nat) : Only Upd.isCache (stackRead d h c b) := by
  unfold stackRead
  repeat' first
    | with_reducible exact only_pure _
    | with_reducible exact only_gs
    | with_reducible exact only_freshNat isCache_free
    | with_reducible exact only_modPan _ _ (isCache_pan _)
    | with_reducible exact only_modBay _ _ (isCache_bay _)
    | with_reducible exact only_modDie _ _ (isCache_die _)
    | with_reducible exact only_count _ _ _ _
    | with_reducible exact only_carry _ _ _ _
    | with_reducible apply only_bind
    | with_reducible apply only_each
    | dsimp only
    | split
    | intro _

theorem only_stackWrite (d : Option Nat) (h c b : Nat) : Only Upd.isCache (stackWrite d h c b) := by
  unfold stackWrite
  repeat' first
    | with_reducible exact only_pure _
    | with_reducible exact only_gs
    | with_reducible exact only_freshNat isCache_free
    | with_reducible exact only_modPan _ _ (isCache_pan _)
    | with_reducible exact only_modBay _ _ (isCache_bay _)
    | with_reducible exact only_modDie _ _ (isCache_die _)
    | with_reducible exact only_count _ _ _ _
    | with_reducible exact only_carry _ _ _ _
    | with_reducible apply only_bind
    | with_reducible apply only_each
    | dsimp only
    | split
    | intro _

theorem only_setLine (y l : Nat) (st : LineSt) : Only Upd.isCache (setLine y l st) := by
  unfold setLine
  repeat' first
    | with_reducible exact only_pure _
    | with_reducible exact only_gs
    | with_reducible exact only_freshNat isCache_free
    | with_reducible exact only_modPan _ _ (isCache_pan _)
    | with_reducible exact only_modBay _ _ (isCache_bay _)
    | with_reducible exact only_modDie _ _ (isCache_die _)
    | with_reducible apply only_bind
    | with_reducible apply only_each
    | dsimp only
    | split
    | intro _

theorem only_writeBack (y l : Nat) : Only Upd.isCache (writeBack y l) := by
  unfold writeBack
  repeat' first
    | with_reducible exact only_pure _
    | with_reducible exact only_gs
    | with_reducible exact only_freshNat isCache_free
    | with_reducible exact only_modPan _ _ (isCache_pan _)
    | with_reducible exact only_modBay _ _ (isCache_bay _)
    | with_reducible exact only_modDie _ _ (isCache_die _)
    | with_reducible exact only_stackWrite _ _ _ _
    | with_reducible apply only_bind
    | with_reducible apply only_each
    | dsimp only
    | split
    | intro _

theorem only_dropCopy (y l : Nat) : Only Upd.isCache (dropCopy y l) := by
  unfold dropCopy
  repeat' first
    | with_reducible exact only_pure _
    | with_reducible exact only_gs
    | with_reducible exact only_freshNat isCache_free
    | with_reducible exact only_modPan _ _ (isCache_pan _)
    | with_reducible exact only_modBay _ _ (isCache_bay _)
    | with_reducible exact only_modDie _ _ (isCache_die _)
    | with_reducible exact only_writeBack _ _
    | with_reducible exact only_setLine _ _ _
    | with_reducible apply only_bind
    | with_reducible apply only_each
    | dsimp only
    | split
    | intro _

theorem only_makeRoom (y l : Nat) : Only Upd.isCache (makeRoom y l) := by
  unfold makeRoom
  repeat' first
    | with_reducible exact only_pure _
    | with_reducible exact only_gs
    | with_reducible exact only_freshNat isCache_free
    | with_reducible exact only_modPan _ _ (isCache_pan _)
    | with_reducible exact only_modBay _ _ (isCache_bay _)
    | with_reducible exact only_modDie _ _ (isCache_die _)
    | with_reducible exact only_dropCopy _ _
    | with_reducible apply only_bind
    | with_reducible apply only_each
    | dsimp only
    | split
    | intro _

theorem only_fetchLine (y c l : Nat) (w : Bool) : Only Upd.isCache (fetchLine y c l w) := by
  unfold fetchLine
  repeat' first
    | with_reducible exact only_pure _
    | with_reducible exact only_gs
    | with_reducible exact only_freshNat isCache_free
    | with_reducible exact only_modPan _ _ (isCache_pan _)
    | with_reducible exact only_modBay _ _ (isCache_bay _)
    | with_reducible exact only_modDie _ _ (isCache_die _)
    | with_reducible exact only_writeBack _ _
    | with_reducible exact only_dropCopy _ _
    | with_reducible exact only_setLine _ _ _
    | with_reducible exact only_stackRead _ _ _ _
    | with_reducible exact only_stackWrite _ _ _ _
    | with_reducible exact only_carry _ _ _ _
    | with_reducible exact only_makeRoom _ _
    | with_reducible apply only_bind
    | with_reducible apply only_each
    | dsimp only
    | split
    | intro _

theorem only_touchSlice (y c l : Nat) (w : Bool) : Only Upd.isCache (touchSlice y c l w) := by
  unfold touchSlice
  repeat' first
    | with_reducible exact only_pure _
    | with_reducible exact only_gs
    | with_reducible exact only_freshNat isCache_free
    | with_reducible exact only_modPan _ _ (isCache_pan _)
    | with_reducible exact only_modBay _ _ (isCache_bay _)
    | with_reducible exact only_modDie _ _ (isCache_die _)
    | with_reducible exact only_writeBack _ _
    | with_reducible exact only_dropCopy _ _
    | with_reducible exact only_setLine _ _ _
    | with_reducible exact only_stackRead _ _ _ _
    | with_reducible exact only_stackWrite _ _ _ _
    | with_reducible exact only_carry _ _ _ _
    | with_reducible exact only_makeRoom _ _
    | with_reducible exact only_fetchLine _ _ _ _
    | with_reducible apply only_bind
    | with_reducible apply only_each
    | dsimp only
    | split
    | intro _

theorem only_touchHome (d : Option Nat) (c l n : Nat) (r w : Bool) : Only Upd.isCache (touchHome d c l n r w) := by
  unfold touchHome
  repeat' first
    | with_reducible exact only_pure _
    | with_reducible exact only_gs
    | with_reducible exact only_freshNat isCache_free
    | with_reducible exact only_modPan _ _ (isCache_pan _)
    | with_reducible exact only_modBay _ _ (isCache_bay _)
    | with_reducible exact only_modDie _ _ (isCache_die _)
    | with_reducible exact only_writeBack _ _
    | with_reducible exact only_dropCopy _ _
    | with_reducible exact only_setLine _ _ _
    | with_reducible exact only_stackRead _ _ _ _
    | with_reducible exact only_stackWrite _ _ _ _
    | with_reducible exact only_carry _ _ _ _
    | with_reducible exact only_makeRoom _ _
    | with_reducible apply only_bind
    | with_reducible apply only_each
    | dsimp only
    | split
    | intro _

theorem only_touchMem (p : Option Nat) (c : Nat) (e h : Bool) (pa n : Nat) (r w : Bool) : Only Upd.isCache (touchMem p c e h pa n r w) := by
  unfold touchMem
  repeat' first
    | with_reducible exact only_pure _
    | with_reducible exact only_gs
    | with_reducible exact only_freshNat isCache_free
    | with_reducible exact only_modPan _ _ (isCache_pan _)
    | with_reducible exact only_modBay _ _ (isCache_bay _)
    | with_reducible exact only_modDie _ _ (isCache_die _)
    | with_reducible exact only_touchSlice _ _ _ _
    | with_reducible exact only_touchHome _ _ _ _ _ _
    | with_reducible apply only_bind
    | with_reducible apply only_each
    | dsimp only
    | split
    | intro _

theorem only_arrive (w : Who) (e h : Bool) (t : TlbEnt) (va : Word) (n : Nat) (a : Acc) : Only Upd.isCache (arrive w e h t va n a) := by
  unfold arrive
  repeat' first
    | with_reducible exact only_pure _
    | with_reducible exact only_gs
    | with_reducible exact only_freshNat isCache_free
    | with_reducible exact only_modPan _ _ (isCache_pan _)
    | with_reducible exact only_modBay _ _ (isCache_bay _)
    | with_reducible exact only_modDie _ _ (isCache_die _)
    | with_reducible exact only_touchMem _ _ _ _ _ _ _ _
    | with_reducible apply only_bind
    | with_reducible apply only_each
    | dsimp only
    | split
    | intro _

/-- What an access changes on its way. -/
theorem only_reach (w : Who) (e h : Bool) (va : Word) (n : Nat) (a : Acc) : Only Upd.isCache (reach w e h va n a) := by
  unfold reach
  repeat' first
    | with_reducible exact only_pure _
    | with_reducible exact only_gs
    | with_reducible exact only_freshNat isCache_free
    | with_reducible exact only_modPan _ _ (isCache_pan _)
    | with_reducible exact only_modBay _ _ (isCache_bay _)
    | with_reducible exact only_modDie _ _ (isCache_die _)
    | with_reducible exact only_probe _ _ _
    | with_reducible exact only_arrive _ _ _ _ _ _ _
    | with_reducible apply only_bind
    | with_reducible apply only_each
    | dsimp only
    | split
    | intro _

/-- What updates of caches leave alone. -/
def SameButCaches (s t : State) : Prop := t = { s with pans := t.pans, bays := t.bays, dies := t.dies, free := t.free }

theorem applyAll_caches (us : List Upd) (s : State) (h : ∀ u ∈ us, u.isCache) : SameButCaches s (applyAll us s) := by
  induction us with
  | nil => rfl
  | cons u us ih =>
    have hr := ih fun v hv => h v (List.mem_cons_of_mem _ hv)
    have hu := h u List.mem_cons_self
    cases u with
    | pan k v => exact congrArg (Upd.apply (.pan k v)) hr
    | bay k v => exact congrArg (Upd.apply (.bay k v)) hr
    | die k v => exact congrArg (Upd.apply (.die k v)) hr
    | nextFree => exact congrArg (Upd.apply .nextFree) hr
    | _ => exact absurd hu id

/-- What an access finds, as a run of its meaning. -/
theorem looks_ok {s s' : State} {k : Nat} {va : Word} {n : Nat} {a : Acc} {l : Loc} (h : s.looks k va n a = (.ok l, s')) :
    ∃ us, (∀ u ∈ us, u.isCache) ∧ s' = applyAll us s ∧
      reach ⟨if isMgmt k then none else some (panOf k), (s.strand k).ctx, (s.strand k).sup⟩ false false va n a ⟨s, []⟩ = .ok (.ok l, ⟨s', us⟩) := by
  unfold State.looks at h
  split at h
  · rename_i r w he
    injection h with h1 h2
    subst h1
    have hp : reach ⟨if isMgmt k then none else some (panOf k), (s.strand k).ctx, (s.strand k).sup⟩ false false va n a ⟨s, []⟩ = .ok (.ok l, w) := he
    obtain ⟨us, hu, hl, hs⟩ := (only_reach _ _ _ va n a).out _ _ _ hp
    refine ⟨us, hu, ?_, ?_⟩
    · rw [← h2]; exact hs
    · rw [hp, ← h2]
      simp only [List.append_nil] at hl
      rw [← hl]
  · injection h with h1 _
    cases h1

/-- An access arrives where its translation leads. -/
theorem arrive_loc {w : Who} {e h : Bool} {t : TlbEnt} {va : Word} {n : Nat} {a : Acc} {x y : Work} {l : Loc} (hb : arrive w e h t va n a x = .ok (l, y)) :
    x.s.locOf t va.toNat = l := by
  unfold arrive at hb
  simp only [bind_eq, gs_eq] at hb
  generalize x.s.locOf t va.toNat = m at *
  cases m with
  | mem pa =>
    simp only [bind_eq] at hb
    split at hb
    · injection hb with hb
      injection hb
    · cases hb
  | _ => injection hb with hb; injection hb

/-- The location that an access is given is that of a translation. -/
theorem reach_loc {w : Who} {e h : Bool} {va : Word} {n : Nat} {a : Acc} {x y : Work} {l : Loc} (hr : reach w e h va n a x = .ok (.ok l, y)) :
    ∃ (t : TlbEnt) (s : State), s.locOf t va.toNat = l := by
  unfold reach at hr
  rw [bind_eq] at hr
  cases hp : probe w va a x with
  | error z => rw [hp] at hr; cases hr
  | ok p =>
    obtain ⟨r, x1⟩ := p
    rw [hp] at hr
    cases r with
    | error c => cases hr
    | ok t =>
      refine ⟨t, x1.s, ?_⟩
      cases hb : arrive w e h t va n a x1 with
      | error z => simp only [bind_eq, hb] at hr; cases hr
      | ok q =>
        simp only [bind_eq, hb, pure_eq] at hr
        injection hr with hr
        injection hr with h1 _
        injection h1 with h1
        exact h1 ▸ arrive_loc hb

end Sys2Proof.Machine
end

