-- ==== Sys2Proof/Laws/Access.lean ====
section
/-! SUPPORT. What a scalar access does once its place is known: the read of its bytes, and the write with all that it may change beside them. -/

namespace Sys2Proof.Machine

theorem here_same {s t : State} (h : SameButCaches s t) : t.here = s.here := (congrArg State.here h).trans rfl

theorem looks_same {s s' : State} {k : Nat} {va : Word} {n : Nat} {a : Acc} {l : Loc} (h : s.looks k va n a = (.ok l, s')) : SameButCaches s s' := by
  obtain ⟨us, hu, rfl, _⟩ := looks_ok h
  exact applyAll_caches us s hu

theorem taskOf_same {s t : State} (h : SameButCaches s t) (k : Nat) : t.taskOf k = s.taskOf k := (congrArg (State.taskOf · k) h).trans rfl

/-- An instruction with no access under way holds no place. -/
theorem holds_none {st : Strand} (h : st.held = []) (va : Word) : st.holds va = none := by
  simp only [Strand.holds, h, List.find?_nil, Option.map_none]

theorem reach_mem {s s' : State} {va : Word} {n : Nat} {a : Acc} {pa : Nat} (h : s.Reaches va n a pa s') :
    ∃ us, (∀ u ∈ us, u.isCache) ∧ s' = applyAll us s ∧ scalarReach s.cur va n false a ⟨s, []⟩ = .ok (.at_ (.mem pa), ⟨s', us⟩) := by
  obtain ⟨us, hu, hs, hr⟩ := looks_ok h.found
  refine ⟨us, hu, hs, ?_⟩
  have ha := h.aligned
  have ht := h.untasked
  have hh := holds_none (st := s.strand s.cur) h.unheld va
  simp only [scalarReach, whoIs, bind_eq, getStrand_eq, pure_eq, gs_eq, ha, ne_eq, not_true_eq_false, if_false, Bool.false_eq_true, hh, ht,
    State.buffering, Option.bind, Option.isSome, hr]

theorem reaches_same {s s' : State} {va : Word} {n : Nat} {a : Acc} {pa : Nat} (h : s.Reaches va n a pa s') : SameButCaches s s' := looks_same h.found

theorem tail_mem {s s' : State} {va : Word} {n : Nat} {a : Acc} {pa : Nat} {us : List Upd} (h : s.Reaches va n a pa s') :
    scalarTail s.cur va n a (.at_ (.mem pa)) ⟨s', us⟩ = .ok ((), ⟨s', us⟩) := by
  have hs := reaches_same h
  have hw : (s'.strand s.cur).watched va n a = false := by
    have := h.unwatched
    simpa only [State.here, State.strand, congrArg State.strands hs] using this
  have hc := h.clean
  have ht : s'.taskOf s.cur = none := (taskOf_same hs _).trans h.untasked
  have hv : ((a.rd || decide (n < 8)) && s'.viewPoisoned none pa n) = false := by
    cases hh : (a.rd || decide (n < 8)) with
    | false => rfl
    | true => simp [State.viewPoisoned, hc hh]
  simp only [scalarTail, bind_eq, gs_eq, ht, hv, Bool.false_eq_true, if_false, pure_eq, hw]

theorem viewRead_none (s : State) (n : Nat) : ∀ pa, s.viewRead none pa n = s.physRead pa n := by
  induction n with
  | zero => intro pa; rfl
  | succ n ih => intro pa; simp only [State.viewRead, State.physRead, ih, State.viewByte, State.buffering]; rfl

/-- An access that no pending VLDA is in the way of goes on at once. -/
theorem waitVlda_none {k : Nat} {p : Place} {n : Nat} {w : Work} (h : (w.s.strand k).pendingAt p n = false) : waitVlda k p n w = .ok ((), w) := by
  simp only [waitVlda, bind_eq, getStrand_eq, h, Bool.false_eq_true, if_false, pure_eq]

theorem wait_mem {s s' : State} {va : Word} {n : Nat} {a : Acc} {pa : Nat} {us : List Upd} (h : s.Reaches va n a pa s') :
    waitVlda s.cur (.at_ (.mem pa)) n ⟨s', us⟩ = .ok ((), ⟨s', us⟩) := by
  refine waitVlda_none ?_
  have := h.apart
  simpa only [State.here, State.strand, congrArg State.strands (reaches_same h)] using this

theorem loadPlace_mem {s s' : State} {va : Word} {n pa : Nat} {us : List Upd} (h : s.Reaches va n accLoad pa s') :
    loadPlace s.cur va n (.at_ (.mem pa)) ⟨s', us⟩ = .ok (s'.physRead pa n, ⟨s', us⟩) := by
  have ht : s'.taskOf s.cur = none := (taskOf_same (reaches_same h) _).trans h.untasked
  simp only [loadPlace, bind_eq, tail_mem h, wait_mem h, gs_eq, ht, memRead, markRead, pure_eq, viewRead_none]

theorem load_mem {s s' : State} {va : Word} {n pa : Nat} (h : s.Reaches va n accLoad pa s') :
    ∃ us, s' = applyAll us s ∧ scalarRead s.cur va n false ⟨s, []⟩ = .ok (s'.physRead pa n, ⟨s', us⟩) := by
  obtain ⟨us, _, hs, hr⟩ := reach_mem h
  refine ⟨us, hs, ?_⟩
  simp only [scalarRead, bind_eq, hr, loadPlace_mem h]

theorem fld_zero {x : Word} {lo n : Nat} (h : x.toNat < 2 ^ lo) : fld x lo n = 0 := by
  simp only [fld, Nat.div_eq_of_lt h, Nat.zero_mod]

theorem reach_pan {s : State} {va : Word} {n : Nat} {a : Acc} {us : List Upd} (h : s.ReachesPan va n a) :
    scalarReach s.cur va n true a ⟨s, us⟩ = .ok (.pan (panKey (panOf s.cur) va.toNat), ⟨s, us⟩) := by
  have ha := h.aligned
  have hf : fld va 23 41 = 0 := fld_zero h.space
  have hi : s.inPartition (panOf s.cur) (s.strand s.cur).ctx va.toNat n = true := h.inside
  have hf2 := h.full
  have hh := holds_none (st := s.strand s.cur) h.unheld va
  unfold scalarReach
  generalize fld va 23 41 = q at *
  subst hf
  simp only [bind_eq, getStrand_eq, pure_eq, gs_eq, hh, ha, ne_eq, not_true_eq_false, if_false, if_true, hf2, hi,
    Bool.not_true, Bool.or_false, Bool.false_eq_true]

theorem tail_pan {s : State} {va : Word} {n : Nat} {a : Acc} {us : List Upd} (h : s.ReachesPan va n a) :
    scalarTail s.cur va n a (.pan (panKey (panOf s.cur) va.toNat)) ⟨s, us⟩ = .ok ((), ⟨s, us⟩) := by
  have hv : ((a.rd || decide (n < 8)) && s.panPoisonedAt (panKey (panOf s.cur) va.toNat) n) = false := by
    cases hh : (a.rd || decide (n < 8)) with
    | false => rfl
    | true => simp [h.clean hh]
  simp only [scalarTail, bind_eq, gs_eq, hv, Bool.false_eq_true, if_false, pure_eq]

theorem loadPlace_pan {s : State} {va : Word} {n : Nat} {us : List Upd} (h : s.ReachesPan va n accLoad) :
    loadPlace s.cur va n (.pan (panKey (panOf s.cur) va.toNat)) ⟨s, us⟩ = .ok (s.panRead (panKey (panOf s.cur) va.toNat) n, ⟨s, us⟩) := by
  simp only [loadPlace, bind_eq, tail_pan h, waitVlda_none (w := ⟨s, us⟩) h.apart, gs_eq, pure_eq]

theorem load_pan {s : State} {va : Word} {n : Nat} (h : s.ReachesPan va n accLoad) :
    scalarRead s.cur va n true ⟨s, []⟩ = .ok (s.panRead (panKey (panOf s.cur) va.toNat) n, ⟨s, []⟩) := by
  simp only [scalarRead, bind_eq, reach_pan h, loadPlace_pan h]

/-! Writes. -/

/-- Inside one 4 KiB chunk the home moves with the address (01 R44). -/
theorem home_add (s : State) (pa i : Nat) (h : pa % 4096 + i < 4096) : s.home (pa + i) = s.home pa + i := by
  have h1 : (pa + i) / 65536 = pa / 65536 := by omega
  have h2 : (pa + i) % 65536 / 4096 = pa % 65536 / 4096 := by omega
  have h3 : (pa + i) % 65536 = pa % 65536 + i := by omega
  unfold State.home
  rw [h1, h2, h3]
  split
  · rw [Nat.add_assoc]
  · rfl

/-- Strands of which each differs from its counterpart at most in its latch; the strand `k` does not differ. -/
def WokenBut (k : Nat) (s t : State) : Prop := t.strand k = s.strand k ∧ ∀ j, (s.strand j).Woken (t.strand j)

theorem WokenBut.rfl' (k : Nat) (s : State) : WokenBut k s s := ⟨rfl, fun _ => .inl rfl⟩

theorem Strand.Woken.trans {a b c : Strand} (h : a.Woken b) (h' : b.Woken c) : a.Woken c := by
  rcases h with rfl | rfl
  · exact h'
  · rcases h' with rfl | rfl
    · exact .inr rfl
    · exact .inr rfl

theorem WokenBut.trans {k : Nat} {s t u : State} (h : WokenBut k s t) (h' : WokenBut k t u) : WokenBut k s u :=
  ⟨h'.1.trans h.1, fun j => (h.2 j).trans (h'.2 j)⟩

/-- The relation of two states that differ in storage and its poison, and in latches of strands other than `k`. -/
structure WroteBut (k : Nat) (s t : State) : Prop where
  woken : WokenBut k s t
  pans : t.pans = s.pans
  bays : t.bays = s.bays
  dies : t.dies = s.dies
  free : t.free = s.free
  aside : s.Aside t

theorem State.Aside.refl (s : State) : s.Aside s := rfl

theorem State.Aside.trans {s t u : State} (h : s.Aside t) (h' : t.Aside u) : s.Aside u :=
  Eq.trans h' (congrArg (fun x : State => { x with
    strands := u.strands, mem := u.mem, poison := u.poison, panMem := u.panMem, panPoison := u.panPoison
    pans := u.pans, bays := u.bays, dies := u.dies, free := u.free }) h)

theorem WroteBut.refl (k : Nat) (s : State) : WroteBut k s s := ⟨WokenBut.rfl' k s, rfl, rfl, rfl, rfl, State.Aside.refl s⟩

theorem WroteBut.trans {k : Nat} {s t u : State} (h : WroteBut k s t) (h' : WroteBut k t u) : WroteBut k s u :=
  ⟨h.woken.trans h'.woken, h'.pans.trans h.pans, h'.bays.trans h.bays, h'.dies.trans h.dies, h'.free.trans h.free, h.aside.trans h'.aside⟩

theorem home_same {s t : State} (h : t.dies = s.dies) (pa : Nat) : t.home pa = s.home pa := by
  simp only [State.home, h]

/-- Setting the latches of the strands that monitor `m`, but for the writer. -/
theorem wakeMonitors_eq (m : Monitor) (k : Nat) (w : Work) (hwf : Tbl.wf {} w.s.strands = true) :
    ∃ us, wakeMonitors m (some k) w = .ok ((), ⟨applyAll us w.s, us ++ w.log⟩) ∧ WroteBut k w.s (applyAll us w.s) ∧
      (applyAll us w.s).mem = w.s.mem ∧ (applyAll us w.s).panMem = w.s.panMem ∧ (applyAll us w.s).poison = w.s.poison ∧
      (applyAll us w.s).panPoison = w.s.panPoison ∧ Tbl.wf {} (applyAll us w.s).strands = true := by
  have key : ∀ (l : List Nat) (w : Work), Tbl.wf {} w.s.strands = true →
      ∃ us, (each l fun j => do
        if some j ≠ some k ∧ ((← gs).strand j).monitor = m then modStrand j fun st => { st with latch := true }) w
          = .ok ((), ⟨applyAll us w.s, us ++ w.log⟩) ∧ WroteBut k w.s (applyAll us w.s) ∧
      (applyAll us w.s).mem = w.s.mem ∧ (applyAll us w.s).panMem = w.s.panMem ∧ (applyAll us w.s).poison = w.s.poison ∧
      (applyAll us w.s).panPoison = w.s.panPoison ∧ Tbl.wf {} (applyAll us w.s).strands = true := by
    intro l
    induction l with
    | nil => intro w h; exact ⟨[], rfl, WroteBut.refl _ _, rfl, rfl, rfl, rfl, h⟩
    | cons j l ih =>
      intro w h
      by_cases hc : some j ≠ some k ∧ (w.s.strand j).monitor = m
      · have hst : ∃ st : Strand, st = { w.s.strand j with latch := true } := ⟨_, rfl⟩
        obtain ⟨st, hst⟩ := hst
        have hw1 : ∃ w1 : Work, w1 = ⟨(Upd.strand j st).apply w.s, .strand j st :: w.log⟩ := ⟨_, rfl⟩
        obtain ⟨w1, hw1⟩ := hw1
        have h1 : Tbl.wf {} w1.s.strands = true := by rw [hw1]; exact Tbl.put_wf _ _ _ _ h
        obtain ⟨us, he, hb, hm, hp, hq, hr, hf⟩ := ih w1 h1
        have hs : applyAll (us ++ [.strand j st]) w.s = applyAll us w1.s := by rw [applyAll_append, hw1]; rfl
        refine ⟨us ++ [.strand j st], ?_, ?_, ?_, ?_, ?_, ?_, ?_⟩
        · have : (each (j :: l) fun j => do
              if some j ≠ some k ∧ ((← gs).strand j).monitor = m then modStrand j fun st => { st with latch := true }) w =
              (each l fun j => do
              if some j ≠ some k ∧ ((← gs).strand j).monitor = m then modStrand j fun st => { st with latch := true }) w1 := by
            rw [hw1, hst]
            simp only [each, bind_eq, gs_eq]
            rw [if_pos hc]
            rfl
          rw [this, he, hs, List.append_assoc, hw1]
          rfl
        · rw [hs]
          refine WroteBut.trans (t := w1.s) ?_ hb
          rw [hw1]
          refine ⟨⟨?_, ?_⟩, rfl, rfl, rfl, rfl, ?_⟩
          · have : k ≠ j := fun e => hc.1 (by rw [e])
            exact Tbl.get_put_other _ _ _ _ _ this
          · intro i
            by_cases hi : i = j
            · subst hi
              right
              rw [← hst]
              exact Tbl.get_put_same _ _ _ _ 0 h
            · left
              exact Tbl.get_put_other _ _ _ _ _ hi
          · rfl
        · rw [hs, hm, hw1]; rfl
        · rw [hs, hp, hw1]; rfl
        · rw [hs, hq, hw1]; rfl
        · rw [hs, hr, hw1]; rfl
        · rw [hs]; exact hf
      · obtain ⟨us, he, r⟩ := ih w h
        refine ⟨us, ?_, r⟩
        simp only [each, bind_eq, gs_eq]
        rw [if_neg hc]
        exact he
  have := key (w.s.strands.map (·.1)) w hwf
  exact this


/-- The bytes that `putBytes` leaves. -/
theorem putBytes_eq (bs : List Byte) : ∀ (pa : Nat) (w : Work), Tbl.wf 0 w.s.mem = true → pa % 4096 + bs.length ≤ 4096 →
    (∀ i < bs.length, w.s.home (pa + i) < memLimit) →
    ∃ us, putBytes pa bs w = .ok ((), ⟨applyAll us w.s, us ++ w.log⟩) ∧ (∃ m, applyAll us w.s = { w.s with mem := m }) ∧
      Tbl.wf 0 (applyAll us w.s).mem = true ∧
      (∀ i < bs.length, (applyAll us w.s).byte (w.s.home pa + i) = nth 0 bs i) ∧
      (∀ x, (∀ i < bs.length, x ≠ w.s.home pa + i) → (applyAll us w.s).byte x = w.s.byte x) := by
  induction bs with
  | nil => intro pa w h _ _; exact ⟨[], rfl, ⟨_, rfl⟩, h, fun i hi => absurd hi (Nat.not_lt_zero i), fun _ _ => rfl⟩
  | cons b bs ih =>
    intro pa w hwf hfit hlim
    simp only [List.length_cons] at hfit hlim ⊢
    have h0 := hlim 0 (by omega)
    rw [Nat.add_zero] at h0
    obtain ⟨w1, hw1⟩ : ∃ w1 : Work, w1 = ⟨(Upd.memByte (w.s.home pa) b).apply w.s, .memByte (w.s.home pa) b :: w.log⟩ := ⟨_, rfl⟩
    have hs1 : w1.s = { w.s with mem := Tbl.put 0 (w.s.home pa) b w.s.mem } := by
      rw [hw1]; simp only [Upd.apply, h0, if_true]
    have hd : w1.s.dies = w.s.dies := by rw [hs1]
    have hwf1 : Tbl.wf 0 w1.s.mem = true := by rw [hs1]; exact Tbl.put_wf _ _ _ _ hwf
    by_cases hb : bs = []
    · subst hb
      refine ⟨[.memByte (w.s.home pa) b], ?_, ⟨Tbl.put 0 (w.s.home pa) b w.s.mem, ?_⟩, ?_, ?_, ?_⟩
      · simp only [putBytes, bind_eq, gs_eq, emit_eq]; rfl
      · exact (show applyAll [.memByte (w.s.home pa) b] w.s = w1.s by rw [hw1]; rfl).trans hs1
      · exact (show applyAll [.memByte (w.s.home pa) b] w.s = w1.s by rw [hw1]; rfl) ▸ hwf1
      · intro i hi
        have : i = 0 := by simp at hi; omega
        subst this
        rw [show applyAll [.memByte (w.s.home pa) b] w.s = w1.s by rw [hw1]; rfl, hs1]
        exact Tbl.get_put_same _ _ _ _ 0 hwf
      · intro x hx
        rw [show applyAll [.memByte (w.s.home pa) b] w.s = w1.s by rw [hw1]; rfl, hs1]
        exact Tbl.get_put_other _ _ _ _ _ (hx 0 (by omega))
    · have hlen : 0 < bs.length := List.length_pos_iff.mpr hb
      have hhome : w1.s.home (pa + 1) = w.s.home pa + 1 := (home_same hd _).trans (home_add w.s pa 1 (by omega))
      obtain ⟨us, he, ⟨m, hm⟩, hf, hin, hout⟩ := ih (pa + 1) w1 hwf1 (by omega) (by
        intro i hi
        rw [home_same hd, Nat.add_assoc, Nat.add_comm 1 i]
        exact hlim (i + 1) (by omega))
      have hs : applyAll (us ++ [.memByte (w.s.home pa) b]) w.s = applyAll us w1.s := by rw [applyAll_append, hw1]; rfl
      refine ⟨us ++ [.memByte (w.s.home pa) b], ?_, ⟨m, ?_⟩, ?_, ?_, ?_⟩
      · have : putBytes pa (b :: bs) w = putBytes (pa + 1) bs w1 := by
          rw [hw1]; simp only [putBytes, bind_eq, gs_eq, emit_eq]
        rw [this, he, hs, List.append_assoc, hw1]
        rfl
      · rw [hs, hm, hs1]
      · rw [hs]; exact hf
      · intro i hi
        rw [hs]
        cases i with
        | zero =>
          rw [hout (w.s.home pa + 0) (by intro j _; omega), hs1]
          exact Tbl.get_put_same _ _ _ _ 0 hwf
        | succ i =>
          have := hin i (by omega)
          rw [hhome] at this
          rw [show w.s.home pa + (i + 1) = w.s.home pa + 1 + i by omega, this]
          rfl
      · intro x hx
        rw [hs, hout x (by intro i hi; rw [hhome]; have := hx (i + 1) (by omega); omega), hs1]
        exact Tbl.get_put_other _ _ _ _ _ (hx 0 (by omega))

/-- Removing poison changes nothing else, and adds none. -/
theorem clear_eq {α : Type} (l : List α) (f : α → State → Nat) (w : Work) :
    ∃ us, (each l fun g => do
        let h := f g (← gs)
        if NSet.mem h (← gs).poison then emit (.poison h false) else pure ()) w = .ok ((), ⟨applyAll us w.s, us ++ w.log⟩) ∧
      (∃ p, applyAll us w.s = { w.s with poison := p }) ∧
      (∀ g, NSet.mem g (applyAll us w.s).poison = true → NSet.mem g w.s.poison = true) := by
  induction l generalizing w with
  | nil => exact ⟨[], rfl, ⟨_, rfl⟩, fun _ h => h⟩
  | cons x l ih =>
    by_cases hc : NSet.mem (f x w.s) w.s.poison = true
    · obtain ⟨us, he, ⟨p, hp⟩, hq⟩ := ih ⟨(Upd.poison (f x w.s) false).apply w.s, .poison (f x w.s) false :: w.log⟩
      have hs : applyAll (us ++ [.poison (f x w.s) false]) w.s = applyAll us ((Upd.poison (f x w.s) false).apply w.s) := by rw [applyAll_append]; rfl
      refine ⟨us ++ [.poison (f x w.s) false], ?_, ⟨p, ?_⟩, ?_⟩
      · simp only [each, bind_eq, gs_eq]
        rw [if_pos hc]
        refine he.trans ?_
        rw [hs, List.append_assoc]; rfl
      · rw [hs, hp]; rfl
      · intro g hg
        rw [hs] at hg
        have := hq g hg
        simp only [Upd.apply, NSet.mem, NSet.del, Bool.false_eq_true, if_false, List.any_filter, List.any_eq_true] at this ⊢
        obtain ⟨y, h1, h2⟩ := this
        simp only [Bool.and_eq_true] at h2
        exact ⟨y, h1, h2.2⟩
    · obtain ⟨us, he, r⟩ := ih w
      refine ⟨us, ?_, r⟩
      simp only [each, bind_eq, gs_eq]
      rw [if_neg hc]
      exact he

/-- What a write to device memory may change, its bytes apart: poison it covers, and latches of other strands. -/
theorem wakeLines_eq (k : Nat) (by_ : Option Nat) (ls : List Nat) (w : Work) (hst : Tbl.wf {} w.s.strands = true) (ht : w.s.tasks = []) :
    ∃ us, (each ls fun l => do
        wakeMonitors (.line ((← gs).home (l * 128) / 128)) (some k)
        revalidate ((← gs).canon (l * 128) / 128) by_) w = .ok ((), ⟨applyAll us w.s, us ++ w.log⟩) ∧ WroteBut k w.s (applyAll us w.s) ∧
      (applyAll us w.s).mem = w.s.mem ∧ (applyAll us w.s).panMem = w.s.panMem ∧ (applyAll us w.s).poison = w.s.poison ∧
      (applyAll us w.s).panPoison = w.s.panPoison ∧ Tbl.wf {} (applyAll us w.s).strands = true := by
  induction ls generalizing w with
  | nil => exact ⟨[], rfl, WroteBut.refl _ _, rfl, rfl, rfl, rfl, hst⟩
  | cons l ls ih =>
    obtain ⟨us, he, hb, hm, hp, hq, hr, hf⟩ := wakeMonitors_eq (.line (w.s.home (l * 128) / 128)) k w hst
    have ht1 : (applyAll us w.s).tasks = [] := (congrArg State.tasks hb.aside).trans ht
    obtain ⟨vs, he', hb', hm', hp', hq', hr', hf'⟩ := ih ⟨applyAll us w.s, us ++ w.log⟩ hf ht1
    have hs : applyAll (vs ++ us) w.s = applyAll vs (applyAll us w.s) := applyAll_append _ _ _
    refine ⟨vs ++ us, ?_, ?_, ?_, ?_, ?_, ?_, ?_⟩
    · have hrv : ∀ (l : Nat) (w' : Work), w'.s.tasks = [] → revalidate l by_ w' = .ok ((), w') := by
        intro l w' hw'
        simp only [revalidate, bind_eq, gs_eq, hw', List.map_nil]
        rfl
      simp only [each, bind_eq, gs_eq, he, hrv _ ⟨applyAll us w.s, us ++ w.log⟩ ht1]
      refine he'.trans ?_
      rw [hs, List.append_assoc]
    · rw [hs]; exact hb.trans hb'
    · rw [hs]; exact hm'.trans hm
    · rw [hs]; exact hp'.trans hp
    · rw [hs]; exact hq'.trans hq
    · rw [hs]; exact hr'.trans hr
    · rw [hs]; exact hf'

theorem physWrite_eq (k : Nat) (by_ : Option Nat) (pa : Nat) (bs : List Byte) (w : Work) (hmem : Tbl.wf 0 w.s.mem = true)
    (hst : Tbl.wf {} w.s.strands = true) (ht : w.s.tasks = []) (hfit : pa % 4096 + bs.length ≤ 4096)
    (hlim : ∀ i < bs.length, w.s.home (pa + i) < memLimit) :
    ∃ us, physWrite (some k) by_ pa bs w = .ok ((), ⟨applyAll us w.s, us ++ w.log⟩) ∧ WroteBut k w.s (applyAll us w.s) ∧
      (∀ i < bs.length, (applyAll us w.s).byte (w.s.home pa + i) = nth 0 bs i) ∧
      (∀ x, (∀ i < bs.length, x ≠ w.s.home pa + i) → (applyAll us w.s).byte x = w.s.byte x) ∧
      (∀ g, NSet.mem g (applyAll us w.s).poison = true → NSet.mem g w.s.poison = true) ∧
      (applyAll us w.s).panMem = w.s.panMem ∧ (applyAll us w.s).panPoison = w.s.panPoison ∧ Tbl.wf {} (applyAll us w.s).strands = true := by
  obtain ⟨u1, e1, ⟨m, h1⟩, _, hin, hout⟩ := putBytes_eq bs pa w hmem hfit hlim
  obtain ⟨u2, e2, ⟨p, h2⟩, hsub⟩ := clear_eq ((List.range ((pa + bs.length) / 64 - (pa + 63) / 64)).map ((pa + 63) / 64 + ·))
    (fun g s => s.home (g * 64) / 64) ⟨applyAll u1 w.s, u1 ++ w.log⟩
  have e2' : clearPoison pa bs.length ⟨applyAll u1 w.s, u1 ++ w.log⟩ = .ok ((), ⟨applyAll u2 (applyAll u1 w.s), u2 ++ (u1 ++ w.log)⟩) := by
    simp only [clearPoison]
    exact e2
  have hs2 : applyAll u2 (applyAll u1 w.s) = { w.s with mem := m, poison := p } := by
    rw [h2]; show _ = _; rw [h1]
  obtain ⟨u3, e3, hb, hm3, hp3, hq3, hr3, hf3⟩ := wakeLines_eq k by_ ((List.range ((pa % 128 + bs.length + 127) / 128)).map (pa / 128 + ·))
    ⟨applyAll u2 (applyAll u1 w.s), u2 ++ (u1 ++ w.log)⟩ (by rw [hs2]; exact hst) (by rw [hs2]; exact ht)
  have hs : applyAll (u3 ++ (u2 ++ u1)) w.s = applyAll u3 (applyAll u2 (applyAll u1 w.s)) := by
    rw [applyAll_append, applyAll_append]
  have hmem2 : (applyAll u2 (applyAll u1 w.s)).mem = (applyAll u1 w.s).mem := by
    have := congrArg State.mem h2; exact this
  refine ⟨u3 ++ (u2 ++ u1), ?_, ?_, ?_, ?_, ?_, ?_, ?_, ?_⟩
  · simp only [physWrite, bind_eq, e1, e2']
    refine e3.trans ?_
    rw [hs]
    simp only [List.append_assoc]
  · rw [hs]
    refine WroteBut.trans ?_ hb
    show WroteBut k w.s (applyAll u2 (applyAll u1 w.s))
    rw [hs2]
    exact ⟨WokenBut.rfl' k _, rfl, rfl, rfl, rfl, rfl⟩
  · intro i hi
    rw [hs]
    show Tbl.get 0 _ (applyAll u3 _).mem = _
    rw [hm3, hmem2]
    exact hin i hi
  · intro x hx
    rw [hs]
    show Tbl.get 0 _ (applyAll u3 _).mem = _
    rw [hm3, hmem2]
    exact hout x hx
  · intro g hg
    rw [hs, hq3] at hg
    have hg := hsub g hg
    have : (applyAll u1 w.s).poison = w.s.poison := by have := congrArg State.poison h1; exact this
    rwa [this] at hg
  · rw [hs, hp3, hs2]
  · rw [hs, hr3, hs2]
  · rw [hs]; exact hf3

/-! Pan memory. -/

theorem putPanBytes_eq (bs : List Byte) : ∀ (key : Nat) (w : Work), Tbl.wf 0 w.s.panMem = true → (∀ i < bs.length, panKeyOk (key + i) = true) →
    ∃ us, putPanBytes key bs w = .ok ((), ⟨applyAll us w.s, us ++ w.log⟩) ∧ (∃ m, applyAll us w.s = { w.s with panMem := m }) ∧
      (∀ i < bs.length, (applyAll us w.s).panByte (key + i) = nth 0 bs i) ∧
      (∀ x, (∀ i < bs.length, x ≠ key + i) → (applyAll us w.s).panByte x = w.s.panByte x) := by
  induction bs with
  | nil => intro key w _ _; exact ⟨[], rfl, ⟨_, rfl⟩, fun i hi => absurd hi (Nat.not_lt_zero i), fun _ _ => rfl⟩
  | cons b bs ih =>
    intro key w hwf hok
    simp only [List.length_cons] at hok ⊢
    have h0 := hok 0 (by omega)
    rw [Nat.add_zero] at h0
    obtain ⟨w1, hw1⟩ : ∃ w1 : Work, w1 = ⟨(Upd.panByte key b).apply w.s, .panByte key b :: w.log⟩ := ⟨_, rfl⟩
    have hs1 : w1.s = { w.s with panMem := Tbl.put 0 key b w.s.panMem } := by
      rw [hw1]; simp only [Upd.apply, h0, if_true]
    have hwf1 : Tbl.wf 0 w1.s.panMem = true := by rw [hs1]; exact Tbl.put_wf _ _ _ _ hwf
    obtain ⟨us, he, ⟨m, hm⟩, hin, hout⟩ := ih (key + 1) w1 hwf1 (by
      intro i hi
      rw [Nat.add_assoc, Nat.add_comm 1 i]
      exact hok (i + 1) (by omega))
    have hs : applyAll (us ++ [.panByte key b]) w.s = applyAll us w1.s := by rw [applyAll_append, hw1]; rfl
    refine ⟨us ++ [.panByte key b], ?_, ⟨m, ?_⟩, ?_, ?_⟩
    · have : putPanBytes key (b :: bs) w = putPanBytes (key + 1) bs w1 := by
        rw [hw1]; simp only [putPanBytes, bind_eq, emit_eq]
      rw [this, he, hs, List.append_assoc, hw1]
      rfl
    · rw [hs, hm, hs1]
    · intro i hi
      rw [hs]
      cases i with
      | zero =>
        rw [hout (key + 0) (by intro j _; omega), hs1]
        exact Tbl.get_put_same _ _ _ _ 0 hwf
      | succ i =>
        have := hin i (by omega)
        rw [show key + (i + 1) = key + 1 + i by omega, this]
        rfl
    · intro x hx
      rw [hs, hout x (by intro i hi; have := hx (i + 1) (by omega); omega), hs1]
      exact Tbl.get_put_other _ _ _ _ _ (hx 0 (by omega))

theorem clearPan_eq (l : List Nat) (w : Work) :
    ∃ us, (each l fun g => do
        if NSet.mem g (← gs).panPoison then emit (.panPoison g false) else pure ()) w = .ok ((), ⟨applyAll us w.s, us ++ w.log⟩) ∧
      (∃ p, applyAll us w.s = { w.s with panPoison := p }) ∧
      (∀ g, NSet.mem g (applyAll us w.s).panPoison = true → NSet.mem g w.s.panPoison = true) := by
  induction l generalizing w with
  | nil => exact ⟨[], rfl, ⟨_, rfl⟩, fun _ h => h⟩
  | cons x l ih =>
    by_cases hc : NSet.mem x w.s.panPoison = true
    · obtain ⟨us, he, ⟨p, hp⟩, hq⟩ := ih ⟨(Upd.panPoison x false).apply w.s, .panPoison x false :: w.log⟩
      have hs : applyAll (us ++ [.panPoison x false]) w.s = applyAll us ((Upd.panPoison x false).apply w.s) := by rw [applyAll_append]; rfl
      refine ⟨us ++ [.panPoison x false], ?_, ⟨p, ?_⟩, ?_⟩
      · simp only [each, bind_eq, gs_eq]
        rw [if_pos hc]
        refine he.trans ?_
        rw [hs, List.append_assoc]; rfl
      · rw [hs, hp]; rfl
      · intro g hg
        rw [hs] at hg
        have := hq g hg
        simp only [Upd.apply, NSet.mem, NSet.del, Bool.false_eq_true, if_false, List.any_filter, List.any_eq_true] at this ⊢
        obtain ⟨y, h1, h2⟩ := this
        simp only [Bool.and_eq_true] at h2
        exact ⟨y, h1, h2.2⟩
    · obtain ⟨us, he, r⟩ := ih w
      refine ⟨us, ?_, r⟩
      simp only [each, bind_eq, gs_eq]
      rw [if_neg hc]
      exact he

theorem wakeWords_eq (k : Nat) (ls : List Nat) (w : Work) (hst : Tbl.wf {} w.s.strands = true) :
    ∃ us, (each ls fun l => wakeMonitors (.bank l) (some k)) w = .ok ((), ⟨applyAll us w.s, us ++ w.log⟩) ∧ WroteBut k w.s (applyAll us w.s) ∧
      (applyAll us w.s).mem = w.s.mem ∧ (applyAll us w.s).panMem = w.s.panMem ∧ (applyAll us w.s).poison = w.s.poison ∧
      (applyAll us w.s).panPoison = w.s.panPoison ∧ Tbl.wf {} (applyAll us w.s).strands = true := by
  induction ls generalizing w with
  | nil => exact ⟨[], rfl, WroteBut.refl _ _, rfl, rfl, rfl, rfl, hst⟩
  | cons l ls ih =>
    obtain ⟨us, he, hb, hm, hp, hq, hr, hf⟩ := wakeMonitors_eq (.bank l) k w hst
    obtain ⟨vs, he', hb', hm', hp', hq', hr', hf'⟩ := ih ⟨applyAll us w.s, us ++ w.log⟩ hf
    have hs : applyAll (vs ++ us) w.s = applyAll vs (applyAll us w.s) := applyAll_append _ _ _
    refine ⟨vs ++ us, ?_, ?_, ?_, ?_, ?_, ?_, ?_⟩
    · simp only [each, bind_eq, he]
      refine he'.trans ?_
      rw [hs, List.append_assoc]
    · rw [hs]; exact hb.trans hb'
    · rw [hs]; exact hm'.trans hm
    · rw [hs]; exact hp'.trans hp
    · rw [hs]; exact hq'.trans hq
    · rw [hs]; exact hr'.trans hr
    · rw [hs]; exact hf'

theorem panWrite_eq (k key : Nat) (bs : List Byte) (w : Work) (hmem : Tbl.wf 0 w.s.panMem = true) (hst : Tbl.wf {} w.s.strands = true)
    (hok : ∀ i < bs.length, panKeyOk (key + i) = true) :
    ∃ us, panWrite (some k) key bs w = .ok ((), ⟨applyAll us w.s, us ++ w.log⟩) ∧ WroteBut k w.s (applyAll us w.s) ∧
      (∀ i < bs.length, (applyAll us w.s).panByte (key + i) = nth 0 bs i) ∧
      (∀ x, (∀ i < bs.length, x ≠ key + i) → (applyAll us w.s).panByte x = w.s.panByte x) ∧
      (∀ g, NSet.mem g (applyAll us w.s).panPoison = true → NSet.mem g w.s.panPoison = true) ∧
      (applyAll us w.s).mem = w.s.mem ∧ (applyAll us w.s).poison = w.s.poison ∧ Tbl.wf {} (applyAll us w.s).strands = true := by
  obtain ⟨u1, e1, ⟨m, h1⟩, hin, hout⟩ := putPanBytes_eq bs key w hmem hok
  obtain ⟨u2, e2, ⟨p, h2⟩, hsub⟩ := clearPan_eq ((List.range ((key + bs.length) / 8 - (key + 7) / 8)).map ((key + 7) / 8 + ·))
    ⟨applyAll u1 w.s, u1 ++ w.log⟩
  have hs2 : applyAll u2 (applyAll u1 w.s) = { w.s with panMem := m, panPoison := p } := by
    rw [h2]; show _ = _; rw [h1]
  obtain ⟨u3, e3, hb, hm3, hp3, hq3, hr3, hf3⟩ := wakeWords_eq k ((List.range ((key % 8 + bs.length + 7) / 8)).map (key / 8 + ·))
    ⟨applyAll u2 (applyAll u1 w.s), u2 ++ (u1 ++ w.log)⟩ (by rw [hs2]; exact hst)
  have hs : applyAll (u3 ++ (u2 ++ u1)) w.s = applyAll u3 (applyAll u2 (applyAll u1 w.s)) := by
    rw [applyAll_append, applyAll_append]
  have hmem2 : (applyAll u2 (applyAll u1 w.s)).panMem = (applyAll u1 w.s).panMem := by
    have := congrArg State.panMem h2; exact this
  refine ⟨u3 ++ (u2 ++ u1), ?_, ?_, ?_, ?_, ?_, ?_, ?_, ?_⟩
  · simp only [panWrite, bind_eq, e1, e2]
    refine e3.trans ?_
    rw [hs]
    simp only [List.append_assoc]
  · rw [hs]
    refine WroteBut.trans ?_ hb
    show WroteBut k w.s (applyAll u2 (applyAll u1 w.s))
    rw [hs2]
    exact ⟨WokenBut.rfl' k _, rfl, rfl, rfl, rfl, rfl⟩
  · intro i hi
    rw [hs]
    show Tbl.get 0 _ (applyAll u3 _).panMem = _
    rw [hp3, hmem2]
    exact hin i hi
  · intro x hx
    rw [hs]
    show Tbl.get 0 _ (applyAll u3 _).panMem = _
    rw [hp3, hmem2]
    exact hout x hx
  · intro g hg
    rw [hs, hr3] at hg
    have hg := hsub g hg
    have : (applyAll u1 w.s).panPoison = w.s.panPoison := by have := congrArg State.panPoison h1; exact this
    rwa [this] at hg
  · rw [hs, hm3, hs2]
  · rw [hs, hq3, hs2]
  · rw [hs]; exact hf3


/-! Scalar stores. -/

theorem bytesOf_len (v n : Nat) : (bytesOf v n).length = n := by
  induction n generalizing v with
  | zero => rfl
  | succ n ih => simp [bytesOf, ih]

theorem bytesOf_nth (v n i : Nat) (h : i < n) : nth 0 (bytesOf v n) i = BitVec.ofNat 8 (v / 2 ^ (8*i)) := by
  induction n generalizing v i with
  | zero => omega
  | succ n ih =>
    cases i with
    | zero => simp [bytesOf, nth]
    | succ i =>
      have := ih (v / 256) i (by omega)
      simp only [nth, bytesOf, List.getElem?_cons_succ] at this ⊢
      rw [this, Nat.div_div_eq_div_mul]
      congr 2
      rw [show 8 * (i+1) = 8 * i + 8 by omega, Nat.pow_add, Nat.mul_comm]

theorem reaches_good {s s' : State} {va : Word} {n : Nat} {a : Acc} {pa : Nat} (h : s.Reaches va n a pa s') (g : s.Good) : s'.Good := by
  obtain ⟨us, _, rfl, _⟩ := reach_mem h
  exact applyAll_good us s g


theorem mod_pow_mod (x w e : Nat) (h : x % 2^w = 0) : x % 2^e % 2^w = 0 := by
  by_cases he : w ≤ e
  · rw [Nat.mod_mod_of_dvd x (Nat.pow_dvd_pow 2 he)]; exact h
  · have : x % 2^e = 0 := Nat.mod_eq_zero_of_dvd (Nat.dvd_trans (Nat.pow_dvd_pow 2 (by omega)) (Nat.dvd_of_mod_eq_zero h))
    rw [this, Nat.zero_mod]

theorem reaches_aligned {s s' : State} {va : Word} {w pa : Nat} {a : Acc} (h : s.Reaches va (2^w) a pa s') (hw : w < 4) : pa % 2^w = 0 := by
  obtain ⟨_, _, _, hr⟩ := looks_ok h.found
  obtain ⟨t, s1, hl⟩ := reach_loc hr
  have ha := h.aligned
  unfold State.locOf at hl
  split at hl
  · dsimp only at hl
    split at hl
    · cases hl
    injection hl with hl
    rw [← hl]
    have := mod_pow_mod va.toNat w t.size ha
    generalize va.toNat % 2 ^ t.size = r at *
    generalize fld t.leaf 16 23 = f at *
    rcases w with _|_|_|_|w <;> (try simp only [Nat.pow_zero, Nat.zero_add, Nat.reduceAdd, Nat.reducePow] at *) <;> omega
  all_goals cases hl

theorem store_mem {s s' : State} {va : Word} {w pa v : Nat} (hw : w < 4) (g : s.Good) (h : s.Reaches va (2^w) accStore pa s') (c : s'.CanStore pa (2^w)) :
   ∃ us t, scalarWrite s.cur va (2^w) false v none ⟨s, []⟩ = .ok ((), ⟨t, us⟩) ∧ t = applyAll us s ∧ t.here = s.here ∧ s'.Stored t s.here pa (2^w) v ∧ Tbl.wf {} t.strands = true := by
  obtain ⟨us, hu, hs, hr⟩ := reach_mem h
  have same := reaches_same h
  have hpa : pa % 2^w = 0 := reaches_aligned h hw
  have ht : s'.taskOf s.cur = none := (taskOf_same same _).trans h.untasked
  have hfit : pa % 4096 + 2 ^ w ≤ 4096 := by
    rcases w with _|_|_|_|w <;> (try simp only [Nat.pow_zero, Nat.zero_add, Nat.reduceAdd, Nat.reducePow] at *) <;> omega
  have g' := reaches_good h g
  obtain ⟨vs, e, hb, hin, hout, hpo, hpm, hpp, hwf⟩ := physWrite_eq s.cur none pa (bytesOf v (2^w)) ⟨s', us⟩ g'.mem.1 g'.strands c.tasks
    (by rw [bytesOf_len]; exact hfit) (by rw [bytesOf_len]; exact c.home)
  rw [bytesOf_len] at hin hout
  have hh : (applyAll vs s').here = s.here := by
    have h1 := hb.woken.1
    have h2 := congrArg State.cur hb.aside
    simp only [State.here, h2, congrArg State.cur same] at h1 ⊢
    exact h1.trans (congrArg (fun t => Tbl.get ({} : Strand) s.cur t) ((congrArg State.strands same).trans rfl))
  refine ⟨vs ++ us, applyAll vs s', ?_, ?_, hh, ?_, hwf⟩
  · simp only [scalarWrite, bind_eq, gs_eq, hr, tail_mem h, wait_mem h, ht, memWrite, State.buffering, Option.bind]
    exact e
  · rw [applyAll_append, ← hs]
  · refine ⟨hh, ?_, ?_, hpo, hpm, hpp, fun k _ => hb.woken.2 k, hb.aside⟩
    · intro i hi
      rw [home_add _ _ _ (by omega), hin i hi, bytesOf_nth _ _ _ hi]
    · intro x hx
      refine hout x fun i hi => ?_
      rw [← home_add _ _ _ (by omega)]
      exact hx i hi

end Sys2Proof.Machine
end

