-- ==== Sys2Proof/Laws/Checks.lean ====
section
/-! SUPPORT. The hypotheses of the statements as checks that evaluate, each with the lemma that a state which passes it meets the hypothesis. -/

namespace Sys2Proof.Machine

theorem and_true' {a b : Bool} (h : (a && b) = true) : a = true ∧ b = true := by simpa using h

/-- `State.Good` as a check. -/
def goodB (s : State) : Bool :=
  [decide (Memory.wf s.mem), decide (PanMemory.wf s.panMem), NSet.wfFrom 0 s.poison, NSet.wfFrom 0 s.panPoison, Tbl.wf {} s.strands, Tbl.wf {} s.pans,
   Tbl.wf {} s.bays, Tbl.wf {} s.dies, Tbl.wf {} s.chans, Tbl.wf none s.regions, Tbl.wf {} s.rings, Tbl.wf {} s.counters, Tbl.wf {} s.streams,
   Tbl.wf {} s.queues, Tbl.wf none s.contexts, Tbl.wf none s.kernels, Tbl.wf none s.blocks, Tbl.wf none s.tasks, Tbl.wf {} s.links, decide (s.pwrlim ≤ 4800)].all id

theorem good_of {s : State} (h : goodB s = true) : s.Good := by
  simp only [goodB, List.all_cons, List.all_nil, id, Bool.and_eq_true, decide_eq_true_eq] at h
  constructor <;> first | exact h.1 | exact h.2.1 | simp only [h]

/-- `State.Reaches` with a cached translation, as a check. -/
def reachesB (s : State) (va : Word) (n : Nat) (a : Acc) (pa : Nat) : Bool :=
  decide (va.toNat % n = 0) &&
  (match s.looks s.cur va n a with | (.ok l, s') => decide (s' = s) && decide (l = .mem pa) | _ => false) &&
  (!(a.rd || decide (n < 8)) || !s.poisonedAt pa n) && !s.here.watched va n a && decide (s.taskOf s.cur = none) &&
  decide (s.here.held = []) && !s.here.pendingAt (.at_ (.mem pa)) n

theorem reaches_of {s : State} {va : Word} {n : Nat} {a : Acc} {pa : Nat} (h : reachesB s va n a pa = true) : s.Reaches va n a pa s := by
  unfold reachesB at h
  simp only [Bool.and_eq_true] at h
  obtain ⟨⟨⟨⟨⟨⟨h1, h2⟩, h3⟩, h4⟩, h5⟩, h6⟩, h7⟩ := h
  refine ⟨of_decide_eq_true h1, ?_, fun hc => ?_, by simpa using h4, of_decide_eq_true h5, of_decide_eq_true h6, by simpa using h7⟩
  · split at h2
    · next l s' he =>
      simp only [Bool.and_eq_true, decide_eq_true_eq] at h2
      rw [he, h2.1, h2.2]
    · cases h2
  · rw [hc] at h3; simpa using h3

/-- `State.ReachesPan` as a check. -/
def reachesPanB (s : State) (va : Word) (n : Nat) (a : Acc) : Bool :=
  !isMgmt s.cur && decide (va.toNat % n = 0) && decide (va.toNat < 2 ^ 23) && s.inPartition (panOf s.cur) s.here.ctx va.toNat n &&
  (!(a.rd || decide (n < 8)) || !s.panPoisonedAt (panKey (panOf s.cur) va.toNat) n) && decide (s.here.held = []) &&
  !s.here.pendingAt (.pan (panKey (panOf s.cur) va.toNat)) n

theorem reachesPan_of {s : State} {va : Word} {n : Nat} {a : Acc} (h : reachesPanB s va n a = true) : s.ReachesPan va n a := by
  unfold reachesPanB at h
  simp only [Bool.and_eq_true] at h
  obtain ⟨⟨⟨⟨⟨⟨h1, h2⟩, h3⟩, h4⟩, h5⟩, h6⟩, h7⟩ := h
  exact ⟨by simpa using h1, of_decide_eq_true h2, of_decide_eq_true h3, h4, fun hc => by rw [hc] at h5; simpa using h5, of_decide_eq_true h6,
    by simpa using h7⟩

theorem meets_of {s : State} {va : Word} {n : Nat} {a : Acc} {x : Nat} (h : reachesB s va n a x = true) : s.Meets false va n a x := reaches_of h

theorem meetsPan_of {s : State} {va : Word} {n : Nat} {a : Acc} {x : Nat} (h : (reachesPanB s va n a && decide (x = panKey (panOf s.cur) va.toNat)) = true) :
    s.Meets true va n a x := by
  simp only [Bool.and_eq_true] at h
  exact ⟨reachesPan_of h.1, of_decide_eq_true h.2⟩

/-- `State.CanStore` as a check. -/
def canStoreB (s : State) (pa n : Nat) : Bool :=
  decide (s.here.vlda = []) && decide (s.here.posted = []) && decide (s.fabric.requests = []) && decide (s.here.relAt = none) && decide (s.tasks = []) && (List.range n).all fun i => decide (s.home (pa + i) < memLimit)

theorem canStore_of {s : State} {pa n : Nat} (h : canStoreB s pa n = true) : s.CanStore pa n := by
  unfold canStoreB at h
  simp only [Bool.and_eq_true, List.all_eq_true, List.mem_range, decide_eq_true_eq] at h
  exact ⟨h.1.1.1.1.1, h.1.1.1.1.2, h.1.1.1.2, h.1.1.2, h.1.2, h.2⟩

theorem storable_of {s : State} {x n : Nat} (h : canStoreB s x n = true) : s.Storable false x n := canStore_of h

theorem storablePan_of {s : State} {x n : Nat} (h : (canStoreB s 0 0 && Config.panExists (panOf s.cur)) = true) : s.Storable true x n := by
  simp only [Bool.and_eq_true] at h
  exact ⟨canStore_of h.1, h.2⟩

/-- `State.VecReady` as a check: a register that is not listed has no marks. -/
def vecReadyB (s : State) (rs : List (BitVec 5)) : Bool :=
  goodB s && s.here.canIssue rs && !isMgmt s.cur && !s.here.looping && decide (s.here.vq.length < 16) && decide (s.here.vlda = []) &&
  s.here.v.all fun x => x.2.marks.isEmpty

theorem Tbl.get_mem {α : Type} (d : α) (k : Nat) : ∀ t : Tbl α, Tbl.get d k t = d ∨ ∃ x ∈ t, x.2 = Tbl.get d k t
  | [] => .inl rfl
  | c :: t => by
    unfold Tbl.get
    split
    · exact .inr ⟨c, List.mem_cons_self .., rfl⟩
    · obtain h | ⟨x, hx, e⟩ := Tbl.get_mem d k t
      · exact .inl h
      · exact .inr ⟨x, List.mem_cons_of_mem _ hx, e⟩

theorem vecReady_of {s : State} {rs : List (BitVec 5)} (h : vecReadyB s rs = true) : s.VecReady rs := by
  unfold vecReadyB at h
  simp only [Bool.and_eq_true] at h
  obtain ⟨⟨⟨⟨⟨⟨h1, h2⟩, h3⟩, h4⟩, h5⟩, h6⟩, h7⟩ := h
  refine ⟨good_of h1, h2, by simpa using h3, by simpa using h4, of_decide_eq_true h5, of_decide_eq_true h6, fun r => ?_⟩
  show (Tbl.get {} r s.here.v).marks = []
  obtain e | ⟨x, hx, e⟩ := Tbl.get_mem ({} : VReg) r s.here.v
  · rw [e]
  · have := List.all_eq_true.mp h7 x hx
    rw [← e]
    simpa using this

/-- `State.CanCommand` as a check. -/
def canCommandB (s : State) (rs : List (BitVec 5)) : Bool :=
  goodB s && s.here.canIssue rs && !isMgmt s.cur && !s.here.looping && decide (s.taskOf s.cur = none) && decide (s.here.replies = []) &&
  decide (s.here.held = []) && decide (s.here.spawn = none) &&
  s.fabric.requests.all fun r => decide (r.who ≠ .strand s.cur)

theorem canCommand_of {s : State} {rs : List (BitVec 5)} (h : canCommandB s rs = true) : s.CanCommand rs := by
  unfold canCommandB at h
  simp only [Bool.and_eq_true] at h
  obtain ⟨⟨⟨⟨⟨⟨⟨⟨h1, h2⟩, h3⟩, h4⟩, h5⟩, h6⟩, h8⟩, h9⟩, h7⟩ := h
  refine ⟨good_of h1, h2, by simpa using h3, by simpa using h4, of_decide_eq_true h5, of_decide_eq_true h6, of_decide_eq_true h8, of_decide_eq_true h9, fun r hr => ?_⟩
  exact of_decide_eq_true (List.all_eq_true.mp h7 r hr)

/-- `State.releases` as a check. -/
def releasesB (s : State) (t : Option Nat) : Bool := !s.postedBefore s.nextId t && decide (s.here.relAt = none) && s.here.posted.all fun p => decide (p.fail = none)

theorem releases_of {s : State} {t : Option Nat} (h : releasesB s t = true) : s.releases t := by
  unfold releasesB at h
  simp only [Bool.and_eq_true, List.all_eq_true, decide_eq_true_eq, Bool.not_eq_true'] at h
  exact ⟨h.1.1, h.1.2, h.2⟩

/-- `State.Words` as a check: `pa i` is where dword `i` is. -/
def wordsB (s : State) (va : Word) (dw : List Word) (pa : Nat → Nat) : Bool :=
  (List.range dw.length).all fun i => reachesB s (va + word (8 * i)) 8 accLoad (pa i) && decide (nth 0 dw i = word (s.physRead (pa i) 8))

theorem words_of {s : State} {va : Word} {dw : List Word} {pa : Nat → Nat} (h : wordsB s va dw pa = true) : s.Words va dw := by
  intro i hi
  have := List.all_eq_true.mp h i (List.mem_range.mpr hi)
  simp only [Bool.and_eq_true] at this
  exact ⟨pa i, reaches_of this.1, of_decide_eq_true this.2⟩

/-- `State.Names` as a check. -/
def namesB (s : State) (h : Word) (r i : Nat) (x : Region) : Bool :=
  decide (h.toNat < 64) && decide (r = 16 * panOf s.cur + h.toNat % 16) && decide (i = h.toNat / 16) && decide (s.region r = some x) &&
  decide (s.resOf (panOf s.cur) s.here.ctx = some x.res)

theorem names_of {s : State} {h : Word} {r i : Nat} {x : Region} (p : namesB s h r i x = true) : s.Names h r i x := by
  unfold namesB at p
  simp only [Bool.and_eq_true, decide_eq_true_eq] at p
  exact ⟨p.1.1.1.1, p.1.1.1.2, p.1.1.2, p.1.2, p.2⟩

/-- `State.Served` as a check. -/
def servedB (s : State) (gr : GrainRef) (op : BitVec 6) (w : FropWord) (x : Slot) (g : Grain) : Bool :=
  s.servable gr.region gr.slot && decide (s.slot gr.region gr.slot = x) && decide (x.grains.get {} gr.grain = g) && decide (gr.grain < x.numGrains) &&
  decide (x.fropAt gr.grain = fropBits op w) && decide (g.out = []) && decide (g.waiting = []) && decide (w.outs.toNat < 16)

theorem served_of {s : State} {gr : GrainRef} {op : BitVec 6} {w : FropWord} {x : Slot} {g : Grain} (h : servedB s gr op w x g = true) : s.Served gr op w x g := by
  unfold servedB at h
  simp only [Bool.and_eq_true, decide_eq_true_eq] at h
  obtain ⟨⟨⟨⟨⟨⟨⟨h1, h2⟩, h3⟩, h4⟩, h5⟩, h6⟩, h7⟩, h8⟩ := h
  exact ⟨h1, h2, h3, h4, h5, h6, h7, h8⟩

/-- `State.Fires` as a check. -/
def firesB (s : State) (gr : GrainRef) (op : BitVec 6) (w : FropWord) (x : Slot) (g : Grain) (sels pops : List Nat) (gen : Bool) (vals : List Word) : Bool :=
  servedB s gr op w x g && (match headsOf w g x.idx (x.offer gr.grain) sels with | .data p n v => decide (p = pops) && decide (n = gen) && decide (v = vals) | _ => false)

theorem fires_of {s : State} {gr : GrainRef} {op : BitVec 6} {w : FropWord} {x : Slot} {g : Grain} {sels pops : List Nat} {gen : Bool} {vals : List Word}
    (h : firesB s gr op w x g sels pops gen vals = true) : s.Fires gr op w x g sels pops gen vals := by
  unfold firesB at h
  simp only [Bool.and_eq_true] at h
  refine ⟨served_of h.1, ?_⟩
  have h2 := h.2
  split at h2
  · next e =>
    simp only [Bool.and_eq_true, decide_eq_true_eq] at h2
    rw [e, h2.1.1, h2.1.2, h2.2]
  · cases h2

/-- `State.AtHead` as a check. -/
def atHeadB (s : State) (ch : Nat) (c : Cmd) : Bool :=
  goodB s && decide (s.chanHead ch = some c) && decide (c.task = none) && decide (c.dw ≠ []) && (s.fabric.requests.all fun r => decide (r.who ≠ .chan ch c.id)) && decide (s.tasks = [])

theorem atHead_of {s : State} {ch : Nat} {c : Cmd} (h : atHeadB s ch c = true) : s.AtHead ch c := by
  unfold atHeadB at h
  simp only [Bool.and_eq_true] at h
  obtain ⟨⟨⟨⟨⟨h1, h2⟩, h3⟩, h4⟩, h5⟩, h6⟩ := h
  exact ⟨good_of h1, of_decide_eq_true h2, of_decide_eq_true h3, of_decide_eq_true h4, fun r hr => of_decide_eq_true (List.all_eq_true.mp h5 r hr), of_decide_eq_true h6⟩

/-- An engine's access that finds a place with a cached translation. -/
def engineB (s : State) (w : Who) (pan : Option Nat) (va : Word) (n : Nat) (a : Acc) (p : Place) : Bool :=
  match s.engineAt w pan va n a with | (.ok q, s') => decide (q = p) && decide (s' = s) | _ => false

theorem engine_of {s : State} {w : Who} {pan : Option Nat} {va : Word} {n : Nat} {a : Acc} {p : Place} (h : engineB s w pan va n a p = true) :
    s.engineAt w pan va n a = (.ok p, s) := by
  unfold engineB at h
  split at h
  · next q s' e =>
    simp only [Bool.and_eq_true, decide_eq_true_eq] at h
    rw [e, h.1, h.2]
  · cases h

/-- A fetch from cached lines that finds an instruction. -/
def fetchB (s : State) (k : Nat) (pc : Word) (i : Instr) : Bool :=
  match s.fetched k pc with | (.inst j, s') => decide (j = i) && decide (s' = s) | _ => false

theorem fetched_of {s : State} {k : Nat} {pc : Word} {i : Instr} (h : fetchB s k pc i = true) : s.fetched k pc = (.inst i, s) := by
  unfold fetchB at h
  split at h
  · next j s' e =>
    simp only [Bool.and_eq_true, decide_eq_true_eq] at h
    rw [e, h.1, h.2]
  · cases h

/-- `State.holdsBody` as a check. -/
def holdsBodyB (s : State) : Word → List (Word × Instr) → Word → Bool
  | pc, [], stop => decide (stop = pc)
  | pc, (a, i) :: r, stop => decide (a = pc) && fetchB s s.cur pc i && (vectorBody i s).isSome && holdsBodyB s (pc + word i.len) r stop

theorem holdsBody_of {s : State} : ∀ {pc : Word} {b : List (Word × Instr)} {stop : Word}, holdsBodyB s pc b stop = true → s.holdsBody pc b stop
  | pc, [], stop, h => by
    unfold holdsBodyB at h
    unfold State.holdsBody
    exact of_decide_eq_true h
  | pc, (a, i) :: r, stop, h => by
    unfold holdsBodyB at h
    simp only [Bool.and_eq_true] at h
    unfold State.holdsBody
    exact ⟨of_decide_eq_true h.1.1.1, fetched_of h.1.1.2, h.1.2, holdsBody_of h.2⟩

/-- The state after a body instruction of a loop of strand `k` has issued, where it does without a trap. -/
def issueOne (k : Nat) (i : Instr) (s : State) : Option State :=
  match (s.strand k).loop, vectorBody i s with
  | some l, some (pipe, core) =>
    if (s.strand k).vq.length < 16 then
      match (do core; enqueueVec pipe (groupsOf k (s.strand k).vl (s.strand k).sew) : M Unit) ⟨s, []⟩ with
      | .ok (_, w) => some ((Upd.strand k { w.s.strand k with loop := some { l with pos := l.pos + 1 } }).apply w.s)
      | _ => none
    else none
  | _, _ => none

/-- `State.issuesBody` as a check. -/
def issueAll (k : Nat) : List (Word × Instr) → State → Option State
  | [], s => some s
  | x :: xs, s => (issueOne k x.2 s).bind (issueAll k xs)

theorem issuesBody_of {k : Nat} : ∀ {xs : List (Word × Instr)} {s t : State}, issueAll k xs s = some t → State.issuesBody k xs s t
  | [], s, t, h => by cases h; rfl
  | x :: xs, s, t, h => by
    unfold issueAll at h
    obtain ⟨u, hu, ht⟩ := Option.bind_eq_some_iff.mp h
    unfold issueOne at hu
    split at hu
    · next l pipe core hl hv =>
      split at hu
      · next hq =>
        split at hu
        · next w he =>
          cases hu
          exact ⟨pipe, core, w, l, hl, hv, hq, he, issuesBody_of ht⟩
        · cases hu
      · cases hu
    · cases hu

end Sys2Proof.Machine
end

