-- ==== Sys2Proof/Laws/State.lean ====
section
/-! SUPPORT. What each primitive update leaves of each field of the state, and what each accessor reads after it; no proof needs to unfold a record update. -/

namespace Sys2Proof.Machine

variable (s : State)


/-! An entry of `strands`. -/

@[simp] theorem Upd.strand_apply_mem (k : Nat) (v : Strand) : ((Upd.strand k v).apply s).mem = s.mem := rfl
@[simp] theorem Upd.strand_apply_poison (k : Nat) (v : Strand) : ((Upd.strand k v).apply s).poison = s.poison := rfl
@[simp] theorem Upd.strand_apply_panMem (k : Nat) (v : Strand) : ((Upd.strand k v).apply s).panMem = s.panMem := rfl
@[simp] theorem Upd.strand_apply_panPoison (k : Nat) (v : Strand) : ((Upd.strand k v).apply s).panPoison = s.panPoison := rfl
@[simp] theorem Upd.strand_apply_pans (k : Nat) (v : Strand) : ((Upd.strand k v).apply s).pans = s.pans := rfl
@[simp] theorem Upd.strand_apply_bays (k : Nat) (v : Strand) : ((Upd.strand k v).apply s).bays = s.bays := rfl
@[simp] theorem Upd.strand_apply_dies (k : Nat) (v : Strand) : ((Upd.strand k v).apply s).dies = s.dies := rfl
@[simp] theorem Upd.strand_apply_chans (k : Nat) (v : Strand) : ((Upd.strand k v).apply s).chans = s.chans := rfl
@[simp] theorem Upd.strand_apply_regions (k : Nat) (v : Strand) : ((Upd.strand k v).apply s).regions = s.regions := rfl
@[simp] theorem Upd.strand_apply_rings (k : Nat) (v : Strand) : ((Upd.strand k v).apply s).rings = s.rings := rfl
@[simp] theorem Upd.strand_apply_counters (k : Nat) (v : Strand) : ((Upd.strand k v).apply s).counters = s.counters := rfl
@[simp] theorem Upd.strand_apply_streams (k : Nat) (v : Strand) : ((Upd.strand k v).apply s).streams = s.streams := rfl
@[simp] theorem Upd.strand_apply_queues (k : Nat) (v : Strand) : ((Upd.strand k v).apply s).queues = s.queues := rfl
@[simp] theorem Upd.strand_apply_contexts (k : Nat) (v : Strand) : ((Upd.strand k v).apply s).contexts = s.contexts := rfl
@[simp] theorem Upd.strand_apply_kernels (k : Nat) (v : Strand) : ((Upd.strand k v).apply s).kernels = s.kernels := rfl
@[simp] theorem Upd.strand_apply_blocks (k : Nat) (v : Strand) : ((Upd.strand k v).apply s).blocks = s.blocks := rfl
@[simp] theorem Upd.strand_apply_tasks (k : Nat) (v : Strand) : ((Upd.strand k v).apply s).tasks = s.tasks := rfl
@[simp] theorem Upd.strand_apply_links (k : Nat) (v : Strand) : ((Upd.strand k v).apply s).links = s.links := rfl
@[simp] theorem Upd.strand_apply_sched (k : Nat) (v : Strand) : ((Upd.strand k v).apply s).sched = s.sched := rfl
@[simp] theorem Upd.strand_apply_harbour (k : Nat) (v : Strand) : ((Upd.strand k v).apply s).harbour = s.harbour := rfl
@[simp] theorem Upd.strand_apply_fabric (k : Nat) (v : Strand) : ((Upd.strand k v).apply s).fabric = s.fabric := rfl
@[simp] theorem Upd.strand_apply_ckpt (k : Nat) (v : Strand) : ((Upd.strand k v).apply s).ckpt = s.ckpt := rfl
@[simp] theorem Upd.strand_apply_invs (k : Nat) (v : Strand) : ((Upd.strand k v).apply s).invs = s.invs := rfl
@[simp] theorem Upd.strand_apply_pwrlim (k : Nat) (v : Strand) : ((Upd.strand k v).apply s).pwrlim = s.pwrlim := rfl
@[simp] theorem Upd.strand_apply_gtime (k : Nat) (v : Strand) : ((Upd.strand k v).apply s).gtime = s.gtime := rfl
@[simp] theorem Upd.strand_apply_free (k : Nat) (v : Strand) : ((Upd.strand k v).apply s).free = s.free := rfl
@[simp] theorem Upd.strand_apply_nextId (k : Nat) (v : Strand) : ((Upd.strand k v).apply s).nextId = s.nextId := rfl
@[simp] theorem Upd.strand_apply_turns (k : Nat) (v : Strand) : ((Upd.strand k v).apply s).turns = s.turns := rfl
@[simp] theorem Upd.strand_apply_cur (k : Nat) (v : Strand) : ((Upd.strand k v).apply s).cur = s.cur := rfl
@[simp] theorem Upd.strand_apply_get (k j : Nat) (v : Strand) : ((Upd.strand k v).apply s).strand j = if j = k then v else s.strand j := by
  show (Tbl.put {} k v s.strands).get {} j = _
  split
  · subst j; exact Tbl.get_put _ _ _ _
  · exact Tbl.get_put_other _ _ _ _ _ ‹_›

/-! An entry of `pans`. -/

@[simp] theorem Upd.pan_apply_mem (k : Nat) (v : Pan) : ((Upd.pan k v).apply s).mem = s.mem := rfl
@[simp] theorem Upd.pan_apply_poison (k : Nat) (v : Pan) : ((Upd.pan k v).apply s).poison = s.poison := rfl
@[simp] theorem Upd.pan_apply_panMem (k : Nat) (v : Pan) : ((Upd.pan k v).apply s).panMem = s.panMem := rfl
@[simp] theorem Upd.pan_apply_panPoison (k : Nat) (v : Pan) : ((Upd.pan k v).apply s).panPoison = s.panPoison := rfl
@[simp] theorem Upd.pan_apply_strands (k : Nat) (v : Pan) : ((Upd.pan k v).apply s).strands = s.strands := rfl
@[simp] theorem Upd.pan_apply_bays (k : Nat) (v : Pan) : ((Upd.pan k v).apply s).bays = s.bays := rfl
@[simp] theorem Upd.pan_apply_dies (k : Nat) (v : Pan) : ((Upd.pan k v).apply s).dies = s.dies := rfl
@[simp] theorem Upd.pan_apply_chans (k : Nat) (v : Pan) : ((Upd.pan k v).apply s).chans = s.chans := rfl
@[simp] theorem Upd.pan_apply_regions (k : Nat) (v : Pan) : ((Upd.pan k v).apply s).regions = s.regions := rfl
@[simp] theorem Upd.pan_apply_rings (k : Nat) (v : Pan) : ((Upd.pan k v).apply s).rings = s.rings := rfl
@[simp] theorem Upd.pan_apply_counters (k : Nat) (v : Pan) : ((Upd.pan k v).apply s).counters = s.counters := rfl
@[simp] theorem Upd.pan_apply_streams (k : Nat) (v : Pan) : ((Upd.pan k v).apply s).streams = s.streams := rfl
@[simp] theorem Upd.pan_apply_queues (k : Nat) (v : Pan) : ((Upd.pan k v).apply s).queues = s.queues := rfl
@[simp] theorem Upd.pan_apply_contexts (k : Nat) (v : Pan) : ((Upd.pan k v).apply s).contexts = s.contexts := rfl
@[simp] theorem Upd.pan_apply_kernels (k : Nat) (v : Pan) : ((Upd.pan k v).apply s).kernels = s.kernels := rfl
@[simp] theorem Upd.pan_apply_blocks (k : Nat) (v : Pan) : ((Upd.pan k v).apply s).blocks = s.blocks := rfl
@[simp] theorem Upd.pan_apply_tasks (k : Nat) (v : Pan) : ((Upd.pan k v).apply s).tasks = s.tasks := rfl
@[simp] theorem Upd.pan_apply_links (k : Nat) (v : Pan) : ((Upd.pan k v).apply s).links = s.links := rfl
@[simp] theorem Upd.pan_apply_sched (k : Nat) (v : Pan) : ((Upd.pan k v).apply s).sched = s.sched := rfl
@[simp] theorem Upd.pan_apply_harbour (k : Nat) (v : Pan) : ((Upd.pan k v).apply s).harbour = s.harbour := rfl
@[simp] theorem Upd.pan_apply_fabric (k : Nat) (v : Pan) : ((Upd.pan k v).apply s).fabric = s.fabric := rfl
@[simp] theorem Upd.pan_apply_ckpt (k : Nat) (v : Pan) : ((Upd.pan k v).apply s).ckpt = s.ckpt := rfl
@[simp] theorem Upd.pan_apply_invs (k : Nat) (v : Pan) : ((Upd.pan k v).apply s).invs = s.invs := rfl
@[simp] theorem Upd.pan_apply_pwrlim (k : Nat) (v : Pan) : ((Upd.pan k v).apply s).pwrlim = s.pwrlim := rfl
@[simp] theorem Upd.pan_apply_gtime (k : Nat) (v : Pan) : ((Upd.pan k v).apply s).gtime = s.gtime := rfl
@[simp] theorem Upd.pan_apply_free (k : Nat) (v : Pan) : ((Upd.pan k v).apply s).free = s.free := rfl
@[simp] theorem Upd.pan_apply_nextId (k : Nat) (v : Pan) : ((Upd.pan k v).apply s).nextId = s.nextId := rfl
@[simp] theorem Upd.pan_apply_turns (k : Nat) (v : Pan) : ((Upd.pan k v).apply s).turns = s.turns := rfl
@[simp] theorem Upd.pan_apply_cur (k : Nat) (v : Pan) : ((Upd.pan k v).apply s).cur = s.cur := rfl
@[simp] theorem Upd.pan_apply_get (k j : Nat) (v : Pan) : ((Upd.pan k v).apply s).pan j = if j = k then v else s.pan j := by
  show (Tbl.put {} k v s.pans).get {} j = _
  split
  · subst j; exact Tbl.get_put _ _ _ _
  · exact Tbl.get_put_other _ _ _ _ _ ‹_›

/-! An entry of `bays`. -/

@[simp] theorem Upd.bay_apply_mem (k : Nat) (v : Bay) : ((Upd.bay k v).apply s).mem = s.mem := rfl
@[simp] theorem Upd.bay_apply_poison (k : Nat) (v : Bay) : ((Upd.bay k v).apply s).poison = s.poison := rfl
@[simp] theorem Upd.bay_apply_panMem (k : Nat) (v : Bay) : ((Upd.bay k v).apply s).panMem = s.panMem := rfl
@[simp] theorem Upd.bay_apply_panPoison (k : Nat) (v : Bay) : ((Upd.bay k v).apply s).panPoison = s.panPoison := rfl
@[simp] theorem Upd.bay_apply_strands (k : Nat) (v : Bay) : ((Upd.bay k v).apply s).strands = s.strands := rfl
@[simp] theorem Upd.bay_apply_pans (k : Nat) (v : Bay) : ((Upd.bay k v).apply s).pans = s.pans := rfl
@[simp] theorem Upd.bay_apply_dies (k : Nat) (v : Bay) : ((Upd.bay k v).apply s).dies = s.dies := rfl
@[simp] theorem Upd.bay_apply_chans (k : Nat) (v : Bay) : ((Upd.bay k v).apply s).chans = s.chans := rfl
@[simp] theorem Upd.bay_apply_regions (k : Nat) (v : Bay) : ((Upd.bay k v).apply s).regions = s.regions := rfl
@[simp] theorem Upd.bay_apply_rings (k : Nat) (v : Bay) : ((Upd.bay k v).apply s).rings = s.rings := rfl
@[simp] theorem Upd.bay_apply_counters (k : Nat) (v : Bay) : ((Upd.bay k v).apply s).counters = s.counters := rfl
@[simp] theorem Upd.bay_apply_streams (k : Nat) (v : Bay) : ((Upd.bay k v).apply s).streams = s.streams := rfl
@[simp] theorem Upd.bay_apply_queues (k : Nat) (v : Bay) : ((Upd.bay k v).apply s).queues = s.queues := rfl
@[simp] theorem Upd.bay_apply_contexts (k : Nat) (v : Bay) : ((Upd.bay k v).apply s).contexts = s.contexts := rfl
@[simp] theorem Upd.bay_apply_kernels (k : Nat) (v : Bay) : ((Upd.bay k v).apply s).kernels = s.kernels := rfl
@[simp] theorem Upd.bay_apply_blocks (k : Nat) (v : Bay) : ((Upd.bay k v).apply s).blocks = s.blocks := rfl
@[simp] theorem Upd.bay_apply_tasks (k : Nat) (v : Bay) : ((Upd.bay k v).apply s).tasks = s.tasks := rfl
@[simp] theorem Upd.bay_apply_links (k : Nat) (v : Bay) : ((Upd.bay k v).apply s).links = s.links := rfl
@[simp] theorem Upd.bay_apply_sched (k : Nat) (v : Bay) : ((Upd.bay k v).apply s).sched = s.sched := rfl
@[simp] theorem Upd.bay_apply_harbour (k : Nat) (v : Bay) : ((Upd.bay k v).apply s).harbour = s.harbour := rfl
@[simp] theorem Upd.bay_apply_fabric (k : Nat) (v : Bay) : ((Upd.bay k v).apply s).fabric = s.fabric := rfl
@[simp] theorem Upd.bay_apply_ckpt (k : Nat) (v : Bay) : ((Upd.bay k v).apply s).ckpt = s.ckpt := rfl
@[simp] theorem Upd.bay_apply_invs (k : Nat) (v : Bay) : ((Upd.bay k v).apply s).invs = s.invs := rfl
@[simp] theorem Upd.bay_apply_pwrlim (k : Nat) (v : Bay) : ((Upd.bay k v).apply s).pwrlim = s.pwrlim := rfl
@[simp] theorem Upd.bay_apply_gtime (k : Nat) (v : Bay) : ((Upd.bay k v).apply s).gtime = s.gtime := rfl
@[simp] theorem Upd.bay_apply_free (k : Nat) (v : Bay) : ((Upd.bay k v).apply s).free = s.free := rfl
@[simp] theorem Upd.bay_apply_nextId (k : Nat) (v : Bay) : ((Upd.bay k v).apply s).nextId = s.nextId := rfl
@[simp] theorem Upd.bay_apply_turns (k : Nat) (v : Bay) : ((Upd.bay k v).apply s).turns = s.turns := rfl
@[simp] theorem Upd.bay_apply_cur (k : Nat) (v : Bay) : ((Upd.bay k v).apply s).cur = s.cur := rfl
@[simp] theorem Upd.bay_apply_get (k j : Nat) (v : Bay) : ((Upd.bay k v).apply s).bay j = if j = k then v else s.bay j := by
  show (Tbl.put {} k v s.bays).get {} j = _
  split
  · subst j; exact Tbl.get_put _ _ _ _
  · exact Tbl.get_put_other _ _ _ _ _ ‹_›

/-! An entry of `dies`. -/

@[simp] theorem Upd.die_apply_mem (k : Nat) (v : Die) : ((Upd.die k v).apply s).mem = s.mem := rfl
@[simp] theorem Upd.die_apply_poison (k : Nat) (v : Die) : ((Upd.die k v).apply s).poison = s.poison := rfl
@[simp] theorem Upd.die_apply_panMem (k : Nat) (v : Die) : ((Upd.die k v).apply s).panMem = s.panMem := rfl
@[simp] theorem Upd.die_apply_panPoison (k : Nat) (v : Die) : ((Upd.die k v).apply s).panPoison = s.panPoison := rfl
@[simp] theorem Upd.die_apply_strands (k : Nat) (v : Die) : ((Upd.die k v).apply s).strands = s.strands := rfl
@[simp] theorem Upd.die_apply_pans (k : Nat) (v : Die) : ((Upd.die k v).apply s).pans = s.pans := rfl
@[simp] theorem Upd.die_apply_bays (k : Nat) (v : Die) : ((Upd.die k v).apply s).bays = s.bays := rfl
@[simp] theorem Upd.die_apply_chans (k : Nat) (v : Die) : ((Upd.die k v).apply s).chans = s.chans := rfl
@[simp] theorem Upd.die_apply_regions (k : Nat) (v : Die) : ((Upd.die k v).apply s).regions = s.regions := rfl
@[simp] theorem Upd.die_apply_rings (k : Nat) (v : Die) : ((Upd.die k v).apply s).rings = s.rings := rfl
@[simp] theorem Upd.die_apply_counters (k : Nat) (v : Die) : ((Upd.die k v).apply s).counters = s.counters := rfl
@[simp] theorem Upd.die_apply_streams (k : Nat) (v : Die) : ((Upd.die k v).apply s).streams = s.streams := rfl
@[simp] theorem Upd.die_apply_queues (k : Nat) (v : Die) : ((Upd.die k v).apply s).queues = s.queues := rfl
@[simp] theorem Upd.die_apply_contexts (k : Nat) (v : Die) : ((Upd.die k v).apply s).contexts = s.contexts := rfl
@[simp] theorem Upd.die_apply_kernels (k : Nat) (v : Die) : ((Upd.die k v).apply s).kernels = s.kernels := rfl
@[simp] theorem Upd.die_apply_blocks (k : Nat) (v : Die) : ((Upd.die k v).apply s).blocks = s.blocks := rfl
@[simp] theorem Upd.die_apply_tasks (k : Nat) (v : Die) : ((Upd.die k v).apply s).tasks = s.tasks := rfl
@[simp] theorem Upd.die_apply_links (k : Nat) (v : Die) : ((Upd.die k v).apply s).links = s.links := rfl
@[simp] theorem Upd.die_apply_sched (k : Nat) (v : Die) : ((Upd.die k v).apply s).sched = s.sched := rfl
@[simp] theorem Upd.die_apply_harbour (k : Nat) (v : Die) : ((Upd.die k v).apply s).harbour = s.harbour := rfl
@[simp] theorem Upd.die_apply_fabric (k : Nat) (v : Die) : ((Upd.die k v).apply s).fabric = s.fabric := rfl
@[simp] theorem Upd.die_apply_ckpt (k : Nat) (v : Die) : ((Upd.die k v).apply s).ckpt = s.ckpt := rfl
@[simp] theorem Upd.die_apply_invs (k : Nat) (v : Die) : ((Upd.die k v).apply s).invs = s.invs := rfl
@[simp] theorem Upd.die_apply_pwrlim (k : Nat) (v : Die) : ((Upd.die k v).apply s).pwrlim = s.pwrlim := rfl
@[simp] theorem Upd.die_apply_gtime (k : Nat) (v : Die) : ((Upd.die k v).apply s).gtime = s.gtime := rfl
@[simp] theorem Upd.die_apply_free (k : Nat) (v : Die) : ((Upd.die k v).apply s).free = s.free := rfl
@[simp] theorem Upd.die_apply_nextId (k : Nat) (v : Die) : ((Upd.die k v).apply s).nextId = s.nextId := rfl
@[simp] theorem Upd.die_apply_turns (k : Nat) (v : Die) : ((Upd.die k v).apply s).turns = s.turns := rfl
@[simp] theorem Upd.die_apply_cur (k : Nat) (v : Die) : ((Upd.die k v).apply s).cur = s.cur := rfl
@[simp] theorem Upd.die_apply_get (k j : Nat) (v : Die) : ((Upd.die k v).apply s).die j = if j = k then v else s.die j := by
  show (Tbl.put {} k v s.dies).get {} j = _
  split
  · subst j; exact Tbl.get_put _ _ _ _
  · exact Tbl.get_put_other _ _ _ _ _ ‹_›

/-! An entry of `chans`. -/

@[simp] theorem Upd.chan_apply_mem (k : Nat) (v : Chan) : ((Upd.chan k v).apply s).mem = s.mem := rfl
@[simp] theorem Upd.chan_apply_poison (k : Nat) (v : Chan) : ((Upd.chan k v).apply s).poison = s.poison := rfl
@[simp] theorem Upd.chan_apply_panMem (k : Nat) (v : Chan) : ((Upd.chan k v).apply s).panMem = s.panMem := rfl
@[simp] theorem Upd.chan_apply_panPoison (k : Nat) (v : Chan) : ((Upd.chan k v).apply s).panPoison = s.panPoison := rfl
@[simp] theorem Upd.chan_apply_strands (k : Nat) (v : Chan) : ((Upd.chan k v).apply s).strands = s.strands := rfl
@[simp] theorem Upd.chan_apply_pans (k : Nat) (v : Chan) : ((Upd.chan k v).apply s).pans = s.pans := rfl
@[simp] theorem Upd.chan_apply_bays (k : Nat) (v : Chan) : ((Upd.chan k v).apply s).bays = s.bays := rfl
@[simp] theorem Upd.chan_apply_dies (k : Nat) (v : Chan) : ((Upd.chan k v).apply s).dies = s.dies := rfl
@[simp] theorem Upd.chan_apply_regions (k : Nat) (v : Chan) : ((Upd.chan k v).apply s).regions = s.regions := rfl
@[simp] theorem Upd.chan_apply_rings (k : Nat) (v : Chan) : ((Upd.chan k v).apply s).rings = s.rings := rfl
@[simp] theorem Upd.chan_apply_counters (k : Nat) (v : Chan) : ((Upd.chan k v).apply s).counters = s.counters := rfl
@[simp] theorem Upd.chan_apply_streams (k : Nat) (v : Chan) : ((Upd.chan k v).apply s).streams = s.streams := rfl
@[simp] theorem Upd.chan_apply_queues (k : Nat) (v : Chan) : ((Upd.chan k v).apply s).queues = s.queues := rfl
@[simp] theorem Upd.chan_apply_contexts (k : Nat) (v : Chan) : ((Upd.chan k v).apply s).contexts = s.contexts := rfl
@[simp] theorem Upd.chan_apply_kernels (k : Nat) (v : Chan) : ((Upd.chan k v).apply s).kernels = s.kernels := rfl
@[simp] theorem Upd.chan_apply_blocks (k : Nat) (v : Chan) : ((Upd.chan k v).apply s).blocks = s.blocks := rfl
@[simp] theorem Upd.chan_apply_tasks (k : Nat) (v : Chan) : ((Upd.chan k v).apply s).tasks = s.tasks := rfl
@[simp] theorem Upd.chan_apply_links (k : Nat) (v : Chan) : ((Upd.chan k v).apply s).links = s.links := rfl
@[simp] theorem Upd.chan_apply_sched (k : Nat) (v : Chan) : ((Upd.chan k v).apply s).sched = s.sched := rfl
@[simp] theorem Upd.chan_apply_harbour (k : Nat) (v : Chan) : ((Upd.chan k v).apply s).harbour = s.harbour := rfl
@[simp] theorem Upd.chan_apply_fabric (k : Nat) (v : Chan) : ((Upd.chan k v).apply s).fabric = s.fabric := rfl
@[simp] theorem Upd.chan_apply_ckpt (k : Nat) (v : Chan) : ((Upd.chan k v).apply s).ckpt = s.ckpt := rfl
@[simp] theorem Upd.chan_apply_invs (k : Nat) (v : Chan) : ((Upd.chan k v).apply s).invs = s.invs := rfl
@[simp] theorem Upd.chan_apply_pwrlim (k : Nat) (v : Chan) : ((Upd.chan k v).apply s).pwrlim = s.pwrlim := rfl
@[simp] theorem Upd.chan_apply_gtime (k : Nat) (v : Chan) : ((Upd.chan k v).apply s).gtime = s.gtime := rfl
@[simp] theorem Upd.chan_apply_free (k : Nat) (v : Chan) : ((Upd.chan k v).apply s).free = s.free := rfl
@[simp] theorem Upd.chan_apply_nextId (k : Nat) (v : Chan) : ((Upd.chan k v).apply s).nextId = s.nextId := rfl
@[simp] theorem Upd.chan_apply_turns (k : Nat) (v : Chan) : ((Upd.chan k v).apply s).turns = s.turns := rfl
@[simp] theorem Upd.chan_apply_cur (k : Nat) (v : Chan) : ((Upd.chan k v).apply s).cur = s.cur := rfl
@[simp] theorem Upd.chan_apply_get (k j : Nat) (v : Chan) : ((Upd.chan k v).apply s).chan j = if j = k then v else s.chan j := by
  show (Tbl.put {} k v s.chans).get {} j = _
  split
  · subst j; exact Tbl.get_put _ _ _ _
  · exact Tbl.get_put_other _ _ _ _ _ ‹_›

/-! An entry of `regions`. -/

@[simp] theorem Upd.region_apply_mem (k : Nat) (v : Option Region) : ((Upd.region k v).apply s).mem = s.mem := rfl
@[simp] theorem Upd.region_apply_poison (k : Nat) (v : Option Region) : ((Upd.region k v).apply s).poison = s.poison := rfl
@[simp] theorem Upd.region_apply_panMem (k : Nat) (v : Option Region) : ((Upd.region k v).apply s).panMem = s.panMem := rfl
@[simp] theorem Upd.region_apply_panPoison (k : Nat) (v : Option Region) : ((Upd.region k v).apply s).panPoison = s.panPoison := rfl
@[simp] theorem Upd.region_apply_strands (k : Nat) (v : Option Region) : ((Upd.region k v).apply s).strands = s.strands := rfl
@[simp] theorem Upd.region_apply_pans (k : Nat) (v : Option Region) : ((Upd.region k v).apply s).pans = s.pans := rfl
@[simp] theorem Upd.region_apply_bays (k : Nat) (v : Option Region) : ((Upd.region k v).apply s).bays = s.bays := rfl
@[simp] theorem Upd.region_apply_dies (k : Nat) (v : Option Region) : ((Upd.region k v).apply s).dies = s.dies := rfl
@[simp] theorem Upd.region_apply_chans (k : Nat) (v : Option Region) : ((Upd.region k v).apply s).chans = s.chans := rfl
@[simp] theorem Upd.region_apply_rings (k : Nat) (v : Option Region) : ((Upd.region k v).apply s).rings = s.rings := rfl
@[simp] theorem Upd.region_apply_counters (k : Nat) (v : Option Region) : ((Upd.region k v).apply s).counters = s.counters := rfl
@[simp] theorem Upd.region_apply_streams (k : Nat) (v : Option Region) : ((Upd.region k v).apply s).streams = s.streams := rfl
@[simp] theorem Upd.region_apply_queues (k : Nat) (v : Option Region) : ((Upd.region k v).apply s).queues = s.queues := rfl
@[simp] theorem Upd.region_apply_contexts (k : Nat) (v : Option Region) : ((Upd.region k v).apply s).contexts = s.contexts := rfl
@[simp] theorem Upd.region_apply_kernels (k : Nat) (v : Option Region) : ((Upd.region k v).apply s).kernels = s.kernels := rfl
@[simp] theorem Upd.region_apply_blocks (k : Nat) (v : Option Region) : ((Upd.region k v).apply s).blocks = s.blocks := rfl
@[simp] theorem Upd.region_apply_tasks (k : Nat) (v : Option Region) : ((Upd.region k v).apply s).tasks = s.tasks := rfl
@[simp] theorem Upd.region_apply_links (k : Nat) (v : Option Region) : ((Upd.region k v).apply s).links = s.links := rfl
@[simp] theorem Upd.region_apply_sched (k : Nat) (v : Option Region) : ((Upd.region k v).apply s).sched = s.sched := rfl
@[simp] theorem Upd.region_apply_harbour (k : Nat) (v : Option Region) : ((Upd.region k v).apply s).harbour = s.harbour := rfl
@[simp] theorem Upd.region_apply_fabric (k : Nat) (v : Option Region) : ((Upd.region k v).apply s).fabric = s.fabric := rfl
@[simp] theorem Upd.region_apply_ckpt (k : Nat) (v : Option Region) : ((Upd.region k v).apply s).ckpt = s.ckpt := rfl
@[simp] theorem Upd.region_apply_invs (k : Nat) (v : Option Region) : ((Upd.region k v).apply s).invs = s.invs := rfl
@[simp] theorem Upd.region_apply_pwrlim (k : Nat) (v : Option Region) : ((Upd.region k v).apply s).pwrlim = s.pwrlim := rfl
@[simp] theorem Upd.region_apply_gtime (k : Nat) (v : Option Region) : ((Upd.region k v).apply s).gtime = s.gtime := rfl
@[simp] theorem Upd.region_apply_free (k : Nat) (v : Option Region) : ((Upd.region k v).apply s).free = s.free := rfl
@[simp] theorem Upd.region_apply_nextId (k : Nat) (v : Option Region) : ((Upd.region k v).apply s).nextId = s.nextId := rfl
@[simp] theorem Upd.region_apply_turns (k : Nat) (v : Option Region) : ((Upd.region k v).apply s).turns = s.turns := rfl
@[simp] theorem Upd.region_apply_cur (k : Nat) (v : Option Region) : ((Upd.region k v).apply s).cur = s.cur := rfl
@[simp] theorem Upd.region_apply_get (k j : Nat) (v : Option Region) : ((Upd.region k v).apply s).region j = if j = k then v else s.region j := by
  show (Tbl.put none k v s.regions).get none j = _
  split
  · subst j; exact Tbl.get_put _ _ _ _
  · exact Tbl.get_put_other _ _ _ _ _ ‹_›

/-! An entry of `rings`. -/

@[simp] theorem Upd.ring_apply_mem (k : Nat) (v : Ring) : ((Upd.ring k v).apply s).mem = s.mem := rfl
@[simp] theorem Upd.ring_apply_poison (k : Nat) (v : Ring) : ((Upd.ring k v).apply s).poison = s.poison := rfl
@[simp] theorem Upd.ring_apply_panMem (k : Nat) (v : Ring) : ((Upd.ring k v).apply s).panMem = s.panMem := rfl
@[simp] theorem Upd.ring_apply_panPoison (k : Nat) (v : Ring) : ((Upd.ring k v).apply s).panPoison = s.panPoison := rfl
@[simp] theorem Upd.ring_apply_strands (k : Nat) (v : Ring) : ((Upd.ring k v).apply s).strands = s.strands := rfl
@[simp] theorem Upd.ring_apply_pans (k : Nat) (v : Ring) : ((Upd.ring k v).apply s).pans = s.pans := rfl
@[simp] theorem Upd.ring_apply_bays (k : Nat) (v : Ring) : ((Upd.ring k v).apply s).bays = s.bays := rfl
@[simp] theorem Upd.ring_apply_dies (k : Nat) (v : Ring) : ((Upd.ring k v).apply s).dies = s.dies := rfl
@[simp] theorem Upd.ring_apply_chans (k : Nat) (v : Ring) : ((Upd.ring k v).apply s).chans = s.chans := rfl
@[simp] theorem Upd.ring_apply_regions (k : Nat) (v : Ring) : ((Upd.ring k v).apply s).regions = s.regions := rfl
@[simp] theorem Upd.ring_apply_counters (k : Nat) (v : Ring) : ((Upd.ring k v).apply s).counters = s.counters := rfl
@[simp] theorem Upd.ring_apply_streams (k : Nat) (v : Ring) : ((Upd.ring k v).apply s).streams = s.streams := rfl
@[simp] theorem Upd.ring_apply_queues (k : Nat) (v : Ring) : ((Upd.ring k v).apply s).queues = s.queues := rfl
@[simp] theorem Upd.ring_apply_contexts (k : Nat) (v : Ring) : ((Upd.ring k v).apply s).contexts = s.contexts := rfl
@[simp] theorem Upd.ring_apply_kernels (k : Nat) (v : Ring) : ((Upd.ring k v).apply s).kernels = s.kernels := rfl
@[simp] theorem Upd.ring_apply_blocks (k : Nat) (v : Ring) : ((Upd.ring k v).apply s).blocks = s.blocks := rfl
@[simp] theorem Upd.ring_apply_tasks (k : Nat) (v : Ring) : ((Upd.ring k v).apply s).tasks = s.tasks := rfl
@[simp] theorem Upd.ring_apply_links (k : Nat) (v : Ring) : ((Upd.ring k v).apply s).links = s.links := rfl
@[simp] theorem Upd.ring_apply_sched (k : Nat) (v : Ring) : ((Upd.ring k v).apply s).sched = s.sched := rfl
@[simp] theorem Upd.ring_apply_harbour (k : Nat) (v : Ring) : ((Upd.ring k v).apply s).harbour = s.harbour := rfl
@[simp] theorem Upd.ring_apply_fabric (k : Nat) (v : Ring) : ((Upd.ring k v).apply s).fabric = s.fabric := rfl
@[simp] theorem Upd.ring_apply_ckpt (k : Nat) (v : Ring) : ((Upd.ring k v).apply s).ckpt = s.ckpt := rfl
@[simp] theorem Upd.ring_apply_invs (k : Nat) (v : Ring) : ((Upd.ring k v).apply s).invs = s.invs := rfl
@[simp] theorem Upd.ring_apply_pwrlim (k : Nat) (v : Ring) : ((Upd.ring k v).apply s).pwrlim = s.pwrlim := rfl
@[simp] theorem Upd.ring_apply_gtime (k : Nat) (v : Ring) : ((Upd.ring k v).apply s).gtime = s.gtime := rfl
@[simp] theorem Upd.ring_apply_free (k : Nat) (v : Ring) : ((Upd.ring k v).apply s).free = s.free := rfl
@[simp] theorem Upd.ring_apply_nextId (k : Nat) (v : Ring) : ((Upd.ring k v).apply s).nextId = s.nextId := rfl
@[simp] theorem Upd.ring_apply_turns (k : Nat) (v : Ring) : ((Upd.ring k v).apply s).turns = s.turns := rfl
@[simp] theorem Upd.ring_apply_cur (k : Nat) (v : Ring) : ((Upd.ring k v).apply s).cur = s.cur := rfl
@[simp] theorem Upd.ring_apply_get (k j : Nat) (v : Ring) : ((Upd.ring k v).apply s).ring j = if j = k then v else s.ring j := by
  show (Tbl.put {} k v s.rings).get {} j = _
  split
  · subst j; exact Tbl.get_put _ _ _ _
  · exact Tbl.get_put_other _ _ _ _ _ ‹_›

/-! An entry of `counters`. -/

@[simp] theorem Upd.counter_apply_mem (k : Nat) (v : Counter) : ((Upd.counter k v).apply s).mem = s.mem := rfl
@[simp] theorem Upd.counter_apply_poison (k : Nat) (v : Counter) : ((Upd.counter k v).apply s).poison = s.poison := rfl
@[simp] theorem Upd.counter_apply_panMem (k : Nat) (v : Counter) : ((Upd.counter k v).apply s).panMem = s.panMem := rfl
@[simp] theorem Upd.counter_apply_panPoison (k : Nat) (v : Counter) : ((Upd.counter k v).apply s).panPoison = s.panPoison := rfl
@[simp] theorem Upd.counter_apply_strands (k : Nat) (v : Counter) : ((Upd.counter k v).apply s).strands = s.strands := rfl
@[simp] theorem Upd.counter_apply_pans (k : Nat) (v : Counter) : ((Upd.counter k v).apply s).pans = s.pans := rfl
@[simp] theorem Upd.counter_apply_bays (k : Nat) (v : Counter) : ((Upd.counter k v).apply s).bays = s.bays := rfl
@[simp] theorem Upd.counter_apply_dies (k : Nat) (v : Counter) : ((Upd.counter k v).apply s).dies = s.dies := rfl
@[simp] theorem Upd.counter_apply_chans (k : Nat) (v : Counter) : ((Upd.counter k v).apply s).chans = s.chans := rfl
@[simp] theorem Upd.counter_apply_regions (k : Nat) (v : Counter) : ((Upd.counter k v).apply s).regions = s.regions := rfl
@[simp] theorem Upd.counter_apply_rings (k : Nat) (v : Counter) : ((Upd.counter k v).apply s).rings = s.rings := rfl
@[simp] theorem Upd.counter_apply_streams (k : Nat) (v : Counter) : ((Upd.counter k v).apply s).streams = s.streams := rfl
@[simp] theorem Upd.counter_apply_queues (k : Nat) (v : Counter) : ((Upd.counter k v).apply s).queues = s.queues := rfl
@[simp] theorem Upd.counter_apply_contexts (k : Nat) (v : Counter) : ((Upd.counter k v).apply s).contexts = s.contexts := rfl
@[simp] theorem Upd.counter_apply_kernels (k : Nat) (v : Counter) : ((Upd.counter k v).apply s).kernels = s.kernels := rfl
@[simp] theorem Upd.counter_apply_blocks (k : Nat) (v : Counter) : ((Upd.counter k v).apply s).blocks = s.blocks := rfl
@[simp] theorem Upd.counter_apply_tasks (k : Nat) (v : Counter) : ((Upd.counter k v).apply s).tasks = s.tasks := rfl
@[simp] theorem Upd.counter_apply_links (k : Nat) (v : Counter) : ((Upd.counter k v).apply s).links = s.links := rfl
@[simp] theorem Upd.counter_apply_sched (k : Nat) (v : Counter) : ((Upd.counter k v).apply s).sched = s.sched := rfl
@[simp] theorem Upd.counter_apply_harbour (k : Nat) (v : Counter) : ((Upd.counter k v).apply s).harbour = s.harbour := rfl
@[simp] theorem Upd.counter_apply_fabric (k : Nat) (v : Counter) : ((Upd.counter k v).apply s).fabric = s.fabric := rfl
@[simp] theorem Upd.counter_apply_ckpt (k : Nat) (v : Counter) : ((Upd.counter k v).apply s).ckpt = s.ckpt := rfl
@[simp] theorem Upd.counter_apply_invs (k : Nat) (v : Counter) : ((Upd.counter k v).apply s).invs = s.invs := rfl
@[simp] theorem Upd.counter_apply_pwrlim (k : Nat) (v : Counter) : ((Upd.counter k v).apply s).pwrlim = s.pwrlim := rfl
@[simp] theorem Upd.counter_apply_gtime (k : Nat) (v : Counter) : ((Upd.counter k v).apply s).gtime = s.gtime := rfl
@[simp] theorem Upd.counter_apply_free (k : Nat) (v : Counter) : ((Upd.counter k v).apply s).free = s.free := rfl
@[simp] theorem Upd.counter_apply_nextId (k : Nat) (v : Counter) : ((Upd.counter k v).apply s).nextId = s.nextId := rfl
@[simp] theorem Upd.counter_apply_turns (k : Nat) (v : Counter) : ((Upd.counter k v).apply s).turns = s.turns := rfl
@[simp] theorem Upd.counter_apply_cur (k : Nat) (v : Counter) : ((Upd.counter k v).apply s).cur = s.cur := rfl
@[simp] theorem Upd.counter_apply_get (k j : Nat) (v : Counter) : ((Upd.counter k v).apply s).counter j = if j = k then v else s.counter j := by
  show (Tbl.put {} k v s.counters).get {} j = _
  split
  · subst j; exact Tbl.get_put _ _ _ _
  · exact Tbl.get_put_other _ _ _ _ _ ‹_›

/-! An entry of `streams`. -/

@[simp] theorem Upd.stream_apply_mem (k : Nat) (v : VStream) : ((Upd.stream k v).apply s).mem = s.mem := rfl
@[simp] theorem Upd.stream_apply_poison (k : Nat) (v : VStream) : ((Upd.stream k v).apply s).poison = s.poison := rfl
@[simp] theorem Upd.stream_apply_panMem (k : Nat) (v : VStream) : ((Upd.stream k v).apply s).panMem = s.panMem := rfl
@[simp] theorem Upd.stream_apply_panPoison (k : Nat) (v : VStream) : ((Upd.stream k v).apply s).panPoison = s.panPoison := rfl
@[simp] theorem Upd.stream_apply_strands (k : Nat) (v : VStream) : ((Upd.stream k v).apply s).strands = s.strands := rfl
@[simp] theorem Upd.stream_apply_pans (k : Nat) (v : VStream) : ((Upd.stream k v).apply s).pans = s.pans := rfl
@[simp] theorem Upd.stream_apply_bays (k : Nat) (v : VStream) : ((Upd.stream k v).apply s).bays = s.bays := rfl
@[simp] theorem Upd.stream_apply_dies (k : Nat) (v : VStream) : ((Upd.stream k v).apply s).dies = s.dies := rfl
@[simp] theorem Upd.stream_apply_chans (k : Nat) (v : VStream) : ((Upd.stream k v).apply s).chans = s.chans := rfl
@[simp] theorem Upd.stream_apply_regions (k : Nat) (v : VStream) : ((Upd.stream k v).apply s).regions = s.regions := rfl
@[simp] theorem Upd.stream_apply_rings (k : Nat) (v : VStream) : ((Upd.stream k v).apply s).rings = s.rings := rfl
@[simp] theorem Upd.stream_apply_counters (k : Nat) (v : VStream) : ((Upd.stream k v).apply s).counters = s.counters := rfl
@[simp] theorem Upd.stream_apply_queues (k : Nat) (v : VStream) : ((Upd.stream k v).apply s).queues = s.queues := rfl
@[simp] theorem Upd.stream_apply_contexts (k : Nat) (v : VStream) : ((Upd.stream k v).apply s).contexts = s.contexts := rfl
@[simp] theorem Upd.stream_apply_kernels (k : Nat) (v : VStream) : ((Upd.stream k v).apply s).kernels = s.kernels := rfl
@[simp] theorem Upd.stream_apply_blocks (k : Nat) (v : VStream) : ((Upd.stream k v).apply s).blocks = s.blocks := rfl
@[simp] theorem Upd.stream_apply_tasks (k : Nat) (v : VStream) : ((Upd.stream k v).apply s).tasks = s.tasks := rfl
@[simp] theorem Upd.stream_apply_links (k : Nat) (v : VStream) : ((Upd.stream k v).apply s).links = s.links := rfl
@[simp] theorem Upd.stream_apply_sched (k : Nat) (v : VStream) : ((Upd.stream k v).apply s).sched = s.sched := rfl
@[simp] theorem Upd.stream_apply_harbour (k : Nat) (v : VStream) : ((Upd.stream k v).apply s).harbour = s.harbour := rfl
@[simp] theorem Upd.stream_apply_fabric (k : Nat) (v : VStream) : ((Upd.stream k v).apply s).fabric = s.fabric := rfl
@[simp] theorem Upd.stream_apply_ckpt (k : Nat) (v : VStream) : ((Upd.stream k v).apply s).ckpt = s.ckpt := rfl
@[simp] theorem Upd.stream_apply_invs (k : Nat) (v : VStream) : ((Upd.stream k v).apply s).invs = s.invs := rfl
@[simp] theorem Upd.stream_apply_pwrlim (k : Nat) (v : VStream) : ((Upd.stream k v).apply s).pwrlim = s.pwrlim := rfl
@[simp] theorem Upd.stream_apply_gtime (k : Nat) (v : VStream) : ((Upd.stream k v).apply s).gtime = s.gtime := rfl
@[simp] theorem Upd.stream_apply_free (k : Nat) (v : VStream) : ((Upd.stream k v).apply s).free = s.free := rfl
@[simp] theorem Upd.stream_apply_nextId (k : Nat) (v : VStream) : ((Upd.stream k v).apply s).nextId = s.nextId := rfl
@[simp] theorem Upd.stream_apply_turns (k : Nat) (v : VStream) : ((Upd.stream k v).apply s).turns = s.turns := rfl
@[simp] theorem Upd.stream_apply_cur (k : Nat) (v : VStream) : ((Upd.stream k v).apply s).cur = s.cur := rfl
@[simp] theorem Upd.stream_apply_get (k j : Nat) (v : VStream) : ((Upd.stream k v).apply s).stream j = if j = k then v else s.stream j := by
  show (Tbl.put {} k v s.streams).get {} j = _
  split
  · subst j; exact Tbl.get_put _ _ _ _
  · exact Tbl.get_put_other _ _ _ _ _ ‹_›

/-! An entry of `queues`. -/

@[simp] theorem Upd.queue_apply_mem (k : Nat) (v : LQueue) : ((Upd.queue k v).apply s).mem = s.mem := rfl
@[simp] theorem Upd.queue_apply_poison (k : Nat) (v : LQueue) : ((Upd.queue k v).apply s).poison = s.poison := rfl
@[simp] theorem Upd.queue_apply_panMem (k : Nat) (v : LQueue) : ((Upd.queue k v).apply s).panMem = s.panMem := rfl
@[simp] theorem Upd.queue_apply_panPoison (k : Nat) (v : LQueue) : ((Upd.queue k v).apply s).panPoison = s.panPoison := rfl
@[simp] theorem Upd.queue_apply_strands (k : Nat) (v : LQueue) : ((Upd.queue k v).apply s).strands = s.strands := rfl
@[simp] theorem Upd.queue_apply_pans (k : Nat) (v : LQueue) : ((Upd.queue k v).apply s).pans = s.pans := rfl
@[simp] theorem Upd.queue_apply_bays (k : Nat) (v : LQueue) : ((Upd.queue k v).apply s).bays = s.bays := rfl
@[simp] theorem Upd.queue_apply_dies (k : Nat) (v : LQueue) : ((Upd.queue k v).apply s).dies = s.dies := rfl
@[simp] theorem Upd.queue_apply_chans (k : Nat) (v : LQueue) : ((Upd.queue k v).apply s).chans = s.chans := rfl
@[simp] theorem Upd.queue_apply_regions (k : Nat) (v : LQueue) : ((Upd.queue k v).apply s).regions = s.regions := rfl
@[simp] theorem Upd.queue_apply_rings (k : Nat) (v : LQueue) : ((Upd.queue k v).apply s).rings = s.rings := rfl
@[simp] theorem Upd.queue_apply_counters (k : Nat) (v : LQueue) : ((Upd.queue k v).apply s).counters = s.counters := rfl
@[simp] theorem Upd.queue_apply_streams (k : Nat) (v : LQueue) : ((Upd.queue k v).apply s).streams = s.streams := rfl
@[simp] theorem Upd.queue_apply_contexts (k : Nat) (v : LQueue) : ((Upd.queue k v).apply s).contexts = s.contexts := rfl
@[simp] theorem Upd.queue_apply_kernels (k : Nat) (v : LQueue) : ((Upd.queue k v).apply s).kernels = s.kernels := rfl
@[simp] theorem Upd.queue_apply_blocks (k : Nat) (v : LQueue) : ((Upd.queue k v).apply s).blocks = s.blocks := rfl
@[simp] theorem Upd.queue_apply_tasks (k : Nat) (v : LQueue) : ((Upd.queue k v).apply s).tasks = s.tasks := rfl
@[simp] theorem Upd.queue_apply_links (k : Nat) (v : LQueue) : ((Upd.queue k v).apply s).links = s.links := rfl
@[simp] theorem Upd.queue_apply_sched (k : Nat) (v : LQueue) : ((Upd.queue k v).apply s).sched = s.sched := rfl
@[simp] theorem Upd.queue_apply_harbour (k : Nat) (v : LQueue) : ((Upd.queue k v).apply s).harbour = s.harbour := rfl
@[simp] theorem Upd.queue_apply_fabric (k : Nat) (v : LQueue) : ((Upd.queue k v).apply s).fabric = s.fabric := rfl
@[simp] theorem Upd.queue_apply_ckpt (k : Nat) (v : LQueue) : ((Upd.queue k v).apply s).ckpt = s.ckpt := rfl
@[simp] theorem Upd.queue_apply_invs (k : Nat) (v : LQueue) : ((Upd.queue k v).apply s).invs = s.invs := rfl
@[simp] theorem Upd.queue_apply_pwrlim (k : Nat) (v : LQueue) : ((Upd.queue k v).apply s).pwrlim = s.pwrlim := rfl
@[simp] theorem Upd.queue_apply_gtime (k : Nat) (v : LQueue) : ((Upd.queue k v).apply s).gtime = s.gtime := rfl
@[simp] theorem Upd.queue_apply_free (k : Nat) (v : LQueue) : ((Upd.queue k v).apply s).free = s.free := rfl
@[simp] theorem Upd.queue_apply_nextId (k : Nat) (v : LQueue) : ((Upd.queue k v).apply s).nextId = s.nextId := rfl
@[simp] theorem Upd.queue_apply_turns (k : Nat) (v : LQueue) : ((Upd.queue k v).apply s).turns = s.turns := rfl
@[simp] theorem Upd.queue_apply_cur (k : Nat) (v : LQueue) : ((Upd.queue k v).apply s).cur = s.cur := rfl
@[simp] theorem Upd.queue_apply_get (k j : Nat) (v : LQueue) : ((Upd.queue k v).apply s).queue j = if j = k then v else s.queue j := by
  show (Tbl.put {} k v s.queues).get {} j = _
  split
  · subst j; exact Tbl.get_put _ _ _ _
  · exact Tbl.get_put_other _ _ _ _ _ ‹_›

/-! An entry of `contexts`. -/

@[simp] theorem Upd.context_apply_mem (k : Nat) (v : Option Ctx) : ((Upd.context k v).apply s).mem = s.mem := rfl
@[simp] theorem Upd.context_apply_poison (k : Nat) (v : Option Ctx) : ((Upd.context k v).apply s).poison = s.poison := rfl
@[simp] theorem Upd.context_apply_panMem (k : Nat) (v : Option Ctx) : ((Upd.context k v).apply s).panMem = s.panMem := rfl
@[simp] theorem Upd.context_apply_panPoison (k : Nat) (v : Option Ctx) : ((Upd.context k v).apply s).panPoison = s.panPoison := rfl
@[simp] theorem Upd.context_apply_strands (k : Nat) (v : Option Ctx) : ((Upd.context k v).apply s).strands = s.strands := rfl
@[simp] theorem Upd.context_apply_pans (k : Nat) (v : Option Ctx) : ((Upd.context k v).apply s).pans = s.pans := rfl
@[simp] theorem Upd.context_apply_bays (k : Nat) (v : Option Ctx) : ((Upd.context k v).apply s).bays = s.bays := rfl
@[simp] theorem Upd.context_apply_dies (k : Nat) (v : Option Ctx) : ((Upd.context k v).apply s).dies = s.dies := rfl
@[simp] theorem Upd.context_apply_chans (k : Nat) (v : Option Ctx) : ((Upd.context k v).apply s).chans = s.chans := rfl
@[simp] theorem Upd.context_apply_regions (k : Nat) (v : Option Ctx) : ((Upd.context k v).apply s).regions = s.regions := rfl
@[simp] theorem Upd.context_apply_rings (k : Nat) (v : Option Ctx) : ((Upd.context k v).apply s).rings = s.rings := rfl
@[simp] theorem Upd.context_apply_counters (k : Nat) (v : Option Ctx) : ((Upd.context k v).apply s).counters = s.counters := rfl
@[simp] theorem Upd.context_apply_streams (k : Nat) (v : Option Ctx) : ((Upd.context k v).apply s).streams = s.streams := rfl
@[simp] theorem Upd.context_apply_queues (k : Nat) (v : Option Ctx) : ((Upd.context k v).apply s).queues = s.queues := rfl
@[simp] theorem Upd.context_apply_kernels (k : Nat) (v : Option Ctx) : ((Upd.context k v).apply s).kernels = s.kernels := rfl
@[simp] theorem Upd.context_apply_blocks (k : Nat) (v : Option Ctx) : ((Upd.context k v).apply s).blocks = s.blocks := rfl
@[simp] theorem Upd.context_apply_tasks (k : Nat) (v : Option Ctx) : ((Upd.context k v).apply s).tasks = s.tasks := rfl
@[simp] theorem Upd.context_apply_links (k : Nat) (v : Option Ctx) : ((Upd.context k v).apply s).links = s.links := rfl
@[simp] theorem Upd.context_apply_sched (k : Nat) (v : Option Ctx) : ((Upd.context k v).apply s).sched = s.sched := rfl
@[simp] theorem Upd.context_apply_harbour (k : Nat) (v : Option Ctx) : ((Upd.context k v).apply s).harbour = s.harbour := rfl
@[simp] theorem Upd.context_apply_fabric (k : Nat) (v : Option Ctx) : ((Upd.context k v).apply s).fabric = s.fabric := rfl
@[simp] theorem Upd.context_apply_ckpt (k : Nat) (v : Option Ctx) : ((Upd.context k v).apply s).ckpt = s.ckpt := rfl
@[simp] theorem Upd.context_apply_invs (k : Nat) (v : Option Ctx) : ((Upd.context k v).apply s).invs = s.invs := rfl
@[simp] theorem Upd.context_apply_pwrlim (k : Nat) (v : Option Ctx) : ((Upd.context k v).apply s).pwrlim = s.pwrlim := rfl
@[simp] theorem Upd.context_apply_gtime (k : Nat) (v : Option Ctx) : ((Upd.context k v).apply s).gtime = s.gtime := rfl
@[simp] theorem Upd.context_apply_free (k : Nat) (v : Option Ctx) : ((Upd.context k v).apply s).free = s.free := rfl
@[simp] theorem Upd.context_apply_nextId (k : Nat) (v : Option Ctx) : ((Upd.context k v).apply s).nextId = s.nextId := rfl
@[simp] theorem Upd.context_apply_turns (k : Nat) (v : Option Ctx) : ((Upd.context k v).apply s).turns = s.turns := rfl
@[simp] theorem Upd.context_apply_cur (k : Nat) (v : Option Ctx) : ((Upd.context k v).apply s).cur = s.cur := rfl
@[simp] theorem Upd.context_apply_get (k j : Nat) (v : Option Ctx) : ((Upd.context k v).apply s).context j = if j = k then v else s.context j := by
  show (Tbl.put none k v s.contexts).get none j = _
  split
  · subst j; exact Tbl.get_put _ _ _ _
  · exact Tbl.get_put_other _ _ _ _ _ ‹_›

/-! An entry of `kernels`. -/

@[simp] theorem Upd.kernel_apply_mem (k : Nat) (v : Option Kernel) : ((Upd.kernel k v).apply s).mem = s.mem := rfl
@[simp] theorem Upd.kernel_apply_poison (k : Nat) (v : Option Kernel) : ((Upd.kernel k v).apply s).poison = s.poison := rfl
@[simp] theorem Upd.kernel_apply_panMem (k : Nat) (v : Option Kernel) : ((Upd.kernel k v).apply s).panMem = s.panMem := rfl
@[simp] theorem Upd.kernel_apply_panPoison (k : Nat) (v : Option Kernel) : ((Upd.kernel k v).apply s).panPoison = s.panPoison := rfl
@[simp] theorem Upd.kernel_apply_strands (k : Nat) (v : Option Kernel) : ((Upd.kernel k v).apply s).strands = s.strands := rfl
@[simp] theorem Upd.kernel_apply_pans (k : Nat) (v : Option Kernel) : ((Upd.kernel k v).apply s).pans = s.pans := rfl
@[simp] theorem Upd.kernel_apply_bays (k : Nat) (v : Option Kernel) : ((Upd.kernel k v).apply s).bays = s.bays := rfl
@[simp] theorem Upd.kernel_apply_dies (k : Nat) (v : Option Kernel) : ((Upd.kernel k v).apply s).dies = s.dies := rfl
@[simp] theorem Upd.kernel_apply_chans (k : Nat) (v : Option Kernel) : ((Upd.kernel k v).apply s).chans = s.chans := rfl
@[simp] theorem Upd.kernel_apply_regions (k : Nat) (v : Option Kernel) : ((Upd.kernel k v).apply s).regions = s.regions := rfl
@[simp] theorem Upd.kernel_apply_rings (k : Nat) (v : Option Kernel) : ((Upd.kernel k v).apply s).rings = s.rings := rfl
@[simp] theorem Upd.kernel_apply_counters (k : Nat) (v : Option Kernel) : ((Upd.kernel k v).apply s).counters = s.counters := rfl
@[simp] theorem Upd.kernel_apply_streams (k : Nat) (v : Option Kernel) : ((Upd.kernel k v).apply s).streams = s.streams := rfl
@[simp] theorem Upd.kernel_apply_queues (k : Nat) (v : Option Kernel) : ((Upd.kernel k v).apply s).queues = s.queues := rfl
@[simp] theorem Upd.kernel_apply_contexts (k : Nat) (v : Option Kernel) : ((Upd.kernel k v).apply s).contexts = s.contexts := rfl
@[simp] theorem Upd.kernel_apply_blocks (k : Nat) (v : Option Kernel) : ((Upd.kernel k v).apply s).blocks = s.blocks := rfl
@[simp] theorem Upd.kernel_apply_tasks (k : Nat) (v : Option Kernel) : ((Upd.kernel k v).apply s).tasks = s.tasks := rfl
@[simp] theorem Upd.kernel_apply_links (k : Nat) (v : Option Kernel) : ((Upd.kernel k v).apply s).links = s.links := rfl
@[simp] theorem Upd.kernel_apply_sched (k : Nat) (v : Option Kernel) : ((Upd.kernel k v).apply s).sched = s.sched := rfl
@[simp] theorem Upd.kernel_apply_harbour (k : Nat) (v : Option Kernel) : ((Upd.kernel k v).apply s).harbour = s.harbour := rfl
@[simp] theorem Upd.kernel_apply_fabric (k : Nat) (v : Option Kernel) : ((Upd.kernel k v).apply s).fabric = s.fabric := rfl
@[simp] theorem Upd.kernel_apply_ckpt (k : Nat) (v : Option Kernel) : ((Upd.kernel k v).apply s).ckpt = s.ckpt := rfl
@[simp] theorem Upd.kernel_apply_invs (k : Nat) (v : Option Kernel) : ((Upd.kernel k v).apply s).invs = s.invs := rfl
@[simp] theorem Upd.kernel_apply_pwrlim (k : Nat) (v : Option Kernel) : ((Upd.kernel k v).apply s).pwrlim = s.pwrlim := rfl
@[simp] theorem Upd.kernel_apply_gtime (k : Nat) (v : Option Kernel) : ((Upd.kernel k v).apply s).gtime = s.gtime := rfl
@[simp] theorem Upd.kernel_apply_free (k : Nat) (v : Option Kernel) : ((Upd.kernel k v).apply s).free = s.free := rfl
@[simp] theorem Upd.kernel_apply_nextId (k : Nat) (v : Option Kernel) : ((Upd.kernel k v).apply s).nextId = s.nextId := rfl
@[simp] theorem Upd.kernel_apply_turns (k : Nat) (v : Option Kernel) : ((Upd.kernel k v).apply s).turns = s.turns := rfl
@[simp] theorem Upd.kernel_apply_cur (k : Nat) (v : Option Kernel) : ((Upd.kernel k v).apply s).cur = s.cur := rfl
@[simp] theorem Upd.kernel_apply_get (k j : Nat) (v : Option Kernel) : ((Upd.kernel k v).apply s).kernel j = if j = k then v else s.kernel j := by
  show (Tbl.put none k v s.kernels).get none j = _
  split
  · subst j; exact Tbl.get_put _ _ _ _
  · exact Tbl.get_put_other _ _ _ _ _ ‹_›

/-! An entry of `blocks`. -/

@[simp] theorem Upd.block_apply_mem (k : Nat) (v : Option Block) : ((Upd.block k v).apply s).mem = s.mem := rfl
@[simp] theorem Upd.block_apply_poison (k : Nat) (v : Option Block) : ((Upd.block k v).apply s).poison = s.poison := rfl
@[simp] theorem Upd.block_apply_panMem (k : Nat) (v : Option Block) : ((Upd.block k v).apply s).panMem = s.panMem := rfl
@[simp] theorem Upd.block_apply_panPoison (k : Nat) (v : Option Block) : ((Upd.block k v).apply s).panPoison = s.panPoison := rfl
@[simp] theorem Upd.block_apply_strands (k : Nat) (v : Option Block) : ((Upd.block k v).apply s).strands = s.strands := rfl
@[simp] theorem Upd.block_apply_pans (k : Nat) (v : Option Block) : ((Upd.block k v).apply s).pans = s.pans := rfl
@[simp] theorem Upd.block_apply_bays (k : Nat) (v : Option Block) : ((Upd.block k v).apply s).bays = s.bays := rfl
@[simp] theorem Upd.block_apply_dies (k : Nat) (v : Option Block) : ((Upd.block k v).apply s).dies = s.dies := rfl
@[simp] theorem Upd.block_apply_chans (k : Nat) (v : Option Block) : ((Upd.block k v).apply s).chans = s.chans := rfl
@[simp] theorem Upd.block_apply_regions (k : Nat) (v : Option Block) : ((Upd.block k v).apply s).regions = s.regions := rfl
@[simp] theorem Upd.block_apply_rings (k : Nat) (v : Option Block) : ((Upd.block k v).apply s).rings = s.rings := rfl
@[simp] theorem Upd.block_apply_counters (k : Nat) (v : Option Block) : ((Upd.block k v).apply s).counters = s.counters := rfl
@[simp] theorem Upd.block_apply_streams (k : Nat) (v : Option Block) : ((Upd.block k v).apply s).streams = s.streams := rfl
@[simp] theorem Upd.block_apply_queues (k : Nat) (v : Option Block) : ((Upd.block k v).apply s).queues = s.queues := rfl
@[simp] theorem Upd.block_apply_contexts (k : Nat) (v : Option Block) : ((Upd.block k v).apply s).contexts = s.contexts := rfl
@[simp] theorem Upd.block_apply_kernels (k : Nat) (v : Option Block) : ((Upd.block k v).apply s).kernels = s.kernels := rfl
@[simp] theorem Upd.block_apply_tasks (k : Nat) (v : Option Block) : ((Upd.block k v).apply s).tasks = s.tasks := rfl
@[simp] theorem Upd.block_apply_links (k : Nat) (v : Option Block) : ((Upd.block k v).apply s).links = s.links := rfl
@[simp] theorem Upd.block_apply_sched (k : Nat) (v : Option Block) : ((Upd.block k v).apply s).sched = s.sched := rfl
@[simp] theorem Upd.block_apply_harbour (k : Nat) (v : Option Block) : ((Upd.block k v).apply s).harbour = s.harbour := rfl
@[simp] theorem Upd.block_apply_fabric (k : Nat) (v : Option Block) : ((Upd.block k v).apply s).fabric = s.fabric := rfl
@[simp] theorem Upd.block_apply_ckpt (k : Nat) (v : Option Block) : ((Upd.block k v).apply s).ckpt = s.ckpt := rfl
@[simp] theorem Upd.block_apply_invs (k : Nat) (v : Option Block) : ((Upd.block k v).apply s).invs = s.invs := rfl
@[simp] theorem Upd.block_apply_pwrlim (k : Nat) (v : Option Block) : ((Upd.block k v).apply s).pwrlim = s.pwrlim := rfl
@[simp] theorem Upd.block_apply_gtime (k : Nat) (v : Option Block) : ((Upd.block k v).apply s).gtime = s.gtime := rfl
@[simp] theorem Upd.block_apply_free (k : Nat) (v : Option Block) : ((Upd.block k v).apply s).free = s.free := rfl
@[simp] theorem Upd.block_apply_nextId (k : Nat) (v : Option Block) : ((Upd.block k v).apply s).nextId = s.nextId := rfl
@[simp] theorem Upd.block_apply_turns (k : Nat) (v : Option Block) : ((Upd.block k v).apply s).turns = s.turns := rfl
@[simp] theorem Upd.block_apply_cur (k : Nat) (v : Option Block) : ((Upd.block k v).apply s).cur = s.cur := rfl
@[simp] theorem Upd.block_apply_get (k j : Nat) (v : Option Block) : ((Upd.block k v).apply s).block j = if j = k then v else s.block j := by
  show (Tbl.put none k v s.blocks).get none j = _
  split
  · subst j; exact Tbl.get_put _ _ _ _
  · exact Tbl.get_put_other _ _ _ _ _ ‹_›

/-! An entry of `tasks`. -/

@[simp] theorem Upd.task_apply_mem (k : Nat) (v : Option Task) : ((Upd.task k v).apply s).mem = s.mem := rfl
@[simp] theorem Upd.task_apply_poison (k : Nat) (v : Option Task) : ((Upd.task k v).apply s).poison = s.poison := rfl
@[simp] theorem Upd.task_apply_panMem (k : Nat) (v : Option Task) : ((Upd.task k v).apply s).panMem = s.panMem := rfl
@[simp] theorem Upd.task_apply_panPoison (k : Nat) (v : Option Task) : ((Upd.task k v).apply s).panPoison = s.panPoison := rfl
@[simp] theorem Upd.task_apply_strands (k : Nat) (v : Option Task) : ((Upd.task k v).apply s).strands = s.strands := rfl
@[simp] theorem Upd.task_apply_pans (k : Nat) (v : Option Task) : ((Upd.task k v).apply s).pans = s.pans := rfl
@[simp] theorem Upd.task_apply_bays (k : Nat) (v : Option Task) : ((Upd.task k v).apply s).bays = s.bays := rfl
@[simp] theorem Upd.task_apply_dies (k : Nat) (v : Option Task) : ((Upd.task k v).apply s).dies = s.dies := rfl
@[simp] theorem Upd.task_apply_chans (k : Nat) (v : Option Task) : ((Upd.task k v).apply s).chans = s.chans := rfl
@[simp] theorem Upd.task_apply_regions (k : Nat) (v : Option Task) : ((Upd.task k v).apply s).regions = s.regions := rfl
@[simp] theorem Upd.task_apply_rings (k : Nat) (v : Option Task) : ((Upd.task k v).apply s).rings = s.rings := rfl
@[simp] theorem Upd.task_apply_counters (k : Nat) (v : Option Task) : ((Upd.task k v).apply s).counters = s.counters := rfl
@[simp] theorem Upd.task_apply_streams (k : Nat) (v : Option Task) : ((Upd.task k v).apply s).streams = s.streams := rfl
@[simp] theorem Upd.task_apply_queues (k : Nat) (v : Option Task) : ((Upd.task k v).apply s).queues = s.queues := rfl
@[simp] theorem Upd.task_apply_contexts (k : Nat) (v : Option Task) : ((Upd.task k v).apply s).contexts = s.contexts := rfl
@[simp] theorem Upd.task_apply_kernels (k : Nat) (v : Option Task) : ((Upd.task k v).apply s).kernels = s.kernels := rfl
@[simp] theorem Upd.task_apply_blocks (k : Nat) (v : Option Task) : ((Upd.task k v).apply s).blocks = s.blocks := rfl
@[simp] theorem Upd.task_apply_links (k : Nat) (v : Option Task) : ((Upd.task k v).apply s).links = s.links := rfl
@[simp] theorem Upd.task_apply_sched (k : Nat) (v : Option Task) : ((Upd.task k v).apply s).sched = s.sched := rfl
@[simp] theorem Upd.task_apply_harbour (k : Nat) (v : Option Task) : ((Upd.task k v).apply s).harbour = s.harbour := rfl
@[simp] theorem Upd.task_apply_fabric (k : Nat) (v : Option Task) : ((Upd.task k v).apply s).fabric = s.fabric := rfl
@[simp] theorem Upd.task_apply_ckpt (k : Nat) (v : Option Task) : ((Upd.task k v).apply s).ckpt = s.ckpt := rfl
@[simp] theorem Upd.task_apply_invs (k : Nat) (v : Option Task) : ((Upd.task k v).apply s).invs = s.invs := rfl
@[simp] theorem Upd.task_apply_pwrlim (k : Nat) (v : Option Task) : ((Upd.task k v).apply s).pwrlim = s.pwrlim := rfl
@[simp] theorem Upd.task_apply_gtime (k : Nat) (v : Option Task) : ((Upd.task k v).apply s).gtime = s.gtime := rfl
@[simp] theorem Upd.task_apply_free (k : Nat) (v : Option Task) : ((Upd.task k v).apply s).free = s.free := rfl
@[simp] theorem Upd.task_apply_nextId (k : Nat) (v : Option Task) : ((Upd.task k v).apply s).nextId = s.nextId := rfl
@[simp] theorem Upd.task_apply_turns (k : Nat) (v : Option Task) : ((Upd.task k v).apply s).turns = s.turns := rfl
@[simp] theorem Upd.task_apply_cur (k : Nat) (v : Option Task) : ((Upd.task k v).apply s).cur = s.cur := rfl
@[simp] theorem Upd.task_apply_get (k j : Nat) (v : Option Task) : ((Upd.task k v).apply s).task j = if j = k then v else s.task j := by
  show (Tbl.put none k v s.tasks).get none j = _
  split
  · subst j; exact Tbl.get_put _ _ _ _
  · exact Tbl.get_put_other _ _ _ _ _ ‹_›

/-! An entry of `links`. -/

@[simp] theorem Upd.link_apply_mem (k : Nat) (v : Link) : ((Upd.link k v).apply s).mem = s.mem := rfl
@[simp] theorem Upd.link_apply_poison (k : Nat) (v : Link) : ((Upd.link k v).apply s).poison = s.poison := rfl
@[simp] theorem Upd.link_apply_panMem (k : Nat) (v : Link) : ((Upd.link k v).apply s).panMem = s.panMem := rfl
@[simp] theorem Upd.link_apply_panPoison (k : Nat) (v : Link) : ((Upd.link k v).apply s).panPoison = s.panPoison := rfl
@[simp] theorem Upd.link_apply_strands (k : Nat) (v : Link) : ((Upd.link k v).apply s).strands = s.strands := rfl
@[simp] theorem Upd.link_apply_pans (k : Nat) (v : Link) : ((Upd.link k v).apply s).pans = s.pans := rfl
@[simp] theorem Upd.link_apply_bays (k : Nat) (v : Link) : ((Upd.link k v).apply s).bays = s.bays := rfl
@[simp] theorem Upd.link_apply_dies (k : Nat) (v : Link) : ((Upd.link k v).apply s).dies = s.dies := rfl
@[simp] theorem Upd.link_apply_chans (k : Nat) (v : Link) : ((Upd.link k v).apply s).chans = s.chans := rfl
@[simp] theorem Upd.link_apply_regions (k : Nat) (v : Link) : ((Upd.link k v).apply s).regions = s.regions := rfl
@[simp] theorem Upd.link_apply_rings (k : Nat) (v : Link) : ((Upd.link k v).apply s).rings = s.rings := rfl
@[simp] theorem Upd.link_apply_counters (k : Nat) (v : Link) : ((Upd.link k v).apply s).counters = s.counters := rfl
@[simp] theorem Upd.link_apply_streams (k : Nat) (v : Link) : ((Upd.link k v).apply s).streams = s.streams := rfl
@[simp] theorem Upd.link_apply_queues (k : Nat) (v : Link) : ((Upd.link k v).apply s).queues = s.queues := rfl
@[simp] theorem Upd.link_apply_contexts (k : Nat) (v : Link) : ((Upd.link k v).apply s).contexts = s.contexts := rfl
@[simp] theorem Upd.link_apply_kernels (k : Nat) (v : Link) : ((Upd.link k v).apply s).kernels = s.kernels := rfl
@[simp] theorem Upd.link_apply_blocks (k : Nat) (v : Link) : ((Upd.link k v).apply s).blocks = s.blocks := rfl
@[simp] theorem Upd.link_apply_tasks (k : Nat) (v : Link) : ((Upd.link k v).apply s).tasks = s.tasks := rfl
@[simp] theorem Upd.link_apply_sched (k : Nat) (v : Link) : ((Upd.link k v).apply s).sched = s.sched := rfl
@[simp] theorem Upd.link_apply_harbour (k : Nat) (v : Link) : ((Upd.link k v).apply s).harbour = s.harbour := rfl
@[simp] theorem Upd.link_apply_fabric (k : Nat) (v : Link) : ((Upd.link k v).apply s).fabric = s.fabric := rfl
@[simp] theorem Upd.link_apply_ckpt (k : Nat) (v : Link) : ((Upd.link k v).apply s).ckpt = s.ckpt := rfl
@[simp] theorem Upd.link_apply_invs (k : Nat) (v : Link) : ((Upd.link k v).apply s).invs = s.invs := rfl
@[simp] theorem Upd.link_apply_pwrlim (k : Nat) (v : Link) : ((Upd.link k v).apply s).pwrlim = s.pwrlim := rfl
@[simp] theorem Upd.link_apply_gtime (k : Nat) (v : Link) : ((Upd.link k v).apply s).gtime = s.gtime := rfl
@[simp] theorem Upd.link_apply_free (k : Nat) (v : Link) : ((Upd.link k v).apply s).free = s.free := rfl
@[simp] theorem Upd.link_apply_nextId (k : Nat) (v : Link) : ((Upd.link k v).apply s).nextId = s.nextId := rfl
@[simp] theorem Upd.link_apply_turns (k : Nat) (v : Link) : ((Upd.link k v).apply s).turns = s.turns := rfl
@[simp] theorem Upd.link_apply_cur (k : Nat) (v : Link) : ((Upd.link k v).apply s).cur = s.cur := rfl
@[simp] theorem Upd.link_apply_get (k j : Nat) (v : Link) : ((Upd.link k v).apply s).link j = if j = k then v else s.link j := by
  show (Tbl.put {} k v s.links).get {} j = _
  split
  · subst j; exact Tbl.get_put _ _ _ _
  · exact Tbl.get_put_other _ _ _ _ _ ‹_›

/-! `sched`. -/

@[simp] theorem Upd.sched_apply_mem (v : Sched) : ((Upd.sched v).apply s).mem = s.mem := rfl
@[simp] theorem Upd.sched_apply_poison (v : Sched) : ((Upd.sched v).apply s).poison = s.poison := rfl
@[simp] theorem Upd.sched_apply_panMem (v : Sched) : ((Upd.sched v).apply s).panMem = s.panMem := rfl
@[simp] theorem Upd.sched_apply_panPoison (v : Sched) : ((Upd.sched v).apply s).panPoison = s.panPoison := rfl
@[simp] theorem Upd.sched_apply_strands (v : Sched) : ((Upd.sched v).apply s).strands = s.strands := rfl
@[simp] theorem Upd.sched_apply_pans (v : Sched) : ((Upd.sched v).apply s).pans = s.pans := rfl
@[simp] theorem Upd.sched_apply_bays (v : Sched) : ((Upd.sched v).apply s).bays = s.bays := rfl
@[simp] theorem Upd.sched_apply_dies (v : Sched) : ((Upd.sched v).apply s).dies = s.dies := rfl
@[simp] theorem Upd.sched_apply_chans (v : Sched) : ((Upd.sched v).apply s).chans = s.chans := rfl
@[simp] theorem Upd.sched_apply_regions (v : Sched) : ((Upd.sched v).apply s).regions = s.regions := rfl
@[simp] theorem Upd.sched_apply_rings (v : Sched) : ((Upd.sched v).apply s).rings = s.rings := rfl
@[simp] theorem Upd.sched_apply_counters (v : Sched) : ((Upd.sched v).apply s).counters = s.counters := rfl
@[simp] theorem Upd.sched_apply_streams (v : Sched) : ((Upd.sched v).apply s).streams = s.streams := rfl
@[simp] theorem Upd.sched_apply_queues (v : Sched) : ((Upd.sched v).apply s).queues = s.queues := rfl
@[simp] theorem Upd.sched_apply_contexts (v : Sched) : ((Upd.sched v).apply s).contexts = s.contexts := rfl
@[simp] theorem Upd.sched_apply_kernels (v : Sched) : ((Upd.sched v).apply s).kernels = s.kernels := rfl
@[simp] theorem Upd.sched_apply_blocks (v : Sched) : ((Upd.sched v).apply s).blocks = s.blocks := rfl
@[simp] theorem Upd.sched_apply_tasks (v : Sched) : ((Upd.sched v).apply s).tasks = s.tasks := rfl
@[simp] theorem Upd.sched_apply_links (v : Sched) : ((Upd.sched v).apply s).links = s.links := rfl
@[simp] theorem Upd.sched_apply_harbour (v : Sched) : ((Upd.sched v).apply s).harbour = s.harbour := rfl
@[simp] theorem Upd.sched_apply_fabric (v : Sched) : ((Upd.sched v).apply s).fabric = s.fabric := rfl
@[simp] theorem Upd.sched_apply_ckpt (v : Sched) : ((Upd.sched v).apply s).ckpt = s.ckpt := rfl
@[simp] theorem Upd.sched_apply_invs (v : Sched) : ((Upd.sched v).apply s).invs = s.invs := rfl
@[simp] theorem Upd.sched_apply_pwrlim (v : Sched) : ((Upd.sched v).apply s).pwrlim = s.pwrlim := rfl
@[simp] theorem Upd.sched_apply_gtime (v : Sched) : ((Upd.sched v).apply s).gtime = s.gtime := rfl
@[simp] theorem Upd.sched_apply_free (v : Sched) : ((Upd.sched v).apply s).free = s.free := rfl
@[simp] theorem Upd.sched_apply_nextId (v : Sched) : ((Upd.sched v).apply s).nextId = s.nextId := rfl
@[simp] theorem Upd.sched_apply_turns (v : Sched) : ((Upd.sched v).apply s).turns = s.turns := rfl
@[simp] theorem Upd.sched_apply_cur (v : Sched) : ((Upd.sched v).apply s).cur = s.cur := rfl
@[simp] theorem Upd.sched_apply_self (v : Sched) : ((Upd.sched v).apply s).sched = v := rfl

/-! `harbour`. -/

@[simp] theorem Upd.harbour_apply_mem (v : Harbour) : ((Upd.harbour v).apply s).mem = s.mem := rfl
@[simp] theorem Upd.harbour_apply_poison (v : Harbour) : ((Upd.harbour v).apply s).poison = s.poison := rfl
@[simp] theorem Upd.harbour_apply_panMem (v : Harbour) : ((Upd.harbour v).apply s).panMem = s.panMem := rfl
@[simp] theorem Upd.harbour_apply_panPoison (v : Harbour) : ((Upd.harbour v).apply s).panPoison = s.panPoison := rfl
@[simp] theorem Upd.harbour_apply_strands (v : Harbour) : ((Upd.harbour v).apply s).strands = s.strands := rfl
@[simp] theorem Upd.harbour_apply_pans (v : Harbour) : ((Upd.harbour v).apply s).pans = s.pans := rfl
@[simp] theorem Upd.harbour_apply_bays (v : Harbour) : ((Upd.harbour v).apply s).bays = s.bays := rfl
@[simp] theorem Upd.harbour_apply_dies (v : Harbour) : ((Upd.harbour v).apply s).dies = s.dies := rfl
@[simp] theorem Upd.harbour_apply_chans (v : Harbour) : ((Upd.harbour v).apply s).chans = s.chans := rfl
@[simp] theorem Upd.harbour_apply_regions (v : Harbour) : ((Upd.harbour v).apply s).regions = s.regions := rfl
@[simp] theorem Upd.harbour_apply_rings (v : Harbour) : ((Upd.harbour v).apply s).rings = s.rings := rfl
@[simp] theorem Upd.harbour_apply_counters (v : Harbour) : ((Upd.harbour v).apply s).counters = s.counters := rfl
@[simp] theorem Upd.harbour_apply_streams (v : Harbour) : ((Upd.harbour v).apply s).streams = s.streams := rfl
@[simp] theorem Upd.harbour_apply_queues (v : Harbour) : ((Upd.harbour v).apply s).queues = s.queues := rfl
@[simp] theorem Upd.harbour_apply_contexts (v : Harbour) : ((Upd.harbour v).apply s).contexts = s.contexts := rfl
@[simp] theorem Upd.harbour_apply_kernels (v : Harbour) : ((Upd.harbour v).apply s).kernels = s.kernels := rfl
@[simp] theorem Upd.harbour_apply_blocks (v : Harbour) : ((Upd.harbour v).apply s).blocks = s.blocks := rfl
@[simp] theorem Upd.harbour_apply_tasks (v : Harbour) : ((Upd.harbour v).apply s).tasks = s.tasks := rfl
@[simp] theorem Upd.harbour_apply_links (v : Harbour) : ((Upd.harbour v).apply s).links = s.links := rfl
@[simp] theorem Upd.harbour_apply_sched (v : Harbour) : ((Upd.harbour v).apply s).sched = s.sched := rfl
@[simp] theorem Upd.harbour_apply_fabric (v : Harbour) : ((Upd.harbour v).apply s).fabric = s.fabric := rfl
@[simp] theorem Upd.harbour_apply_ckpt (v : Harbour) : ((Upd.harbour v).apply s).ckpt = s.ckpt := rfl
@[simp] theorem Upd.harbour_apply_invs (v : Harbour) : ((Upd.harbour v).apply s).invs = s.invs := rfl
@[simp] theorem Upd.harbour_apply_pwrlim (v : Harbour) : ((Upd.harbour v).apply s).pwrlim = s.pwrlim := rfl
@[simp] theorem Upd.harbour_apply_gtime (v : Harbour) : ((Upd.harbour v).apply s).gtime = s.gtime := rfl
@[simp] theorem Upd.harbour_apply_free (v : Harbour) : ((Upd.harbour v).apply s).free = s.free := rfl
@[simp] theorem Upd.harbour_apply_nextId (v : Harbour) : ((Upd.harbour v).apply s).nextId = s.nextId := rfl
@[simp] theorem Upd.harbour_apply_turns (v : Harbour) : ((Upd.harbour v).apply s).turns = s.turns := rfl
@[simp] theorem Upd.harbour_apply_cur (v : Harbour) : ((Upd.harbour v).apply s).cur = s.cur := rfl
@[simp] theorem Upd.harbour_apply_self (v : Harbour) : ((Upd.harbour v).apply s).harbour = v := rfl

/-! `fabric`. -/

@[simp] theorem Upd.fabric_apply_mem (v : Fabric) : ((Upd.fabric v).apply s).mem = s.mem := rfl
@[simp] theorem Upd.fabric_apply_poison (v : Fabric) : ((Upd.fabric v).apply s).poison = s.poison := rfl
@[simp] theorem Upd.fabric_apply_panMem (v : Fabric) : ((Upd.fabric v).apply s).panMem = s.panMem := rfl
@[simp] theorem Upd.fabric_apply_panPoison (v : Fabric) : ((Upd.fabric v).apply s).panPoison = s.panPoison := rfl
@[simp] theorem Upd.fabric_apply_strands (v : Fabric) : ((Upd.fabric v).apply s).strands = s.strands := rfl
@[simp] theorem Upd.fabric_apply_pans (v : Fabric) : ((Upd.fabric v).apply s).pans = s.pans := rfl
@[simp] theorem Upd.fabric_apply_bays (v : Fabric) : ((Upd.fabric v).apply s).bays = s.bays := rfl
@[simp] theorem Upd.fabric_apply_dies (v : Fabric) : ((Upd.fabric v).apply s).dies = s.dies := rfl
@[simp] theorem Upd.fabric_apply_chans (v : Fabric) : ((Upd.fabric v).apply s).chans = s.chans := rfl
@[simp] theorem Upd.fabric_apply_regions (v : Fabric) : ((Upd.fabric v).apply s).regions = s.regions := rfl
@[simp] theorem Upd.fabric_apply_rings (v : Fabric) : ((Upd.fabric v).apply s).rings = s.rings := rfl
@[simp] theorem Upd.fabric_apply_counters (v : Fabric) : ((Upd.fabric v).apply s).counters = s.counters := rfl
@[simp] theorem Upd.fabric_apply_streams (v : Fabric) : ((Upd.fabric v).apply s).streams = s.streams := rfl
@[simp] theorem Upd.fabric_apply_queues (v : Fabric) : ((Upd.fabric v).apply s).queues = s.queues := rfl
@[simp] theorem Upd.fabric_apply_contexts (v : Fabric) : ((Upd.fabric v).apply s).contexts = s.contexts := rfl
@[simp] theorem Upd.fabric_apply_kernels (v : Fabric) : ((Upd.fabric v).apply s).kernels = s.kernels := rfl
@[simp] theorem Upd.fabric_apply_blocks (v : Fabric) : ((Upd.fabric v).apply s).blocks = s.blocks := rfl
@[simp] theorem Upd.fabric_apply_tasks (v : Fabric) : ((Upd.fabric v).apply s).tasks = s.tasks := rfl
@[simp] theorem Upd.fabric_apply_links (v : Fabric) : ((Upd.fabric v).apply s).links = s.links := rfl
@[simp] theorem Upd.fabric_apply_sched (v : Fabric) : ((Upd.fabric v).apply s).sched = s.sched := rfl
@[simp] theorem Upd.fabric_apply_harbour (v : Fabric) : ((Upd.fabric v).apply s).harbour = s.harbour := rfl
@[simp] theorem Upd.fabric_apply_ckpt (v : Fabric) : ((Upd.fabric v).apply s).ckpt = s.ckpt := rfl
@[simp] theorem Upd.fabric_apply_invs (v : Fabric) : ((Upd.fabric v).apply s).invs = s.invs := rfl
@[simp] theorem Upd.fabric_apply_pwrlim (v : Fabric) : ((Upd.fabric v).apply s).pwrlim = s.pwrlim := rfl
@[simp] theorem Upd.fabric_apply_gtime (v : Fabric) : ((Upd.fabric v).apply s).gtime = s.gtime := rfl
@[simp] theorem Upd.fabric_apply_free (v : Fabric) : ((Upd.fabric v).apply s).free = s.free := rfl
@[simp] theorem Upd.fabric_apply_nextId (v : Fabric) : ((Upd.fabric v).apply s).nextId = s.nextId := rfl
@[simp] theorem Upd.fabric_apply_turns (v : Fabric) : ((Upd.fabric v).apply s).turns = s.turns := rfl
@[simp] theorem Upd.fabric_apply_cur (v : Fabric) : ((Upd.fabric v).apply s).cur = s.cur := rfl
@[simp] theorem Upd.fabric_apply_self (v : Fabric) : ((Upd.fabric v).apply s).fabric = v := rfl

/-! `ckpt`. -/

@[simp] theorem Upd.ckpt_apply_mem (v : Ckpt) : ((Upd.ckpt v).apply s).mem = s.mem := rfl
@[simp] theorem Upd.ckpt_apply_poison (v : Ckpt) : ((Upd.ckpt v).apply s).poison = s.poison := rfl
@[simp] theorem Upd.ckpt_apply_panMem (v : Ckpt) : ((Upd.ckpt v).apply s).panMem = s.panMem := rfl
@[simp] theorem Upd.ckpt_apply_panPoison (v : Ckpt) : ((Upd.ckpt v).apply s).panPoison = s.panPoison := rfl
@[simp] theorem Upd.ckpt_apply_strands (v : Ckpt) : ((Upd.ckpt v).apply s).strands = s.strands := rfl
@[simp] theorem Upd.ckpt_apply_pans (v : Ckpt) : ((Upd.ckpt v).apply s).pans = s.pans := rfl
@[simp] theorem Upd.ckpt_apply_bays (v : Ckpt) : ((Upd.ckpt v).apply s).bays = s.bays := rfl
@[simp] theorem Upd.ckpt_apply_dies (v : Ckpt) : ((Upd.ckpt v).apply s).dies = s.dies := rfl
@[simp] theorem Upd.ckpt_apply_chans (v : Ckpt) : ((Upd.ckpt v).apply s).chans = s.chans := rfl
@[simp] theorem Upd.ckpt_apply_regions (v : Ckpt) : ((Upd.ckpt v).apply s).regions = s.regions := rfl
@[simp] theorem Upd.ckpt_apply_rings (v : Ckpt) : ((Upd.ckpt v).apply s).rings = s.rings := rfl
@[simp] theorem Upd.ckpt_apply_counters (v : Ckpt) : ((Upd.ckpt v).apply s).counters = s.counters := rfl
@[simp] theorem Upd.ckpt_apply_streams (v : Ckpt) : ((Upd.ckpt v).apply s).streams = s.streams := rfl
@[simp] theorem Upd.ckpt_apply_queues (v : Ckpt) : ((Upd.ckpt v).apply s).queues = s.queues := rfl
@[simp] theorem Upd.ckpt_apply_contexts (v : Ckpt) : ((Upd.ckpt v).apply s).contexts = s.contexts := rfl
@[simp] theorem Upd.ckpt_apply_kernels (v : Ckpt) : ((Upd.ckpt v).apply s).kernels = s.kernels := rfl
@[simp] theorem Upd.ckpt_apply_blocks (v : Ckpt) : ((Upd.ckpt v).apply s).blocks = s.blocks := rfl
@[simp] theorem Upd.ckpt_apply_tasks (v : Ckpt) : ((Upd.ckpt v).apply s).tasks = s.tasks := rfl
@[simp] theorem Upd.ckpt_apply_links (v : Ckpt) : ((Upd.ckpt v).apply s).links = s.links := rfl
@[simp] theorem Upd.ckpt_apply_sched (v : Ckpt) : ((Upd.ckpt v).apply s).sched = s.sched := rfl
@[simp] theorem Upd.ckpt_apply_harbour (v : Ckpt) : ((Upd.ckpt v).apply s).harbour = s.harbour := rfl
@[simp] theorem Upd.ckpt_apply_fabric (v : Ckpt) : ((Upd.ckpt v).apply s).fabric = s.fabric := rfl
@[simp] theorem Upd.ckpt_apply_invs (v : Ckpt) : ((Upd.ckpt v).apply s).invs = s.invs := rfl
@[simp] theorem Upd.ckpt_apply_pwrlim (v : Ckpt) : ((Upd.ckpt v).apply s).pwrlim = s.pwrlim := rfl
@[simp] theorem Upd.ckpt_apply_gtime (v : Ckpt) : ((Upd.ckpt v).apply s).gtime = s.gtime := rfl
@[simp] theorem Upd.ckpt_apply_free (v : Ckpt) : ((Upd.ckpt v).apply s).free = s.free := rfl
@[simp] theorem Upd.ckpt_apply_nextId (v : Ckpt) : ((Upd.ckpt v).apply s).nextId = s.nextId := rfl
@[simp] theorem Upd.ckpt_apply_turns (v : Ckpt) : ((Upd.ckpt v).apply s).turns = s.turns := rfl
@[simp] theorem Upd.ckpt_apply_cur (v : Ckpt) : ((Upd.ckpt v).apply s).cur = s.cur := rfl
@[simp] theorem Upd.ckpt_apply_self (v : Ckpt) : ((Upd.ckpt v).apply s).ckpt = v := rfl

/-! `invs`. -/

@[simp] theorem Upd.invs_apply_mem (v : List Inv) : ((Upd.invs v).apply s).mem = s.mem := rfl
@[simp] theorem Upd.invs_apply_poison (v : List Inv) : ((Upd.invs v).apply s).poison = s.poison := rfl
@[simp] theorem Upd.invs_apply_panMem (v : List Inv) : ((Upd.invs v).apply s).panMem = s.panMem := rfl
@[simp] theorem Upd.invs_apply_panPoison (v : List Inv) : ((Upd.invs v).apply s).panPoison = s.panPoison := rfl
@[simp] theorem Upd.invs_apply_strands (v : List Inv) : ((Upd.invs v).apply s).strands = s.strands := rfl
@[simp] theorem Upd.invs_apply_pans (v : List Inv) : ((Upd.invs v).apply s).pans = s.pans := rfl
@[simp] theorem Upd.invs_apply_bays (v : List Inv) : ((Upd.invs v).apply s).bays = s.bays := rfl
@[simp] theorem Upd.invs_apply_dies (v : List Inv) : ((Upd.invs v).apply s).dies = s.dies := rfl
@[simp] theorem Upd.invs_apply_chans (v : List Inv) : ((Upd.invs v).apply s).chans = s.chans := rfl
@[simp] theorem Upd.invs_apply_regions (v : List Inv) : ((Upd.invs v).apply s).regions = s.regions := rfl
@[simp] theorem Upd.invs_apply_rings (v : List Inv) : ((Upd.invs v).apply s).rings = s.rings := rfl
@[simp] theorem Upd.invs_apply_counters (v : List Inv) : ((Upd.invs v).apply s).counters = s.counters := rfl
@[simp] theorem Upd.invs_apply_streams (v : List Inv) : ((Upd.invs v).apply s).streams = s.streams := rfl
@[simp] theorem Upd.invs_apply_queues (v : List Inv) : ((Upd.invs v).apply s).queues = s.queues := rfl
@[simp] theorem Upd.invs_apply_contexts (v : List Inv) : ((Upd.invs v).apply s).contexts = s.contexts := rfl
@[simp] theorem Upd.invs_apply_kernels (v : List Inv) : ((Upd.invs v).apply s).kernels = s.kernels := rfl
@[simp] theorem Upd.invs_apply_blocks (v : List Inv) : ((Upd.invs v).apply s).blocks = s.blocks := rfl
@[simp] theorem Upd.invs_apply_tasks (v : List Inv) : ((Upd.invs v).apply s).tasks = s.tasks := rfl
@[simp] theorem Upd.invs_apply_links (v : List Inv) : ((Upd.invs v).apply s).links = s.links := rfl
@[simp] theorem Upd.invs_apply_sched (v : List Inv) : ((Upd.invs v).apply s).sched = s.sched := rfl
@[simp] theorem Upd.invs_apply_harbour (v : List Inv) : ((Upd.invs v).apply s).harbour = s.harbour := rfl
@[simp] theorem Upd.invs_apply_fabric (v : List Inv) : ((Upd.invs v).apply s).fabric = s.fabric := rfl
@[simp] theorem Upd.invs_apply_ckpt (v : List Inv) : ((Upd.invs v).apply s).ckpt = s.ckpt := rfl
@[simp] theorem Upd.invs_apply_pwrlim (v : List Inv) : ((Upd.invs v).apply s).pwrlim = s.pwrlim := rfl
@[simp] theorem Upd.invs_apply_gtime (v : List Inv) : ((Upd.invs v).apply s).gtime = s.gtime := rfl
@[simp] theorem Upd.invs_apply_free (v : List Inv) : ((Upd.invs v).apply s).free = s.free := rfl
@[simp] theorem Upd.invs_apply_nextId (v : List Inv) : ((Upd.invs v).apply s).nextId = s.nextId := rfl
@[simp] theorem Upd.invs_apply_turns (v : List Inv) : ((Upd.invs v).apply s).turns = s.turns := rfl
@[simp] theorem Upd.invs_apply_cur (v : List Inv) : ((Upd.invs v).apply s).cur = s.cur := rfl
@[simp] theorem Upd.invs_apply_self (v : List Inv) : ((Upd.invs v).apply s).invs = v := rfl

/-! The time and the model's own fields. -/

@[simp] theorem Upd.lowerPower_apply_mem (w : Nat) : ((Upd.lowerPower w).apply s).mem = s.mem := rfl
@[simp] theorem Upd.lowerPower_apply_poison (w : Nat) : ((Upd.lowerPower w).apply s).poison = s.poison := rfl
@[simp] theorem Upd.lowerPower_apply_panMem (w : Nat) : ((Upd.lowerPower w).apply s).panMem = s.panMem := rfl
@[simp] theorem Upd.lowerPower_apply_panPoison (w : Nat) : ((Upd.lowerPower w).apply s).panPoison = s.panPoison := rfl
@[simp] theorem Upd.lowerPower_apply_strands (w : Nat) : ((Upd.lowerPower w).apply s).strands = s.strands := rfl
@[simp] theorem Upd.lowerPower_apply_pans (w : Nat) : ((Upd.lowerPower w).apply s).pans = s.pans := rfl
@[simp] theorem Upd.lowerPower_apply_bays (w : Nat) : ((Upd.lowerPower w).apply s).bays = s.bays := rfl
@[simp] theorem Upd.lowerPower_apply_dies (w : Nat) : ((Upd.lowerPower w).apply s).dies = s.dies := rfl
@[simp] theorem Upd.lowerPower_apply_chans (w : Nat) : ((Upd.lowerPower w).apply s).chans = s.chans := rfl
@[simp] theorem Upd.lowerPower_apply_regions (w : Nat) : ((Upd.lowerPower w).apply s).regions = s.regions := rfl
@[simp] theorem Upd.lowerPower_apply_rings (w : Nat) : ((Upd.lowerPower w).apply s).rings = s.rings := rfl
@[simp] theorem Upd.lowerPower_apply_counters (w : Nat) : ((Upd.lowerPower w).apply s).counters = s.counters := rfl
@[simp] theorem Upd.lowerPower_apply_streams (w : Nat) : ((Upd.lowerPower w).apply s).streams = s.streams := rfl
@[simp] theorem Upd.lowerPower_apply_queues (w : Nat) : ((Upd.lowerPower w).apply s).queues = s.queues := rfl
@[simp] theorem Upd.lowerPower_apply_contexts (w : Nat) : ((Upd.lowerPower w).apply s).contexts = s.contexts := rfl
@[simp] theorem Upd.lowerPower_apply_kernels (w : Nat) : ((Upd.lowerPower w).apply s).kernels = s.kernels := rfl
@[simp] theorem Upd.lowerPower_apply_blocks (w : Nat) : ((Upd.lowerPower w).apply s).blocks = s.blocks := rfl
@[simp] theorem Upd.lowerPower_apply_tasks (w : Nat) : ((Upd.lowerPower w).apply s).tasks = s.tasks := rfl
@[simp] theorem Upd.lowerPower_apply_links (w : Nat) : ((Upd.lowerPower w).apply s).links = s.links := rfl
@[simp] theorem Upd.lowerPower_apply_sched (w : Nat) : ((Upd.lowerPower w).apply s).sched = s.sched := rfl
@[simp] theorem Upd.lowerPower_apply_harbour (w : Nat) : ((Upd.lowerPower w).apply s).harbour = s.harbour := rfl
@[simp] theorem Upd.lowerPower_apply_fabric (w : Nat) : ((Upd.lowerPower w).apply s).fabric = s.fabric := rfl
@[simp] theorem Upd.lowerPower_apply_ckpt (w : Nat) : ((Upd.lowerPower w).apply s).ckpt = s.ckpt := rfl
@[simp] theorem Upd.lowerPower_apply_invs (w : Nat) : ((Upd.lowerPower w).apply s).invs = s.invs := rfl
@[simp] theorem Upd.lowerPower_apply_gtime (w : Nat) : ((Upd.lowerPower w).apply s).gtime = s.gtime := rfl
@[simp] theorem Upd.lowerPower_apply_free (w : Nat) : ((Upd.lowerPower w).apply s).free = s.free := rfl
@[simp] theorem Upd.lowerPower_apply_nextId (w : Nat) : ((Upd.lowerPower w).apply s).nextId = s.nextId := rfl
@[simp] theorem Upd.lowerPower_apply_turns (w : Nat) : ((Upd.lowerPower w).apply s).turns = s.turns := rfl
@[simp] theorem Upd.lowerPower_apply_cur (w : Nat) : ((Upd.lowerPower w).apply s).cur = s.cur := rfl
@[simp] theorem Upd.gtime_apply_mem (n : Nat) : ((Upd.gtime n).apply s).mem = s.mem := rfl
@[simp] theorem Upd.gtime_apply_poison (n : Nat) : ((Upd.gtime n).apply s).poison = s.poison := rfl
@[simp] theorem Upd.gtime_apply_panMem (n : Nat) : ((Upd.gtime n).apply s).panMem = s.panMem := rfl
@[simp] theorem Upd.gtime_apply_panPoison (n : Nat) : ((Upd.gtime n).apply s).panPoison = s.panPoison := rfl
@[simp] theorem Upd.gtime_apply_strands (n : Nat) : ((Upd.gtime n).apply s).strands = s.strands := rfl
@[simp] theorem Upd.gtime_apply_pans (n : Nat) : ((Upd.gtime n).apply s).pans = s.pans := rfl
@[simp] theorem Upd.gtime_apply_bays (n : Nat) : ((Upd.gtime n).apply s).bays = s.bays := rfl
@[simp] theorem Upd.gtime_apply_dies (n : Nat) : ((Upd.gtime n).apply s).dies = s.dies := rfl
@[simp] theorem Upd.gtime_apply_chans (n : Nat) : ((Upd.gtime n).apply s).chans = s.chans := rfl
@[simp] theorem Upd.gtime_apply_regions (n : Nat) : ((Upd.gtime n).apply s).regions = s.regions := rfl
@[simp] theorem Upd.gtime_apply_rings (n : Nat) : ((Upd.gtime n).apply s).rings = s.rings := rfl
@[simp] theorem Upd.gtime_apply_counters (n : Nat) : ((Upd.gtime n).apply s).counters = s.counters := rfl
@[simp] theorem Upd.gtime_apply_streams (n : Nat) : ((Upd.gtime n).apply s).streams = s.streams := rfl
@[simp] theorem Upd.gtime_apply_queues (n : Nat) : ((Upd.gtime n).apply s).queues = s.queues := rfl
@[simp] theorem Upd.gtime_apply_contexts (n : Nat) : ((Upd.gtime n).apply s).contexts = s.contexts := rfl
@[simp] theorem Upd.gtime_apply_kernels (n : Nat) : ((Upd.gtime n).apply s).kernels = s.kernels := rfl
@[simp] theorem Upd.gtime_apply_blocks (n : Nat) : ((Upd.gtime n).apply s).blocks = s.blocks := rfl
@[simp] theorem Upd.gtime_apply_tasks (n : Nat) : ((Upd.gtime n).apply s).tasks = s.tasks := rfl
@[simp] theorem Upd.gtime_apply_links (n : Nat) : ((Upd.gtime n).apply s).links = s.links := rfl
@[simp] theorem Upd.gtime_apply_sched (n : Nat) : ((Upd.gtime n).apply s).sched = s.sched := rfl
@[simp] theorem Upd.gtime_apply_harbour (n : Nat) : ((Upd.gtime n).apply s).harbour = s.harbour := rfl
@[simp] theorem Upd.gtime_apply_fabric (n : Nat) : ((Upd.gtime n).apply s).fabric = s.fabric := rfl
@[simp] theorem Upd.gtime_apply_ckpt (n : Nat) : ((Upd.gtime n).apply s).ckpt = s.ckpt := rfl
@[simp] theorem Upd.gtime_apply_invs (n : Nat) : ((Upd.gtime n).apply s).invs = s.invs := rfl
@[simp] theorem Upd.gtime_apply_pwrlim (n : Nat) : ((Upd.gtime n).apply s).pwrlim = s.pwrlim := rfl
@[simp] theorem Upd.gtime_apply_free (n : Nat) : ((Upd.gtime n).apply s).free = s.free := rfl
@[simp] theorem Upd.gtime_apply_nextId (n : Nat) : ((Upd.gtime n).apply s).nextId = s.nextId := rfl
@[simp] theorem Upd.gtime_apply_turns (n : Nat) : ((Upd.gtime n).apply s).turns = s.turns := rfl
@[simp] theorem Upd.gtime_apply_cur (n : Nat) : ((Upd.gtime n).apply s).cur = s.cur := rfl
@[simp] theorem Upd.nextFree_apply_mem : (Upd.nextFree.apply s).mem = s.mem := rfl
@[simp] theorem Upd.nextFree_apply_poison : (Upd.nextFree.apply s).poison = s.poison := rfl
@[simp] theorem Upd.nextFree_apply_panMem : (Upd.nextFree.apply s).panMem = s.panMem := rfl
@[simp] theorem Upd.nextFree_apply_panPoison : (Upd.nextFree.apply s).panPoison = s.panPoison := rfl
@[simp] theorem Upd.nextFree_apply_strands : (Upd.nextFree.apply s).strands = s.strands := rfl
@[simp] theorem Upd.nextFree_apply_pans : (Upd.nextFree.apply s).pans = s.pans := rfl
@[simp] theorem Upd.nextFree_apply_bays : (Upd.nextFree.apply s).bays = s.bays := rfl
@[simp] theorem Upd.nextFree_apply_dies : (Upd.nextFree.apply s).dies = s.dies := rfl
@[simp] theorem Upd.nextFree_apply_chans : (Upd.nextFree.apply s).chans = s.chans := rfl
@[simp] theorem Upd.nextFree_apply_regions : (Upd.nextFree.apply s).regions = s.regions := rfl
@[simp] theorem Upd.nextFree_apply_rings : (Upd.nextFree.apply s).rings = s.rings := rfl
@[simp] theorem Upd.nextFree_apply_counters : (Upd.nextFree.apply s).counters = s.counters := rfl
@[simp] theorem Upd.nextFree_apply_streams : (Upd.nextFree.apply s).streams = s.streams := rfl
@[simp] theorem Upd.nextFree_apply_queues : (Upd.nextFree.apply s).queues = s.queues := rfl
@[simp] theorem Upd.nextFree_apply_contexts : (Upd.nextFree.apply s).contexts = s.contexts := rfl
@[simp] theorem Upd.nextFree_apply_kernels : (Upd.nextFree.apply s).kernels = s.kernels := rfl
@[simp] theorem Upd.nextFree_apply_blocks : (Upd.nextFree.apply s).blocks = s.blocks := rfl
@[simp] theorem Upd.nextFree_apply_tasks : (Upd.nextFree.apply s).tasks = s.tasks := rfl
@[simp] theorem Upd.nextFree_apply_links : (Upd.nextFree.apply s).links = s.links := rfl
@[simp] theorem Upd.nextFree_apply_sched : (Upd.nextFree.apply s).sched = s.sched := rfl
@[simp] theorem Upd.nextFree_apply_harbour : (Upd.nextFree.apply s).harbour = s.harbour := rfl
@[simp] theorem Upd.nextFree_apply_fabric : (Upd.nextFree.apply s).fabric = s.fabric := rfl
@[simp] theorem Upd.nextFree_apply_ckpt : (Upd.nextFree.apply s).ckpt = s.ckpt := rfl
@[simp] theorem Upd.nextFree_apply_invs : (Upd.nextFree.apply s).invs = s.invs := rfl
@[simp] theorem Upd.nextFree_apply_pwrlim : (Upd.nextFree.apply s).pwrlim = s.pwrlim := rfl
@[simp] theorem Upd.nextFree_apply_gtime : (Upd.nextFree.apply s).gtime = s.gtime := rfl
@[simp] theorem Upd.nextFree_apply_nextId : (Upd.nextFree.apply s).nextId = s.nextId := rfl
@[simp] theorem Upd.nextFree_apply_turns : (Upd.nextFree.apply s).turns = s.turns := rfl
@[simp] theorem Upd.nextFree_apply_cur : (Upd.nextFree.apply s).cur = s.cur := rfl
@[simp] theorem Upd.nextFree_apply_self : (Upd.nextFree.apply s).free = s.free + 1 := rfl
@[simp] theorem Upd.nextId_apply_mem : (Upd.nextId.apply s).mem = s.mem := rfl
@[simp] theorem Upd.nextId_apply_poison : (Upd.nextId.apply s).poison = s.poison := rfl
@[simp] theorem Upd.nextId_apply_panMem : (Upd.nextId.apply s).panMem = s.panMem := rfl
@[simp] theorem Upd.nextId_apply_panPoison : (Upd.nextId.apply s).panPoison = s.panPoison := rfl
@[simp] theorem Upd.nextId_apply_strands : (Upd.nextId.apply s).strands = s.strands := rfl
@[simp] theorem Upd.nextId_apply_pans : (Upd.nextId.apply s).pans = s.pans := rfl
@[simp] theorem Upd.nextId_apply_bays : (Upd.nextId.apply s).bays = s.bays := rfl
@[simp] theorem Upd.nextId_apply_dies : (Upd.nextId.apply s).dies = s.dies := rfl
@[simp] theorem Upd.nextId_apply_chans : (Upd.nextId.apply s).chans = s.chans := rfl
@[simp] theorem Upd.nextId_apply_regions : (Upd.nextId.apply s).regions = s.regions := rfl
@[simp] theorem Upd.nextId_apply_rings : (Upd.nextId.apply s).rings = s.rings := rfl
@[simp] theorem Upd.nextId_apply_counters : (Upd.nextId.apply s).counters = s.counters := rfl
@[simp] theorem Upd.nextId_apply_streams : (Upd.nextId.apply s).streams = s.streams := rfl
@[simp] theorem Upd.nextId_apply_queues : (Upd.nextId.apply s).queues = s.queues := rfl
@[simp] theorem Upd.nextId_apply_contexts : (Upd.nextId.apply s).contexts = s.contexts := rfl
@[simp] theorem Upd.nextId_apply_kernels : (Upd.nextId.apply s).kernels = s.kernels := rfl
@[simp] theorem Upd.nextId_apply_blocks : (Upd.nextId.apply s).blocks = s.blocks := rfl
@[simp] theorem Upd.nextId_apply_tasks : (Upd.nextId.apply s).tasks = s.tasks := rfl
@[simp] theorem Upd.nextId_apply_links : (Upd.nextId.apply s).links = s.links := rfl
@[simp] theorem Upd.nextId_apply_sched : (Upd.nextId.apply s).sched = s.sched := rfl
@[simp] theorem Upd.nextId_apply_harbour : (Upd.nextId.apply s).harbour = s.harbour := rfl
@[simp] theorem Upd.nextId_apply_fabric : (Upd.nextId.apply s).fabric = s.fabric := rfl
@[simp] theorem Upd.nextId_apply_ckpt : (Upd.nextId.apply s).ckpt = s.ckpt := rfl
@[simp] theorem Upd.nextId_apply_invs : (Upd.nextId.apply s).invs = s.invs := rfl
@[simp] theorem Upd.nextId_apply_pwrlim : (Upd.nextId.apply s).pwrlim = s.pwrlim := rfl
@[simp] theorem Upd.nextId_apply_gtime : (Upd.nextId.apply s).gtime = s.gtime := rfl
@[simp] theorem Upd.nextId_apply_free : (Upd.nextId.apply s).free = s.free := rfl
@[simp] theorem Upd.nextId_apply_turns : (Upd.nextId.apply s).turns = s.turns := rfl
@[simp] theorem Upd.nextId_apply_cur : (Upd.nextId.apply s).cur = s.cur := rfl
@[simp] theorem Upd.nextId_apply_self : (Upd.nextId.apply s).nextId = s.nextId + 1 := rfl
@[simp] theorem Upd.turns_apply_mem (t : List Turn) : ((Upd.turns t).apply s).mem = s.mem := rfl
@[simp] theorem Upd.turns_apply_poison (t : List Turn) : ((Upd.turns t).apply s).poison = s.poison := rfl
@[simp] theorem Upd.turns_apply_panMem (t : List Turn) : ((Upd.turns t).apply s).panMem = s.panMem := rfl
@[simp] theorem Upd.turns_apply_panPoison (t : List Turn) : ((Upd.turns t).apply s).panPoison = s.panPoison := rfl
@[simp] theorem Upd.turns_apply_strands (t : List Turn) : ((Upd.turns t).apply s).strands = s.strands := rfl
@[simp] theorem Upd.turns_apply_pans (t : List Turn) : ((Upd.turns t).apply s).pans = s.pans := rfl
@[simp] theorem Upd.turns_apply_bays (t : List Turn) : ((Upd.turns t).apply s).bays = s.bays := rfl
@[simp] theorem Upd.turns_apply_dies (t : List Turn) : ((Upd.turns t).apply s).dies = s.dies := rfl
@[simp] theorem Upd.turns_apply_chans (t : List Turn) : ((Upd.turns t).apply s).chans = s.chans := rfl
@[simp] theorem Upd.turns_apply_regions (t : List Turn) : ((Upd.turns t).apply s).regions = s.regions := rfl
@[simp] theorem Upd.turns_apply_rings (t : List Turn) : ((Upd.turns t).apply s).rings = s.rings := rfl
@[simp] theorem Upd.turns_apply_counters (t : List Turn) : ((Upd.turns t).apply s).counters = s.counters := rfl
@[simp] theorem Upd.turns_apply_streams (t : List Turn) : ((Upd.turns t).apply s).streams = s.streams := rfl
@[simp] theorem Upd.turns_apply_queues (t : List Turn) : ((Upd.turns t).apply s).queues = s.queues := rfl
@[simp] theorem Upd.turns_apply_contexts (t : List Turn) : ((Upd.turns t).apply s).contexts = s.contexts := rfl
@[simp] theorem Upd.turns_apply_kernels (t : List Turn) : ((Upd.turns t).apply s).kernels = s.kernels := rfl
@[simp] theorem Upd.turns_apply_blocks (t : List Turn) : ((Upd.turns t).apply s).blocks = s.blocks := rfl
@[simp] theorem Upd.turns_apply_tasks (t : List Turn) : ((Upd.turns t).apply s).tasks = s.tasks := rfl
@[simp] theorem Upd.turns_apply_links (t : List Turn) : ((Upd.turns t).apply s).links = s.links := rfl
@[simp] theorem Upd.turns_apply_sched (t : List Turn) : ((Upd.turns t).apply s).sched = s.sched := rfl
@[simp] theorem Upd.turns_apply_harbour (t : List Turn) : ((Upd.turns t).apply s).harbour = s.harbour := rfl
@[simp] theorem Upd.turns_apply_fabric (t : List Turn) : ((Upd.turns t).apply s).fabric = s.fabric := rfl
@[simp] theorem Upd.turns_apply_ckpt (t : List Turn) : ((Upd.turns t).apply s).ckpt = s.ckpt := rfl
@[simp] theorem Upd.turns_apply_invs (t : List Turn) : ((Upd.turns t).apply s).invs = s.invs := rfl
@[simp] theorem Upd.turns_apply_pwrlim (t : List Turn) : ((Upd.turns t).apply s).pwrlim = s.pwrlim := rfl
@[simp] theorem Upd.turns_apply_gtime (t : List Turn) : ((Upd.turns t).apply s).gtime = s.gtime := rfl
@[simp] theorem Upd.turns_apply_free (t : List Turn) : ((Upd.turns t).apply s).free = s.free := rfl
@[simp] theorem Upd.turns_apply_nextId (t : List Turn) : ((Upd.turns t).apply s).nextId = s.nextId := rfl
@[simp] theorem Upd.turns_apply_cur (t : List Turn) : ((Upd.turns t).apply s).cur = s.cur := rfl
@[simp] theorem Upd.turns_apply_self (t : List Turn) : ((Upd.turns t).apply s).turns = t := rfl
@[simp] theorem Upd.cur_apply_mem (k : Nat) : ((Upd.cur k).apply s).mem = s.mem := rfl
@[simp] theorem Upd.cur_apply_poison (k : Nat) : ((Upd.cur k).apply s).poison = s.poison := rfl
@[simp] theorem Upd.cur_apply_panMem (k : Nat) : ((Upd.cur k).apply s).panMem = s.panMem := rfl
@[simp] theorem Upd.cur_apply_panPoison (k : Nat) : ((Upd.cur k).apply s).panPoison = s.panPoison := rfl
@[simp] theorem Upd.cur_apply_strands (k : Nat) : ((Upd.cur k).apply s).strands = s.strands := rfl
@[simp] theorem Upd.cur_apply_pans (k : Nat) : ((Upd.cur k).apply s).pans = s.pans := rfl
@[simp] theorem Upd.cur_apply_bays (k : Nat) : ((Upd.cur k).apply s).bays = s.bays := rfl
@[simp] theorem Upd.cur_apply_dies (k : Nat) : ((Upd.cur k).apply s).dies = s.dies := rfl
@[simp] theorem Upd.cur_apply_chans (k : Nat) : ((Upd.cur k).apply s).chans = s.chans := rfl
@[simp] theorem Upd.cur_apply_regions (k : Nat) : ((Upd.cur k).apply s).regions = s.regions := rfl
@[simp] theorem Upd.cur_apply_rings (k : Nat) : ((Upd.cur k).apply s).rings = s.rings := rfl
@[simp] theorem Upd.cur_apply_counters (k : Nat) : ((Upd.cur k).apply s).counters = s.counters := rfl
@[simp] theorem Upd.cur_apply_streams (k : Nat) : ((Upd.cur k).apply s).streams = s.streams := rfl
@[simp] theorem Upd.cur_apply_queues (k : Nat) : ((Upd.cur k).apply s).queues = s.queues := rfl
@[simp] theorem Upd.cur_apply_contexts (k : Nat) : ((Upd.cur k).apply s).contexts = s.contexts := rfl
@[simp] theorem Upd.cur_apply_kernels (k : Nat) : ((Upd.cur k).apply s).kernels = s.kernels := rfl
@[simp] theorem Upd.cur_apply_blocks (k : Nat) : ((Upd.cur k).apply s).blocks = s.blocks := rfl
@[simp] theorem Upd.cur_apply_tasks (k : Nat) : ((Upd.cur k).apply s).tasks = s.tasks := rfl
@[simp] theorem Upd.cur_apply_links (k : Nat) : ((Upd.cur k).apply s).links = s.links := rfl
@[simp] theorem Upd.cur_apply_sched (k : Nat) : ((Upd.cur k).apply s).sched = s.sched := rfl
@[simp] theorem Upd.cur_apply_harbour (k : Nat) : ((Upd.cur k).apply s).harbour = s.harbour := rfl
@[simp] theorem Upd.cur_apply_fabric (k : Nat) : ((Upd.cur k).apply s).fabric = s.fabric := rfl
@[simp] theorem Upd.cur_apply_ckpt (k : Nat) : ((Upd.cur k).apply s).ckpt = s.ckpt := rfl
@[simp] theorem Upd.cur_apply_invs (k : Nat) : ((Upd.cur k).apply s).invs = s.invs := rfl
@[simp] theorem Upd.cur_apply_pwrlim (k : Nat) : ((Upd.cur k).apply s).pwrlim = s.pwrlim := rfl
@[simp] theorem Upd.cur_apply_gtime (k : Nat) : ((Upd.cur k).apply s).gtime = s.gtime := rfl
@[simp] theorem Upd.cur_apply_free (k : Nat) : ((Upd.cur k).apply s).free = s.free := rfl
@[simp] theorem Upd.cur_apply_nextId (k : Nat) : ((Upd.cur k).apply s).nextId = s.nextId := rfl
@[simp] theorem Upd.cur_apply_turns (k : Nat) : ((Upd.cur k).apply s).turns = s.turns := rfl
@[simp] theorem Upd.cur_apply_self (k : Nat) : ((Upd.cur k).apply s).cur = k := rfl

/-! Poison, and bytes of storage. -/

@[simp] theorem Upd.poison_apply_mem (g : Nat) (b : Bool) : ((Upd.poison g b).apply s).mem = s.mem := rfl
@[simp] theorem Upd.poison_apply_panMem (g : Nat) (b : Bool) : ((Upd.poison g b).apply s).panMem = s.panMem := rfl
@[simp] theorem Upd.poison_apply_panPoison (g : Nat) (b : Bool) : ((Upd.poison g b).apply s).panPoison = s.panPoison := rfl
@[simp] theorem Upd.poison_apply_strands (g : Nat) (b : Bool) : ((Upd.poison g b).apply s).strands = s.strands := rfl
@[simp] theorem Upd.poison_apply_pans (g : Nat) (b : Bool) : ((Upd.poison g b).apply s).pans = s.pans := rfl
@[simp] theorem Upd.poison_apply_bays (g : Nat) (b : Bool) : ((Upd.poison g b).apply s).bays = s.bays := rfl
@[simp] theorem Upd.poison_apply_dies (g : Nat) (b : Bool) : ((Upd.poison g b).apply s).dies = s.dies := rfl
@[simp] theorem Upd.poison_apply_chans (g : Nat) (b : Bool) : ((Upd.poison g b).apply s).chans = s.chans := rfl
@[simp] theorem Upd.poison_apply_regions (g : Nat) (b : Bool) : ((Upd.poison g b).apply s).regions = s.regions := rfl
@[simp] theorem Upd.poison_apply_rings (g : Nat) (b : Bool) : ((Upd.poison g b).apply s).rings = s.rings := rfl
@[simp] theorem Upd.poison_apply_counters (g : Nat) (b : Bool) : ((Upd.poison g b).apply s).counters = s.counters := rfl
@[simp] theorem Upd.poison_apply_streams (g : Nat) (b : Bool) : ((Upd.poison g b).apply s).streams = s.streams := rfl
@[simp] theorem Upd.poison_apply_queues (g : Nat) (b : Bool) : ((Upd.poison g b).apply s).queues = s.queues := rfl
@[simp] theorem Upd.poison_apply_contexts (g : Nat) (b : Bool) : ((Upd.poison g b).apply s).contexts = s.contexts := rfl
@[simp] theorem Upd.poison_apply_kernels (g : Nat) (b : Bool) : ((Upd.poison g b).apply s).kernels = s.kernels := rfl
@[simp] theorem Upd.poison_apply_blocks (g : Nat) (b : Bool) : ((Upd.poison g b).apply s).blocks = s.blocks := rfl
@[simp] theorem Upd.poison_apply_tasks (g : Nat) (b : Bool) : ((Upd.poison g b).apply s).tasks = s.tasks := rfl
@[simp] theorem Upd.poison_apply_links (g : Nat) (b : Bool) : ((Upd.poison g b).apply s).links = s.links := rfl
@[simp] theorem Upd.poison_apply_sched (g : Nat) (b : Bool) : ((Upd.poison g b).apply s).sched = s.sched := rfl
@[simp] theorem Upd.poison_apply_harbour (g : Nat) (b : Bool) : ((Upd.poison g b).apply s).harbour = s.harbour := rfl
@[simp] theorem Upd.poison_apply_fabric (g : Nat) (b : Bool) : ((Upd.poison g b).apply s).fabric = s.fabric := rfl
@[simp] theorem Upd.poison_apply_ckpt (g : Nat) (b : Bool) : ((Upd.poison g b).apply s).ckpt = s.ckpt := rfl
@[simp] theorem Upd.poison_apply_invs (g : Nat) (b : Bool) : ((Upd.poison g b).apply s).invs = s.invs := rfl
@[simp] theorem Upd.poison_apply_pwrlim (g : Nat) (b : Bool) : ((Upd.poison g b).apply s).pwrlim = s.pwrlim := rfl
@[simp] theorem Upd.poison_apply_gtime (g : Nat) (b : Bool) : ((Upd.poison g b).apply s).gtime = s.gtime := rfl
@[simp] theorem Upd.poison_apply_free (g : Nat) (b : Bool) : ((Upd.poison g b).apply s).free = s.free := rfl
@[simp] theorem Upd.poison_apply_nextId (g : Nat) (b : Bool) : ((Upd.poison g b).apply s).nextId = s.nextId := rfl
@[simp] theorem Upd.poison_apply_turns (g : Nat) (b : Bool) : ((Upd.poison g b).apply s).turns = s.turns := rfl
@[simp] theorem Upd.poison_apply_cur (g : Nat) (b : Bool) : ((Upd.poison g b).apply s).cur = s.cur := rfl
@[simp] theorem Upd.panPoison_apply_mem (g : Nat) (b : Bool) : ((Upd.panPoison g b).apply s).mem = s.mem := rfl
@[simp] theorem Upd.panPoison_apply_poison (g : Nat) (b : Bool) : ((Upd.panPoison g b).apply s).poison = s.poison := rfl
@[simp] theorem Upd.panPoison_apply_panMem (g : Nat) (b : Bool) : ((Upd.panPoison g b).apply s).panMem = s.panMem := rfl
@[simp] theorem Upd.panPoison_apply_strands (g : Nat) (b : Bool) : ((Upd.panPoison g b).apply s).strands = s.strands := rfl
@[simp] theorem Upd.panPoison_apply_pans (g : Nat) (b : Bool) : ((Upd.panPoison g b).apply s).pans = s.pans := rfl
@[simp] theorem Upd.panPoison_apply_bays (g : Nat) (b : Bool) : ((Upd.panPoison g b).apply s).bays = s.bays := rfl
@[simp] theorem Upd.panPoison_apply_dies (g : Nat) (b : Bool) : ((Upd.panPoison g b).apply s).dies = s.dies := rfl
@[simp] theorem Upd.panPoison_apply_chans (g : Nat) (b : Bool) : ((Upd.panPoison g b).apply s).chans = s.chans := rfl
@[simp] theorem Upd.panPoison_apply_regions (g : Nat) (b : Bool) : ((Upd.panPoison g b).apply s).regions = s.regions := rfl
@[simp] theorem Upd.panPoison_apply_rings (g : Nat) (b : Bool) : ((Upd.panPoison g b).apply s).rings = s.rings := rfl
@[simp] theorem Upd.panPoison_apply_counters (g : Nat) (b : Bool) : ((Upd.panPoison g b).apply s).counters = s.counters := rfl
@[simp] theorem Upd.panPoison_apply_streams (g : Nat) (b : Bool) : ((Upd.panPoison g b).apply s).streams = s.streams := rfl
@[simp] theorem Upd.panPoison_apply_queues (g : Nat) (b : Bool) : ((Upd.panPoison g b).apply s).queues = s.queues := rfl
@[simp] theorem Upd.panPoison_apply_contexts (g : Nat) (b : Bool) : ((Upd.panPoison g b).apply s).contexts = s.contexts := rfl
@[simp] theorem Upd.panPoison_apply_kernels (g : Nat) (b : Bool) : ((Upd.panPoison g b).apply s).kernels = s.kernels := rfl
@[simp] theorem Upd.panPoison_apply_blocks (g : Nat) (b : Bool) : ((Upd.panPoison g b).apply s).blocks = s.blocks := rfl
@[simp] theorem Upd.panPoison_apply_tasks (g : Nat) (b : Bool) : ((Upd.panPoison g b).apply s).tasks = s.tasks := rfl
@[simp] theorem Upd.panPoison_apply_links (g : Nat) (b : Bool) : ((Upd.panPoison g b).apply s).links = s.links := rfl
@[simp] theorem Upd.panPoison_apply_sched (g : Nat) (b : Bool) : ((Upd.panPoison g b).apply s).sched = s.sched := rfl
@[simp] theorem Upd.panPoison_apply_harbour (g : Nat) (b : Bool) : ((Upd.panPoison g b).apply s).harbour = s.harbour := rfl
@[simp] theorem Upd.panPoison_apply_fabric (g : Nat) (b : Bool) : ((Upd.panPoison g b).apply s).fabric = s.fabric := rfl
@[simp] theorem Upd.panPoison_apply_ckpt (g : Nat) (b : Bool) : ((Upd.panPoison g b).apply s).ckpt = s.ckpt := rfl
@[simp] theorem Upd.panPoison_apply_invs (g : Nat) (b : Bool) : ((Upd.panPoison g b).apply s).invs = s.invs := rfl
@[simp] theorem Upd.panPoison_apply_pwrlim (g : Nat) (b : Bool) : ((Upd.panPoison g b).apply s).pwrlim = s.pwrlim := rfl
@[simp] theorem Upd.panPoison_apply_gtime (g : Nat) (b : Bool) : ((Upd.panPoison g b).apply s).gtime = s.gtime := rfl
@[simp] theorem Upd.panPoison_apply_free (g : Nat) (b : Bool) : ((Upd.panPoison g b).apply s).free = s.free := rfl
@[simp] theorem Upd.panPoison_apply_nextId (g : Nat) (b : Bool) : ((Upd.panPoison g b).apply s).nextId = s.nextId := rfl
@[simp] theorem Upd.panPoison_apply_turns (g : Nat) (b : Bool) : ((Upd.panPoison g b).apply s).turns = s.turns := rfl
@[simp] theorem Upd.panPoison_apply_cur (g : Nat) (b : Bool) : ((Upd.panPoison g b).apply s).cur = s.cur := rfl
@[simp] theorem Upd.memByte_apply_poison (a : Nat) (v : Byte) : ((Upd.memByte a v).apply s).poison = s.poison := by simp only [Upd.apply]; split <;> rfl
@[simp] theorem Upd.memByte_apply_panMem (a : Nat) (v : Byte) : ((Upd.memByte a v).apply s).panMem = s.panMem := by simp only [Upd.apply]; split <;> rfl
@[simp] theorem Upd.memByte_apply_panPoison (a : Nat) (v : Byte) : ((Upd.memByte a v).apply s).panPoison = s.panPoison := by simp only [Upd.apply]; split <;> rfl
@[simp] theorem Upd.memByte_apply_strands (a : Nat) (v : Byte) : ((Upd.memByte a v).apply s).strands = s.strands := by simp only [Upd.apply]; split <;> rfl
@[simp] theorem Upd.memByte_apply_pans (a : Nat) (v : Byte) : ((Upd.memByte a v).apply s).pans = s.pans := by simp only [Upd.apply]; split <;> rfl
@[simp] theorem Upd.memByte_apply_bays (a : Nat) (v : Byte) : ((Upd.memByte a v).apply s).bays = s.bays := by simp only [Upd.apply]; split <;> rfl
@[simp] theorem Upd.memByte_apply_dies (a : Nat) (v : Byte) : ((Upd.memByte a v).apply s).dies = s.dies := by simp only [Upd.apply]; split <;> rfl
@[simp] theorem Upd.memByte_apply_chans (a : Nat) (v : Byte) : ((Upd.memByte a v).apply s).chans = s.chans := by simp only [Upd.apply]; split <;> rfl
@[simp] theorem Upd.memByte_apply_regions (a : Nat) (v : Byte) : ((Upd.memByte a v).apply s).regions = s.regions := by simp only [Upd.apply]; split <;> rfl
@[simp] theorem Upd.memByte_apply_rings (a : Nat) (v : Byte) : ((Upd.memByte a v).apply s).rings = s.rings := by simp only [Upd.apply]; split <;> rfl
@[simp] theorem Upd.memByte_apply_counters (a : Nat) (v : Byte) : ((Upd.memByte a v).apply s).counters = s.counters := by simp only [Upd.apply]; split <;> rfl
@[simp] theorem Upd.memByte_apply_streams (a : Nat) (v : Byte) : ((Upd.memByte a v).apply s).streams = s.streams := by simp only [Upd.apply]; split <;> rfl
@[simp] theorem Upd.memByte_apply_queues (a : Nat) (v : Byte) : ((Upd.memByte a v).apply s).queues = s.queues := by simp only [Upd.apply]; split <;> rfl
@[simp] theorem Upd.memByte_apply_contexts (a : Nat) (v : Byte) : ((Upd.memByte a v).apply s).contexts = s.contexts := by simp only [Upd.apply]; split <;> rfl
@[simp] theorem Upd.memByte_apply_kernels (a : Nat) (v : Byte) : ((Upd.memByte a v).apply s).kernels = s.kernels := by simp only [Upd.apply]; split <;> rfl
@[simp] theorem Upd.memByte_apply_blocks (a : Nat) (v : Byte) : ((Upd.memByte a v).apply s).blocks = s.blocks := by simp only [Upd.apply]; split <;> rfl
@[simp] theorem Upd.memByte_apply_tasks (a : Nat) (v : Byte) : ((Upd.memByte a v).apply s).tasks = s.tasks := by simp only [Upd.apply]; split <;> rfl
@[simp] theorem Upd.memByte_apply_links (a : Nat) (v : Byte) : ((Upd.memByte a v).apply s).links = s.links := by simp only [Upd.apply]; split <;> rfl
@[simp] theorem Upd.memByte_apply_sched (a : Nat) (v : Byte) : ((Upd.memByte a v).apply s).sched = s.sched := by simp only [Upd.apply]; split <;> rfl
@[simp] theorem Upd.memByte_apply_harbour (a : Nat) (v : Byte) : ((Upd.memByte a v).apply s).harbour = s.harbour := by simp only [Upd.apply]; split <;> rfl
@[simp] theorem Upd.memByte_apply_fabric (a : Nat) (v : Byte) : ((Upd.memByte a v).apply s).fabric = s.fabric := by simp only [Upd.apply]; split <;> rfl
@[simp] theorem Upd.memByte_apply_ckpt (a : Nat) (v : Byte) : ((Upd.memByte a v).apply s).ckpt = s.ckpt := by simp only [Upd.apply]; split <;> rfl
@[simp] theorem Upd.memByte_apply_invs (a : Nat) (v : Byte) : ((Upd.memByte a v).apply s).invs = s.invs := by simp only [Upd.apply]; split <;> rfl
@[simp] theorem Upd.memByte_apply_pwrlim (a : Nat) (v : Byte) : ((Upd.memByte a v).apply s).pwrlim = s.pwrlim := by simp only [Upd.apply]; split <;> rfl
@[simp] theorem Upd.memByte_apply_gtime (a : Nat) (v : Byte) : ((Upd.memByte a v).apply s).gtime = s.gtime := by simp only [Upd.apply]; split <;> rfl
@[simp] theorem Upd.memByte_apply_free (a : Nat) (v : Byte) : ((Upd.memByte a v).apply s).free = s.free := by simp only [Upd.apply]; split <;> rfl
@[simp] theorem Upd.memByte_apply_nextId (a : Nat) (v : Byte) : ((Upd.memByte a v).apply s).nextId = s.nextId := by simp only [Upd.apply]; split <;> rfl
@[simp] theorem Upd.memByte_apply_turns (a : Nat) (v : Byte) : ((Upd.memByte a v).apply s).turns = s.turns := by simp only [Upd.apply]; split <;> rfl
@[simp] theorem Upd.memByte_apply_cur (a : Nat) (v : Byte) : ((Upd.memByte a v).apply s).cur = s.cur := by simp only [Upd.apply]; split <;> rfl
theorem Upd.memByte_apply_get (a j : Nat) (v : Byte) (h : a < memLimit) : ((Upd.memByte a v).apply s).byte j = if j = a then v else s.byte j := by
  simp only [Upd.apply, if_pos h]
  show (Tbl.put 0 a v s.mem).get 0 j = _
  split
  · subst j; exact Tbl.get_put _ _ _ _
  · exact Tbl.get_put_other _ _ _ _ _ ‹_›
@[simp] theorem Upd.panByte_apply_mem (a : Nat) (v : Byte) : ((Upd.panByte a v).apply s).mem = s.mem := by simp only [Upd.apply]; split <;> rfl
@[simp] theorem Upd.panByte_apply_poison (a : Nat) (v : Byte) : ((Upd.panByte a v).apply s).poison = s.poison := by simp only [Upd.apply]; split <;> rfl
@[simp] theorem Upd.panByte_apply_panPoison (a : Nat) (v : Byte) : ((Upd.panByte a v).apply s).panPoison = s.panPoison := by simp only [Upd.apply]; split <;> rfl
@[simp] theorem Upd.panByte_apply_strands (a : Nat) (v : Byte) : ((Upd.panByte a v).apply s).strands = s.strands := by simp only [Upd.apply]; split <;> rfl
@[simp] theorem Upd.panByte_apply_pans (a : Nat) (v : Byte) : ((Upd.panByte a v).apply s).pans = s.pans := by simp only [Upd.apply]; split <;> rfl
@[simp] theorem Upd.panByte_apply_bays (a : Nat) (v : Byte) : ((Upd.panByte a v).apply s).bays = s.bays := by simp only [Upd.apply]; split <;> rfl
@[simp] theorem Upd.panByte_apply_dies (a : Nat) (v : Byte) : ((Upd.panByte a v).apply s).dies = s.dies := by simp only [Upd.apply]; split <;> rfl
@[simp] theorem Upd.panByte_apply_chans (a : Nat) (v : Byte) : ((Upd.panByte a v).apply s).chans = s.chans := by simp only [Upd.apply]; split <;> rfl
@[simp] theorem Upd.panByte_apply_regions (a : Nat) (v : Byte) : ((Upd.panByte a v).apply s).regions = s.regions := by simp only [Upd.apply]; split <;> rfl
@[simp] theorem Upd.panByte_apply_rings (a : Nat) (v : Byte) : ((Upd.panByte a v).apply s).rings = s.rings := by simp only [Upd.apply]; split <;> rfl
@[simp] theorem Upd.panByte_apply_counters (a : Nat) (v : Byte) : ((Upd.panByte a v).apply s).counters = s.counters := by simp only [Upd.apply]; split <;> rfl
@[simp] theorem Upd.panByte_apply_streams (a : Nat) (v : Byte) : ((Upd.panByte a v).apply s).streams = s.streams := by simp only [Upd.apply]; split <;> rfl
@[simp] theorem Upd.panByte_apply_queues (a : Nat) (v : Byte) : ((Upd.panByte a v).apply s).queues = s.queues := by simp only [Upd.apply]; split <;> rfl
@[simp] theorem Upd.panByte_apply_contexts (a : Nat) (v : Byte) : ((Upd.panByte a v).apply s).contexts = s.contexts := by simp only [Upd.apply]; split <;> rfl
@[simp] theorem Upd.panByte_apply_kernels (a : Nat) (v : Byte) : ((Upd.panByte a v).apply s).kernels = s.kernels := by simp only [Upd.apply]; split <;> rfl
@[simp] theorem Upd.panByte_apply_blocks (a : Nat) (v : Byte) : ((Upd.panByte a v).apply s).blocks = s.blocks := by simp only [Upd.apply]; split <;> rfl
@[simp] theorem Upd.panByte_apply_tasks (a : Nat) (v : Byte) : ((Upd.panByte a v).apply s).tasks = s.tasks := by simp only [Upd.apply]; split <;> rfl
@[simp] theorem Upd.panByte_apply_links (a : Nat) (v : Byte) : ((Upd.panByte a v).apply s).links = s.links := by simp only [Upd.apply]; split <;> rfl
@[simp] theorem Upd.panByte_apply_sched (a : Nat) (v : Byte) : ((Upd.panByte a v).apply s).sched = s.sched := by simp only [Upd.apply]; split <;> rfl
@[simp] theorem Upd.panByte_apply_harbour (a : Nat) (v : Byte) : ((Upd.panByte a v).apply s).harbour = s.harbour := by simp only [Upd.apply]; split <;> rfl
@[simp] theorem Upd.panByte_apply_fabric (a : Nat) (v : Byte) : ((Upd.panByte a v).apply s).fabric = s.fabric := by simp only [Upd.apply]; split <;> rfl
@[simp] theorem Upd.panByte_apply_ckpt (a : Nat) (v : Byte) : ((Upd.panByte a v).apply s).ckpt = s.ckpt := by simp only [Upd.apply]; split <;> rfl
@[simp] theorem Upd.panByte_apply_invs (a : Nat) (v : Byte) : ((Upd.panByte a v).apply s).invs = s.invs := by simp only [Upd.apply]; split <;> rfl
@[simp] theorem Upd.panByte_apply_pwrlim (a : Nat) (v : Byte) : ((Upd.panByte a v).apply s).pwrlim = s.pwrlim := by simp only [Upd.apply]; split <;> rfl
@[simp] theorem Upd.panByte_apply_gtime (a : Nat) (v : Byte) : ((Upd.panByte a v).apply s).gtime = s.gtime := by simp only [Upd.apply]; split <;> rfl
@[simp] theorem Upd.panByte_apply_free (a : Nat) (v : Byte) : ((Upd.panByte a v).apply s).free = s.free := by simp only [Upd.apply]; split <;> rfl
@[simp] theorem Upd.panByte_apply_nextId (a : Nat) (v : Byte) : ((Upd.panByte a v).apply s).nextId = s.nextId := by simp only [Upd.apply]; split <;> rfl
@[simp] theorem Upd.panByte_apply_turns (a : Nat) (v : Byte) : ((Upd.panByte a v).apply s).turns = s.turns := by simp only [Upd.apply]; split <;> rfl
@[simp] theorem Upd.panByte_apply_cur (a : Nat) (v : Byte) : ((Upd.panByte a v).apply s).cur = s.cur := by simp only [Upd.apply]; split <;> rfl
theorem Upd.panByte_apply_get (a j : Nat) (v : Byte) (h : panKeyOk a = true) : ((Upd.panByte a v).apply s).panByte j = if j = a then v else s.panByte j := by
  simp only [Upd.apply, if_pos h]
  show (Tbl.put 0 a v s.panMem).get 0 j = _
  split
  · subst j; exact Tbl.get_put _ _ _ _
  · exact Tbl.get_put_other _ _ _ _ _ ‹_›

/-! Ranges of storage. -/

@[simp] theorem Upd.memRange_apply_poison (base n : Nat) (cells : List Host.Cell) : ((Upd.memRange base n cells).apply s).poison = s.poison := rfl
@[simp] theorem Upd.memRange_apply_panMem (base n : Nat) (cells : List Host.Cell) : ((Upd.memRange base n cells).apply s).panMem = s.panMem := rfl
@[simp] theorem Upd.memRange_apply_panPoison (base n : Nat) (cells : List Host.Cell) : ((Upd.memRange base n cells).apply s).panPoison = s.panPoison := rfl
@[simp] theorem Upd.memRange_apply_strands (base n : Nat) (cells : List Host.Cell) : ((Upd.memRange base n cells).apply s).strands = s.strands := rfl
@[simp] theorem Upd.memRange_apply_pans (base n : Nat) (cells : List Host.Cell) : ((Upd.memRange base n cells).apply s).pans = s.pans := rfl
@[simp] theorem Upd.memRange_apply_bays (base n : Nat) (cells : List Host.Cell) : ((Upd.memRange base n cells).apply s).bays = s.bays := rfl
@[simp] theorem Upd.memRange_apply_dies (base n : Nat) (cells : List Host.Cell) : ((Upd.memRange base n cells).apply s).dies = s.dies := rfl
@[simp] theorem Upd.memRange_apply_chans (base n : Nat) (cells : List Host.Cell) : ((Upd.memRange base n cells).apply s).chans = s.chans := rfl
@[simp] theorem Upd.memRange_apply_regions (base n : Nat) (cells : List Host.Cell) : ((Upd.memRange base n cells).apply s).regions = s.regions := rfl
@[simp] theorem Upd.memRange_apply_rings (base n : Nat) (cells : List Host.Cell) : ((Upd.memRange base n cells).apply s).rings = s.rings := rfl
@[simp] theorem Upd.memRange_apply_counters (base n : Nat) (cells : List Host.Cell) : ((Upd.memRange base n cells).apply s).counters = s.counters := rfl
@[simp] theorem Upd.memRange_apply_streams (base n : Nat) (cells : List Host.Cell) : ((Upd.memRange base n cells).apply s).streams = s.streams := rfl
@[simp] theorem Upd.memRange_apply_queues (base n : Nat) (cells : List Host.Cell) : ((Upd.memRange base n cells).apply s).queues = s.queues := rfl
@[simp] theorem Upd.memRange_apply_contexts (base n : Nat) (cells : List Host.Cell) : ((Upd.memRange base n cells).apply s).contexts = s.contexts := rfl
@[simp] theorem Upd.memRange_apply_kernels (base n : Nat) (cells : List Host.Cell) : ((Upd.memRange base n cells).apply s).kernels = s.kernels := rfl
@[simp] theorem Upd.memRange_apply_blocks (base n : Nat) (cells : List Host.Cell) : ((Upd.memRange base n cells).apply s).blocks = s.blocks := rfl
@[simp] theorem Upd.memRange_apply_tasks (base n : Nat) (cells : List Host.Cell) : ((Upd.memRange base n cells).apply s).tasks = s.tasks := rfl
@[simp] theorem Upd.memRange_apply_links (base n : Nat) (cells : List Host.Cell) : ((Upd.memRange base n cells).apply s).links = s.links := rfl
@[simp] theorem Upd.memRange_apply_sched (base n : Nat) (cells : List Host.Cell) : ((Upd.memRange base n cells).apply s).sched = s.sched := rfl
@[simp] theorem Upd.memRange_apply_harbour (base n : Nat) (cells : List Host.Cell) : ((Upd.memRange base n cells).apply s).harbour = s.harbour := rfl
@[simp] theorem Upd.memRange_apply_fabric (base n : Nat) (cells : List Host.Cell) : ((Upd.memRange base n cells).apply s).fabric = s.fabric := rfl
@[simp] theorem Upd.memRange_apply_ckpt (base n : Nat) (cells : List Host.Cell) : ((Upd.memRange base n cells).apply s).ckpt = s.ckpt := rfl
@[simp] theorem Upd.memRange_apply_invs (base n : Nat) (cells : List Host.Cell) : ((Upd.memRange base n cells).apply s).invs = s.invs := rfl
@[simp] theorem Upd.memRange_apply_pwrlim (base n : Nat) (cells : List Host.Cell) : ((Upd.memRange base n cells).apply s).pwrlim = s.pwrlim := rfl
@[simp] theorem Upd.memRange_apply_gtime (base n : Nat) (cells : List Host.Cell) : ((Upd.memRange base n cells).apply s).gtime = s.gtime := rfl
@[simp] theorem Upd.memRange_apply_free (base n : Nat) (cells : List Host.Cell) : ((Upd.memRange base n cells).apply s).free = s.free := rfl
@[simp] theorem Upd.memRange_apply_nextId (base n : Nat) (cells : List Host.Cell) : ((Upd.memRange base n cells).apply s).nextId = s.nextId := rfl
@[simp] theorem Upd.memRange_apply_turns (base n : Nat) (cells : List Host.Cell) : ((Upd.memRange base n cells).apply s).turns = s.turns := rfl
@[simp] theorem Upd.memRange_apply_cur (base n : Nat) (cells : List Host.Cell) : ((Upd.memRange base n cells).apply s).cur = s.cur := rfl
@[simp] theorem Upd.restoreMem_apply_panMem (m : List Host.Cell) (p : NSet) : ((Upd.restoreMem m p).apply s).panMem = s.panMem := rfl
@[simp] theorem Upd.restoreMem_apply_panPoison (m : List Host.Cell) (p : NSet) : ((Upd.restoreMem m p).apply s).panPoison = s.panPoison := rfl
@[simp] theorem Upd.restoreMem_apply_strands (m : List Host.Cell) (p : NSet) : ((Upd.restoreMem m p).apply s).strands = s.strands := rfl
@[simp] theorem Upd.restoreMem_apply_pans (m : List Host.Cell) (p : NSet) : ((Upd.restoreMem m p).apply s).pans = s.pans := rfl
@[simp] theorem Upd.restoreMem_apply_bays (m : List Host.Cell) (p : NSet) : ((Upd.restoreMem m p).apply s).bays = s.bays := rfl
@[simp] theorem Upd.restoreMem_apply_dies (m : List Host.Cell) (p : NSet) : ((Upd.restoreMem m p).apply s).dies = s.dies := rfl
@[simp] theorem Upd.restoreMem_apply_chans (m : List Host.Cell) (p : NSet) : ((Upd.restoreMem m p).apply s).chans = s.chans := rfl
@[simp] theorem Upd.restoreMem_apply_regions (m : List Host.Cell) (p : NSet) : ((Upd.restoreMem m p).apply s).regions = s.regions := rfl
@[simp] theorem Upd.restoreMem_apply_rings (m : List Host.Cell) (p : NSet) : ((Upd.restoreMem m p).apply s).rings = s.rings := rfl
@[simp] theorem Upd.restoreMem_apply_counters (m : List Host.Cell) (p : NSet) : ((Upd.restoreMem m p).apply s).counters = s.counters := rfl
@[simp] theorem Upd.restoreMem_apply_streams (m : List Host.Cell) (p : NSet) : ((Upd.restoreMem m p).apply s).streams = s.streams := rfl
@[simp] theorem Upd.restoreMem_apply_queues (m : List Host.Cell) (p : NSet) : ((Upd.restoreMem m p).apply s).queues = s.queues := rfl
@[simp] theorem Upd.restoreMem_apply_contexts (m : List Host.Cell) (p : NSet) : ((Upd.restoreMem m p).apply s).contexts = s.contexts := rfl
@[simp] theorem Upd.restoreMem_apply_kernels (m : List Host.Cell) (p : NSet) : ((Upd.restoreMem m p).apply s).kernels = s.kernels := rfl
@[simp] theorem Upd.restoreMem_apply_blocks (m : List Host.Cell) (p : NSet) : ((Upd.restoreMem m p).apply s).blocks = s.blocks := rfl
@[simp] theorem Upd.restoreMem_apply_tasks (m : List Host.Cell) (p : NSet) : ((Upd.restoreMem m p).apply s).tasks = s.tasks := rfl
@[simp] theorem Upd.restoreMem_apply_links (m : List Host.Cell) (p : NSet) : ((Upd.restoreMem m p).apply s).links = s.links := rfl
@[simp] theorem Upd.restoreMem_apply_sched (m : List Host.Cell) (p : NSet) : ((Upd.restoreMem m p).apply s).sched = s.sched := rfl
@[simp] theorem Upd.restoreMem_apply_harbour (m : List Host.Cell) (p : NSet) : ((Upd.restoreMem m p).apply s).harbour = s.harbour := rfl
@[simp] theorem Upd.restoreMem_apply_fabric (m : List Host.Cell) (p : NSet) : ((Upd.restoreMem m p).apply s).fabric = s.fabric := rfl
@[simp] theorem Upd.restoreMem_apply_ckpt (m : List Host.Cell) (p : NSet) : ((Upd.restoreMem m p).apply s).ckpt = s.ckpt := rfl
@[simp] theorem Upd.restoreMem_apply_invs (m : List Host.Cell) (p : NSet) : ((Upd.restoreMem m p).apply s).invs = s.invs := rfl
@[simp] theorem Upd.restoreMem_apply_pwrlim (m : List Host.Cell) (p : NSet) : ((Upd.restoreMem m p).apply s).pwrlim = s.pwrlim := rfl
@[simp] theorem Upd.restoreMem_apply_gtime (m : List Host.Cell) (p : NSet) : ((Upd.restoreMem m p).apply s).gtime = s.gtime := rfl
@[simp] theorem Upd.restoreMem_apply_free (m : List Host.Cell) (p : NSet) : ((Upd.restoreMem m p).apply s).free = s.free := rfl
@[simp] theorem Upd.restoreMem_apply_nextId (m : List Host.Cell) (p : NSet) : ((Upd.restoreMem m p).apply s).nextId = s.nextId := rfl
@[simp] theorem Upd.restoreMem_apply_turns (m : List Host.Cell) (p : NSet) : ((Upd.restoreMem m p).apply s).turns = s.turns := rfl
@[simp] theorem Upd.restoreMem_apply_cur (m : List Host.Cell) (p : NSet) : ((Upd.restoreMem m p).apply s).cur = s.cur := rfl
@[simp] theorem Upd.panZero_apply_mem (key n : Nat) : ((Upd.panZero key n).apply s).mem = s.mem := rfl
@[simp] theorem Upd.panZero_apply_poison (key n : Nat) : ((Upd.panZero key n).apply s).poison = s.poison := rfl
@[simp] theorem Upd.panZero_apply_strands (key n : Nat) : ((Upd.panZero key n).apply s).strands = s.strands := rfl
@[simp] theorem Upd.panZero_apply_pans (key n : Nat) : ((Upd.panZero key n).apply s).pans = s.pans := rfl
@[simp] theorem Upd.panZero_apply_bays (key n : Nat) : ((Upd.panZero key n).apply s).bays = s.bays := rfl
@[simp] theorem Upd.panZero_apply_dies (key n : Nat) : ((Upd.panZero key n).apply s).dies = s.dies := rfl
@[simp] theorem Upd.panZero_apply_chans (key n : Nat) : ((Upd.panZero key n).apply s).chans = s.chans := rfl
@[simp] theorem Upd.panZero_apply_regions (key n : Nat) : ((Upd.panZero key n).apply s).regions = s.regions := rfl
@[simp] theorem Upd.panZero_apply_rings (key n : Nat) : ((Upd.panZero key n).apply s).rings = s.rings := rfl
@[simp] theorem Upd.panZero_apply_counters (key n : Nat) : ((Upd.panZero key n).apply s).counters = s.counters := rfl
@[simp] theorem Upd.panZero_apply_streams (key n : Nat) : ((Upd.panZero key n).apply s).streams = s.streams := rfl
@[simp] theorem Upd.panZero_apply_queues (key n : Nat) : ((Upd.panZero key n).apply s).queues = s.queues := rfl
@[simp] theorem Upd.panZero_apply_contexts (key n : Nat) : ((Upd.panZero key n).apply s).contexts = s.contexts := rfl
@[simp] theorem Upd.panZero_apply_kernels (key n : Nat) : ((Upd.panZero key n).apply s).kernels = s.kernels := rfl
@[simp] theorem Upd.panZero_apply_blocks (key n : Nat) : ((Upd.panZero key n).apply s).blocks = s.blocks := rfl
@[simp] theorem Upd.panZero_apply_tasks (key n : Nat) : ((Upd.panZero key n).apply s).tasks = s.tasks := rfl
@[simp] theorem Upd.panZero_apply_links (key n : Nat) : ((Upd.panZero key n).apply s).links = s.links := rfl
@[simp] theorem Upd.panZero_apply_sched (key n : Nat) : ((Upd.panZero key n).apply s).sched = s.sched := rfl
@[simp] theorem Upd.panZero_apply_harbour (key n : Nat) : ((Upd.panZero key n).apply s).harbour = s.harbour := rfl
@[simp] theorem Upd.panZero_apply_fabric (key n : Nat) : ((Upd.panZero key n).apply s).fabric = s.fabric := rfl
@[simp] theorem Upd.panZero_apply_ckpt (key n : Nat) : ((Upd.panZero key n).apply s).ckpt = s.ckpt := rfl
@[simp] theorem Upd.panZero_apply_invs (key n : Nat) : ((Upd.panZero key n).apply s).invs = s.invs := rfl
@[simp] theorem Upd.panZero_apply_pwrlim (key n : Nat) : ((Upd.panZero key n).apply s).pwrlim = s.pwrlim := rfl
@[simp] theorem Upd.panZero_apply_gtime (key n : Nat) : ((Upd.panZero key n).apply s).gtime = s.gtime := rfl
@[simp] theorem Upd.panZero_apply_free (key n : Nat) : ((Upd.panZero key n).apply s).free = s.free := rfl
@[simp] theorem Upd.panZero_apply_nextId (key n : Nat) : ((Upd.panZero key n).apply s).nextId = s.nextId := rfl
@[simp] theorem Upd.panZero_apply_turns (key n : Nat) : ((Upd.panZero key n).apply s).turns = s.turns := rfl
@[simp] theorem Upd.panZero_apply_cur (key n : Nat) : ((Upd.panZero key n).apply s).cur = s.cur := rfl

/-! The executing strand replaced. -/

@[simp] theorem State.withHere_mem (st : Strand) : (s.withHere st).mem = s.mem := rfl
@[simp] theorem State.withHere_poison (st : Strand) : (s.withHere st).poison = s.poison := rfl
@[simp] theorem State.withHere_panMem (st : Strand) : (s.withHere st).panMem = s.panMem := rfl
@[simp] theorem State.withHere_panPoison (st : Strand) : (s.withHere st).panPoison = s.panPoison := rfl
@[simp] theorem State.withHere_pans (st : Strand) : (s.withHere st).pans = s.pans := rfl
@[simp] theorem State.withHere_bays (st : Strand) : (s.withHere st).bays = s.bays := rfl
@[simp] theorem State.withHere_dies (st : Strand) : (s.withHere st).dies = s.dies := rfl
@[simp] theorem State.withHere_chans (st : Strand) : (s.withHere st).chans = s.chans := rfl
@[simp] theorem State.withHere_regions (st : Strand) : (s.withHere st).regions = s.regions := rfl
@[simp] theorem State.withHere_rings (st : Strand) : (s.withHere st).rings = s.rings := rfl
@[simp] theorem State.withHere_counters (st : Strand) : (s.withHere st).counters = s.counters := rfl
@[simp] theorem State.withHere_streams (st : Strand) : (s.withHere st).streams = s.streams := rfl
@[simp] theorem State.withHere_queues (st : Strand) : (s.withHere st).queues = s.queues := rfl
@[simp] theorem State.withHere_contexts (st : Strand) : (s.withHere st).contexts = s.contexts := rfl
@[simp] theorem State.withHere_kernels (st : Strand) : (s.withHere st).kernels = s.kernels := rfl
@[simp] theorem State.withHere_blocks (st : Strand) : (s.withHere st).blocks = s.blocks := rfl
@[simp] theorem State.withHere_tasks (st : Strand) : (s.withHere st).tasks = s.tasks := rfl
@[simp] theorem State.withHere_links (st : Strand) : (s.withHere st).links = s.links := rfl
@[simp] theorem State.withHere_sched (st : Strand) : (s.withHere st).sched = s.sched := rfl
@[simp] theorem State.withHere_harbour (st : Strand) : (s.withHere st).harbour = s.harbour := rfl
@[simp] theorem State.withHere_fabric (st : Strand) : (s.withHere st).fabric = s.fabric := rfl
@[simp] theorem State.withHere_ckpt (st : Strand) : (s.withHere st).ckpt = s.ckpt := rfl
@[simp] theorem State.withHere_invs (st : Strand) : (s.withHere st).invs = s.invs := rfl
@[simp] theorem State.withHere_pwrlim (st : Strand) : (s.withHere st).pwrlim = s.pwrlim := rfl
@[simp] theorem State.withHere_gtime (st : Strand) : (s.withHere st).gtime = s.gtime := rfl
@[simp] theorem State.withHere_free (st : Strand) : (s.withHere st).free = s.free := rfl
@[simp] theorem State.withHere_nextId (st : Strand) : (s.withHere st).nextId = s.nextId := rfl
@[simp] theorem State.withHere_turns (st : Strand) : (s.withHere st).turns = s.turns := rfl
@[simp] theorem State.withHere_cur (st : Strand) : (s.withHere st).cur = s.cur := rfl
@[simp] theorem State.withHere_here (st : Strand) : (s.withHere st).here = st := Tbl.get_put _ _ _ _
@[simp] theorem State.withHere_strand (st : Strand) (k : Nat) : (s.withHere st).strand k = if k = s.cur then st else s.strand k := Upd.strand_apply_get s s.cur k st

/-! A slot replaced. -/

@[simp] theorem State.putSlot_mem (r i : Nat) (y : Slot) : (s.putSlot r i y).mem = s.mem := rfl
@[simp] theorem State.putSlot_poison (r i : Nat) (y : Slot) : (s.putSlot r i y).poison = s.poison := rfl
@[simp] theorem State.putSlot_panMem (r i : Nat) (y : Slot) : (s.putSlot r i y).panMem = s.panMem := rfl
@[simp] theorem State.putSlot_panPoison (r i : Nat) (y : Slot) : (s.putSlot r i y).panPoison = s.panPoison := rfl
@[simp] theorem State.putSlot_strands (r i : Nat) (y : Slot) : (s.putSlot r i y).strands = s.strands := rfl
@[simp] theorem State.putSlot_pans (r i : Nat) (y : Slot) : (s.putSlot r i y).pans = s.pans := rfl
@[simp] theorem State.putSlot_bays (r i : Nat) (y : Slot) : (s.putSlot r i y).bays = s.bays := rfl
@[simp] theorem State.putSlot_dies (r i : Nat) (y : Slot) : (s.putSlot r i y).dies = s.dies := rfl
@[simp] theorem State.putSlot_chans (r i : Nat) (y : Slot) : (s.putSlot r i y).chans = s.chans := rfl
@[simp] theorem State.putSlot_rings (r i : Nat) (y : Slot) : (s.putSlot r i y).rings = s.rings := rfl
@[simp] theorem State.putSlot_counters (r i : Nat) (y : Slot) : (s.putSlot r i y).counters = s.counters := rfl
@[simp] theorem State.putSlot_streams (r i : Nat) (y : Slot) : (s.putSlot r i y).streams = s.streams := rfl
@[simp] theorem State.putSlot_queues (r i : Nat) (y : Slot) : (s.putSlot r i y).queues = s.queues := rfl
@[simp] theorem State.putSlot_contexts (r i : Nat) (y : Slot) : (s.putSlot r i y).contexts = s.contexts := rfl
@[simp] theorem State.putSlot_kernels (r i : Nat) (y : Slot) : (s.putSlot r i y).kernels = s.kernels := rfl
@[simp] theorem State.putSlot_blocks (r i : Nat) (y : Slot) : (s.putSlot r i y).blocks = s.blocks := rfl
@[simp] theorem State.putSlot_tasks (r i : Nat) (y : Slot) : (s.putSlot r i y).tasks = s.tasks := rfl
@[simp] theorem State.putSlot_links (r i : Nat) (y : Slot) : (s.putSlot r i y).links = s.links := rfl
@[simp] theorem State.putSlot_sched (r i : Nat) (y : Slot) : (s.putSlot r i y).sched = s.sched := rfl
@[simp] theorem State.putSlot_harbour (r i : Nat) (y : Slot) : (s.putSlot r i y).harbour = s.harbour := rfl
@[simp] theorem State.putSlot_fabric (r i : Nat) (y : Slot) : (s.putSlot r i y).fabric = s.fabric := rfl
@[simp] theorem State.putSlot_ckpt (r i : Nat) (y : Slot) : (s.putSlot r i y).ckpt = s.ckpt := rfl
@[simp] theorem State.putSlot_invs (r i : Nat) (y : Slot) : (s.putSlot r i y).invs = s.invs := rfl
@[simp] theorem State.putSlot_pwrlim (r i : Nat) (y : Slot) : (s.putSlot r i y).pwrlim = s.pwrlim := rfl
@[simp] theorem State.putSlot_gtime (r i : Nat) (y : Slot) : (s.putSlot r i y).gtime = s.gtime := rfl
@[simp] theorem State.putSlot_free (r i : Nat) (y : Slot) : (s.putSlot r i y).free = s.free := rfl
@[simp] theorem State.putSlot_nextId (r i : Nat) (y : Slot) : (s.putSlot r i y).nextId = s.nextId := rfl
@[simp] theorem State.putSlot_turns (r i : Nat) (y : Slot) : (s.putSlot r i y).turns = s.turns := rfl
@[simp] theorem State.putSlot_cur (r i : Nat) (y : Slot) : (s.putSlot r i y).cur = s.cur := rfl
@[simp] theorem State.putSlot_region (r i q : Nat) (y : Slot) : (s.putSlot r i y).region q = if q = r then (s.region r).map fun x => { x with slots := Tbl.put {} i y x.slots } else s.region q :=
  Upd.region_apply_get s r q _

/-! Registers of a strand. -/

@[simp] theorem Strand.setG_zero (st : Strand) (v : Word) : st.setG 0 v = st := rfl
@[simp] theorem Strand.setG_st (st : Strand) (d : BitVec 5) (v : Word) : (st.setG d v).st = st.st := by unfold Strand.setG; split <;> rfl
@[simp] theorem Strand.setG_resumeTo (st : Strand) (d : BitVec 5) (v : Word) : (st.setG d v).resumeTo = st.resumeTo := by unfold Strand.setG; split <;> rfl
@[simp] theorem Strand.setG_wait (st : Strand) (d : BitVec 5) (v : Word) : (st.setG d v).wait = st.wait := by unfold Strand.setG; split <;> rfl
@[simp] theorem Strand.setG_pc (st : Strand) (d : BitVec 5) (v : Word) : (st.setG d v).pc = st.pc := by unfold Strand.setG; split <;> rfl
@[simp] theorem Strand.setG_sup (st : Strand) (d : BitVec 5) (v : Word) : (st.setG d v).sup = st.sup := by unfold Strand.setG; split <;> rfl
@[simp] theorem Strand.setG_v (st : Strand) (d : BitVec 5) (v : Word) : (st.setG d v).v = st.v := by unfold Strand.setG; split <;> rfl
@[simp] theorem Strand.setG_m (st : Strand) (d : BitVec 5) (v : Word) : (st.setG d v).m = st.m := by unfold Strand.setG; split <;> rfl
@[simp] theorem Strand.setG_mdirty (st : Strand) (d : BitVec 5) (v : Word) : (st.setG d v).mdirty = st.mdirty := by unfold Strand.setG; split <;> rfl
@[simp] theorem Strand.setG_q (st : Strand) (d : BitVec 5) (v : Word) : (st.setG d v).q = st.q := by unfold Strand.setG; split <;> rfl
@[simp] theorem Strand.setG_vcfg (st : Strand) (d : BitVec 5) (v : Word) : (st.setG d v).vcfg = st.vcfg := by unfold Strand.setG; split <;> rfl
@[simp] theorem Strand.setG_acr (st : Strand) (d : BitVec 5) (v : Word) : (st.setG d v).acr = st.acr := by unfold Strand.setG; split <;> rfl
@[simp] theorem Strand.setG_fsr (st : Strand) (d : BitVec 5) (v : Word) : (st.setG d v).fsr = st.fsr := by unfold Strand.setG; split <;> rfl
@[simp] theorem Strand.setG_fidx (st : Strand) (d : BitVec 5) (v : Word) : (st.setG d v).fidx = st.fidx := by unfold Strand.setG; split <;> rfl
@[simp] theorem Strand.setG_weight (st : Strand) (d : BitVec 5) (v : Word) : (st.setG d v).weight = st.weight := by unfold Strand.setG; split <;> rfl
@[simp] theorem Strand.setG_tvec (st : Strand) (d : BitVec 5) (v : Word) : (st.setG d v).tvec = st.tvec := by unfold Strand.setG; split <;> rfl
@[simp] theorem Strand.setG_tcause (st : Strand) (d : BitVec 5) (v : Word) : (st.setG d v).tcause = st.tcause := by unfold Strand.setG; split <;> rfl
@[simp] theorem Strand.setG_tval (st : Strand) (d : BitVec 5) (v : Word) : (st.setG d v).tval = st.tval := by unfold Strand.setG; split <;> rfl
@[simp] theorem Strand.setG_tpc (st : Strand) (d : BitVec 5) (v : Word) : (st.setG d v).tpc = st.tpc := by unfold Strand.setG; split <;> rfl
@[simp] theorem Strand.setG_tstatus (st : Strand) (d : BitVec 5) (v : Word) : (st.setG d v).tstatus = st.tstatus := by unfold Strand.setG; split <;> rfl
@[simp] theorem Strand.setG_tsummary (st : Strand) (d : BitVec 5) (v : Word) : (st.setG d v).tsummary = st.tsummary := by unfold Strand.setG; split <;> rfl
@[simp] theorem Strand.setG_kill (st : Strand) (d : BitVec 5) (v : Word) : (st.setG d v).kill = st.kill := by unfold Strand.setG; split <;> rfl
@[simp] theorem Strand.setG_blockid (st : Strand) (d : BitVec 5) (v : Word) : (st.setG d v).blockid = st.blockid := by unfold Strand.setG; split <;> rfl
@[simp] theorem Strand.setG_blockcount (st : Strand) (d : BitVec 5) (v : Word) : (st.setG d v).blockcount = st.blockcount := by unfold Strand.setG; split <;> rfl
@[simp] theorem Strand.setG_ctx (st : Strand) (d : BitVec 5) (v : Word) : (st.setG d v).ctx = st.ctx := by unfold Strand.setG; split <;> rfl
@[simp] theorem Strand.setG_latch (st : Strand) (d : BitVec 5) (v : Word) : (st.setG d v).latch = st.latch := by unfold Strand.setG; split <;> rfl
@[simp] theorem Strand.setG_monitor (st : Strand) (d : BitVec 5) (v : Word) : (st.setG d v).monitor = st.monitor := by unfold Strand.setG; split <;> rfl
@[simp] theorem Strand.setG_vq (st : Strand) (d : BitVec 5) (v : Word) : (st.setG d v).vq = st.vq := by unfold Strand.setG; split <;> rfl
@[simp] theorem Strand.setG_loop (st : Strand) (d : BitVec 5) (v : Word) : (st.setG d v).loop = st.loop := by unfold Strand.setG; split <;> rfl
@[simp] theorem Strand.setG_vlda (st : Strand) (d : BitVec 5) (v : Word) : (st.setG d v).vlda = st.vlda := by unfold Strand.setG; split <;> rfl
@[simp] theorem Strand.setG_ntf (st : Strand) (d : BitVec 5) (v : Word) : (st.setG d v).ntf = st.ntf := by unfold Strand.setG; split <;> rfl
@[simp] theorem Strand.setG_watch (st : Strand) (d : BitVec 5) (v : Word) : (st.setG d v).watch = st.watch := by unfold Strand.setG; split <;> rfl
@[simp] theorem Strand.setG_posted (st : Strand) (d : BitVec 5) (v : Word) : (st.setG d v).posted = st.posted := by unfold Strand.setG; split <;> rfl
@[simp] theorem Strand.setG_copies (st : Strand) (d : BitVec 5) (v : Word) : (st.setG d v).copies = st.copies := by unfold Strand.setG; split <;> rfl
@[simp] theorem Strand.setG_replies (st : Strand) (d : BitVec 5) (v : Word) : (st.setG d v).replies = st.replies := by unfold Strand.setG; split <;> rfl
@[simp] theorem Strand.setG_held (st : Strand) (d : BitVec 5) (v : Word) : (st.setG d v).held = st.held := by unfold Strand.setG; split <;> rfl
@[simp] theorem Strand.setG_amo (st : Strand) (d : BitVec 5) (v : Word) : (st.setG d v).amo = st.amo := by unfold Strand.setG; split <;> rfl
@[simp] theorem Strand.setG_spawn (st : Strand) (d : BitVec 5) (v : Word) : (st.setG d v).spawn = st.spawn := by unfold Strand.setG; split <;> rfl
@[simp] theorem Strand.setG_relAt (st : Strand) (d : BitVec 5) (v : Word) : (st.setG d v).relAt = st.relAt := by unfold Strand.setG; split <;> rfl
@[simp] theorem Strand.setG_saved (st : Strand) (d : BitVec 5) (v : Word) : (st.setG d v).saved = st.saved := by unfold Strand.setG; split <;> rfl
@[simp] theorem Strand.setG_block (st : Strand) (d : BitVec 5) (v : Word) : (st.setG d v).block = st.block := by unfold Strand.setG; split <;> rfl

end Sys2Proof.Machine
end

