-- ==== Sys2Proof/Laws/Vector.lean ====
section
/-! SUPPORT. Vector registers: what a read finds after a write of elements, and the executing strand after a sequence of its own updates. -/

namespace Sys2Proof.Machine

theorem here_withHere (s : State) (st : Strand) (h : Tbl.wf {} s.strands = true) : (s.withHere st).here = st :=
  Tbl.get_put_same _ _ _ _ 0 h

theorem withHere_wf (s : State) (st : Strand) (h : Tbl.wf {} s.strands = true) : Tbl.wf {} (s.withHere st).strands = true :=
  Tbl.put_wf _ _ _ _ h

section
variable {α : Type} [DecidableEq α]

/-- A second write of an entry is all that counts. -/
theorem Tbl.put_put (d : α) (k : Nat) (u v : α) (t : Tbl α) (lo : Nat) (_ : t.wfFrom d lo = true) : (t.put d k u).put d k v = t.put d k v := Tbl.put_again d k u v t

end

theorem withHere_withHere (s : State) (a b : Strand) (h : Tbl.wf {} s.strands = true) : (s.withHere a).withHere b = s.withHere b := by
  show { s with strands := Tbl.put {} s.cur b (Tbl.put {} s.cur a s.strands) } = _
  rw [Tbl.put_put _ _ _ _ _ 0 h]
  rfl


/-! Bytes of a register image. -/

theorem imgSet_toNat (img : BitVec 16384) (off n v : Nat) (h : off + n ≤ 2048) :
    (imgSet img off n v).toNat =
      img.toNat / (2 ^ (8 * off) * 2 ^ (8 * n)) * (2 ^ (8 * off) * 2 ^ (8 * n)) + v % 2 ^ (8 * n) * 2 ^ (8 * off) + img.toNat % 2 ^ (8 * off) := by
  have hA : 0 < 2 ^ (8 * off) := Nat.two_pow_pos _
  have hB : 0 < 2 ^ (8 * n) := Nat.two_pow_pos _
  have hX := img.isLt
  simp only [imgSet, imgGet, BitVec.toNat_ofNat]
  generalize img.toNat = X at *
  have hC : ∃ c, 2 ^ 16384 = c * (2 ^ (8 * off) * 2 ^ (8 * n)) := by
    refine ⟨2 ^ (16384 - 8 * off - 8 * n), ?_⟩
    rw [← Nat.pow_add, ← Nat.pow_add]
    congr 1
    omega
  obtain ⟨c, hc⟩ := hC
  rw [hc] at hX ⊢
  generalize 2 ^ (8 * off) = A at *
  generalize 2 ^ (8 * n) = B at *
  have h1 : X = X / (A * B) * (A * B) + X / A % B * A + X % A := by
    have e1 := Nat.div_add_mod X A
    have e2 := Nat.div_add_mod (X / A) B
    rw [Nat.div_div_eq_div_mul] at e2
    have e3 : A * (X / A) = A * (B * (X / (A * B)) + X / A % B) := by rw [e2]
    rw [Nat.mul_add] at e3
    have e4 : A * (B * (X / (A * B))) = X / (A * B) * (A * B) := by rw [← Nat.mul_assoc, Nat.mul_comm]
    have e5 : A * (X / A % B) = X / A % B * A := Nat.mul_comm _ _
    omega
  have h2 : X - X / A % B * A + v % B * A = X / (A * B) * (A * B) + v % B * A + X % A := by omega
  rw [h2]
  refine Nat.mod_eq_of_lt ?_
  have h3 : X / (A * B) < c := (Nat.div_lt_iff_lt_mul (Nat.mul_pos hA hB)).mpr hX
  have h4 : v % B * A + A ≤ B * A := by
    have : v % B + 1 ≤ B := Nat.mod_lt _ hB
    calc v % B * A + A = (v % B + 1) * A := by rw [Nat.add_mul, Nat.one_mul]
      _ ≤ B * A := Nat.mul_le_mul_right A this
  have h5 : X % A < A := Nat.mod_lt _ hA
  have h6 : (X / (A * B) + 1) * (A * B) ≤ c * (A * B) := Nat.mul_le_mul_right _ h3
  rw [Nat.add_mul, Nat.one_mul] at h6
  have h7 : A * B = B * A := Nat.mul_comm _ _
  omega

/-- The bytes just written. -/
theorem imgGet_imgSet (img : BitVec 16384) (off n v : Nat) (h : off + n ≤ 2048) : imgGet (imgSet img off n v) off n = v % 2 ^ (8 * n) := by
  have hA : 0 < 2 ^ (8 * off) := Nat.two_pow_pos _
  have hB : 0 < 2 ^ (8 * n) := Nat.two_pow_pos _
  rw [imgGet, imgSet_toNat img off n v h]
  generalize img.toNat = X at *
  generalize 2 ^ (8 * off) = A at *
  generalize 2 ^ (8 * n) = B at *
  have h5 : X % A < A := Nat.mod_lt _ hA
  have e : X / (A * B) * (A * B) + v % B * A + X % A = X % A + A * (X / (A * B) * B + v % B) := by
    rw [Nat.mul_add, Nat.mul_comm A (v % B)]
    have : X / (A * B) * (A * B) = A * (X / (A * B) * B) := by rw [Nat.mul_left_comm]
    omega
  rw [e, Nat.add_mul_div_left _ _ hA, Nat.div_eq_of_lt h5, Nat.zero_add, Nat.add_comm, Nat.add_mul_mod_self_right, Nat.mod_mod]

/-- A byte outside the bytes written. -/
theorem imgGet_imgSet_other (img : BitVec 16384) (off n v b : Nat) (h : off + n ≤ 2048) (hb : b < off ∨ off + n ≤ b) :
    imgGet (imgSet img off n v) b 1 = imgGet img b 1 := by
  have hA : 0 < 2 ^ (8 * off) := Nat.two_pow_pos _
  have hB : 0 < 2 ^ (8 * n) := Nat.two_pow_pos _
  rw [imgGet, imgGet, imgSet_toNat img off n v h]
  generalize img.toNat = X at *
  rcases hb with hb | hb
  · obtain ⟨e, he⟩ : ∃ e, off = b + 1 + e := ⟨off - (b + 1), by omega⟩
    have hs : 2 ^ (8 * off) = 2 ^ (8 * b) * (2 ^ (8 * 1) * 2 ^ (8 * e)) := by
      rw [← Nat.pow_add, ← Nat.pow_add]; congr 1; omega
    have hD : 0 < 2 ^ (8 * b) := Nat.two_pow_pos _
    rw [hs] at hA ⊢
    generalize 2 ^ (8 * n) = B at *
    generalize 2 ^ (8 * b) = D at *
    generalize 2 ^ (8 * 1) = C at *
    generalize 2 ^ (8 * e) = E at *
    have key : ∀ q, (D * (C * E) * q + X % (D * (C * E))) / D % C = X / D % C := by
      intro q
      have e1 : D * (C * E) * q + X % (D * (C * E)) = X % (D * (C * E)) + D * (C * E * q) := by rw [Nat.mul_assoc, Nat.add_comm]
      rw [e1, Nat.add_mul_div_left _ _ hD, Nat.mul_assoc C E q, Nat.add_mul_mod_self_left]
      have e2 := Nat.div_add_mod X (D * (C * E))
      have e3 : X / D = X % (D * (C * E)) / D + C * (E * (X / (D * (C * E)))) := by
        have : X = X % (D * (C * E)) + D * (C * E * (X / (D * (C * E)))) := by
          rw [Nat.mul_assoc D (C * E)] at e2
          omega
        conv => lhs; rw [this]
        rw [Nat.add_mul_div_left _ _ hD, Nat.mul_assoc C E]
      rw [e3, Nat.add_mul_mod_self_left]
    have e4 : X / (D * (C * E) * B) * (D * (C * E) * B) + v % B * (D * (C * E)) + X % (D * (C * E)) =
        D * (C * E) * (X / (D * (C * E) * B) * B + v % B) + X % (D * (C * E)) := by
      rw [Nat.mul_add, Nat.mul_comm (v % B), Nat.mul_left_comm (X / _) (D * (C * E)) B]
    rw [e4]
    exact key _
  · obtain ⟨e, he⟩ : ∃ e, b = off + n + e := ⟨b - (off + n), by omega⟩
    have hs : 2 ^ (8 * b) = 2 ^ (8 * off) * 2 ^ (8 * n) * 2 ^ (8 * e) := by
      rw [← Nat.pow_add, ← Nat.pow_add]; congr 1; omega
    rw [hs]
    generalize 2 ^ (8 * 1) = C at *
    generalize 2 ^ (8 * e) = E at *
    generalize 2 ^ (8 * off) = A at *
    generalize 2 ^ (8 * n) = B at *
    rw [← Nat.div_div_eq_div_mul _ (A * B) E, ← Nat.div_div_eq_div_mul X (A * B) E]
    congr 2
    have h5 : X % A < A := Nat.mod_lt _ hA
    have h4 : v % B * A + A ≤ B * A := by
      have : v % B + 1 ≤ B := Nat.mod_lt _ hB
      calc v % B * A + A = (v % B + 1) * A := by rw [Nat.add_mul, Nat.one_mul]
        _ ≤ B * A := Nat.mul_le_mul_right A this
    have h7 : A * B = B * A := Nat.mul_comm _ _
    have e : X / (A * B) * (A * B) + v % B * A + X % A = (v % B * A + X % A) + A * B * (X / (A * B)) := by
      rw [Nat.mul_comm (A * B)]; omega
    rw [e, Nat.add_mul_div_left _ _ (Nat.mul_pos hA hB), Nat.div_eq_of_lt (by omega), Nat.zero_add]


theorem imgGet_succ (img : BitVec 16384) (off n : Nat) : imgGet img off (n + 1) = imgGet img off 1 + 256 * imgGet img (off + 1) n := by
  simp only [imgGet]
  generalize img.toNat = X
  have h1 : 2 ^ (8 * (off + 1)) = 2 ^ (8 * off) * 256 := by rw [Nat.mul_add, Nat.pow_add]
  have h2 : 2 ^ (8 * (n + 1)) = 256 * 2 ^ (8 * n) := by rw [Nat.mul_add, Nat.pow_add, Nat.mul_comm]
  have h3 : 2 ^ (8 * 1) = 256 := rfl
  rw [h1, h2, h3, ← Nat.div_div_eq_div_mul, Nat.mod_mul]

/-- Values made of the same bytes are the same. -/
theorem imgGet_congr (a b : BitVec 16384) (n : Nat) : ∀ off, (∀ j < n, imgGet a (off + j) 1 = imgGet b (off + j) 1) → imgGet a off n = imgGet b off n := by
  induction n with
  | zero => intro off _; simp only [imgGet, Nat.mul_zero, Nat.pow_zero, Nat.mod_one]
  | succ n ih =>
    intro off h
    rw [imgGet_succ, imgGet_succ b, ih (off + 1) fun j hj => by
      have := h (j + 1) (by omega)
      rwa [show off + (j + 1) = off + 1 + j by omega] at this]
    have := h 0 (by omega)
    rw [Nat.add_zero] at this
    rw [this]

theorem Tbl.get_put_ne {α : Type} [DecidableEq α] (d : α) (k : Nat) (v : α) (t : Tbl α) (_ : v ≠ d) : (t.put d k v).get d k = v := Tbl.get_put d k v t

theorem VReg.write_ne (v : VReg) (off n x : Nat) : v.write off n x ≠ {} := by
  intro h
  have := congrArg VReg.dirty h
  simp [VReg.write] at this

theorem setVelem_vreg (st : Strand) (vlen r w i x q : Nat) :
    (st.setVelem vlen r w i x).vreg q =
      if q = (r + i * w / vlen) % 32 then (st.vreg q).write (i * w % vlen) w x else st.vreg q := by
  unfold Strand.setVelem Strand.vreg
  split
  · rename_i h
    subst h
    exact Tbl.get_put_ne _ _ _ _ (VReg.write_ne _ _ _ _)
  · rename_i h
    exact Tbl.get_put_other _ _ _ _ _ h

/-- Two elements of a group of at most 32 registers do not overlap. -/
theorem elem_apart (vlen d w i j : Nat) (hw : 0 < w) (hd : w ∣ vlen) (hi : i * w / vlen < 32) (hj : j * w / vlen < 32) (hij : i ≠ j)
    (hr : (d + i * w / vlen) % 32 = (d + j * w / vlen) % 32) :
    i * w % vlen + w ≤ j * w % vlen ∨ j * w % vlen + w ≤ i * w % vlen := by
  have hq : i * w / vlen = j * w / vlen := by
    generalize i * w / vlen = p at *
    generalize j * w / vlen = q at *
    omega
  obtain ⟨c, hc⟩ := hd
  have e1 := Nat.div_add_mod (i * w) vlen
  have e2 := Nat.div_add_mod (j * w) vlen
  rw [hq] at e1
  have m1 : i * w % vlen = w * (i % c) := by rw [hc, Nat.mul_comm i w, Nat.mul_mod_mul_left]
  have m2 : j * w % vlen = w * (j % c) := by rw [hc, Nat.mul_comm j w, Nat.mul_mod_mul_left]
  rw [m1] at e1 ⊢
  rw [m2] at e2 ⊢
  have hne : i % c ≠ j % c := by
    intro h
    rw [h] at e1
    have : i * w = j * w := by omega
    exact hij (Nat.eq_of_mul_eq_mul_right hw this)
  rcases Nat.lt_or_gt_of_ne hne with h | h
  · left
    calc w * (i % c) + w = w * (i % c + 1) := by rw [Nat.mul_add, Nat.mul_one]
      _ ≤ w * (j % c) := Nat.mul_le_mul_left w h
  · right
    calc w * (j % c) + w = w * (j % c + 1) := by rw [Nat.mul_add, Nat.mul_one]
      _ ≤ w * (i % c) := Nat.mul_le_mul_left w h

theorem elem_fits (vlen w i : Nat) (hv : 0 < vlen) (hd : w ∣ vlen) : i * w % vlen + w ≤ vlen := by
  obtain ⟨c, hc⟩ := hd
  have hc0 : 0 < c := by
    rcases Nat.eq_zero_or_pos c with h | h
    · rw [h, Nat.mul_zero] at hc; omega
    · exact h
  have m1 : i * w % vlen = w * (i % c) := by rw [hc, Nat.mul_comm i w, Nat.mul_mod_mul_left]
  have h : i % c < c := Nat.mod_lt _ hc0
  calc i * w % vlen + w = w * (i % c + 1) := by rw [m1, Nat.mul_add, Nat.mul_one]
    _ ≤ w * c := Nat.mul_le_mul_left w h
    _ = vlen := hc.symm

/-- The write of elements, as the statements say it. -/
theorem setElems_wrote (vlen d w : Nat) (f : Nat → Nat) (hv : 0 < vlen) (hv2 : vlen ≤ 2048) (hw : 0 < w) (hd : w ∣ vlen) :
    ∀ (is : List Nat) (st : Strand), is.Nodup → (∀ i ∈ is, i * w / vlen < 32) →
      st.Wrote (st.setElems vlen d w (is.map fun i => (i, f i))) vlen d w is f := by
  intro is
  induction is with
  | nil =>
    intro st _ _
    refine ⟨?_, ?_, rfl⟩
    · intro i hi; cases hi
    · intros; rfl
  | cons i is ih =>
    intro st hn hq
    obtain ⟨hni, hn'⟩ := List.nodup_cons.mp hn
    have hi := hq i List.mem_cons_self
    have hfit := elem_fits vlen w i hv hd
    have W := ih (st.setVelem vlen d w i (f i)) hn' fun j hj => hq j (List.mem_cons_of_mem _ hj)
    have hout : ∀ r off, off < vlen → (∀ j ∈ is, ¬ (r = (d + j * w / vlen) % 32 ∧ j * w % vlen ≤ off ∧ off < j * w % vlen + w)) →
        imgGet (((st.setVelem vlen d w i (f i)).setElems vlen d w (is.map fun i => (i, f i))).vreg r).img off 1 =
          imgGet ((st.setVelem vlen d w i (f i)).vreg r).img off 1 := W.others
    refine ⟨?_, ?_, ?_⟩
    · intro j hj
      rcases List.mem_cons.mp hj with rfl | hj'
      · show imgGet ((((st.setVelem vlen d w j (f j)).setElems vlen d w (is.map fun i => (i, f i))).vreg ((d + j * w / vlen) % 32)).img) (j * w % vlen) w = _
        rw [imgGet_congr _ ((st.setVelem vlen d w j (f j)).vreg ((d + j * w / vlen) % 32)).img w (j * w % vlen) ?_]
        · rw [setVelem_vreg]
          simp only [if_true, VReg.write]
          exact imgGet_imgSet _ _ _ _ (by omega)
        · intro b hb
          refine hout _ _ (by omega) fun i' hi' ⟨h1, h2, h3⟩ => ?_
          have := elem_apart vlen d w j i' hw hd hi (hq i' (List.mem_cons_of_mem _ hi')) (fun e => hni (e ▸ hi')) h1
          omega
      · exact W.elems j hj'
    · intro r off ho hno
      have h1 := hout r off ho fun j hj => hno j (List.mem_cons_of_mem _ hj)
      refine Eq.trans h1 ?_
      rw [setVelem_vreg]
      split
      · rename_i hr
        have := hno i List.mem_cons_self
        simp only [VReg.write]
        refine imgGet_imgSet_other _ _ _ _ _ (by omega) ?_
        by_cases hlt : off < i * w % vlen
        · exact .inl hlt
        · right
          by_cases hge : i * w % vlen + w ≤ off
          · exact hge
          · exact absurd ⟨hr, by omega, by omega⟩ this
      · rfl
    · have := W.rest
      show ((st.setVelem vlen d w i (f i)).setElems vlen d w (is.map fun i => (i, f i))) = _
      rw [this]
      rfl

end Sys2Proof.Machine
end

