-- ==== Sys2Proof/Laws/VecMeaning.lean ====
section
/-! SUPPORT. The steps of a vector instruction on a strand that is ready for it. -/

namespace Sys2Proof.Machine

@[simp] theorem cur_withHere (s : State) (st : Strand) : (s.withHere st).cur = s.cur := rfl
@[simp] theorem pans_withHere (s : State) (st : Strand) : (s.withHere st).pans = s.pans := rfl

/-- Nothing of the strand holds a vector register back: no pending VLDA and no mark (10 R297). -/
def Strand.Free (st : Strand) : Prop := st.vlda = [] ∧ ∀ r, (st.vreg r).marks = []

theorem markedElems_free (r w : Nat) (is : List Nat) (x : Work) (h : x.s.here.Free) : markedElems r w is x = .ok ([], x) := by
  have h1 : ∀ k r off, x.s.here.markAt k r off = none := by
    intro k r off
    simp only [Strand.markAt, h.2, List.find?_nil, Option.map_none]
  have h2 : is.any (fun _ => false) = false := by induction is <;> simp_all
  have h3 : is.filterMap (fun _ => (none : Option (Nat × Word))) = [] := by induction is <;> simp_all
  simp only [markedElems, bind_eq, curKey_eq, me_eq, h.1, List.any_nil, h1, h2, Option.map_none, h3, Bool.false_eq_true, if_false, pure_eq]

theorem useElems_free (r w : Nat) (is : List Nat) (x : Work) (h : x.s.here.Free) : useElems r w is x = .ok ((), x) := by
  simp only [useElems, bind_eq, markedElems_free r w is x h, pure_eq]

theorem use_free (y : Src2) (w : Nat) (is : List Nat) (x : Work) (h : x.s.here.Free) : y.use w is x = .ok ((), x) := by
  cases y with
  | vec r => exact useElems_free r w is x h
  | scalar v => rfl
  | imm v => rfl

theorem clearMarks_free (st : Strand) (k r w : Nat) (is : List Nat) (h : ∀ r, (st.vreg r).marks = []) : st.clearMarks k r w is = st := by
  unfold Strand.clearMarks
  have : ∀ l : List Nat, l.foldl (fun st x =>
      let vr := st.vreg x
      if vr.marks.isEmpty then st else
      let keep := vr.marks.filter fun mk => !((List.range (groupBytes k / w)).all fun e =>
        is.any fun i => (r + i * w / vlenOf k) % 32 == x && i * w % vlenOf k == mk.1 * groupBytes k + e * w)
      { st with v := Tbl.put {} x { vr with marks := keep } st.v }) st = st := by
    intro l
    induction l with
    | nil => rfl
    | cons a l ih =>
      simp only [List.foldl_cons, h a, List.isEmpty_nil, if_true]
      exact ih
  exact this _

theorem setElems_marks (vlen r w : Nat) (xs : List (Nat × Nat)) : ∀ (st : Strand) (q : Nat), ((st.setElems vlen r w xs).vreg q).marks = (st.vreg q).marks := by
  induction xs with
  | nil => intro st q; rfl
  | cons x xs ih =>
    intro st q
    show (((st.setVelem vlen r w x.1 x.2).setElems vlen r w xs).vreg q).marks = _
    rw [ih, setVelem_vreg]
    split <;> rfl

theorem putElems_free (r w : Nat) (xs : List (Nat × Nat)) (x : Work) (h : x.s.here.Free) :
    putElems r w xs x = .ok ((), ⟨x.s.withHere (x.s.here.setElems (vlenOf x.s.cur) r w xs), .strand x.s.cur (x.s.here.setElems (vlenOf x.s.cur) r w xs) :: x.log⟩) := by
  have hm := clearMarks_free (x.s.here.setElems (vlenOf x.s.cur) r w xs) x.s.cur r w (xs.map (·.1))
    fun q => (setElems_marks _ _ _ _ _ _).trans (h.2 q)
  have h3 : (xs.map (·.1)).any (fun _ => false) = false := by induction xs <;> simp_all
  simp only [putElems, defElems, bind_eq, curKey_eq, me_eq, h.1, List.any_nil, h3, Bool.false_eq_true, if_false, pure_eq, modMe_eq, hm]

theorem setElems_rest (vlen r w : Nat) (xs : List (Nat × Nat)) : ∀ st : Strand, st.setElems vlen r w xs = { st with v := (st.setElems vlen r w xs).v } := by
  induction xs with
  | nil => intro st; rfl
  | cons x xs ih =>
    intro st
    show (st.setVelem vlen r w x.1 x.2).setElems vlen r w xs = _
    rw [ih]
    rfl

theorem flagElems_eq (fs : List (Nat × Fl)) (x : Work) :
    flagElems fs x = .ok ((), ⟨x.s.withHere (x.s.here.raiseElems fs), .strand x.s.cur (x.s.here.raiseElems fs) :: x.log⟩) := rfl

/-- The elements that a mask leaves active. -/
theorem actElems_eq (xm : Bool) (m : BitVec 3) (x : Work) :
    actElems xm m x = .ok (x.s.here.active (if xm then 0 else m.toNat) x.s.here.vl, x) := rfl

/-- A `Work` whose updates are those of the executing strand alone, so far. -/
def Held (s : State) (x : Work) (st : Strand) : Prop := x.s = s.withHere st ∧ applyAll x.log s = s.withHere st

theorem held_here {s : State} {x : Work} {st : Strand} (hs : Tbl.wf {} s.strands = true) (h : Held s x st) : x.s.here = st := by
  rw [h.1]; exact here_withHere s st hs

theorem held_modMe {s : State} {x : Work} {st : Strand} (hs : Tbl.wf {} s.strands = true) (h : Held s x st) (f : Strand → Strand) :
    ∃ y, modMe f x = .ok ((), y) ∧ Held s y (f st) := by
  refine ⟨_, modMe_eq f x, ?_, ?_⟩
  · show x.s.withHere (f x.s.here) = _
    rw [held_here hs h, h.1, withHere_withHere _ _ _ hs]
  · show (Upd.strand x.s.cur (f x.s.here)).apply (applyAll x.log s) = _
    rw [held_here hs h, h.2, h.1]
    exact withHere_withHere _ _ _ hs

theorem held_first (s : State) (f : Strand → Strand) : ∃ y, modMe f ⟨s, []⟩ = .ok ((), y) ∧ Held s y (f s.here) := ⟨_, modMe_eq f _, rfl, rfl⟩

theorem ready_free {s : State} {rs : List (BitVec 5)} (h : s.VecReady rs) : s.here.Free := ⟨h.pending, h.marks⟩

theorem issueMem_eq (rs : List (BitVec 5)) (w : Work) :
    issueMem rs w = if w.s.here.canIssue rs && !w.s.here.looping then .ok ((), w) else .error (.stop []) := by
  cases h : w.s.here.canIssue rs <;> cases h' : w.s.here.looping <;>
    simp only [issueMem, bind_eq, issue_eq, h, me_eq, h', ite_eq, pure_eq, stall_eq, Bool.not_true, Bool.not_false, Bool.and_true, Bool.and_false,
      Bool.false_eq_true, if_true, if_false]

theorem issueVec_ready {s : State} {i : Instr} {rs : List (BitVec 5)} (h : s.VecReady rs) : issueVec i rs ⟨s, []⟩ = .ok ((), ⟨s, []⟩) := by
  have hi : (⟨s, []⟩ : Work).s.here.canIssue rs = true := h.issue
  have hl : (⟨s, []⟩ : Work).s.here.looping = false := h.idle
  have hf : isMgmt s.cur = false := h.full
  have hq : ¬ 16 ≤ s.here.vq.length := Nat.not_le.mpr h.room
  simp only [issueVec, issueOn, bind_eq, issueMem_eq, hi, hl, curKey_eq, me_eq, Bool.not_false, Bool.and_true, if_true, hf, hq, Bool.false_eq_true, if_false,
    decide_false, pure_eq]

theorem putXm_held {s : State} {x : Work} {st : Strand} (hs : Tbl.wf {} s.strands = true) (h : Held s x st) (xm : Bool) (m : BitVec 3) (fs : List (Nat × Fl)) :
    ∃ y, putXm xm m fs x = .ok ((), y) ∧ Held s y (st.exceptions xm m fs) := by
  cases xm with
  | true => exact held_modMe hs h _
  | false => exact ⟨x, rfl, h⟩

theorem mapElems_ready {s : State} {rs : List (BitVec 5)} (h : s.VecReady rs) (wd wa : Nat) (d a : BitVec 5) (b : Src2) (m : BitVec 3) (xm old : Bool)
    (f : Nat → Nat → Nat → Nat × Fl) :
    let st := s.here
    let n := vlenOf s.cur
    let xs := (st.active (if xm then 0 else m.toNat) st.vl).map fun i =>
      (i, f (st.velem n a.toNat wa i) (b.bits st n st.sew i) (st.velem n d.toNat wd i))
    ∃ y, mapElems wd wa d a b m xm old f ⟨s, []⟩ = .ok ((), y) ∧
      Held s y (((st.setElems n d.toNat wd (xs.map fun r => (r.1, r.2.1))).raiseElems (xs.map fun r => (r.1, r.2.2))).exceptions xm m (xs.map fun r => (r.1, r.2.2))) := by
  intro st n xs
  have hs := h.good.strands
  have hfree : (⟨s, []⟩ : Work).s.here.Free := ready_free h
  obtain ⟨y1, e1, h1⟩ : ∃ y, putElems d.toNat wd (xs.map fun r => (r.1, r.2.1)) ⟨s, []⟩ = .ok ((), y) ∧ Held s y (st.setElems n d.toNat wd (xs.map fun r => (r.1, r.2.1))) :=
    ⟨_, putElems_free _ _ _ _ hfree, rfl, rfl⟩
  obtain ⟨y2, e2, h2⟩ := held_modMe hs h1 fun st => st.raiseElems (xs.map fun r => (r.1, r.2.2))
  obtain ⟨y3, e3, h3⟩ := putXm_held hs h2 xm m (xs.map fun r => (r.1, r.2.2))
  refine ⟨y3, ?_, h3⟩
  have hu := useElems_free a.toNat wa (st.active (if xm then 0 else m.toNat) st.vl) ⟨s, []⟩ hfree
  have hb := use_free b st.sew (st.active (if xm then 0 else m.toNat) st.vl) ⟨s, []⟩ hfree
  have hd := useElems_free d.toNat wd (st.active (if xm then 0 else m.toNat) st.vl) ⟨s, []⟩ hfree
  have e2' : flagElems (xs.map fun r => (r.1, r.2.2)) y1 = .ok ((), y2) := e2
  cases old with
  | true => simp only [mapElems, bind_eq, curKey_eq, me_eq, actElems_eq, hu, hb, hd, if_true, e1, e2', e3, st, n, xs]
  | false => simp only [mapElems, bind_eq, curKey_eq, me_eq, actElems_eq, hu, hb, Bool.false_eq_true, if_false, e1, e2', e3, st, n, xs]

/-- A vector instruction whose effect is on its strand alone. -/
theorem vec_held {s : State} {i : Instr} {pipe : Nat} {core : M Unit} {st' : Strand} (h : s.VecReady (bodyGprs i))
    (hc : ∃ y, core ⟨s, []⟩ = .ok ((), y) ∧ Held s y st') :
    run (vec i pipe core) s = .next (s.withHere (st'.vecDone s.cur pipe s.here.vl s.here.sew)) := by
  have hs := h.good.strands
  obtain ⟨y, e, hy⟩ := hc
  have hcur : y.s.cur = s.cur := by rw [hy.1]; rfl
  have key : ∃ z, vec i pipe core ⟨s, []⟩ = .ok ((), z) ∧ Held s z (st'.vecDone s.cur pipe s.here.vl s.here.sew) := by
    by_cases hg : groupsOf s.cur s.here.vl s.here.sew = 0
    · obtain ⟨z, e1, h1⟩ := held_modMe hs hy (fun st => st.past 4)
      refine ⟨z, ?_, ?_⟩
      · simp only [vec, bind_eq, issueVec_ready h, curKey_eq, me_eq, e, enqueueVec, hg, if_true, pure_eq]
        exact e1
      · have : st'.vecDone s.cur pipe s.here.vl s.here.sew = st'.past 4 := by simp only [Strand.vecDone, hg, if_true, Strand.past]
        rw [this]; exact h1
    · obtain ⟨z0, e0, h0⟩ := held_modMe hs hy (fun st => { st with vq := st.vq ++ [⟨pipe, groupsOf s.cur s.here.vl s.here.sew⟩] })
      obtain ⟨z, e1, h1⟩ := held_modMe hs h0 (fun st => st.past 4)
      refine ⟨z, ?_, ?_⟩
      · simp only [vec, bind_eq, issueVec_ready h, curKey_eq, me_eq, e, enqueueVec, hg, if_false, e0]
        exact e1
      · have : st'.vecDone s.cur pipe s.here.vl s.here.sew =
          ({ st' with vq := st'.vq ++ [⟨pipe, groupsOf s.cur s.here.vl s.here.sew⟩] } : Strand).past 4 := by
            simp only [Strand.vecDone, hg, if_false, Strand.past]
        rw [this]; exact h1
  obtain ⟨z, ez, hz⟩ := key
  rw [run_ok ez, hz.2]

theorem vlen_dvd (k w : Nat) (h : w = 1 ∨ w = 2 ∨ w = 4 ∨ w = 8) : w ∣ vlenOf k := by
  unfold vlenOf Config.vlen; split <;> rcases h with rfl|rfl|rfl|rfl <;> decide

theorem vl_lt (st : Strand) : st.vl < 4096 := by
  unfold Strand.vl fld; exact Nat.mod_lt _ (by decide)

theorem active_nodup (st : Strand) (m n : Nat) : (st.active m n).Nodup := List.Nodup.sublist List.filter_sublist List.nodup_range

theorem sew_cases (st : Strand) : st.sew = 1 ∨ st.sew = 2 ∨ st.sew = 4 ∨ st.sew = 8 := by
  unfold Strand.sew
  have : fld st.vcfg 12 2 < 4 := by unfold fld; exact Nat.mod_lt _ (by decide)
  generalize fld st.vcfg 12 2 = q at *
  rcases q with _|_|_|_|q <;> simp_all <;> omega

/-- A vector instruction that is `mapElems`. -/
theorem writes_of_map {s : State} {i : Instr} {pipe : Nat} {core : M Unit} (hr : s.VecReady (bodyGprs i)) (he : exec i s = run (vec i pipe core) s)
   (wd wa : Nat) (d a : BitVec 5) (b : Src2) (m : BitVec 3) (xm old : Bool) (f : Nat → Nat → Nat → Nat × Fl)
   (hc : core ⟨s, []⟩ = mapElems wd wa d a b m xm old f ⟨s, []⟩) (hwd : wd = 1 ∨ wd = 2 ∨ wd = 4 ∨ wd = 8) :
   s.VecWrites i pipe d.toNat wd (s.here.active (if xm then 0 else m.toNat) s.here.vl) xm m
     fun j => f (s.here.velem (vlenOf s.cur) a.toNat wa j) (b.bits s.here (vlenOf s.cur) s.here.sew j) (s.here.velem (vlenOf s.cur) d.toNat wd j) := by
  obtain ⟨y, e, hy⟩ := mapElems_ready hr wd wa d a b m xm old f
  have hv : 0 < vlenOf s.cur ∧ vlenOf s.cur ≤ 2048 ∧ 1024 ≤ vlenOf s.cur := by unfold vlenOf Config.vlen; split <;> decide
  refine ⟨_, setElems_wrote (vlenOf s.cur) d.toNat wd _ hv.1 hv.2.1 (by omega) (vlen_dvd _ _ hwd) _ s.here (active_nodup _ _ _) ?_, ?_⟩
  · intro j hj
    have h1 : j < s.here.vl := by
      have := (List.mem_filter.mp hj).1; exact List.mem_range.mp this
    have h2 := vl_lt s.here
    rw [Nat.div_lt_iff_lt_mul hv.1]
    have : j * wd ≤ 4095 * 8 := Nat.mul_le_mul (by omega) (by omega)
    omega
  · rw [he, vec_held hr ⟨y, hc.trans e, hy⟩]
    simp only [List.map_map]
    rfl

theorem src2_eq (f : BitVec 2) (b : BitVec 5) (u : Bool) (w : Work) :
  src2 f b u w = .ok (match f.toNat with | 0 => .vec b.toNat | 1 => .scalar (w.s.here.gpr b).toNat | _ => .imm (if u then (b.toNat : Int) else sext b.toNat 5), w) := by
  unfold src2
  generalize f.toNat = q
  match q with
  | 0 => rfl
  | 1 => rfl
  | _ + 2 => rfl

theorem congr_writes {s : State} {i : Instr} {pipe d w : Nat} {is : List Nat} {xm : Bool} {m : BitVec 3} {f g : Nat → Nat × Fl} (h : State.VecWrites s i pipe d w is xm m f) (e : ∀ j, f j = g j) : State.VecWrites s i pipe d w is xm m g := by
  have : f = g := funext e
  rwa [← this]

theorem bits_eq (f : BitVec 2) (b : BitVec 5) (u : Bool) (st : Strand) (n w j : Nat) :
  Src2.bits (match f.toNat with | 0 => .vec b.toNat | 1 => .scalar (st.gpr b).toNat | _ => .imm (if u then (b.toNat : Int) else sext b.toNat 5)) st n w j =
  (match f.toNat with | 0 => st.velem n b.toNat w j | 1 => (st.gpr b).toNat % 2 ^ (8*w) | _ => lowBits (8*w) (if u then (b.toNat : Int) else sext b.toNat 5)) := by
  split <;> rfl

end Sys2Proof.Machine
end

