-- ==== Sys2Proof/Tests/Slice0.lean ====
section
/-! SUPPORT. The tests: an ill-formed term for each check of well-formedness, words written out from the encoding tables, small steps with results computed by hand from the rules, and for each statement a state and operands that meet its hypotheses. -/

namespace Sys2Proof.Tests

-- Each test is elaborated after the one before it: tests that wait for one another would each hold a thread.
set_option Elab.async false

open Sys2Proof Sys2Proof.Machine

/-! States to test in. -/

/-- A table of the words, from key 0 on; zeros are not listed. -/
def tbl (xs : List Nat) : Tbl Word := ((List.range xs.length).zip (xs.map word)).filter fun x => decide (x.2 ≠ 0)

/-- The bytes of the dwords from an address on, as memory lists them. -/
def cells (b : Nat) (ws : List Nat) : List Host.Cell :=
  ((List.range (8 * ws.length)).map fun i => (b + i, BitVec.ofNat 8 (nth 0 ws (i / 8) / 2 ^ (8 * (i % 8))))).filter fun c => decide (c.2 ≠ 0)

/-- The leaf of the page at 0x20000: device memory, token-managed, all rights; the same without a token; and a page of device 5 of the domain. -/
def leafTM : Word := 0x203F3
def leafPlain : Word := 0x201F3

/-- Strand 0 of pan 0 runs for context 1. The page at 0x40000000 is at 0x20000, with its translation and its first lines cached, and `ws` stand there and at word 0x400 of the pan space, from where on the context has its partition. -/
def mach (st : Strand) (ws : List Nat) : State := { State.reset with
  strands := [(0, st)]
  pans := [(0, { res := [(0, { st := .running, ctx := 1, spbase := 0x400, splim := 0x4000 })], tlb := [⟨1, 16, 0x4000, leafPlain⟩] })]
  bays := [(0, { tlb := [⟨1, 16, 0x4000, leafPlain⟩], lines := [(0x400, .m), (0x401, .m)] })]
  mem := cells 0x20000 ws
  panMem := cells 0x2000 ws }

/-- A running strand with these general registers, from g0 on. -/
def str0 (g : List Nat) : Strand := { st := .run, pc := 0x40008000, g := tbl g, tvec := 0x123400, ctx := 1 }

def dwords : List Nat := [0x1122334455667788, 0x8000000000000080, 3, 4, 5, 6, 7, 8]

/-- g1 = 7, g2 = −2, g3 = 0x40000010 in memory, g4 = 0x40000013, g5 = 0x2008 in the pan space, g6 = −2^63, g7 = 0x4000C001 and g8 = 5. -/
def m0 : State := mach (str0 [0, 7, 0xFFFFFFFFFFFFFFFE, 0x40000010, 0x40000013, 0x2008, 0x8000000000000000, 0x4000C001, 5]) dwords

/-- A vector machine: VL and the code of SEW, g1 = 7, g2 = 24 and g3 a base; v1 holds the byte offsets 8, 4, 8, 16 (SEW 4). -/
def vm (sew vl : Nat) (base : Nat := 0x40000010) : State :=
  let s := mach (str0 [0, 7, 24, base, 0x40000038, 0x40000038]) dwords
  s.withHere { s.here with
    vcfg := word (0x40000 + sew * 4096 + vl)
    v := [(1, { img := 0x10000000080000000400000008 }), (2, { img := 0x00000003FFFFFFFE0000000200000001 }), (3, { img := 0x4040000040000000BF8000003F800000 })]
    m := [(0, BitVec.ofNat 2048 (2 ^ 2048 - 1)), (1, 0xB), (2, 0x6)] }

/-- What a step leaves, where it leaves a state. -/
def next? (o : Host.Outcome State Fault Refusal) : Option State := match o with | .next t => some t | _ => none

/-- A property of the state after an instruction. -/
def after (i : Instr) (s : State) (p : State → Bool) : Bool := match exec i s with | .next t => p t | _ => false

/-- A general register after an instruction of strand 0, and the pc. -/
def gives (i : Instr) (s : State) (d : BitVec 5) (v : Nat) : Bool := after i s fun t => decide (t.here.gpr d = word v)

/-! Well-formedness: each term breaks one condition of 08 R226 and is refused, and is accepted with that condition met. -/

theorem test_ill_formed_scalar : [Instr.bswap 1 2 0, .bswap 1 2 4, .sext 1 2 3, .zext 1 2 3, .zext 1 2 7, .fcvt 1 2 0xE false 9, .fcvt 1 2 9 false 0xE, .fcvt 1 2 3 false 5,
    .fcvt 1 2 9 true 8].all (fun i => !i.wf) = true := by decide

theorem test_ill_formed_memory : [Instr.ld 7 1 2 0, .ldP 7 1 2 0, .ldacq 1 2 0 7, .ldacq 1 2 6 3, .ldacqP 1 2 0 7, .ldacqP 1 2 7 3, .strel 1 2 6 3, .strelP 1 2 7 3,
    .amo 0 1 2 3 6 1 0, .amo 7 1 2 3 0 2 0, .amoP 0 1 2 3 6 1 0, .amoP 7 1 2 3 0 3 0, .amocas 1 2 3 6 3 0, .amocas 1 2 3 0 1 0, .amocasP 1 2 3 7 3 0, .amocasP 1 2 3 0 0 0].all
    (fun i => !i.wf) = true := by decide

theorem test_ill_formed_system : [Instr.fence 6 0, .fence 0 4, .mfc 1 3, .mfc 1 0x011, .mfc 1 0x024, .mfc 1 0x032, .mfc 1 0x807, .mfc 1 0x813, .mtc 1 7, .mtc 1 0x7FF, .cflush 1 6].all
    (fun i => !i.wf) = true := by decide

theorem test_ill_formed_vector_form : [Instr.vadd 1 2 3 0 false 3, .vsub 1 2 3 0 false 3, .vmul 1 2 3 0 false 3, .vmulh 1 2 3 0 false 3, .vwmul 2 3 4 0 false 3, .vwmac 2 3 4 0 false 3,
    .vmac 1 2 3 0 false 3, .vdiv 1 2 3 0 false false 3, .vrem 1 2 3 0 false false 3, .vmin 1 2 3 0 false 3, .vmax 1 2 3 0 false 3, .vand 1 2 3 0 false 3, .vor 1 2 3 0 false 3,
    .vxor 1 2 3 0 false 3, .vsll 1 2 3 0 false 3, .vsrl 1 2 3 0 false 3, .vsra 1 2 3 0 false 3, .vnshr 1 2 3 0 false false 3, .vsadd 1 2 3 0 false false 3, .vssub 1 2 3 0 false false 3,
    .vcmp 0 1 2 3 0 false 3, .vfadd 1 2 3 0 false false 3, .vfsub 1 2 3 0 false false 3, .vfmul 1 2 3 0 false false 3, .vfdiv 1 2 3 0 false false 3, .vfma 1 2 3 0 false false 3,
    .vfms 1 2 3 0 false false 3, .vfnma 1 2 3 0 false false 3, .vfmin 1 2 3 0 false false 3, .vfmax 1 2 3 0 false false 3,
    .vslideup 1 2 3 0 0, .vslidedn 1 2 3 0 3, .vbcast 1 2 0 0, .vmvx 1 2 3 3, .vins 1 2 3 0, .vperms 1 2 3 0 3].all (fun i => !i.wf) = true := by decide

theorem test_ill_formed_exception_mask : [Instr.vdiv 1 2 3 0 false true 0, .vrem 1 2 3 0 false true 0, .vnshr 1 2 3 0 false true 0, .vsadd 1 2 3 0 false true 0, .vssub 1 2 3 0 false true 0,
    .vfadd 1 2 3 0 false true 0, .vfsub 1 2 3 0 false true 0, .vfmul 1 2 3 0 false true 0, .vfdiv 1 2 3 0 false true 0, .vfsqrt 1 2 0 false true, .vfma 1 2 3 0 false true 0,
    .vfms 1 2 3 0 false true 0, .vfnma 1 2 3 0 false true 0, .vfmin 1 2 3 0 false true 0, .vfmax 1 2 3 0 false true 0, .vfcvt 1 2 9 false 0 false true, .vsfn 1 2 0 0 false true,
    .vfredo 1 2 3 0 false true, .vfredt 1 2 3 0 false true, .smmul 0 1 2 0 true false, .smadd 0 1 2 0 true false, .smchol 0 1 0 true 0, .smlu 0 1 2 0 true 0,
    .smsolve 0 1 2 0 0 true 0].all (fun i => !i.wf) = true := by decide

theorem test_ill_formed_vector_fields : [Instr.vfcvt 1 2 0xE false 0 false false, .vfcvt 1 2 9 true 0 false false, .vsfn 1 2 7 0 false false, .vred 6 1 2 3 0 false, .vlseg 1 2 0 0 false false,
    .vsseg 1 2 0 0 false false, .vstn 1 2 3 0 false false false, .vsetl 1 2 0 6, .vhad 1 2 true true false false 0 0 0 1, .vhad 1 2 true false false false 0 0 0 0,
    .vhad 1 2 true false false false 0 0 9 3, .vhad 1 2 true false false true 0 0 0 1, .vhad 1 2 true false false false 1 0 0 1, .vhad 1 2 true false false false 0 1 0 1,
    .vhad 1 2 true false true false 0 0xE 0 1, .vhad 1 2 false false true false 1 9 0 1, .vhad 1 2 false false true true 0 9 0 1].all (fun i => !i.wf) = true := by decide

theorem test_ill_formed_commands : [Instr.tcset 1 2 6, .tcadd 1 2 7, .tcwait 1 2 3 6 false, .smshape 0 0 1 false, .smshape 0 7 1 false, .smshape 0 1 0 false, .smshape 0 1 7 false,
    .smsolve 0 1 2 3 0 false 0, .rgalloc 1 0 0 false 1 0, .rgalloc 1 0 0 false 0 1, .rgwait 1 2 6, .rgsetc 1 2 0 true 1].all (fun i => !i.wf) = true := by decide

theorem test_well_formed : [Instr.bswap 1 2 1, .sext 1 2 2, .zext 1 2 6, .fcvt 1 2 9 true 0xC, .ld 6 1 2 0, .amo 7 1 2 3 5 1 0, .amocas 1 2 3 5 2 0, .fence 5 3, .mfc 1 0x010, .mtc 1 0x812,
    .vadd 1 2 3 0 false 2, .vdiv 1 2 3 1 false true 0, .vsfn 1 2 6 0 false false, .vred 5 1 2 3 0 false, .vlseg 1 2 1 0 false false, .vstn 1 2 3 0 true false false,
    .vhad 1 2 true false true true 31 5 10 1, .vhad 1 2 false true true true 0 0xC 0 11, .smshape 0 6 6 false, .smsolve 0 1 2 3 0 false 1, .rgalloc 1 3 3 true 3 3, .rgsetc 1 2 0 false 255].all
    Instr.wf = true := by decide

/-! Words written out from the encoding tables of 08 R212 to R228, field by field. -/

theorem test_decode_upper : decodeBits (0#32 ++ (0x10001#17 ++ 6#5 ++ 0x30#6 ++ 1#3 ++ 1#1)) = some (.ldhi 6 0x10001, 4) := by decide +kernel
theorem test_decode_shift_immediate : decodeBits (0#32 ++ (0#6 ++ 63#6 ++ 2#5 ++ 1#5 ++ 0x08#6 ++ 1#3 ++ 1#1)) = some (.srai 1 2 63, 4) := by decide +kernel
theorem test_decode_fcvt : decodeBits (0#32 ++ (9#4 ++ 0#3 ++ 0#1 ++ 2#4 ++ 2#5 ++ 1#5 ++ 0x2A#6 ++ 0#3 ++ 1#1)) = some (.fcvt 1 2 2 false 9, 4) := by decide +kernel
theorem test_decode_fcmp : decodeBits (0#32 ++ (8#4 ++ 2#3 ++ 3#5 ++ 2#5 ++ 1#5 ++ 0x28#6 ++ 0#3 ++ 1#1)) = some (.fcmp 1 2 3 2 0, 4) := by decide +kernel
theorem test_decode_amo : decodeBits (0#32 ++ (3#2 ++ 1#2 ++ 3#3 ++ 6#5 ++ 8#5 ++ 5#5 ++ 0x20#6 ++ 2#3 ++ 1#1)) = some (.amo 0 5 8 6 3 1 3, 4) := by decide +kernel
theorem test_decode_fence : decodeBits (0#32 ++ (3#4 ++ 4#3 ++ 0#15 ++ 0x38#6 ++ 2#3 ++ 1#1)) = some (.fence 4 3, 4) := by decide +kernel
theorem test_decode_strel : decodeBits (0#32 ++ (2#4 ++ 4#3 ++ 6#5 ++ 8#5 ++ 0#5 ++ 0x1A#6 ++ 2#3 ++ 1#1)) = some (.strel 8 6 4 2, 4) := by decide +kernel
theorem test_decode_mfc : decodeBits (0#32 ++ (0x803#12 ++ 0#5 ++ 7#5 ++ 0x13#6 ++ 3#3 ++ 1#1)) = some (.mfc 7 0x803, 4) := by decide +kernel
theorem test_decode_mtc : decodeBits (0#32 ++ (0x800#12 ++ 7#5 ++ 0#5 ++ 0x14#6 ++ 3#3 ++ 1#1)) = some (.mtc 7 0x800, 4) := by decide +kernel
theorem test_decode_eret : decodeBits (0#32 ++ (0#22 ++ 0x12#6 ++ 3#3 ++ 1#1)) = some (.eret, 4) := by decide +kernel
theorem test_decode_vcmp : decodeBits (0#32 ++ (4#4 ++ 1#3 ++ 5#5 ++ 4#5 ++ 2#5 ++ 0x16#6 ++ 4#3 ++ 1#1)) = some (.vcmp 2 2 4 5 1 false 1, 4) := by decide +kernel
theorem test_decode_vred : decodeBits (0#32 ++ (1#4 ++ 1#3 ++ 5#5 ++ 4#5 ++ 2#5 ++ 0x31#6 ++ 4#3 ++ 1#1)) = some (.vred 1 2 4 5 1 true, 4) := by decide +kernel
theorem test_decode_vsfn : decodeBits (0#32 ++ (0#4 ++ 0#3 ++ 6#5 ++ 4#5 ++ 2#5 ++ 0x2C#6 ++ 4#3 ++ 1#1)) = some (.vsfn 2 4 6 0 false false, 4) := by decide +kernel
theorem test_decode_vlseg : decodeBits (0#32 ++ (0#4 ++ 0#3 ++ 3#5 ++ 4#5 ++ 8#5 ++ 0x03#6 ++ 5#3 ++ 1#1)) = some (.vlseg 8 4 3 0 false false, 4) := by decide +kernel
theorem test_decode_vstn : decodeBits (0#32 ++ (1#4 ++ 0#3 ++ 9#5 ++ 4#5 ++ 8#5 ++ 0x0C#6 ++ 5#3 ++ 1#1)) = some (.vstn 8 4 9 0 true false false, 4) := by decide +kernel
theorem test_decode_vamo : decodeBits (0#32 ++ (3#2 ++ 0#2 ++ 0#3 ++ 9#5 ++ 4#5 ++ 8#5 ++ 0x1F#6 ++ 5#3 ++ 1#1)) = some (.vamo 7 8 4 9 0 false 3, 4) := by decide +kernel
theorem test_decode_tcwait : decodeBits (0#32 ++ (1#4 ++ 3#3 ++ 9#5 ++ 8#5 ++ 7#5 ++ 0x0A#6 ++ 6#3 ++ 1#1)) = some (.tcwait 7 8 9 3 true, 4) := by decide +kernel
theorem test_decode_smsolve : decodeBits ((0#16 ++ 0#5 ++ 7#5 ++ 2#2 ++ 1#2 ++ 3#2) ++ (0#16 ++ 1#2 ++ 1#1 ++ 2#3 ++ 0x18#6 ++ 15#4)) = some (.smsolve 3 1 2 7 2 true 1, 8) := by decide +kernel
theorem test_decode_rgsetc : decodeBits ((0#17 ++ 6#5 ++ 5#5 ++ 0#5) ++ (0#10 ++ 17#8 ++ 0#1 ++ 3#3 ++ 0x2A#6 ++ 15#4)) = some (.rgsetc 5 6 3 false 17, 8) := by decide +kernel
theorem test_decode_rgalloc : decodeBits ((0#17 ++ 0#5 ++ 0#5 ++ 7#5) ++ (0#13 ++ 2#2 ++ 1#2 ++ 1#1 ++ 0#2 ++ 1#2 ++ 0x20#6 ++ 15#4)) = some (.rgalloc 7 1 0 true 1 2, 8) := by decide +kernel
theorem test_decode_store_16 : decodeBits (0#48 ++ (9#5 ++ 4#5 ++ 0#1 ++ 10#4 ++ 0#1)) = some (.stH 4 9, 2) := by decide +kernel
theorem test_decode_branch_16 : decodeBits (0#48 ++ (9#5 ++ 0x20#6 ++ 11#4 ++ 0#1)) = some (.beqH 0x20 9, 2) := by decide +kernel
/-- The example words of 10 R303 and R305. -/
theorem test_decode_vhad : (decodeBits 0x0000002230C0609F#64).map (·.2) = some 8 ∧ (decodeBits 0x0000002230C0609F#64).map (·.1) = some (.vhad 2 1 false false true true 0 0xC 0 3) := by decide +kernel
theorem test_decode_vloop : (decodeBits 0x000000000001A88F#64).map (·.1.len) = some 8 := by decide +kernel
/-- Reserved words: a second half-word of all ones, an undefined prefix body, scope 7, FORM 3. -/
theorem test_decode_refuses : [0xFFFF#64, 0xFFFFFFFF#64, 0#64, 0#32 ++ (0#4 ++ 7#3 ++ 0#15 ++ 0x38#6 ++ 2#3 ++ 1#1), 0#32 ++ (1#4 ++ 2#3 ++ 5#5 ++ 4#5 ++ 3#5 ++ 0x00#6 ++ 4#3 ++ 1#1) ||| 0xC0000000#64].all
    (fun w => (decodeBits w).isNone) = true := by decide +kernel

/-! One step each; the results are computed by hand from the rules. -/

/-- 09 R243: 7 + (−2) as s64, and 0xFE − 7 as u8, which is zero-extended. -/
theorem test_add : gives (.add 9 1 2 3) m0 9 5 = true := by decide +kernel
theorem test_sub_u8 : gives (.sub 9 2 1 4) m0 9 0xF7 = true := by decide +kernel
/-- 09 R243: 2^63 × 2^63 over 2^64 as u64. -/
theorem test_mulh : gives (.mulh 9 6 6 7) m0 9 (2 ^ 62) = true := by decide +kernel
/-- 09 R245: the quotient of a division by 0 is −1, and DZ is raised. -/
theorem test_div_zero : after (.div 9 1 0 3) m0 (fun t => decide (t.here.gpr 9 = word (2 ^ 64 - 1) ∧ t.here.fsr = 2 ∧ t.here.pc = 0x40008004)) = true := by decide +kernel
/-- 09 R243: −2 rotated right by 5 in 8 bits: 11111110 becomes 11110111. -/
theorem test_ror : gives (.ror 9 2 8 4) m0 9 0xF7 = true := by decide +kernel
theorem test_bswap : gives (.bswap 9 8 1) m0 9 0x500 = true := by decide +kernel
theorem test_ldhi : gives (.ldhi 9 0x10000) m0 9 0xFFFFFFFFF0000000 = true := by decide +kernel
/-- 09 R239: g0 is not written. -/
theorem test_g0 : gives (.addi 0 1 1) m0 0 0 = true := by decide +kernel

/-- 09 R248: 1.0 + 2^−24 in binary32 is a tie, rounded to even, and raises NX. -/
theorem test_fadd : after (.fadd 3 1 2 1) (mach (str0 [0, 0x3F800000, 0x33800000]) []) (fun t => decide (t.here.gpr 3 = 0x3F800000 ∧ t.here.fsr = 0x10)) = true := by decide +kernel
/-- 07 R189: FCVT of −1.5 from binary32 to s32, to nearest even, is −2. -/
theorem test_fcvt : gives (.fcvt 3 1 9 false 2) (mach (str0 [0, 0xBFC00000]) []) 3 0xFFFFFFFFFFFFFFFE = true := by decide +kernel

/-- 09 R254: the byte 0x80 at 0x40000008, sign-extended; the offset is −8. -/
theorem test_ld : gives (.ld 0 9 3 0xFF8) m0 9 0xFFFFFFFFFFFFFF80 = true := by decide +kernel
theorem test_ld_pan : gives (.ldP 3 9 5 0) m0 9 0x8000000000000080 = true := by decide +kernel
/-- 09 R256: ST of a half-word writes two bytes and no third. -/
theorem test_st : after (.st 1 3 2 0) m0 (fun t => decide (t.byte 0x20010 = 0xFE ∧ t.byte 0x20011 = 0xFF ∧ t.byte 0x20012 = 0)) = true := by decide +kernel
/-- 09 R255: an address that is no multiple of 2 raises ALIGN with it; no register is written. -/
theorem test_align : after (.ld 1 9 4 0) m0 (fun t => decide (t.here.tcause = 3 ∧ t.here.tval = 0x40000013 ∧ t.here.tpc = 0x40008000 ∧ t.here.pc = 0x123400 ∧ t.here.gpr 9 = 0)) = true := by decide +kernel
/-- 09 R258: AMO.add of 7 to the word 3; g_d takes the old value. -/
theorem test_amo : after (.amo 0 9 3 1 0 0 0) m0 (fun t => decide (t.here.gpr 9 = 3 ∧ t.byte 0x20010 = 10)) = true := by decide +kernel
/-- 09 R260: AMOCAS of a word that is not the expected one stores nothing. -/
theorem test_amocas : after (.amocas 8 3 1 0 2 0) m0 (fun t => decide (t.here.gpr 8 = 3 ∧ t.mem = m0.mem)) = true := by decide +kernel

/-- 09 R263: a taken branch, two half-words back; one not taken. -/
theorem test_beq : after (.beq 1 1 0xFFE) m0 (fun t => decide (t.here.pc = 0x40007FFC)) = true := by decide +kernel
theorem test_bltZ : after (.bltZ 2 1 8) m0 (fun t => decide (t.here.pc = 0x40008004)) = true := by decide +kernel
/-- 09 R264: the target is computed before the link is written. -/
theorem test_jalr : after (.jalr 3 3 4) m0 (fun t => decide (t.here.pc = 0x40000014 ∧ t.here.gpr 3 = 0x40008004)) = true := by decide +kernel
/-- 09 R265, 14 R391: SVC in user mode. -/
theorem test_svc : after (.svc 5) m0 (fun t => decide (t.here.tcause = 9 ∧ t.here.tval = 5 ∧ t.here.sup = true ∧ t.here.tsummary = 0x200 ∧ t.here.tstatus = 2)) = true := by decide +kernel
/-- 09 R266: ERET in user mode raises PRIV. -/
theorem test_eret_user : after .eret m0 (fun t => decide (t.here.tcause = 0x0A)) = true := by decide +kernel
/-- 07 R182: a reserved rounding mode keeps the old one. -/
theorem test_mtc_acr : after (.mtc 1 1) (m0.withHere { m0.here with acr := 0x23 }) (fun t => decide (t.here.acr = 3)) = true := by decide +kernel

/-- 10 R283: elements 0, 1 and 3 are active under m1; the others keep their bits. -/
theorem test_vadd : after (.vadd 3 1 2 1 false 0) (vm 2 4) (fun t => decide ((t.here.vreg 3).img = 0x13400000000000000600000009)) = true := by decide +kernel
/-- 10 R281: VL is the smaller of g_a and VLMAX = 2048 / 8. -/
theorem test_vsetl : after (.vsetl 9 2 3 0) m0 (fun t => decide (t.here.gpr 9 = 256 ∧ t.here.vcfg = 0x3100)) = true := by decide +kernel
/-- 10 R293: v1[0] + (1 + 2 − 2 + 3). -/
theorem test_vred : after (.vred 0 5 2 1 0 false) (vm 2 4) (fun t => decide ((t.here.vreg 5).img = 12)) = true := by decide +kernel
/-- 10 R296: the indexed stores of elements 0 and 2 go to one place; the higher element stays. -/
theorem test_vstx : after (.vstx 2 3 1 0 false false) (vm 2 4) (fun t => decide (t.physRead 0x20018 4 = 0xFFFFFFFE ∧ t.physRead 0x20014 4 = 2 ∧ t.physRead 0x20020 4 = 3)) = true := by decide +kernel
/-- 10 R300: MPOPC counts the bits below VL. -/
theorem test_mpopc : gives (.mpopc 9 1) (vm 2 3) 9 2 = true := by decide +kernel
/-- 11 R342: a shape of 2 × 3 binary64 zeros. -/
theorem test_smshape : after (.smshape 1 2 3 true) (vm 2 4) (fun t => decide ((t.here.qreg 1).shape = 0x5A ∧ t.here.pc = 0x40008008)) = true := by decide +kernel

/-- 03 R96: a counter is counted modulo 2^48. -/
theorem test_tcadd : after (.tcadd 1 8 0) ((Upd.counter 7 { owner := some 1, c := 2 ^ 48 - 2 }).apply m0) (fun t => decide ((t.counter 7).c = 3)) = true := by decide +kernel
/-- 12 R357: a ring of another context raises RANGE with its number. -/
theorem test_rngq : after (.rngq 9 1 false) ((Upd.ring 7 { owner := some 2 }).apply m0) (fun t => decide (t.here.tcause = 0x0B ∧ t.here.tval = 7)) = true := by decide +kernel
/-- 11 R316: the first region of a pan is region 0 at quad (0, 0). -/
theorem test_rgalloc : after (.rgalloc 9 1 0 false 0 0) m0 (fun t => decide (t.here.gpr 9 = 0 ∧ t.region 0 = some ⟨0, 0, 0, 2, 1, 3, []⟩)) = true := by decide +kernel
/-- 19 R452: the power limit only falls. -/
theorem test_pwrlim : after (.pwrlimWrite 0x1000) { m0 with pwrlim := 100 } (fun t => decide (t.pwrlim = 100)) = true := by decide +kernel
/-- 19 R454: a device that has tripped does nothing. -/
theorem test_tripped : (match step { m0 with harbour := { m0.harbour with tripped := true } } with | .fault .tripped => true | _ => false) = true := by decide +kernel

/-! For each statement, a state and operands that meet its hypotheses together; a statement of several clauses has one for each, at the edge of its range. -/

/-- The checks of this part are evaluated by the kernel. -/
theorem wit_ScalarIntegerResults : m0.here.canIssue [31, 1, 8] = true ∧ srcI 3 (m0.here.gpr 0) = 0 ∧ (m0.here.gpr 8).toNat % 2 ^ 8 % 8 = 5 := by decide +kernel

theorem wit_ScalarImmediateResults : m0.here.canIssue [9, 2] = true ∧ m0.here.canIssue [31] = true := by decide +kernel

theorem wit_ScalarFloatResults : m0.here.canIssue [9, 1, 2] = true := by decide +kernel

theorem wit_ScalarLoads : m0.here.looping = false ∧ m0.here.canIssue [9, 3] = true ∧ m0.Reaches (m0.here.gpr 3 + (0 : BitVec 12).signExtend 64) 8 accLoad 0x20010 m0 ∧
    m0.Reaches (m0.here.gpr 3) 1 accLoad 0x20010 m0 ∧ m0.here.canIssue [9, 5] = true ∧ m0.ReachesPan (m0.here.gpr 5 + (8 : BitVec 12).signExtend 64) 8 accLoad ∧ m0.ReachesPan (m0.here.gpr 5) 8 accLoad :=
  ⟨by decide +kernel, by decide +kernel, reaches_of (by decide +kernel), reaches_of (by decide +kernel), by decide +kernel, reachesPan_of (by decide +kernel), reachesPan_of (by decide +kernel)⟩

theorem wit_ScalarStores : m0.Good ∧ m0.here.looping = false ∧ m0.here.canIssue [3, 1] = true ∧ m0.Reaches (m0.here.gpr 3 + (1 : BitVec 12).signExtend 64) 1 accStore 0x20011 m0 ∧ m0.CanStore 0x20011 1 ∧
    m0.Reaches (m0.here.gpr 3) 8 accStore 0x20010 m0 ∧ m0.CanStore 0x20010 8 ∧
    m0.here.canIssue [5, 1] = true ∧ m0.ReachesPan (m0.here.gpr 5 + (0 : BitVec 12).signExtend 64) 8 accStore ∧ m0.CanStore 0 0 ∧ Config.panExists (panOf m0.cur) = true :=
  ⟨good_of (by decide +kernel), by decide +kernel, by decide +kernel, reaches_of (by decide +kernel), canStore_of (by decide +kernel), reaches_of (by decide +kernel), canStore_of (by decide +kernel),
   by decide +kernel, reachesPan_of (by decide +kernel), canStore_of (by decide +kernel), by decide +kernel⟩

/-- The compare of AMOCAS holds for g_d = 0 at a zero doubleword of the pan space, and fails for g8 = 5 at the word 3. -/
theorem wit_ScalarAtomics : m0.Good ∧ m0.here.looping = false ∧ m0.here.canIssue [8, 3, 1] = true ∧ m0.Reaches (m0.here.gpr 3) 4 accRmw 0x20010 m0 ∧ m0.CanStore 0x20010 4 ∧
    ¬ (m0.physRead 0x20010 4 % 2 ^ 32 = (m0.here.gpr 8).toNat % 2 ^ 32) ∧
    (let s := m0.withHere { m0.here with g := Tbl.put 0 5 0x2040 m0.here.g }
     s.Good ∧ s.here.looping = false ∧ s.here.canIssue [9, 5, 1] = true ∧ s.ReachesPan (s.here.gpr 5) 8 accRmw ∧ s.CanStore 0 0 ∧ Config.panExists (panOf s.cur) = true ∧
     s.panRead (panKey 0 0x2040) 8 % 2 ^ 64 = (s.here.gpr 9).toNat % 2 ^ 64) :=
  ⟨good_of (by decide +kernel), by decide +kernel, by decide +kernel, reaches_of (by decide +kernel), canStore_of (by decide +kernel), by decide +kernel,
   good_of (by decide +kernel), by decide +kernel, by decide +kernel, reachesPan_of (by decide +kernel), canStore_of (by decide +kernel), by decide +kernel⟩

/-- Odd and even targets for both jumps. -/
theorem wit_BranchesAndJumps : m0.here.canIssue [1, 2] = true ∧ m0.here.canIssue [9, 7] = true ∧ m0.here.looping = false ∧
    (m0.here.gpr 7 + (0 : BitVec 12).signExtend 64).toNat % 2 = 1 ∧ (m0.here.gpr 7).toNat % 2 = 1 ∧ (m0.here.gpr 7 + (1 : BitVec 12).signExtend 64).toNat % 2 = 0 ∧
    m0.here.canIssue [9, 3] = true ∧ (m0.here.gpr 3).toNat % 2 = 0 := by decide +kernel

theorem wit_AlignmentTraps : m0.here.looping = false ∧ m0.here.canIssue [9, 4] = true ∧ (m0.here.gpr 4 + (0 : BitVec 12).signExtend 64).toNat % tyBytes 1 ≠ 0 ∧
    (m0.here.gpr 4).toNat % tyBytes 3 ≠ 0 ∧ (m0.here.gpr 4).toNat % 8 ≠ 0 ∧ (m0.here.gpr 4).toNat % 2 = 1 ∧ m0.here.canIssue [4, 1] = true ∧ (m0.here.gpr 4).toNat % 2 ^ 1 ≠ 0 ∧
    m0.here.canIssue [9, 4, 1] = true ∧ (m0.here.gpr 4).toNat % 4 ≠ 0 := by decide +kernel

/-- Strand 0 in its handler, or killed. -/
def killed : State := m0.withHere { m0.here with tstatus := 8, sup := true }

theorem wit_TrapsTaken : m0.here.issues = true ∧ m0.here.looping = false ∧ m0.here.sup = false ∧ (m0.withHere { m0.here with sup := true }).here.issues = true ∧
    m0.Good ∧ (17 < 18) ∧ m0.shadowOf 0 = none ∧ bitOf (m0.strand 0).tstatus 3 = false ∧ m0.migratable 0 = false ∧
    killed.Good ∧ killed.shadowOf 0 = none ∧ bitOf (killed.strand 0).tstatus 3 = true :=
  ⟨by decide +kernel, by decide +kernel, by decide +kernel, by decide +kernel, good_of (by decide +kernel), by decide, by decide +kernel, by decide +kernel, by decide +kernel,
   good_of (by decide +kernel), by decide +kernel⟩

/-- A loop of two instructions that has stopped at the second. -/
def loop0 : Loop := { ndim := 1, regs := [], n0 := 4, cnt := [], es := [], str := [], vlmax := 8, base := [], body := [(0x40008000, .vadd 3 1 2 0 false 0), (0x40008004, .vadd 3 1 2 0 false 0)], idx := [], i0 := 0, pos := 1, resume := 0x40008008, stopped := true }

theorem wit_ExceptionReturn : (let s := m0.withHere { m0.here with sup := true, st := .trap, loop := some loop0, tpc := 0x40008004 }
     s.here.issues = true ∧ s.here.sup = true ∧ bitOf s.here.tstatus 3 = false ∧ s.here.looping = false ∧ nth 0 (loop0.body.map (·.1)) loop0.pos = s.here.tpc) ∧
    (let s := m0.withHere { m0.here with sup := true, st := .trap, tpc := 0x40008001 }
     s.here.issues = true ∧ s.here.sup = true ∧ s.here.looping = false ∧ s.here.loop = none ∧ bitOf s.here.tpc 0 = true) ∧
    killed.here.issues = true ∧ killed.here.sup = true ∧ bitOf killed.here.tstatus 3 = true ∧ killed.here.looping = false ∧ m0.here.issues = true ∧ m0.here.sup = false := by decide +kernel

theorem wit_PrivilegeTraps : m0.here.looping = false ∧ m0.here.sup = false ∧ m0.here.canIssue [9, 1, 2] = true ∧ 0x800 ≤ (0x800 : BitVec 12).toNat ∧ isMgmt m0.cur = false := by decide +kernel

/-- Context 1 of the tests. -/
def ctx1 : Ctx := ⟨0, 0, 4096, 0x1000, 4, 3, [], 0x777, 0x40000, 0x80000000, []⟩
def sup0 : State := { m0.withHere { m0.here with sup := true } with contexts := [(1, some ctx1)] }

theorem wit_ControlReads : sup0.here.canIssue [9] = true ∧ sup0.here.looping = false ∧ isMgmt sup0.cur = false ∧ sup0.here.sup = true ∧ sup0.context sup0.here.ctx = some ctx1 ∧
    sup0.resOf (panOf sup0.cur) sup0.here.ctx = some 0 := by decide +kernel

/-- An even value for the `kill` word, an odd one elsewhere. -/
theorem wit_ControlWrites : sup0.Good ∧ sup0.here.canIssue [1] = true ∧ isMgmt sup0.cur = false ∧ sup0.here.sup = true ∧ sup0.here.looping = false ∧ sup0.here.canIssue [2] = true ∧ bitOf (sup0.here.gpr 2) 0 = false ∧
    sup0.resOf 0 sup0.here.ctx = some 0 ∧ sup0.panHeld 0 = false ∧ sup0.context sup0.here.ctx = some ctx1 ∧ sup0.here.ctx ≠ 0xFFFF :=
  ⟨good_of (by decide +kernel), by decide +kernel⟩

/-- The translation of the page at 0x40000000. -/
def ent0 : TlbEnt := ⟨1, 16, 0x4000, leafPlain⟩

/-- A failed posted store does not hold RDGT, and answers a fence of kind 0 that has no failed one. -/
theorem wit_SystemInstructions_plain : m0.here.issues = true ∧ m0.here.looping = false ∧ (4 : BitVec 3).toNat ≠ 5 ∧ (∀ p ∈ m0.here.posted, p.fail = none) ∧ m0.releases none ∧ m0.Good ∧
    m0.here.latch = false ∧ (m0.withHere { m0.here with latch := true }).here.latch = true ∧ (∀ b blk, m0.here.block = some b → m0.block b = some blk → blk.preempt = false) ∧
    m0.here.canIssue [9, 3] = true ∧ m0.here.canIssue [1] = true ∧ m0.here.vq = [] ∧ isMgmt m0.cur = false ∧ (∀ p ∈ m0.here.posted, p.fail.isSome = true) ∧
    m0.probes 0 (m0.here.gpr 3) { accLoad with cached := true } = (.ok ent0, m0) ∧ m0.locOf ent0 (m0.here.gpr 3).toNat = .mem 0x20010 ∧ m0.finds 0 (m0.here.gpr 3) = (some ent0, m0) ∧
    m0.finds 0 0x50000000 = (none, m0) ∧ bitOf (m0.here.gpr 3) 63 = false ∧ m0.checkCinv m0.here.sup ent0 (m0.here.gpr 3).toNat = none := by
  refine ⟨by decide +kernel, by decide +kernel, by decide, by decide +kernel, ⟨by decide +kernel, by decide +kernel⟩, good_of (by decide +kernel), by decide +kernel, by decide +kernel,
    fun b _ h => (by cases h), by decide +kernel, by decide +kernel, by decide +kernel, by decide +kernel, by decide +kernel, ?_, ?_, ?_, ?_, by decide +kernel⟩ <;> rfl
/-- The last running strand of its block. -/
def blk0 (st : BlockSt) : Block := ⟨6, 1, 0, st, 0, 0, [0], [0], 0, false, false, false, false, false, [], []⟩
def kern0 : Kernel := ⟨3, 5, 1, [0x2, 1, 0, 0, 0], [1, 0, 0, 0, 0, 0x1000, 0x10, 0x55, 0, 0, 0, 0, 0, 0, 0, 0], 1, 1, 1, 0, 1, 0, false, 2, none, false⟩
def inBlock (st : BlockSt) (k : StrandSt) : State := { m0.withHere { m0.here with block := some 7, st := k } with
  blocks := [(7, some (blk0 st))], kernels := [(6, some kern0)], contexts := [(1, some ctx1)], queues := [(5, { begun := [3] })] }

theorem wit_ControlWrites_kill : (let s := (inBlock .running .run).withHere { (inBlock .running .run).here with sup := true, g := tbl [0, 1] }
    s.Good ∧ s.here.canIssue [1] = true ∧ s.here.looping = false ∧ s.here.sup = true ∧ bitOf (s.here.gpr 1) 0 = true ∧ s.shadowOf s.cur = none ∧ s.here.block = some 7 ∧ s.block 7 = some (blk0 .running) ∧ 0 ∈ s.blockStrands (blk0 .running)) :=
  ⟨good_of (by decide +kernel), by decide +kernel⟩

theorem wit_SystemInstructions_exit : (let s := inBlock .running .run
    s.Good ∧ s.here.issues = true ∧ s.here.busy = false ∧ s.here.posted = [] ∧ s.here.copies = [] ∧ s.here.block = some 7 ∧ s.block 7 = some (blk0 .running) ∧
    (s.blockStrands (blk0 .running)).all (fun j => decide (j = s.cur) || decide ((s.strand j).st = .idle)) = true) :=
  ⟨good_of (by decide +kernel), by decide +kernel⟩

/-- The largest operands in range, an invalidation of this strand that is done, and one that can retire. -/
theorem wit_Invalidations : (let s := sup0.withHere { sup0.here with g := tbl [0, 0xFFFF, 0xFFFFFFFFFFF] }
     s.here.canIssue [1, 2] = true ∧ s.here.looping = false ∧ (∀ p ∈ s.here.posted, p.fail.isSome = true) ∧ s.here.sup = true ∧ (∀ v ∈ s.invs, v.key ≠ s.cur) ∧ (s.here.gpr 1).toNat < 2 ^ 16 ∧ (s.here.gpr 2).toNat < 2 ^ 44) ∧
    (let s := { sup0 with invs := [⟨4, .all, 8, false⟩, ⟨5, .ctx 1, 0, true⟩] }
     s.invs.find? (fun x => decide (x.key = s.cur)) = some ⟨5, .ctx 1, 0, true⟩ ∧ s.here.canIssue [1, 2] = true ∧
     s.noHolder = true ∧ s.invs.find? (fun x => decide (x.id = 4)) = some ⟨4, .all, 8, false⟩) ∧ sup0.Good :=
  ⟨by decide +kernel, by decide +kernel, good_of (by decide +kernel)⟩

/-! Vector and small-matrix statements. -/

theorem wit_VectorIntegerResults : (vm 2 4).VecReady [8] ∧ (vm 2 4).here.active 1 4 = [0, 1, 3] := ⟨vecReady_of (by decide +kernel), by decide +kernel⟩

/-- SEW 4 with an even group, SEW 8, and an odd group. -/
theorem wit_VectorWidthChanges : (vm 2 4).VecReady [] ∧ (vm 2 4).here.sew < 8 ∧ (30 : BitVec 5).toNat % 2 = 0 ∧ (vm 3 4).VecReady [] ∧ (vm 3 4).here.sew = 8 ∧ (31 : BitVec 5).toNat % 2 = 1 :=
  ⟨vecReady_of (by decide +kernel), by decide +kernel, by decide, vecReady_of (by decide +kernel), by decide +kernel⟩

/-- Each SEW, with VFCVT to a format of twice the width in an even group. -/
theorem wit_VectorFloatResults : (vm 0 4).VecReady [] ∧ (vm 1 4).VecReady [] ∧ (vm 1 4).here.sew ≠ 1 ∧ (vm 2 4).VecReady [8] ∧ 4 ≤ (vm 2 4).here.sew ∧ (vm 3 4).VecReady [] ∧
    (30 : BitVec 5).toNat % max 1 (tyBytes 8 / (vm 2 4).here.sew) = 0 ∧ (13 : BitVec 4).toNat < 14 :=
  ⟨vecReady_of (by decide +kernel), vecReady_of (by decide +kernel), by decide +kernel, vecReady_of (by decide +kernel), by decide +kernel, vecReady_of (by decide +kernel), by decide +kernel⟩

theorem wit_VectorMasksAndReductions : (vm 2 4).VecReady [9, 8] ∧ (vm 2 0).VecReady [] ∧ (vm 2 0).here.vl = 0 ∧ (vm 1 1024).VecReady [] ∧ (vm 1 1024).here.vl ≠ 0 :=
  ⟨vecReady_of (by decide +kernel), vecReady_of (by decide +kernel), by decide +kernel, vecReady_of (by decide +kernel), by decide +kernel⟩

/-- VL 4 = 2^2; a count at VLMAX − 1 and at VLMAX; VHAD of 4 and of 3 elements. -/
theorem wit_VectorPermutes : (vm 2 4).VecReady [9, 3, 8] ∧ (vm 2 4).here.vl = 2 ^ 2 ∧ (31 : BitVec 5).toNat < (vm 2 4).vlmax 0 4 ∧ (vm 2 4).vlmax 0 4 ≤ ((vm 2 4).here.gpr 3).toNat ∧
    2 ^ ((0 : BitVec 4).toNat + (2 : BitVec 4).toNat) ≤ (vm 2 4).here.vl ∧ tyBytes (2 : BitVec 4).toNat = (vm 2 4).here.sew ∧
    (vm 2 3).VecReady [] ∧ (vm 2 3).here.vl ≠ 0 ∧ ¬ 2 ^ ((0 : BitVec 4).toNat + (2 : BitVec 4).toNat) ≤ (vm 2 3).here.vl :=
  ⟨vecReady_of (by decide +kernel), by decide +kernel, by decide +kernel, by decide +kernel, by decide +kernel, by decide +kernel, vecReady_of (by decide +kernel), by decide +kernel⟩

theorem wit_VectorLength : m0.Good ∧ m0.here.canIssue [9, 2] = true ∧ isMgmt m0.cur = false ∧ m0.here.looping = false :=
  ⟨good_of (by decide +kernel), by decide +kernel⟩

/-- A clean v9 has a record of one doubleword, which reads back; 3 is no header. -/
theorem wit_VectorSpill : (let s := vm 2 4
     s.VecReady [3, 9] ∧ (s.here.gpr 3).toNat % 8 = 0 ∧ ((s.here.vreg 9).record (fld s.here.vcfg 12 2)).length / 8 = 1 ∧
     s.Meets false (s.here.gpr 3 + word (8 * 0)) 8 accStore 0x20010 ∧ s.Storable false 0x20010 8 ∧ s.Meets false (s.here.gpr 3) 8 accLoad 0x20010 ∧
     (∀ r ∈ s.fabric.requests, r.who ≠ .strand s.cur)) ∧ recBad 0 2048 = false ∧ recLen 0 = 8 ∧ recBad 0xFFFFFFFFFFFFFFFF 2048 = true ∧
    (3 < 4 ∧ ({} : VReg).vlb ≤ 1024 ∧ ({} : VReg).vlb % 8 = 0) :=
  ⟨⟨vecReady_of (by decide +kernel), by decide +kernel, by decide +kernel, meets_of (by decide +kernel), storable_of (by decide +kernel), meets_of (by decide +kernel), by decide +kernel⟩,
   by decide +kernel, by decide +kernel⟩

/-- The active elements 0, 1 and 3 of a vector of 4 at 0x40000010, in memory and, at 0x2010, in the pan space. -/
theorem wit_VectorLoads : (let s := vm 2 4
     s.VecReady [3] ∧ s.VecReady [3, 1] ∧ s.here.active 1 4 = [0, 1, 3] ∧ (∀ j ∈ [0, 1, 3], s.Meets false (s.here.gpr 3 + word (j * 4)) 4 accLoad (0x20010 + 4 * j)) ∧
     s.Meets false (s.here.gpr 3 + word (s.here.velem (vlenOf s.cur) 1 4 3)) 4 accLoad 0x20020 ∧ (24 : BitVec 5).toNat + (7 : BitVec 3).toNat ≤ 31 ∧ 4 * 4 ≤ vlenOf s.cur ∧
     31 < (25 : BitVec 5).toNat + (7 : BitVec 3).toNat) ∧
    (let s := vm 2 4 0x2010
     s.VecReady [3] ∧ ∀ j ∈ [0, 1, 3], s.Meets true (s.here.gpr 3 + word (j * 4)) 4 accLoad (0x2010 + 4 * j)) ∧
    (let s := vm 2 4 0x40000013
     s.VecReady [3] ∧ s.here.held = [] ∧ (s.here.gpr 3).toNat % 4 ≠ 0 ∧ s.here.active 2 4 = [1, 2]) ∧ (vm 2 0).VecReady [3] ∧ (vm 2 0).here.active 1 0 = [] := by
  refine ⟨⟨vecReady_of (by decide +kernel), vecReady_of (by decide +kernel), by decide +kernel, ?_, meets_of (by decide +kernel), by decide +kernel⟩,
    ⟨vecReady_of (by decide +kernel), ?_⟩, ⟨vecReady_of (by decide +kernel), by decide +kernel⟩, vecReady_of (by decide +kernel), by decide +kernel⟩
  · intro j hj; simp only [List.mem_cons, List.not_mem_nil, or_false] at hj; obtain rfl | rfl | rfl := hj <;> exact meets_of (by decide +kernel)
  · intro j hj; simp only [List.mem_cons, List.not_mem_nil, or_false] at hj; obtain rfl | rfl | rfl := hj <;> exact meetsPan_of (by decide +kernel)

theorem wit_VectorStores : (let s := vm 2 4
     s.VecReady [3] ∧ s.VecReady [3, 4] ∧ (∀ j ∈ [0, 1, 3], s.Meets false (s.here.gpr 3 + word (j * 4)) 4 accStore (0x20010 + 4 * j) ∧ s.Storable false (0x20010 + 4 * j) 4) ∧
     s.Meets false (s.here.gpr 4) 8 accRmw 0x20038) ∧
    (let s := vm 2 4 0x2010
     s.VecReady [3] ∧ ∀ j ∈ [0, 1, 3], s.Meets true (s.here.gpr 3 + word (j * 4)) 4 accStore (0x2010 + 4 * j) ∧ s.Storable true (0x2010 + 4 * j) 4) := by
  refine ⟨⟨vecReady_of (by decide +kernel), vecReady_of (by decide +kernel), ?_, meets_of (by decide +kernel)⟩, ⟨vecReady_of (by decide +kernel), ?_⟩⟩
  · intro j hj; simp only [List.mem_cons, List.not_mem_nil, or_false] at hj; obtain rfl | rfl | rfl := hj <;> exact ⟨meets_of (by decide +kernel), storable_of (by decide +kernel)⟩
  · intro j hj; simp only [List.mem_cons, List.not_mem_nil, or_false] at hj; obtain rfl | rfl | rfl := hj <;> exact ⟨meetsPan_of (by decide +kernel), storablePan_of (by decide +kernel)⟩

/-- A pending group of one element in memory, and a notification of scope 5. -/
def group0 : VldaGroup := ⟨4, 0, 4, [(0, 0x40000010, .at_ (.mem 0x20010))], []⟩
def pending (poison : NSet) : State := { m0.withHere { m0.here with vlda := [group0], ntf := [⟨0, 5, 0x40000038, .mem 0x20038, 3⟩] } with poison := poison }

theorem wit_VectorPending : (vm 2 4).VecReady [3] ∧ (∀ j ∈ [0, 1, 3], (vm 2 4).Meets false ((vm 2 4).here.gpr 3 + word (j * 4)) 4 { accLoad with cached := true } (0x20010 + 4 * j)) ∧
    (pending []).Good ∧ ((pending []).strand 0).vlda = group0 :: [] ∧ (pending []).taskOf 0 = none ∧ (∀ r ∈ (pending []).fabric.requests, r.who ≠ .vlda 0) ∧
    (∀ e ∈ group0.elems, (∃ y, e.2.2 = .pan y) ∨ ∃ y, e.2.2 = .at_ (.mem y)) ∧ group0.sew = 2 ^ 2 ∧ 2 < 4 ∧ (∀ e ∈ group0.elems, e.1 < 2048) ∧ (group0.elems.map (·.1)).Nodup ∧
    (pending []).poisonedAt 0x20010 4 = false ∧ (pending [0x800]).Good ∧ (pending [0x800]).poisonedAt 0x20010 4 = true ∧
    ((pending []).strand 0).ntf = ⟨0, 5, 0x40000038, .mem 0x20038, 3⟩ :: [] ∧ (pending []).postedBefore 0 none = false ∧ (pending []).tasks = [] ∧ 0x20038 % 8 = 0 ∧ (∀ i < 8, (pending []).home (0x20038 + i) < memLimit) := by
  refine ⟨vecReady_of (by decide +kernel), ?_, good_of (by decide +kernel), by decide +kernel, by decide +kernel, by decide +kernel, ?_, by decide, by decide, by decide, by decide,
    by decide +kernel, good_of (by decide +kernel), by decide +kernel⟩
  · intro j hj; simp only [List.mem_cons, List.not_mem_nil, or_false] at hj; obtain rfl | rfl | rfl := hj <;> exact meets_of (by decide +kernel)
  · intro e he; simp only [group0, List.mem_cons, List.not_mem_nil, or_false] at he; subst he; exact .inr ⟨_, rfl⟩

/-- Under SEW 4, where two of the elements are at one place, and SEW 1. -/
theorem wit_VectorAtomics : (let s := vm 2 4
     s.VecReady [3] ∧ s.here.held = [] ∧ s.here.amo = [] ∧ (∀ r ∈ s.fabric.requests, r.who ≠ .strand s.cur) ∧ s.here.active 0 3 = [0, 1, 2] ∧ (vm 2 3).here.vl = 3 ∧ (vm 2 3).VecReady [3] ∧
     ∀ j ∈ [0, 1, 2], (vm 2 3).Meets false ((vm 2 3).here.gpr 3 + word ((vm 2 3).here.velem (vlenOf 0) 1 4 j)) 4 accRmw (0x20010 + (vm 2 3).here.velem (vlenOf 0) 1 4 j) ∧
       (vm 2 3).Storable false (0x20010 + (vm 2 3).here.velem (vlenOf 0) 1 4 j) 4) ∧
    (vm 0 4).VecReady [3] ∧ (vm 0 4).here.sew < 4 := by
  refine ⟨⟨vecReady_of (by decide +kernel), by decide +kernel, by decide +kernel, by decide +kernel, by decide +kernel, by decide +kernel, vecReady_of (by decide +kernel), ?_⟩, vecReady_of (by decide +kernel), by decide +kernel⟩
  intro j hj; simp only [List.mem_cons, List.not_mem_nil, or_false] at hj; obtain rfl | rfl | rfl := hj <;> exact ⟨meets_of (by decide +kernel), storable_of (by decide +kernel)⟩


/-- Two captured instructions, VADD and VSUB, at 0x40008008 in a cached line. -/
def body0 : List (Word × Instr) := [(0x40008008, .vadd 5 6 7 0 false 0), (0x4000800C, .vsub 5 6 7 1 false 0)]

/-- A machine about to execute VLOOP [g3], 2, with the descriptor's dwords at 0x40000000. -/
def loopAt (dw : List Nat) : State :=
  let s := mach { str0 [0, 7, 24, 0x40000000] with vcfg := 0x43005 } dw
  { s with pans := [(0, { s.pan 0 with icache := [⟨1, 0x40008000 / 128, BitVec.ofNat 1024 (0x00731409 * 2 ^ 64 + 0x02731419 * 2 ^ 96)⟩] })] }

/-- One dimension of n0 = 150 with two registers, g8 and g9; the same with a count of 0 in a second dimension; and a malformed one. -/
def desc1 (n0 : Nat) : List Nat := [0x94011, n0, 0, 0, 0, 0x0000000800000008] ++ List.replicate 18 0
def desc2 : List Nat := [0x94012, 150, 0, 0, 0, 0x0000000800000008] ++ List.replicate 18 0

theorem wit_VectorLoops_start : (let s := loopAt (desc1 150)
     s.Good ∧ s.here.canIssue [3] = true ∧ isMgmt s.cur = false ∧ s.here.looping = false ∧ s.here.replies = [] ∧ (∀ r ∈ s.fabric.requests, r.who ≠ .strand s.cur) ∧
     (s.here.gpr 3).toNat % 64 = 0 ∧ (∀ i < 24, s.Reaches (s.here.gpr 3 + word (8 * i)) 8 accLoad (0x20000 + 8 * i) s) ∧
     loopBad ((List.range 24).map fun i => word (s.physRead (0x20000 + 8 * i) 8)) = false ∧ body0.length = (1 : BitVec 5).toNat + 1 ∧ s.holdsBody (s.here.pc + 8) body0 0x40008010) := by
  refine ⟨good_of (by decide +kernel), by decide +kernel, by decide +kernel, by decide +kernel, by decide +kernel, by decide +kernel, by decide +kernel, ?_, by decide +kernel, by decide, holdsBody_of (by decide +kernel)⟩
  have h : (List.range 24).all (fun i => reachesB (loopAt (desc1 150)) ((loopAt (desc1 150)).here.gpr 3 + word (8 * i)) 8 accLoad (0x20000 + 8 * i)) = true := by decide +kernel
  exact fun i hi => reaches_of (List.all_eq_true.mp h i (List.mem_range.mpr hi))

theorem wit_VectorLoops_empty : loopBad ((List.range 24).map fun i => word ((loopAt (desc1 0)).physRead (0x20000 + 8 * i) 8)) = false ∧ fld (word ((loopAt (desc1 0)).physRead 0x20008 8)) 0 48 = 0 ∧
    loopBad ((List.range 24).map fun i => word ((loopAt desc2).physRead (0x20000 + 8 * i) 8)) = false ∧
    loopBad ((List.range 24).map fun i => word ((loopAt [7]).physRead (0x20000 + 8 * i) 8)) = true := by decide +kernel

/-- A loop in its second strip, at its second instruction; and one whose vector queue is full. -/
def loop1 : Loop := { ndim := 2, regs := [8, 9], n0 := 150, cnt := [3], es := [8, 8], str := [16, -7], vlmax := 32, base := [0x100, 0x200], body := body0, idx := [1], i0 := 128, pos := 1, resume := 0x40008010, stopped := false }
def looped (q : List VqEntry) : State := let s := loopAt (desc1 150); s.withHere { s.here with loop := some loop1, pc := 0x40008010, vq := q }

theorem wit_VectorLoops_strip : (let s := looped []
     s.Good ∧ (s.strand 0).loop = some loop1 ∧ loop1.stopped = false ∧ (s.strand 0).st = .run ∧ loop1.body ≠ [] ∧ loop1.pos < loop1.body.length ∧
     ∃ t, State.issuesBody 0 (loop1.body.drop loop1.pos) { (Upd.strand 0 (s.strand 0)).apply s with cur := 0 } t) ∧
    16 ≤ ((looped (List.replicate 16 ⟨0, 3⟩)).strand 0).vq.length := by
  refine ⟨⟨good_of (by decide +kernel), by decide +kernel, by decide, by decide +kernel, by decide, by decide, ?_⟩, by decide +kernel⟩
  have h : (issueAll 0 (loop1.body.drop loop1.pos) { (Upd.strand 0 ((looped []).strand 0)).apply (looped []) with cur := 0 }).isSome = true := by decide +kernel
  obtain ⟨t, ht⟩ := Option.isSome_iff_exists.mp h
  exact ⟨t, issuesBody_of ht⟩

/-- q1 is 2 × 3 and q2 3 × 2 of binary64, q3 2 × 2 of binary32; one lane of q1 has its first element at `a`. -/
def qm (sew : Nat) : State :=
  let s := vm sew 2
  s.withHere { s.here with q := [(1, { shape := 0x5A, slots := [(0, 0x3FF0000000000000)] }), (2, { shape := 0x53 }), (3, { shape := 0x12 })] }

theorem wit_SmallMatrixMoves : (let s := qm 3
     s.VecReady [] ∧ s.VecReady [3, 2] ∧ (s.here.qreg 1).rows = 2 ∧ (s.here.qreg 1).cols = 3 ∧ s.here.active 2 2 = [1] ∧ s.here.sew = (s.here.qreg 1).bytes ∧
     (1 : BitVec 3).toNat < (s.here.qreg 1).rows ∧ (2 : BitVec 3).toNat < (s.here.qreg 1).cols) ∧
    (let s := (qm 2).withHere { (qm 2).here with g := tbl [0, 0, 16, 0x40000000] }
     s.VecReady [3, 2] ∧ (s.here.qreg 3).rows = 2 ∧ (s.here.qreg 3).cols = 2 ∧ s.here.active 0 2 = [0, 1] ∧
     ∀ l ∈ [0, 1], ∀ e < 2 * 2, s.Meets false (s.here.gpr 3 + word l * s.here.gpr 2 + word (e * (s.here.qreg 3).bytes)) 4 accStore (0x20000 + 16 * l + 4 * e) ∧ s.Storable false (0x20000 + 16 * l + 4 * e) 4) := by
  refine ⟨⟨vecReady_of (by decide +kernel), vecReady_of (by decide +kernel), by decide +kernel⟩,
    vecReady_of (by decide +kernel), by decide +kernel, by decide +kernel, by decide +kernel, ?_⟩
  intro l hl e he
  simp only [List.mem_cons, List.not_mem_nil, or_false] at hl
  have : e = 0 ∨ e = 1 ∨ e = 2 ∨ e = 3 := by omega
  obtain rfl | rfl := hl <;> obtain rfl | rfl | rfl | rfl := this <;> exact ⟨meets_of (by decide +kernel), storable_of (by decide +kernel)⟩

/-- Shapes that agree and shapes that do not; SEW 4 and SEW 1; a profile B pan. -/
theorem wit_SmallMatrixArithmetic : (let s := qm 2
     let A := s.here.qreg 1
     let B := s.here.qreg 2
     let C := s.here.qreg 3
     s.VecReady [] ∧ isShoal s.cur = false ∧ A.rows ≤ 6 ∧ A.cols ≤ 6 ∧ B.rows ≤ 6 ∧ B.cols ≤ 6 ∧ A.f64 = B.f64 ∧ A.cols = B.rows ∧ C.rows = C.cols ∧ 4 ≤ s.here.sew ∧ A.rows ≠ A.cols ∧
     A.f64 ≠ C.f64 ∧ A.shape ≠ B.shape ∧ s.here.sew = C.bytes ∧ C.rows ≤ (2 : BitVec 3).toNat ∧ s.here.sew ≠ A.bytes ∧
     (∀ l ∈ s.here.active 0 2, let piv := s.here.velem (vlenOf s.cur) 9 4 l; piv < 8 ^ C.rows ∧ ∀ k < C.rows, piv / 8 ^ k % 8 < C.rows)) ∧
    (qm 0).VecReady [] ∧ (qm 0).here.sew < 4 ∧
    (let s := { qm 2 with cur := 4 * (128 * 6), strands := [(4 * (128 * 6), str0 [])] }
     s.VecReady [] ∧ isShoal s.cur = true) :=
  ⟨⟨vecReady_of (by decide +kernel), by decide +kernel, by decide +kernel, by decide +kernel, by decide +kernel, by decide +kernel, by decide +kernel, by decide +kernel, by decide +kernel,
    by decide +kernel, by decide +kernel⟩,
   vecReady_of (by decide +kernel), by decide +kernel, vecReady_of (by decide +kernel), by decide +kernel⟩

/-- The unit matrix of 2 × 2 has no zero pivot; a zero matrix fails at its first column. -/
theorem wit_FactorizationRecurrences : (let F := fmtOf 8
     let one := 0x3FF0000000000000
     let a : Mat := [one, 0, 0, 0, 0, 0, 0, one] ++ List.replicate 28 0
     a.length = 36 ∧ (luMat F 0 2 a).fail = false ∧ (cholMat F 0 2 a).2 = false ∧ (cholMat F 0 2 (List.replicate 36 0)).2 = true) := by decide +kernel

/-- A strand about to give a command: registers from g1 on and the dwords of its operand block at 0x40000000. -/
def cmd (g : List Nat) (ws : List Nat) : State := mach (str0 (0 :: g)) ws

/-- The dwords of an operand block, and where dword `i` is. -/
def blk (xs : List Nat) : List Word := xs.map word
def at0 (i : Nat) : Nat := 0x20000 + 8 * i

/-- A descriptor of a ring of four slots of 64 bytes, and the ring; the last ring and counter number; a counter with two armed operations. -/
def rdw : List Nat := [0x40001000, 6 + 4 * 2 ^ 8 + 3 * 2 ^ 25, 0, 0]
def ring0 : Ring := { owner := some 1, base := 0x40001000, lsz := 6, nslot := 4, scope := 3, rd := 4, wr := 6, rsv := 6 }
def ringS (n : Nat) (r : Option Ring) : State := { cmd [n, 0x40000000] rdw with rings := r.toList.map fun x => (n, x) }
def armedCmd (id : Nat) : Cmd := { id := id, ctx := 1, src := .armed, descVA := 0, dw := [], bad := none, running := false, chunk := 0, count := 0, slot := none, cancel := false, block := none, task := none, sup := false, spos := 0, replies := [] }
def ctr0 : Counter := { c := 100, owner := some 1, fault := some 3, armed := [⟨105, 0, none, .copy 3 (armedCmd 9)⟩, ⟨200, 0, none, .copy 4 (armedCmd 10)⟩] }
def ctrS (n v : Nat) (k : Option Counter) : State := { cmd [n, v, 2 ^ 63] [] with counters := k.toList.map fun x => (n, x) }

theorem wit_RingsAndCounters_rings :
    (let s := ringS 32767 none
     s.CanCommand [9, 1, 2] ∧ (s.here.gpr 1).toNat < 2 ^ 15 ∧ (blk rdw).length = 4 ∧ (s.here.gpr 2).toNat % 32 = 0 ∧ s.Words (s.here.gpr 2) (blk rdw) ∧
     ringBad (blk rdw) = false ∧ ringBad (blk [1, 2, 3, 4]) = true ∧ (s.ring 32767).owner = none) ∧
    (let s := ringS 32767 (some ring0)
     let r := s.ring 32767
     s.CanCommand [9, 1] ∧ s.CanCommand [1] ∧ s.CanCommand [9, 1, 0] ∧ s.here.gpr 0 = 0 ∧ r.owner = some s.here.ctx ∧ ringReady r = true ∧ r.rd ≠ r.wr ∧ r.scope ≠ 5 ∧ s.releases none) ∧
    (let r := (ringS 32767 (some { ring0 with wr := 4, rsv := 4 })).ring 32767
     r.owner = some 1 ∧ ringReady r = false ∧ r.rd = r.wr) ∧
    (let s := ringS 32768 none
     s.CanCommand [9, 1] ∧ 2 ^ 15 ≤ (s.here.gpr 1).toNat) :=
  ⟨⟨canCommand_of (by decide +kernel), by decide +kernel, by decide, by decide +kernel, words_of (pa := at0) (by decide +kernel), by decide +kernel⟩,
   ⟨canCommand_of (by decide +kernel), canCommand_of (by decide +kernel), canCommand_of (by decide +kernel), by decide +kernel, by decide +kernel, by decide +kernel, by decide +kernel, by decide +kernel, releases_of (by decide +kernel)⟩,
   by decide +kernel, canCommand_of (by decide +kernel), by decide +kernel⟩

theorem plain_of {c : Counter} (h : (c.goes.all fun a => match a.op with | .coll _ => false | _ => true) = true) : c.plain := by
  intro a ha x e
  have := List.all_eq_true.mp h a ha
  rw [e] at this
  cases this

theorem wit_RingsAndCounters_counters :
    (let s := ctrS 8191 5 none
     s.CanCommand [1, 2] ∧ s.CanCommand [1, 3] ∧ (s.here.gpr 1).toNat < 2 ^ 13 ∧ (s.counter 8191).owner = none ∧ fld (s.here.gpr 2) 48 15 = 0 ∧ s.releases none ∧ bitOf (s.here.gpr 2) 63 = false ∧
     ({ s.counter 8191 with owner := some s.here.ctx, c := fld (s.here.gpr 2) 0 48, fault := none } : Counter).plain ∧ bitOf (s.here.gpr 3) 63 = true ∧ (s.counter 8191).armed = []) ∧
    (let s := ctrS 8191 5 (some ctr0)
     s.CanCommand [1, 2] ∧ s.CanCommand [9, 1, 2] ∧ s.CanCommand [1, 3] ∧ (s.counter 8191).owner = some s.here.ctx ∧ (s.here.gpr 2).toNat < 2 ^ 32 ∧ s.releases none ∧
     ({ s.counter 8191 with c := ((s.counter 8191).c + (s.here.gpr 2).toNat) % 2 ^ 48 } : Counter).plain ∧ (s.counter 8191).armed ≠ [] ∧ ((s.counter 8191).c + 2 ^ 48 - (s.here.gpr 2).toNat) % 2 ^ 48 < 2 ^ 47) ∧
    ¬ (((ctrS 8191 101 (some ctr0)).counter 8191).c + 2 ^ 48 - 101) % 2 ^ 48 < 2 ^ 47 ∧
    (ctrS 8192 5 none).CanCommand [9, 1, 2] ∧ 2 ^ 13 ≤ ((ctrS 8192 5 none).here.gpr 1).toNat := by
  refine ⟨⟨canCommand_of (by decide +kernel), canCommand_of (by decide +kernel), by decide +kernel, by decide +kernel, by decide +kernel, releases_of (by decide +kernel), by decide +kernel, ?_, by decide +kernel⟩,
    ⟨canCommand_of (by decide +kernel), canCommand_of (by decide +kernel), canCommand_of (by decide +kernel), by decide +kernel, by decide +kernel, releases_of (by decide +kernel), ?_, by decide +kernel⟩,
    by decide +kernel, canCommand_of (by decide +kernel), by decide +kernel⟩ <;> exact plain_of (by decide +kernel)

/-- A launch record for queue `q` with the kind of its completion, its arguments and its completion word. -/
def rec0 (q ck narg cobj : Nat) : List Nat := [0xA01 + q * 2 ^ 52, narg * 2 ^ 51 + ck * 2 ^ 55 + 1, 0, cobj, 0] ++ List.replicate narg 77
def q3 : LQueue := { cfg := word (2 ^ 48 + 2 ^ 47 + 4 * 2 ^ 36 + 3 * 2 ^ 28 + 5) }
def q3full : LQueue := { cfg := word (2 ^ 48 + 2 ^ 47 + 2 ^ 36 + 3 * 2 ^ 28 + 1), recs := [{ id := 1, dw := [], kernel := none, next := 0, bound := none }] }
def launchS (r : List Nat) (q : LQueue) : State := { cmd [0x40000000] r with queues := [(3, q)] }

/-- A join record at 0x40000040 that is open, and one that is not. -/
def spawn0 : List Nat := rec0 3 3 2 0x40000040 ++ [0, 5, 0]

theorem wit_LaunchCommands :
    (let s := launchS (rec0 3 0 14 0) q3
     let dw := blk (rec0 3 0 14 0)
     s.CanCommand [9, 1] ∧ s.Words (s.here.gpr 1) dw ∧ (s.here.gpr 1).toNat % 8 = 0 ∧ (dw.length = if recNargs dw ≤ 14 then 5 + recNargs dw else 5) ∧ s.recMalformed s.here.ctx dw = false ∧ recCkind dw ≠ 3 ∧
     (s.queue (recQueue dw)).ctx = s.here.ctx ∧ (s.queue (recQueue dw)).prio ≠ 7 ∧ ¬ (s.queue (recQueue dw)).cap ≤ (s.queue (recQueue dw)).recs.length ∧ (s.queue (recQueue dw)).shadow = none) ∧
    (let s := launchS (rec0 3 0 15 0) q3
     let dw := blk ((rec0 3 0 15 0).take 5)
     s.CanCommand [9, 1] ∧ s.Words (s.here.gpr 1) dw ∧ (dw.length = if recNargs dw ≤ 14 then 5 + recNargs dw else 5) ∧ s.recMalformed s.here.ctx dw = true) ∧
    (let s := launchS spawn0 q3
     let dw := blk (rec0 3 3 2 0x40000040)
     s.CanCommand [9, 1] ∧ s.Words (s.here.gpr 1) dw ∧ s.Reaches (nth 0 dw 3) 16 accRmw 0x20040 s ∧ s.recMalformed s.here.ctx dw = false ∧ recCkind dw = 3 ∧ (s.queue (recQueue dw)).ctx = s.here.ctx ∧
     s.tasks = [] ∧ (∀ i < 4, s.home (0x20040 + i) < memLimit) ∧ s.sched.held = [] ∧ s.physRead 0x20040 8 = 5 ∧ s.physRead 0x20048 8 = 0) ∧
    (launchS spawn0 q3full).recMalformed 1 (blk (rec0 3 3 2 0x40000040)) = false ∧ ((launchS spawn0 q3full).queue 3).cap ≤ ((launchS spawn0 q3full).queue 3).recs.length ∧
    (let s := launchS spawn0 { q3full with recs := [] }
     let t := { s.withHere { s.here with spawn := some (.room 6) } with sched := { s.sched with held := [(3, [], some 6)] } }
     (∃ x ∈ t.sched.held, x.1 = 3) ∧ t.here.spawn = some (.room 6) ∧ (∃ x ∈ t.sched.held, x.2.2 = some 6) ∧ t.here.canIssue [9, 1] = true ∧ isMgmt t.cur = false ∧ t.here.looping = false ∧
     ∀ x ∈ ({ t with sched := s.sched } : State).sched.held, x.2.2 ≠ some 6) ∧
    (let s := launchS (rec0 4 0 2 0) q3
     s.recMalformed s.here.ctx (blk (rec0 4 0 2 0)) = false ∧ (s.queue 4).ctx ≠ s.here.ctx) :=
  ⟨⟨canCommand_of (by decide +kernel), words_of (pa := at0) (by decide +kernel), by decide +kernel⟩,
   ⟨canCommand_of (by decide +kernel), words_of (pa := at0) (by decide +kernel), by decide +kernel⟩,
   ⟨canCommand_of (by decide +kernel), words_of (pa := at0) (by decide +kernel), reaches_of (by decide +kernel), by decide +kernel⟩,
   by decide +kernel, by decide +kernel⟩

/-- A machine whose page at 0x40000000 has this leaf, with this fabric and the strand's wait; the page of device 5 of the domain. -/
def ownS (w : Wait) (f : Fabric) (leaf : Word) : State :=
  let s := cmd [0x40000000] [1, 2, 3]
  { s.withHere { s.here with wait := w } with
    fabric := f, harbour := { domtab := [(0, 0xFFFF)] }, pans := [(0, { s.pan 0 with tlb := [⟨1, 16, 0x4000, leaf⟩] })], bays := [(0, { tlb := [⟨1, 16, 0x4000, leaf⟩] })] }
def ent (leaf : Word) : TlbEnt := ⟨1, 16, 0x4000, leaf⟩
def leafFar : Word := word (5 * 2 ^ 44 + 0x30000 + 0x1F7)

theorem wit_OwnershipAndTokens_instructions :
    (let s := ownS .none { owned := [(5, 0)] } leafFar
     let t := ent leafFar
     s.CanCommand [9, 1] ∧ s.probes s.cur (s.here.gpr 1) accLoad = (.ok t, s) ∧ (lfTM t.leaf = true ∧ lfKind t.leaf < 2) ∧ s.regionOf t (s.here.gpr 1).toNat = (5, 0) ∧ (∀ q, s.here.wait ≠ .token q) ∧ s.ownsToken 5 0 = true ∧ s.releases none) ∧
    (let s := ownS .none { owned := (List.range 4095).map fun i => (7, i), back := [9] } leafFar
     s.CanCommand [9, 1] ∧ s.probes s.cur (s.here.gpr 1) accLoad = (.ok (ent leafFar), s) ∧ s.ownsToken 5 0 = false ∧ 4096 ≤ s.fabric.owned.length + s.fabric.back.length) ∧
    (let s := ownS (.token ⟨5, 0, 0⟩) {} leafFar
     s.CanCommand [9, 1] ∧ s.probes s.cur (s.here.gpr 1) accLoad = (.ok (ent leafFar), s) ∧ s.here.wait = .token ⟨5, 0, s.harbour.devid⟩) ∧
    (let s := ownS (.token ⟨5, 0, 5⟩) {} leafFar
     s.CanCommand [9, 1] ∧ s.probes s.cur (s.here.gpr 1) accLoad = (.ok (ent leafFar), s) ∧ s.here.wait = .token ⟨5, 0, 5⟩) ∧
    (let s := ownS .none {} 0x200F3
     s.CanCommand [9, 1] ∧ s.probes s.cur (s.here.gpr 1) accLoad = (.ok (ent 0x200F3), s) ∧ ¬ (lfTM (ent 0x200F3).leaf = true ∧ lfKind (ent 0x200F3).leaf < 2)) := by
  refine ⟨⟨canCommand_of (by decide +kernel), rfl, by decide +kernel, by decide +kernel, fun q h => (nomatch h), by decide +kernel, releases_of (by decide +kernel)⟩,
    ⟨canCommand_of (by decide +kernel), rfl, by decide +kernel⟩, ⟨canCommand_of (by decide +kernel), rfl, by decide +kernel⟩,
    ⟨canCommand_of (by decide +kernel), rfl, by decide +kernel⟩, canCommand_of (by decide +kernel), rfl, by decide +kernel⟩

/-- Transfers to this device and from it, of regions at home and away, one of them with an access in flight. -/
theorem wit_OwnershipAndTokens_transfers :
    (let s := ownS .none { moving := [⟨5, 1, 0⟩, ⟨0, 3, 0⟩, ⟨0, 3, 7⟩], owned := [(5, 2)], away := [(1, 8), (3, 8)] } leafFar
     s.harbour.devid = 0 ∧ ⟨5, 1, 0⟩ ∈ s.fabric.moving ∧ ⟨0, 3, 0⟩ ∈ s.fabric.moving ∧ (5, 2) ∈ s.fabric.owned ∧ s.regionInFlight 5 2 = false ∧ s.fabric.away.get 0 4 = 0 ∧ s.regionInFlight 0 4 = false ∧
     s.fabric.away.get 0 1 ≠ 0) ∧
    (let s := ownS .none { owned := [(5, 1)], requests := [⟨3, .strand 0, some ⟨0, 5, 3, 0x200000, 8, .load, 0, 0, false, none, 1, [], none⟩, none, 7⟩] } leafFar
     (5, 1) ∈ s.fabric.owned ∧ s.regionInFlight 5 1 = true) := by decide +kernel

/-- A copy's descriptor; a channel with `n` commands; a counter of the context's. -/
def cdw : List Nat := [0x12, 0x40000040] ++ List.replicate 14 0
def copyS (g : List Nat) (n : Nat) (k : Counter) : State := { cmd g cdw with
  chans := if n = 0 then [] else [(7, { q := List.replicate n (armedCmd 50) })], counters := [(7, k)] }
def ctr1 : Counter := { c := 100, owner := some 1 }

theorem wit_CopyCommands :
    (let s := copyS [0x40000000, 7 + 101 * 2 ^ 13] 7 ctr1
     s.CanCommand [1] ∧ s.CanCommand [1, 2] ∧ s.Words (s.here.gpr 1) (blk cdw) ∧ (s.here.gpr 1).toNat % 128 = 0 ∧ (blk cdw).length = 16 ∧ (s.chan 7).q.length < 8 ∧
     fld (s.here.gpr 2) 61 3 = 0 ∧ (s.counter 7).owner = some s.here.ctx ∧ satisfied (s.counter 7).c (fld (s.here.gpr 2) 13 48) = false ∧ s.armedOn 0 < 2048) ∧
    (let s := copyS [0x40000000, 7 + 100 * 2 ^ 13] 8 ctr1
     s.CanCommand [1] ∧ s.Words (s.here.gpr 1) (blk cdw) ∧ 8 ≤ (s.chan 7).q.length ∧ satisfied (s.counter 7).c (fld (s.here.gpr 2) 13 48) = true) ∧
    (let s := copyS [0x40000008, 8] 0 ctr1
     s.CanCommand [1, 2] ∧ (s.here.gpr 1).toNat % 128 ≠ 0 ∧ (s.counter 8).owner ≠ some s.here.ctx) :=
  ⟨⟨canCommand_of (by decide +kernel), canCommand_of (by decide +kernel), words_of (pa := at0) (by decide +kernel), by decide +kernel⟩,
   ⟨canCommand_of (by decide +kernel), words_of (pa := at0) (by decide +kernel), by decide +kernel⟩, canCommand_of (by decide +kernel), by decide +kernel⟩

/-- A router entry, a collective's descriptor for stream 5, and the stream. -/
def entry0 : List Nat := [77, 9, 0x1000 + 8 * 2 ^ 16] ++ List.replicate 13 0
def coldw (seq : Nat) : List Nat := [5 + 2 * 2 ^ 12 + 3 * 2 ^ 18, seq, 0, 0x40000100, 0x40000200, 8, 0, 0]
def coll0 (seq : Nat) : Coll := ⟨0, 1, 0, blk (coldw seq), none, false, none, none⟩
def vs5 : VStream := { owner := some 1, dw := blk entry0, seq := 9 }
def collS (g : List Nat) (dw : List Nat) (v : Option VStream) : State := { cmd g dw with streams := v.toList.map fun x => (5, x), counters := [(7, ctr1)] }

theorem wit_CollectiveCommands_start :
    (let s := collS [0x40000000, 7 + 101 * 2 ^ 13] (coldw 9) (some vs5)
     s.CanCommand [1] ∧ s.CanCommand [1, 2] ∧ s.Words (s.here.gpr 1) (blk (coldw 9)) ∧ { s with nextId := s.nextId + 1 }.checksColl (coll0 9) = (none, { s with nextId := s.nextId + 1 }) ∧ (s.here.gpr 1).toNat % 64 = 0 ∧ (blk (coldw 9)).length = 8 ∧ (s.stream 5).pend = none ∧
     fld (s.here.gpr 2) 61 3 = 0 ∧ (s.counter 7).owner = some s.here.ctx ∧ satisfied (s.counter 7).c (fld (s.here.gpr 2) 13 48) = false) ∧
    (let s := collS [0x40000000] (coldw 8) (some vs5)
     s.CanCommand [1] ∧ s.Words (s.here.gpr 1) (blk (coldw 8)) ∧ { s with nextId := s.nextId + 1 }.checksColl (coll0 8) = (some 11, { s with nextId := s.nextId + 1 }) ∧ fld (nth 0 (blk (coldw 8)) 0) 21 2 = 0 ∧ nth 0 (blk (coldw 8)) 2 = 0 ∧ s.publishWaits s.nextId (fld (nth 0 (blk (coldw 8)) 0) 18 3) = false) ∧
    (let s := collS [0x40000000] (coldw 9) (some { vs5 with pend := some (coll0 9) })
     s.CanCommand [1] ∧ s.Words (s.here.gpr 1) (blk (coldw 9)) ∧ (s.stream 5).pend ≠ none) ∧
    (let s := collS [0x40000008] [] none
     s.CanCommand [1] ∧ (s.here.gpr 1).toNat % 64 ≠ 0) :=
  ⟨⟨canCommand_of (by decide +kernel), canCommand_of (by decide +kernel), words_of (pa := at0) (by decide +kernel), rfl, by decide +kernel⟩,
   ⟨canCommand_of (by decide +kernel), words_of (pa := at0) (by decide +kernel), rfl, by decide +kernel⟩,
   ⟨canCommand_of (by decide +kernel), words_of (pa := at0) (by decide +kernel), by decide +kernel⟩, canCommand_of (by decide +kernel), by decide +kernel⟩

theorem wit_CollectiveCommands_streams :
    (let s := collS [5, 0x40000000, 9] entry0 (some vs5)
     s.CanCommand [9, 1, 2] ∧ s.CanCommand [9, 1, 3] ∧ s.Words (s.here.gpr 2) (blk entry0) ∧ (s.here.gpr 2).toNat % 64 = 0 ∧ (blk entry0).length = 16 ∧ s.entryBad s.here.ctx 5 (blk entry0) = false ∧ (s.stream 5).busy = false ∧
     (s.stream 5).owner = some s.here.ctx ∧ (s.stream 5).seq = (s.here.gpr 3).toNat ∧ (s.stream 5).dw ≠ [] ∧ (s.stream 5).pend = none ∧ (s.stream 5).waitq = [] ∧ (s.stream 5).remembered = none) ∧
    (let s := collS [5, 0x40000000] [1] (some { vs5 with owner := some 2 })
     s.CanCommand [9, 1, 2] ∧ s.Words (s.here.gpr 2) (blk (1 :: List.replicate 15 0)) ∧ s.entryBad s.here.ctx 5 (blk (1 :: List.replicate 15 0)) = true ∧ (s.stream 5).busy = false ∧ (s.stream 5).owner ≠ some s.here.ctx) ∧
    (let s := collS [5, 0] [] (some { vs5 with pend := some (coll0 9) })
     s.CanCommand [9, 1, 2] ∧ s.here.gpr 2 = 0 ∧ (s.stream 5).busy = true) :=
  ⟨⟨canCommand_of (by decide +kernel), canCommand_of (by decide +kernel), words_of (pa := at0) (by decide +kernel), by decide +kernel⟩,
   ⟨canCommand_of (by decide +kernel), words_of (pa := at0) (by decide +kernel), by decide +kernel⟩, canCommand_of (by decide +kernel), by decide +kernel⟩

/-- A machine with these regions of pan 0; a region of `qr` × `qc` quads at a quad. -/
def regS (g : List Nat) (ws : List Nat) (rs : List (Nat × Region)) : State := { cmd g ws with regions := rs.map fun x => (x.1, some x.2) }
def reg0 (r c qr qc : Nat) (sl : Tbl Slot) : Region := ⟨0, r, c, qr, qc, 3, sl⟩

/-- A rectangle meets none of the pan's regions, as a check. -/
def apartB (s : State) (pan r c qr qc : Nat) : Bool :=
  (List.range 16).all fun n => (s.region (16 * pan + n)).all fun y => !(decide (r < y.row + y.qr) && decide (y.row < r + qr) && decide (c < y.col + y.qc) && decide (y.col < c + qc))

theorem apart_of {s : State} {pan r c qr qc : Nat} (h : apartB s pan r c qr qc = true) :
    ∀ n < 16, ∀ y, s.region (16 * pan + n) = some y → ¬ (r < y.row + y.qr ∧ y.row < r + qr ∧ c < y.col + y.qc ∧ y.col < c + qc) := by
  intro n hn y hy ⟨h1, h2, h3, h4⟩
  have := List.all_eq_true.mp h n (List.mem_range.mpr hn)
  simp [hy, h1, h2, h3, h4] at this

/-- One quad at the last place and at the first that is free; all numbers taken; a region that fills the array; a slot that can be freed. -/
theorem wit_RegionAllocation :
    (let s := regS [0] [] [(0, reg0 0 0 1 1 []), (2, reg0 2 0 1 1 [])]
     s.CanCommand [9] ∧ s.region 1 = none ∧ s.resOf 0 s.here.ctx = some 0 ∧ s.region 0 ≠ none ∧
     (∀ n < 16, ∀ y, s.region (16 * 0 + n) = some y → ¬ (3 < y.row + y.qr ∧ y.row < 3 + 1 ∧ 3 < y.col + y.qc ∧ y.col < 3 + 1)) ∧
     (∀ n < 16, ∀ y, s.region (16 * 0 + n) = some y → ¬ (0 < y.row + y.qr ∧ y.row < 0 + 1 ∧ 1 < y.col + y.qc ∧ y.col < 1 + 1)) ∧
     ∃ y, s.region 0 = some y ∧ 0 < y.row + y.qr ∧ y.row < 1 ∧ 0 < y.col + y.qc ∧ y.col < 1) ∧
    (let s := regS [0] [] ((List.range 16).map fun n => (n, reg0 (n / 4) (n % 4) 1 1 []))
     s.CanCommand [9] ∧ (List.range 16).all (fun n => (s.region n).isSome) = true) ∧
    (let s := regS [0] [] [(0, reg0 0 0 4 4 [])]
     s.CanCommand [9] ∧ ∃ y, s.region 0 = some y ∧ ∀ z < 16, z / 4 < y.row + y.qr ∧ y.row < z / 4 + 1 ∧ z % 4 < y.col + y.qc ∧ y.col < z % 4 + 1) ∧
    (let x := reg0 0 0 1 1 [(3, { st := .loaded })]
     let s := regS [0x3F] [] [(15, x)]
     s.CanCommand [1] ∧ s.Names (s.here.gpr 1) 15 3 x ∧ (∀ j < 4, s.slotHeld 15 j = false ∧ (x.slot j).st ≠ .running ∧ (x.slot j).binds = [])) :=
  ⟨⟨canCommand_of (by decide +kernel), by decide +kernel, by decide +kernel, by decide +kernel, apart_of (by decide +kernel), apart_of (by decide +kernel), _, rfl, by decide⟩,
   ⟨canCommand_of (by decide +kernel), by decide +kernel⟩, ⟨canCommand_of (by decide +kernel), _, rfl, by decide +kernel⟩, canCommand_of (by decide +kernel), names_of (by decide +kernel), by decide +kernel⟩

/-- Every line of the page at 0x20000, modified. -/
@[irreducible] def allLines : Tbl LineSt := (List.range 512).map fun i => (0x400 + i, .m)

/-- The image of a region of one quad with these configuration words; a slot loaded with it; a machine whose region 2 has this slot 1, with an operand block in a page all of whose lines are cached. -/
def img0 (ws : List Nat) : List Nat := [0x14746434B, 0x2000, 0xC8, 0, 0x300, 0, 0, 0, 0] ++ (ws ++ List.replicate 16 0).take 16
def slot1 (st : SlotSt) : Slot := { st := st, img := ⟨blk (img0 [])⟩, flags := 5, idx := [3, 0, 0, 0, 0, 1], grains := [(2, { c := [(1, 77)], q := [(3, [⟨1, 5⟩, ⟨0, 6⟩])] })] }
def reg1 (sl : Option Slot) : Region := reg0 0 0 1 1 (sl.toList.map fun x => (1, x))
def imgS (ws : List Nat) (x : Region) : State :=
  let s := regS [2 + 16, 0x40000000] ws [(2, x)]
  { s with bays := [(0, { s.bay 0 with lines := allLines })] }

/-- A cache that has no room. -/
def full : Region := { reg1 none with slots := [(0, { st := .loaded, img := ⟨blk [0, 0, 65536]⟩ })] }


/-- An access whose translation is cached, and whose line its bay's slice has modified, changes nothing. -/
theorem looks_hit {s : State} {k : Nat} {va : Word} {n : Nat} {a : Acc} {e : TlbEnt} {pa : Nat} (hm : isMgmt k = false) (hv : bitOf va 63 = false)
    (hit : (Walker.pan (panOf k)).leafHit s (s.strand k).ctx va.toNat = some e) (h1 : (s.bay (panOf k / 16)).tlb.contains e = true) (h2 : (s.pan (panOf k)).tlb.contains e = true)
    (hc : s.check (s.strand k).sup a e va.toNat = none) (hl : s.locOf e va.toNat = .mem pa) (ht : s.cacheable e va.toNat = true) (hp : s.pageHeld pa = false)
    (hs : (s.bay (panOf k / 16)).line (s.home pa / 128) = .m) : s.looks k va n a = (.ok (.mem pa), s) := by
  have hk : (Walker.pan (panOf k)).keepLeaf e ⟨s, []⟩ = .ok ((), ⟨s, []⟩) := by
    simp only [Walker.keepLeaf, bind_eq, gs_eq, ite_eq, h1, h2, Bool.not_true, Bool.false_eq_true, if_false, pure_eq]
  simp only [State.looks, reach, arrive, touchMem, touchSlice, probe, lookup, whoIs, Who.walker, bind_eq, gs_eq, getStrand_eq, pure_eq, hm, hv, hit, hk, hc, hl, ht, hp, hs,
    Bool.and_false, Bool.false_eq_true, if_false, ite_eq, Bool.not_false, Bool.and_self, Bool.true_or, if_true]

/-- A table with one value throughout gives it for every key that it lists. -/
theorem get_all {α : Type} {d v : α} {k : Nat} : ∀ {t : Tbl α}, (∀ x ∈ t, x.2 = v) → (∃ x ∈ t, x.1 = k) → Tbl.get d k t = v
  | [], _, h => nomatch h.choose_spec.1
  | (j, x) :: t, ha, h => by
    unfold Tbl.get
    split
    · exact ha _ (List.mem_cons_self ..)
    · next hn =>
      obtain ⟨y, hy, e⟩ := h
      cases hy with
      | head => exact absurd e hn
      | tail _ hy => exact get_all (fun z hz => ha z (List.mem_cons_of_mem _ hz)) ⟨y, hy, e⟩

theorem allLines_get {l : Nat} (h : 0x400 ≤ l) (h2 : l < 0x600) : Tbl.get .i l allLines = .m :=
  get_all (fun x hx => by
    unfold allLines at hx
    obtain ⟨i, -, rfl⟩ := List.mem_map.mp hx
    exact Eq.refl _) ⟨(l, .m), by
    unfold allLines
    exact List.mem_map.mpr ⟨l - 0x400, List.mem_range.mpr (by omega), by rw [Nat.add_sub_cancel' h]⟩, Eq.refl _⟩

/-- Every aligned dword of the page at 0x40000000 is reached, and can be stored to. -/
theorem page_reaches {ws : List Nat} {x : Region} {a : Acc} (ha : a = accLoad ∨ a = accStore) {j : Nat} (hj : j < 8192) :
    (imgS ws x).Reaches (0x40000000 + word (8 * j)) 8 a (at0 j) (imgS ws x) := by
  have hn : (0x40000000 + word (8 * j)).toNat = 0x40000000 + 8 * j := by simp [word, BitVec.toNat_add]; omega
  have h := looks_hit (s := imgS ws x) (k := 0) (va := 0x40000000 + word (8 * j)) (n := 8) (a := a) (e := ent0) (pa := at0 j) rfl
    (by
      show BitVec.getLsbD _ 63 = false
      rw [BitVec.getLsbD, hn]; exact Nat.testBit_lt_two_pow (by omega))
    (by
      have hp : (0x40000000 + 8 * j) / 65536 = 0x4000 := by omega
      show (match ([⟨1, 16, 0x4000, leafPlain⟩] : List TlbEnt).find? (fun e => covers e 1 _) with | some e => some e | none => _) = _
      rw [hn]
      simp [covers, hp, ent0]) rfl rfl (by obtain rfl | rfl := ha <;> rfl)
    (by
      show Loc.mem _ = _
      rw [hn]
      simp [at0, ent0, leafPlain, fld] <;> omega) rfl rfl
    (by
      have e : ((imgS ws x).bay (panOf 0 / 16)).lines = allLines := rfl
      rw [Bay.line, e, show (imgS ws x).home (at0 j) = at0 j from rfl]
      exact allLines_get (by simp only [at0]; omega) (by simp only [at0]; omega))
  refine ⟨by rw [hn]; omega, h, ?_, by rw [Strand.watched, show (imgS ws x).here.watch = [] from rfl]; obtain rfl | rfl := ha <;> simp [Tbl.get, bitOf, accLoad, accStore], rfl, rfl, rfl⟩
  intro _
  simp only [State.poisonedAt, List.any_eq_false]
  exact fun _ _ => Bool.not_eq_true _ |>.mpr rfl

/-- Past the bytes that are listed, memory reads as zero. -/
theorem get_past {n : Nat} : ∀ {t : Tbl Byte}, (t.all fun c => decide (c.1 < n)) = true → ∀ {a : Nat}, n ≤ a → Tbl.get 0 a t = 0
  | [], _, _, _ => rfl
  | c :: t, h, a, ha => by
    simp only [List.all_cons, Bool.and_eq_true, decide_eq_true_eq] at h
    unfold Tbl.get
    rw [if_neg (by omega)]
    exact get_past h.2 ha

theorem grainBad_zero (n o : Nat) : grainBad (List.replicate n 0) o = false := by
  have : ∀ i, dwAt (List.replicate n (0 : Word)) i = 0 := fun i => by
    simp only [dwAt, nth, List.getElem?_replicate]; split <;> rfl
  simp only [grainBad, this]
  rfl

def imgHead : List Nat := [5776820043, 858993488008, 167772160, 3, 0, 4294967296, 0, 0]
/-- The state image of a LOADED slot of this image whose grains are empty: a header, the image and 16 records of 223 zeros. -/
def simgHead : List Nat := imgHead ++ img0 []
def simg : List Word := blk simgHead ++ List.replicate 3568 0

theorem simgHead_length : (blk simgHead).length = 33 := by decide
theorem simg_length : simg.length = 3601 := by rw [simg, List.length_append, simgHead_length, List.length_replicate]

theorem simg_words : (imgS simgHead (reg1 none)).Words ((imgS simgHead (reg1 none)).here.gpr 2) simg := by
  intro j hj
  rw [simg_length] at hj
  refine ⟨at0 j, page_reaches (.inl rfl) (by omega), ?_⟩
  obtain h | h := Nat.lt_or_ge j 33
  · have : (List.range 33).all (fun j => decide (nth 0 simg j = word ((imgS simgHead (reg1 none)).physRead (at0 j) 8))) = true := by decide +kernel
    exact of_decide_eq_true (List.all_eq_true.mp this j (List.mem_range.mpr h))
  · have hz : ∀ a, at0 33 ≤ a → (imgS simgHead (reg1 none)).physByte a = 0 := fun a ha => by
      show (Tbl.get 0 a (imgS simgHead (reg1 none)).mem).toNat = 0
      rw [get_past (n := at0 33) (by decide +kernel) ha]; rfl
    have h0 : nth 0 simg j = 0 := by
      simp only [nth, simg]
      rw [List.getElem?_append_right (by rw [simgHead_length]; exact h), List.getElem?_replicate]
      split <;> rfl
    have hp : at0 33 ≤ at0 j := by simp only [at0]; omega
    rw [h0]
    simp only [State.physRead]
    rw [hz _ hp, hz _ (by omega), hz _ (by omega), hz _ (by omega), hz _ (by omega), hz _ (by omega), hz _ (by omega), hz _ (by omega)]
    rfl

theorem simg_good : stateBad (simg.take 8) (blk (img0 [])) (simg.drop 33) = false := by
  have h : simg.drop 33 = List.replicate 3568 0 := by rw [simg, ← simgHead_length, List.drop_left]
  rw [h, stateBad]
  simp only [grainBad_zero]
  rw [show simg.take 8 = blk imgHead by rw [simg, List.take_append_of_le_length (by rw [simgHead_length]; decide)]; decide]
  decide +kernel

theorem wit_RegionImages :
    (let s := imgS (img0 []) (reg1 none)
     let dw := blk (img0 [])
     s.CanCommand [9, 1, 2] ∧ s.Names (s.here.gpr 1) 2 1 (reg1 none) ∧ s.Words (s.here.gpr 2) dw ∧ s.slotHeld 2 1 = false ∧ (s.here.gpr 2).toNat % 8 = 0 ∧ isShoal s.cur = false ∧ ((reg1 none).slot 1).st = .free ∧
     hdrOk dw = true ∧ dw.length = fld (nth 0 dw 2) 0 32 / 8 ∧ bodyOk dw = true ∧ s.cacheUsed 0 2 1 + (fld (nth 0 dw 2) 0 32 + 255) / 256 * 256 ≤ 65536 ∧ ((reg1 none).slot 1).binds = []) ∧
    (let s := imgS simgHead (reg1 none)
     let dw := simg
     s.CanCommand [9, 1, 2] ∧ s.Names (s.here.gpr 1) 2 1 (reg1 none) ∧ s.Words (s.here.gpr 2) dw ∧ hdrOk (dw.drop 8) = true ∧ stateHdrOk (dw.take 8) (dw.drop 8) = true ∧ dw.length = fld (nth 0 dw 1) 0 32 / 8 ∧
     stateBad (dw.take 8) (blk (img0 [])) (dw.drop 33) = false) ∧
    (let s := imgS [] (reg1 (some (slot1 .stopped)))
     s.CanCommand [9, 1, 2] ∧ s.Names (s.here.gpr 1) 2 1 (reg1 (some (slot1 .stopped))) ∧ ((reg1 (some (slot1 .stopped))).slot 1).preempted = false ∧ s.here.vlda = [] ∧
     ∀ j < (slotImage (slot1 .stopped)).length, s.Meets false (s.here.gpr 2 + word (8 * j)) 8 accStore (at0 j) ∧ s.Storable false (at0 j) 8) ∧
    (let s := imgS [1, 2, 3, 4] full
     s.CanCommand [9, 1, 2] ∧ s.Names (s.here.gpr 1) 2 1 full ∧ s.Words (s.here.gpr 2) (blk [1, 2, 3, 4]) ∧ hdrOk (blk [1, 2, 3, 4]) = false ∧ ¬ s.cacheUsed 0 2 1 + 256 ≤ 65536) ∧
    bodyOk (blk (img0 [0x3F])) = false ∧ fld (nth 0 (blk [0x14746434B, 0x2001, 0x148, 0]) 1) 0 2 + 1 ≠ 1 := by
  refine ⟨⟨canCommand_of (by decide +kernel), names_of (by decide +kernel), words_of (pa := at0) (by decide +kernel), by decide +kernel⟩,
    ⟨canCommand_of (by decide +kernel), names_of (by decide +kernel), simg_words, by decide +kernel, by decide +kernel, by rw [simg_length]; decide +kernel, simg_good⟩,
    ⟨canCommand_of (by decide +kernel), names_of (by decide +kernel), by decide +kernel, by decide +kernel, ?_⟩,
    ⟨canCommand_of (by decide +kernel), names_of (by decide +kernel), words_of (pa := at0) (by decide +kernel), by decide +kernel⟩, by decide +kernel⟩
  have hl : (slotImage (slot1 .stopped)).length ≤ 8000 := by decide +kernel
  intro j hj
  have hn : at0 j + 8 ≤ memLimit := by simp only [at0, memLimit]; omega
  refine ⟨page_reaches (.inr rfl) (by omega), ⟨rfl, rfl, rfl, rfl, rfl, fun i hi => ?_⟩⟩
  show at0 j + i < _
  omega

/-- Slots in each state; a strand that has been told its slot's word; a binding; a grain that is not there; another context's region. -/
theorem wit_RegionRuns :
    (let x := reg1 (some (slot1 .loaded))
     let s := { regS [2 + 16, 3 * 2 ^ 13 + 9] [] [(2, x)] with rings := [(9, { owner := some 1, lsz := 6, nslot := 4, scope := 3 })] }
     let v := s.here.gpr 2
     let y := x.slot 1
     s.CanCommand [9, 1, 2] ∧ s.Names (s.here.gpr 1) 2 1 x ∧ (∀ w, s.here.wait ≠ .slotDone w) ∧ s.slotHeld 2 1 = false ∧ y.tooLong (fld (s.pan 0).rgclamp 0 21) = false ∧ y.st = .loaded ∧
     fld v 21 43 = 0 ∧ fld v 13 8 < y.numGrains ∧ s.ownsRing (s.regionCtx 2) 9 = true ∧ 4 ≤ (s.ring 9).lsz ∧ (∀ e ∈ y.binds, ¬ (e.grain = fld v 13 8 ∧ e.out = bitOf v 12)) ∧ y.binds.length < 8 ∧ y.numGrains ≤ 16) ∧
    (let x := reg1 (some (slot1 .running))
     let s := regS [2 + 16] [] [(2, x)]
     s.CanCommand [9, 1, 2] ∧ s.Names (s.here.gpr 1) 2 1 x ∧ s.slotHeld 2 1 = false ∧ (x.slot 1).st = .running ∧ (x.slot 1).preempted = false) ∧
    ((slot1 .running).atBoundary = true ∨ (slot1 .running).atBoundary = false) ∧
    (let x := reg1 (some (slot1 .faulted))
     let s0 := regS [2 + 16] [] [(2, x)]
     let s := s0.withHere { s0.here with wait := .slotDone 5 }
     s.CanCommand [9, 1, 2] ∧ s.Names (s.here.gpr 1) 2 1 x ∧ s.here.wait = .slotDone 5 ∧ (x.slot 1).st = .faulted) ∧
    (let s := regS [0x40] [] [(0, { reg1 none with res := 1 })]
     s.CanCommand [9, 1, 2] ∧ (∀ w, s.here.wait ≠ .slotDone w) ∧ 64 ≤ (s.here.gpr 1).toNat ∧ s.region 1 = none ∧ s.region 0 = some { reg1 none with res := 1 } ∧ s.resOf 0 s.here.ctx ≠ some 1) :=
  ⟨⟨canCommand_of (by decide +kernel), names_of (by decide +kernel), fun w h => (nomatch h), by decide +kernel⟩,
   ⟨canCommand_of (by decide +kernel), names_of (by decide +kernel), by decide +kernel⟩, by decide +kernel,
   ⟨canCommand_of (by decide +kernel), names_of (by decide +kernel), by decide +kernel⟩,
   canCommand_of (by decide +kernel), fun w h => (nomatch h), by decide +kernel⟩

/-- A running slot of a 4 × 4 grain region of which grain 5 has one frop, with tokens and registers (and a nest of one dimension of 3 where the frop follows one), and a machine with it. -/
def slotW (op : BitVec 6) (w : FropWord) (g : Grain) : Slot :=
  let ws := img0 ((List.range 16).map fun i => if i = 5 then (fropBits op w).toNat else 0)
  { st := .running, img := ⟨blk (if w.dim = 6 then ws else (ws.set 5 1).set 6 3)⟩, grains := [(5, g)] }
def grainM (op : BitVec 6) (w : FropWord) (g : Grain) : State := { cmd [] dwords with regions := [(0, some ⟨0, 0, 0, 1, 1, 3, [(0, slotW op w g)]⟩)] }
def gr5 : GrainRef := ⟨0, 0, 5⟩

/-- Queues N, E and S of a grain, its registers and what it keeps. -/
def grainG (n e : List Nat) (c inner : List Nat) (south : List Nat := []) : Grain :=
  { c := tbl c, q := [(0, n), (1, e), (2, south)].filterMap fun x => if x.2 = [] then none else some (x.1, x.2.map fun v => ⟨0, word v⟩), inner := blk inner }

/-- A frop of type `dt` from N and E to both, register 3, on queues, with its mode. -/
def fw (dt md : Nat) (outs : Nat := 3) (ina : Nat := 1) (dim : Nat := 6) (imm : Nat := 0) : FropWord :=
  ⟨BitVec.ofNat 4 dt, BitVec.ofNat 4 ina, 2, BitVec.ofNat 5 outs, 3, BitVec.ofNat 3 dim, 0, BitVec.ofNat 16 imm, BitVec.ofNat 16 md⟩

/-- A frop fires on data, as a check and in general. -/
def canFire (op : BitVec 6) (w : FropWord) (g : Grain) (sels : List Nat) : Bool :=
  let s := grainM op w g
  let x := slotW op w g
  match headsOf w g x.idx (x.offer 5) sels with
  | .data p n v => firesB s gr5 op w x g sels p n v && hasRoom s x x [] 5 [(w.outs.toNat, ⟨0, 0⟩)] && decide ((portsOf w.outs.toNat).contains 5 = false)
  | _ => false

theorem canFire_of {op : BitVec 6} {w : FropWord} {g : Grain} {sels : List Nat} (h : canFire op w g sels = true) :
    ∃ p n v, (grainM op w g).Fires gr5 op w (slotW op w g) g sels p n v ∧ hasRoom (grainM op w g) (slotW op w g) (slotW op w g) [] 5 [(w.outs.toNat, ⟨0, 0⟩)] = true ∧
      (portsOf w.outs.toNat).contains 5 = false := by
  unfold canFire at h
  simp only at h
  split at h
  · next p n v _ =>
    obtain ⟨h, h3⟩ := and_true' h
    obtain ⟨h1, h2⟩ := and_true' h
    exact ⟨p, n, v, fires_of h1, h2, of_decide_eq_true h3⟩
  · cases h

/-- Operands of each sign; the modulus 2^16 + 1 in c7 with the recorded bounds of the operands. -/
def gI : Grain := grainG [0x8000000000000005] [0xFFFFFFFFFFFFFFF9] [5, 7, 0x4000, 0x20001] []
def gM : Grain := grainG [5] [0x10003] [5, 7, 0x4000, 3, 0, 0, 0, 0x10003] [4, 5, 1, 2, 3, 0]

/-- For each arithmetic frop and each clause of it: its code, its fields, a grain and its operands. -/
def arith : List (BitVec 6 × FropWord × Grain × List Nat) :=
  [(6, fw 0 0, gI, [1, 2]), (6, fw 7 15, gI, [1, 2]), (6, fw 3 11, gI, [1]), (6, fw 8 13, gI, [1]), (6, fw 13 4, gI, [1, 2]), (0xD, fw 7 13, gI, [1, 2]), (0xD, fw 8 5, gI, [1, 2]),
   (0xB, fw 1 (0x10 + 7), gI, [1]), (0xB, fw 8 2, gI, [1]), (3, fw 9 1, gI, [1, 2]), (3, fw 10 0, gI, [1, 2]), (2, fw 14 0, gI, [1, 2]), (1, fw 14 0, gI, [1, 2]), (2, fw 15 0, gM, [1, 2]), (1, fw 15 0, gM, [1, 2]),
   (4, fw 7 0, gI, [1, 2]), (4, fw 8 0, grainG [1] [2] [] (List.replicate 92 1), [1, 2]), (4, fw 8 0, grainG [1] [2] [] (List.replicate 94 1), [1, 2]), (7, fw 15 0x8000, gM, [1, 2]), (8, fw 15 1, gM, [1, 2]),
   (9, fw 15 0 3 1 6 4, gM, [1]), (0xA, fw 8 0, grainG [1] [] [] (List.replicate 63 1), [1]), (0xA, fw 8 1, grainG [1] [] [] (List.replicate 127 1), [1]),
   (0xC, fw 8 3, grainG [1] [] [] [1, 1], [1]), (0xC, fw 8 0x20, grainG [1] [2] [] [], [1, 2])]

theorem wit_GrainArithmetic : (∀ c ∈ arith, ∃ p n v, (grainM c.1 c.2.1 c.2.2.1).Fires gr5 c.1 c.2.1 (slotW c.1 c.2.1 c.2.2.1) c.2.2.1 c.2.2.2 p n v ∧
      hasRoom (grainM c.1 c.2.1 c.2.2.1) (slotW c.1 c.2.1 c.2.2.1) (slotW c.1 c.2.1 c.2.2.1) [] 5 [(c.2.1.outs.toNat, ⟨0, 0⟩)] = true ∧ (portsOf c.2.1.outs.toNat).contains 5 = false) ∧
    ((gM.reg 7).toNat % 2 = 1 ∧ 2 ^ 16 < (gM.reg 7).toNat ∧ (gM.reg 7).toNat < 2 ^ 31 ∧ gM.inner.length = 6 ∧ (nth 0 gM.inner 3).toNat + 1 < 4 ∧ (nth 0 gM.inner 2).toNat = 1) := by
  refine ⟨?_, by decide +kernel⟩
  have h : arith.all (fun c => canFire c.1 c.2.1 c.2.2.1 c.2.2.2) = true := by decide +kernel
  exact fun c hc => canFire_of (List.all_eq_true.mp h c hc)

/-- SMAC before its metadata, at a kept position and at one that is not kept. -/
def gS (n : List Token) (inner : List Nat) : Grain := { c := tbl [1, 2, 3, 4], q := [(0, n), (1, [⟨0, 7⟩])], inner := blk inner }

def meta0 : Nat := 1 + 3 * 2 ^ 6 + 5 * 2 ^ 12 + 7 * 2 ^ 18 + 9 * 2 ^ 24 + 47 * 2 ^ 30
def kept0 : List Nat := (List.range 6).map fun k => fld (word meta0) (6 * k) 6
def okHeads (g : Grain) : Bool := match headsOf (fw 3 0) g (slotW 5 (fw 3 0) g).idx ((slotW 5 (fw 3 0) g).offer 5) [1, 2] with | .data _ _ v => decide (v.length = 2) | _ => false

theorem wit_GrainArithmetic_smac :
    (let g := gS [⟨6, word meta0⟩] []
     (grainM 5 (fw 3 0) g).Served gr5 5 (fw 3 0) (slotW 5 (fw 3 0) g) g ∧ g.inner.length = 0 ∧ g.head 1 = some ⟨6, word meta0⟩ ∧ kept0.Pairwise (· < ·) ∧ ∀ k ∈ kept0, k < 48) ∧
    (let g := gS [⟨0, 9⟩] [1, meta0]
     (grainM 5 (fw 3 0) g).Served gr5 5 (fw 3 0) (slotW 5 (fw 3 0) g) g ∧ fld (nth 0 g.inner 0) 0 8 ∈ kept0 ∧ okHeads g = true) ∧
    (let g := gS [⟨0, 9⟩] [0, meta0]
     (grainM 5 (fw 3 0) g).Served gr5 5 (fw 3 0) (slotW 5 (fw 3 0) g) g ∧ fld (nth 0 g.inner 0) 0 8 ∉ kept0 ∧ (fw 3 0).dim = 6 ∧ g.head 2 = some ⟨0, 7⟩) :=
  ⟨⟨served_of (by decide +kernel), by decide +kernel⟩, ⟨served_of (by decide +kernel), by decide +kernel⟩,
   served_of (by decide +kernel), by decide +kernel⟩

/-- Each stream-control frop on data; MARK without an input; both inputs of MERG, CNT and GATE, and either alone, with a register that is not 0. -/
def stream : List (BitVec 6 × FropWord × Grain × List Nat) :=
  [(0x20, fw 3 0, grainG [5] [2] [] [], [1, 2]), (0x22, fw 3 1, grainG [5] [0] [] [], [1, 2]), (0x23, fw 3 3, grainG [5] [] [] [], [1]), (0x25, fw 3 4 3 1 6 1, grainG [5] [] [] [], [1]),
   (0x25, fw 3 4 3 0 0, grainG [] [] [] [], [0]), (0x26, fw 3 5, gI, [1])]
def lone : List (BitVec 6 × FropWord × Grain × Bool × Bool) :=
  [0x21, 0x24, 0x27].flatMap fun op => [(op, fw 3 0, grainG [5] [6] [1, 1, 1, 1, 1] [], true, true), (op, fw 3 0, grainG [5] [] [1, 1, 1, 1, 1] [], true, false), (op, fw 3 0, grainG [] [6] [1, 1, 1, 1, 1] [], false, true)]

/-- A lone head as a check: a data token of a queue, or nothing. -/
def loneB (l : Lone) (v : Option Word) : Bool := match l, v with | .dat w true, some u => decide (w = u) | .nothing, none => true | _, _ => false
def loneOf (v : Option Word) : Lone := match v with | some u => .dat u true | none => .nothing

theorem lone_of {l : Lone} {v : Option Word} (h : loneB l v = true) : l = loneOf v := by
  unfold loneB at h
  split at h
  · rw [of_decide_eq_true h]; rfl
  · rfl
  · cases h

theorem wit_GrainStreamControl : (∀ c ∈ stream, ∃ p n v, (grainM c.1 c.2.1 c.2.2.1).Fires gr5 c.1 c.2.1 (slotW c.1 c.2.1 c.2.2.1) c.2.2.1 c.2.2.2 p n v ∧
      hasRoom (grainM c.1 c.2.1 c.2.2.1) (slotW c.1 c.2.1 c.2.2.1) (slotW c.1 c.2.1 c.2.2.1) [] 5 [(c.2.1.outs.toNat, ⟨0, 0⟩)] = true ∧ (portsOf c.2.1.outs.toNat).contains 5 = false) ∧
    (portsOf (fw 3 0).outs.toNat).contains (fld (2 : Word) 0 3) = true ∧
    (∀ c ∈ lone, let x := slotW c.1 c.2.1 c.2.2.1
      (grainM c.1 c.2.1 c.2.2.1).Served gr5 c.1 c.2.1 x c.2.2.1 ∧ loneHead c.2.1 c.2.2.1 x.idx (x.offer 5) 1 = loneOf (if c.2.2.2.1 then some 5 else none) ∧
      loneHead c.2.1 c.2.2.1 x.idx (x.offer 5) 2 = loneOf (if c.2.2.2.2 then some 6 else none) ∧ c.2.2.1.reg 3 ≠ 0) := by
  refine ⟨?_, by decide +kernel, ?_⟩
  · have h : stream.all (fun c => canFire c.1 c.2.1 c.2.2.1 c.2.2.2) = true := by decide +kernel
    exact fun c hc => canFire_of (List.all_eq_true.mp h c hc)
  · have h : lone.all (fun c => let x := slotW c.1 c.2.1 c.2.2.1
        servedB (grainM c.1 c.2.1 c.2.2.1) gr5 c.1 c.2.1 x c.2.2.1 && loneB (loneHead c.2.1 c.2.2.1 x.idx (x.offer 5) 1) (if c.2.2.2.1 then some 5 else none) &&
        loneB (loneHead c.2.1 c.2.2.1 x.idx (x.offer 5) 2) (if c.2.2.2.2 then some 6 else none) && decide (c.2.2.1.reg 3 ≠ 0)) = true := by decide +kernel
    intro c hc
    have := List.all_eq_true.mp h c hc
    simp only [Bool.and_eq_true] at this
    exact ⟨served_of this.1.1.1, lone_of this.1.1.2, lone_of this.1.2, of_decide_eq_true this.2⟩

/-- The pan view and the local view of grain 5 in a partition that begins at 0. -/
def lowS (s : State) : State := { s with pans := [(0, { s.pan 0 with res := [(0, { st := .running, ctx := 1, spbase := 0, splim := 0x40000 })] })] }
def farS (s : State) : State := { s with harbour := { domtab := [(0, 0xFFFF)] }, pans := [(0, { s.pan 0 with tlb := [ent leafFar] })], bays := [(0, { tlb := [ent leafFar] })] }

/-- A memory frop of 4-byte elements whose base is register 0, scaled by 8; its local form; a request; RLD and its kin with the third operand from S. -/
def wM : FropWord := fw 2 (3 * 64 + 0x8000)
def wL : FropWord := fw 2 (3 * 64 + 0x8200)
def wR : FropWord := fw 2 (3 + 2 * 512 + 0x8000 + 16)
def gB (base a : Nat) : Grain := grainG [a] [0x15] [base, 2, 3, 4] []
def reqWord : Nat := 1 + 3 * 16 + 5 * 128 + 63 * 1024 + 0x2000 * 2 ^ 22
def gR (a : Nat) : Grain := grainG [a] [5] [1, 2, 3, 4] [] [0xABCD]

theorem wit_GrainMemory_device :
    (let g := gB 0x40000000 1
     let s := grainM 0x10 wM g
     s.Fires gr5 0x10 wM (slotW 0x10 wM g) g [1] [0] false [1] ∧ s.regionTask 0 = none ∧ s.tasks = [] ∧ (0x40000008 : Word).toNat % 4 = 0 ∧
     s.engineAt (s.regionWho 0) none 0x40000008 4 accLoad = (.ok (.at_ (.mem 0x20008)), s) ∧ s.poisonedAt 0x20008 4 = false ∧ (∀ i < 4, s.home (0x20008 + i) < memLimit) ∧
     hasRoom s (slotW 0x10 wM g) (slotW 0x10 wM g) [] 5 [(3, ⟨0, 0⟩)] = true ∧ g.reg (modF wM 3 3) + ((1 : Word) <<< modF wM 6 3) = 0x40000008) ∧
    (let g := gB 0x40000000 1
     let s := grainM 0x11 wM g
     s.Fires gr5 0x11 wM (slotW 0x11 wM g) g [1, 2] [0, 1] false [1, 0x15] ∧ s.Good ∧ s.engineAt (s.regionWho 0) none 0x40000008 4 accStore = (.ok (.at_ (.mem 0x20008)), s)) :=
  ⟨⟨fires_of (by decide +kernel), by decide +kernel, by decide +kernel, by decide +kernel, engine_of (by decide +kernel), by decide +kernel⟩,
   fires_of (by decide +kernel), good_of (by decide +kernel), engine_of (by decide +kernel)⟩

/-- The key of word 1 of the local view. -/
def localKey : Nat := panKey 0 (panWordOf (16 * 1 + 1) 1 * 8)

theorem wit_GrainMemory_pan :
    (∀ op ∈ ([0x12, 0x13, 0x14] : List (BitVec 6)), let g := gB 0x2000 1
     let s := grainM op wM g
     let sels := if op = 0x13 then [1, 2] else [1]
     s.Fires gr5 op wM (slotW op wM g) g sels (sels.map (· - 1)) false (sels.map fun n => if n = 1 then 1 else 0x15) ∧ s.Good ∧ Config.panExists 0 = true ∧ (s.region 0).isSome = true ∧
     s.inPartition 0 (s.regionCtx 0) 0x2008 4 = true ∧ s.panPoisonedAt (panKey 0 0x2008) 4 = false) ∧
    (∀ op ∈ ([0x12, 0x13, 0x14] : List (BitVec 6)), let g := gB 0 1
     let s := lowS (grainM op wL g)
     let sels := if op = 0x13 then [1, 2] else [1]
     s.Fires gr5 op wL (slotW op wL g) g sels (sels.map (· - 1)) false (sels.map fun n => if n = 1 then 1 else 0x15) ∧ s.Good ∧
     s.inPartition 0 (s.regionCtx 0) localKey 4 = true ∧ s.panPoisonedAt localKey 4 = false) ∧
    (gB 0x10000 0x40).reg 0 + ((0x40 : Word) <<< modF wM 6 3) = 0x10200 := by
  have h : ([0x12, 0x13, 0x14] : List (BitVec 6)).all (fun op => let g := gB 0x2000 1
      let s := grainM op wM g
      let sels := if op = 0x13 then [1, 2] else [1]
      firesB s gr5 op wM (slotW op wM g) g sels (sels.map (· - 1)) false (sels.map fun n => if n = 1 then 1 else 0x15) && goodB s && decide (Config.panExists 0 = true ∧ (s.region 0).isSome = true ∧
      s.inPartition 0 (s.regionCtx 0) 0x2008 4 = true ∧ s.panPoisonedAt (panKey 0 0x2008) 4 = false)) = true := by decide +kernel
  have h' : ([0x12, 0x13, 0x14] : List (BitVec 6)).all (fun op => let g := gB 0 1
      let s := lowS (grainM op wL g)
      let sels := if op = 0x13 then [1, 2] else [1]
      firesB s gr5 op wL (slotW op wL g) g sels (sels.map (· - 1)) false (sels.map fun n => if n = 1 then 1 else 0x15) && goodB s && decide (
      s.inPartition 0 (s.regionCtx 0) localKey 4 = true ∧ s.panPoisonedAt localKey 4 = false)) = true := by decide +kernel
  refine ⟨fun op hop => ?_, fun op hop => ?_, by decide +kernel⟩
  · have := and_true' (List.all_eq_true.mp h op hop)
    exact ⟨fires_of (and_true' this.1).1, good_of (and_true' this.1).2, of_decide_eq_true this.2⟩
  · have := and_true' (List.all_eq_true.mp h' op hop)
    exact ⟨fires_of (and_true' this.1).1, good_of (and_true' this.1).2, of_decide_eq_true this.2⟩

theorem wit_GrainMemory_requests :
    (let g := grainG [reqWord] [0x40000010] [] []
     let w := fw 2 0 0
     let s := grainM 0x18 w g
     let p := word reqWord
     s.Fires gr5 0x18 w (slotW 0x18 w g) g [1, 2] [0, 1] false [p, 0x40000010] ∧ w.outs = 0 ∧ (s.chan (fld p 4 3)).q.length < 8 ∧ fld p 0 4 < 2 ∧ 1 ≤ fld p 7 3 ∧ fld p 7 3 ≤ 5 ∧ fld p 22 23 % 8 = 0 ∧ fld p 10 12 % 8 = 7) ∧
    (let g := gR 0x4000000C
     let s := grainM 0x19 wR g
     s.Fires gr5 0x19 wR (slotW 0x19 wR g) g [1, 2] [0, 1] false [0x4000000C, 5] ∧ s.engineAt (s.regionWho 0) none 0x4000000C 4 accLoad = (.ok (.at_ (.mem 0x2000C)), s)) ∧
    (∀ op ∈ ([0x1A, 0x1B] : List (BitVec 6)), let g := gR 0x4000000C
     let s := grainM op wR g
     let t := farS s
     let a := if op = 0x1A then accStore else accRmw
     s.Good ∧ t.Good ∧ wR.md.getLsbD 12 = false ∧ s.Fires gr5 op wR (slotW op wR g) g [1, 2, 3] [0, 1, 2] false [0x4000000C, 5, 0xABCD] ∧
     s.engineAt (s.regionWho 0) none 0x4000000C 4 a = (.ok (.at_ (.mem 0x2000C)), s) ∧
     t.Fires gr5 op wR (slotW op wR g) g [1, 2, 3] [0, 1, 2] false [0x4000000C, 5, 0xABCD] ∧ t.engineAt (t.regionWho 0) none 0x4000000C 4 a = (.ok (.at_ (.remote 5 0x3000C)), t)) := by
  refine ⟨⟨fires_of (by decide +kernel), by decide +kernel⟩,
    ⟨fires_of (by decide +kernel), engine_of (by decide +kernel)⟩, fun op hop => ?_⟩
  simp only [List.mem_cons, List.not_mem_nil, or_false] at hop
  obtain rfl | rfl := hop <;> exact ⟨good_of (by decide +kernel), good_of (by decide +kernel), by decide +kernel, fires_of (by decide +kernel), engine_of (by decide +kernel), fires_of (by decide +kernel), engine_of (by decide +kernel)⟩

/-- A strand that waits, in a state of which a part is changed. -/
def waits (w : Wait) (f : Strand → Strand := id) (g : State → State := id) : State := let s := g m0; { s with strands := [(0, f { s.here with st := .wait, wait := w })] }

/-- Each wait, over and not over; a ring at its last pointers and a counter half a turn away. -/
theorem wit_WaitsAndArbiters_waits :
    (∀ s ∈ [waits .none, waits (.latch 7), waits (.latch 7) (fun s => { s with latch := true }), waits (.ring 3), waits (.counter 3 5), waits (.slot 2 1), waits (.slotDone 5), waits (.chan 0), waits (.token ⟨0, 0, 5⟩), waits (.coll 1)],
      (s.strand 0).st = .wait) ∧
    (let s := waits (.ring 3) id fun s => (Upd.ring 3 { wr := 0, rd := 2 ^ 32 - 1 }).apply s
     (s.strand 0).wait = .ring 3 ∧ (s.ring 3).wr < 2 ^ 32 ∧ (s.ring 3).rd < 2 ^ 32 ∧ (s.ring 3).wr % 2 ^ 32 ≠ (s.ring 3).rd % 2 ^ 32) ∧
    (let s := fun c => waits (.counter 3 5) id fun s => (Upd.counter 3 { c := c }).apply s
     ((s (5 + 2 ^ 47 - 1)).counter 3).c + 2 ^ 48 - 5 < 2 ^ 48 + 2 ^ 47 ∧ ¬ (((s (5 + 2 ^ 47)).counter 3).c + 2 ^ 48 - 5) % 2 ^ 48 < 2 ^ 47) ∧
    (let s := waits (.token ⟨0, 0, 5⟩) id fun s => { s with fabric := { s.fabric with moving := [⟨0, 0, 5⟩] } }
     ⟨0, 0, 5⟩ ∈ s.fabric.moving) := by
  refine ⟨?_, by decide +kernel⟩
  simp only [List.mem_cons, List.not_mem_nil, or_false, forall_eq_or_imp, forall_eq]
  decide +kernel

/-- Vector queues with weights and credits; a strand accepts where neither it waits nor the pipe of its head is busy. -/
def vecS (ws : List Nat) (qs : List (List VqEntry)) (cr : List Int) (lz : Nat) : State :=
  { m0 with strands := (List.range 4).map fun i => (i, { str0 [] with weight := nth 0 ws i, vq := nth [] qs i }), pans := [(0, { m0.pan 0 with credit := cr, lastZero := lz })] }
def ready (s : State) (i : Nat) (waits : Nat := 0) (busy : Nat := 0) : Bool := !waits.testBit i && (s.strand i).vq.head?.any fun y => !busy.testBit y.pipe
def cand (s : State) (i : Nat) (waits : Nat := 0) (busy : Nat := 0) : Bool := ready s i waits busy && decide (0 < (s.strand i).weight)
def credit (s : State) (i : Nat) (waits : Nat := 0) (busy : Nat := 0) : Int :=
  if cand s i waits busy then max (-64) (min 63 (nth 0 (s.pan 0).credit i + (s.strand i).weight)) else nth 0 (s.pan 0).credit i

/-- Strand 1, whose pipe is busy, and strand 2, which waits, are passed over; an idle port and the last port in turn; the last strand and the last grain come round again. -/
theorem wit_WaitsAndArbiters_arbiters :
    (let s := vecS [15, 15, 1, 0] [[⟨0, 1⟩], [⟨1, 3⟩, ⟨0, 1⟩], [⟨0, 1⟩], [⟨1, 3⟩]] [63, 50, -64, 0] 3
     cand s 0 4 2 = true ∧ (∀ j < 4, cand s j 4 2 = true → credit s j 4 2 < credit s 0 4 2 ∨ (credit s j 4 2 = credit s 0 4 2 ∧ 0 ≤ j)) ∧ cand s 1 4 2 = false ∧ cand s 2 4 2 = false) ∧
    (let s := vecS [0, 0, 0, 0] [[], [⟨1, 3⟩], [⟨0, 1⟩], []] [0, 0, 0, 0] 1
     (∀ j < 4, ¬ cand s j = true) ∧ ready s (((s.pan 0).lastZero + 1) % 4) = true) ∧
    (let s := vecS [0, 0, 0, 0] [[], [⟨1, 3⟩], [], []] [0, 0, 0, 0] 1
     (∀ j < 4, ¬ cand s j = true) ∧ ready s (((s.pan 0).lastZero + 4) % 4) = true ∧ ∀ m < 4, 1 ≤ m → ¬ ready s (((s.pan 0).lastZero + m) % 4) = true) ∧
    (∀ j < 4, ¬ ready m0 j = true) ∧
    (let b : Bank := ⟨2, 3, 3, 255⟩
     Config.panExists 0 = true ∧ b.starve < 3 ∧ nth false [true, false, false, false] ((b.lastPan + 1) % 4) = true ∧ nth false [false, false, false, true] ((b.lastPan + 4) % 4) = true ∧
     (∀ m < 4, 1 ≤ m → nth false [false, false, false, true] ((b.lastPan + m) % 4) = false) ∧
     (8 : Nat).testBit 3 = true ∧ (∀ j < 4, (8 : Nat).testBit j = true → (3 + 2 * 4 - 1 - b.lastS % 4) % 4 ≤ (j + 2 * 4 - 1 - b.lastS % 4) % 4) ∧
     (2 ^ 255).testBit 255 = true ∧ ∀ j < 256, (2 ^ 255).testBit j = true → (255 + 2 * 256 - 1 - b.lastX % 256) % 256 ≤ (j + 2 * 256 - 1 - b.lastX % 256) % 256) := by decide +kernel

/-- A region whose slot 0 adds, after a change of the slot; a ring of two slots of 64 bytes at 0x40000000; an output binding with one entry written, and an input binding. -/
def evR (f : Slot → Slot) (g : Grain := gI) : State := (grainM 6 (fw 3 0) g).putSlot 0 0 (f (slotW 6 (fw 3 0) g))
def withRing (f : Ring → Ring) (s : State) : State := (Upd.ring 3 (f { owner := some 1, base := 0x40000000, lsz := 6, nslot := 2 })).apply s
def bindOut : Bind := ⟨5, true, 3, some 0, 1, [], []⟩
def bindIn : Bind := ⟨5, false, 3, none, 0, [], []⟩
def evOut : State := withRing id (evR fun s => { s with binds := [bindOut] })
def evIn : State := { withRing (fun r => { r with wr := 3, rd := 2 }) (evR fun s => { s with binds := [bindIn] }) with mem := cells 0x20000 [0x55, 0, 0x66, 0x8, 0x77, 3, 0x88, 2 ^ 63] }

def regOf (s : State) : Region := match s.region 0 with | some x => x | none => reg1 none

def canonB (x : Slot) : Bool := Tbl.wf {} x.grains && x.grains.all fun g => Tbl.wf [] g.2.q
def settledB (x : Slot) : Bool := canonB x && x.binds.isEmpty && !x.stopReq && x.grains.all (fun g => g.2.lin.isEmpty) && (decide (x.ndim = 0) || !x.nspent)

theorem canon_of {x : Slot} (h : canonB x = true) : x.canon := by
  simp only [canonB, Bool.and_eq_true, List.all_eq_true] at h
  exact h

theorem settled_of {x : Slot} (h : settledB x = true) : x.settled := by
  simp only [settledB, Bool.and_eq_true, List.all_eq_true, Bool.or_eq_true, decide_eq_true_eq, Bool.not_eq_true', List.isEmpty_iff] at h
  exact ⟨canon_of h.1.1.1.1, h.1.1.1.2, h.1.1.2, h.1.2, h.2⟩

/-- One grain of the one running slot can add; no slot runs; a frame changes. -/
theorem wit_RegionEvents_cycles :
    (let s := evR id
     let y := slotW 6 (fw 3 0) gI
     ∃ x pops gen vals, s.Good ∧ s.region 0 = some x ∧ Tbl.wf {} x.slots = true ∧ x.slot 0 = y ∧ x.ptr = 3 ∧ (∀ j < 4, (x.slot j).settled) ∧ (∀ o ∈ s.sched.firedRem, o.2.pan ≠ 0) ∧
       (∀ k < y.numGrains, k ≠ 5 → y.fropAt k = 0 ∧ (y.grains.get {} k).out = []) ∧ (fw 3 0).dtype.toNat < 8 ∧ modF (fw 3 0) 0 4 = 0 ∧ (fw 3 0).outs ≠ 0 ∧
       s.Fires gr5 0x06 (fw 3 0) y gI [1, 2] pops gen vals ∧ hasRoom s y y [] 5 [((fw 3 0).outs.toNat, ⟨0, 0⟩)] = true) ∧
    (let s := evR fun y => { y with st := .loaded }
     ∃ x, s.Good ∧ s.region 0 = some x ∧ Tbl.wf {} x.slots = true ∧ (∀ j < 4, (x.slot j).settled ∧ (x.slot j).st ≠ .running) ∧ ∀ o ∈ s.sched.firedRem, o.2.pan ≠ 0) ∧
    (let s := evR fun y => { y with changing := true }
     ∃ x, s.Good ∧ s.region 0 = some x ∧ Tbl.wf {} x.slots = true ∧ (x.slot 0).changing = true ∧ (x.slot 0).settled) := by
  refine ⟨⟨_, _, _, _, good_of (by decide +kernel), rfl, by decide +kernel, rfl, rfl, ?_, by decide +kernel, by decide +kernel, by decide, by decide +kernel, by decide, fires_of (pops := [0, 1]) (gen := false) (vals := [0x8000000000000005, 0xFFFFFFFFFFFFFFF9]) ?_, by decide +kernel⟩,
    ⟨_, good_of (by decide +kernel), rfl, by decide +kernel, ?_, by decide +kernel⟩, _, good_of (by decide +kernel), rfl, by decide +kernel, by decide +kernel, settled_of (by decide +kernel)⟩
  · have h : (List.range 4).all (fun j => settledB ((regOf (evR id)).slot j)) = true := by decide +kernel
    exact fun j hj => settled_of (List.all_eq_true.mp h j (List.mem_range.mpr hj))
  · decide +kernel
  · have h : (List.range 4).all (fun j => let y := (regOf (evR fun y => { y with st := .loaded })).slot j; settledB y && decide (y.st ≠ .running)) = true := by decide +kernel
    exact fun j hj => ⟨settled_of (and_true' (List.all_eq_true.mp h j (List.mem_range.mpr hj))).1, of_decide_eq_true (and_true' (List.all_eq_true.mp h j (List.mem_range.mpr hj))).2⟩

/-- A slot of a ring half filled, one filled and a ring with none; a stop by pre-emption with a clamp and without. -/
theorem wit_RegionEvents_rings :
    (let s := evOut
     let q := s.ring 3
     s.Good ∧ (s.slot 0 0).binds[0]? = some bindOut ∧ bindOut.slot = some 0 ∧ s.regionTask 0 = none ∧ s.tasks = [] ∧ 0 < bindOut.pos ∧ bindOut.pos < 2 ^ q.lsz / 16 ∧ q.space = false ∧ q.filled = [] ∧ q.wr = 0 ∧
     ((s.slot 0 0).grains.get {} 5).waiting = [] ∧ q.scope ≠ 5 ∧
     ∀ j, 2 ≤ j → j < 8 → (q.base + word 0 + word (8 * j)).toNat % 8 = 0 ∧ s.engineAt (s.regionWho 0) none (q.base + word 0 + word (8 * j)) 8 accStore = (.ok (.at_ (.mem (at0 j))), s) ∧ ∀ o < 8, s.home (at0 j + o) < memLimit) ∧
    (let s := evIn
     let q := s.ring 3
     s.Good ∧ (s.slot 0 0).binds[0]? = some bindIn ∧ (s.slot 0 0).binds = [bindIn] ∧ (s.slot 0 0).canon ∧ (∀ h ∈ (s.slot 0 0).grains, h.2.lin = []) ∧ (s.slot 0 0).st = .running ∧ s.regionTask 0 = none ∧
     (∀ o ∈ s.fabric.requests, o.who ≠ .bind 0 0 0) ∧ q.fault = none ∧ q.space = false ∧ q.wr < 2 ^ 32 ∧ q.rd < 2 ^ 32 ∧ q.wr ≠ q.rd ∧ q.rd % q.nslot = 0 ∧ ((s.slot 0 0).grains.get {} 5).q.get [] 4 = [] ∧
     (∀ j < 8, (q.base + word 0 + word (8 * j)).toNat % 8 = 0 ∧ s.engineAt (s.regionWho 0) none (q.base + word 0 + word (8 * j)) 8 accLoad = (.ok (.at_ (.mem (at0 j))), s) ∧ s.poisonedAt (at0 j) 8 = false) ∧
     ((List.range 4).map fun e => (s.physRead (at0 (2 * e)) 8, s.physRead (at0 (2 * e + 1)) 8)).takeWhile (fun e => decide (e.2 < 2 ^ 63)) = [(0x55, 0), (0x66, 8), (0x77, 3)]) ∧
    (let q := (withRing id evIn).ring 3
     q.wr = q.rd) ∧
    (∀ c ∈ [(1 : Word), 0], let s := { evR fun s => { s with stopReq := true, preempted := true } with pans := [(0, { rgclamp := c, lastZero := 0 })] }
     s.Good ∧ (s.slot 0 0).st = .running ∧ (s.slot 0 0).stopReq = true ∧ (s.slot 0 0).preempted = true) := by
  have h1 : ∀ j ∈ List.range 8, (engineB evOut (evOut.regionWho 0) none ((evOut.ring 3).base + word 0 + word (8 * j)) 8 accStore (.at_ (.mem (at0 j))) &&
      decide (((evOut.ring 3).base + word 0 + word (8 * j)).toNat % 8 = 0) && (List.range 8).all fun o => decide (evOut.home (at0 j + o) < memLimit)) = true := List.all_eq_true.mp (by decide +kernel)
  have h2 : ∀ j ∈ List.range 8, (engineB evIn (evIn.regionWho 0) none ((evIn.ring 3).base + word 0 + word (8 * j)) 8 accLoad (.at_ (.mem (at0 j))) &&
      decide (((evIn.ring 3).base + word 0 + word (8 * j)).toNat % 8 = 0) && !evIn.poisonedAt (at0 j) 8) = true := List.all_eq_true.mp (by decide +kernel)
  refine ⟨⟨good_of (by decide +kernel), by decide +kernel, by decide +kernel, by decide +kernel, by decide +kernel, by decide +kernel, by decide +kernel, by decide +kernel, by decide +kernel, by decide +kernel, by decide +kernel, by decide +kernel, ?_⟩,
    ⟨good_of (by decide +kernel), by decide +kernel, by decide +kernel, canon_of (by decide +kernel), by decide +kernel, by decide +kernel, by decide +kernel, by decide +kernel, by decide +kernel, by decide +kernel,
     by decide +kernel, by decide +kernel, by decide +kernel, by decide +kernel, by decide +kernel, ?_, by decide +kernel⟩, by decide +kernel, ?_⟩
  · intro j _ h
    have := h1 j (List.mem_range.mpr h)
    simp only [Bool.and_eq_true, List.all_eq_true, List.mem_range, decide_eq_true_eq] at this
    exact ⟨this.1.2, engine_of this.1.1, this.2⟩
  · intro j h
    have := h2 j (List.mem_range.mpr h)
    simp only [Bool.and_eq_true, decide_eq_true_eq, Bool.not_eq_true'] at this
    exact ⟨this.1.2, engine_of this.1.1, this.2⟩
  · intro c hc
    simp only [List.mem_cons, List.not_mem_nil, or_false] at hc
    obtain rfl | rfl := hc <;> exact ⟨good_of (by decide +kernel), by decide +kernel⟩

/-- A local copy's descriptor with its completion, source, destination and count; its command; channel 0 of a machine with it at the head, of strand 0. -/
def dsc (ck comp src dst n0 : Nat) : List Word := blk [7 + 256 + ck * 2048 + 2 ^ 14 + 0x8000 * 2 ^ 32, comp, src, dst, n0, 0, 0, 8, 0, 0, 8, 0, 0, 0, 0, 0]
def cmdC (dw : List Word) (run : Bool) : Cmd := ⟨4, 1, .strand 0, 0x40000100, dw, none, run, 0, 0, none, false, none, none, false, 0, [], .idle, [], [], 0, []⟩
def chanS (c : Cmd) : State :=
  let s := cmd [] dwords
  { s with chans := [(0, { q := [c] })], strands := s.strands.map fun x => (x.1, { x.2 with copies := [⟨4, 0, .unchecked⟩] }) }
def whoC (c : Cmd) : Who := ⟨some 0, c.ctx, c.sup⟩

/-- A posted store of the device, with tag 1, that is not answered. -/
def posts (s : State) : State := { s with fabric := { s.fabric with requests := [⟨1, .posted 0, some ⟨0, 1, 1, 0x5000, 3, .store, 7, 0, true, none, 1, [], none⟩, none, 0x5000⟩] } }
/-- The same descriptor, published at scope 5. -/
def dsc5 : List Word := (0x8000 * 2 ^ 32 + 2 ^ 14 + 7 + 5 * 256 : Word) :: (dsc 0 0 0x40000000 0x2100 5).tail

/-- A command in another channel that is running and writes what the head reads. -/
def clash : State := { chanS (cmdC (dsc 0 0 0x40000000 0x2100 5) false) with
  chans := [(0, { q := [cmdC (dsc 0 0 0x40000000 0x2100 5) false] }), (1, { q := [{ cmdC (dsc 0 0 0x40000000 0x2100 5) false with id := 2 }] })] }

theorem wit_SluiceEvents_start :
    (∀ t ∈ [(chanS (cmdC dsc5 false), false), (posts (chanS (cmdC dsc5 false)), true), (posts (chanS { cmdC dsc5 false with id := 1 }), false)],
      atHeadB t.1 0 ((t.1.chan 0).q.headD (cmdC [] false)) = true ∧ ndScope dsc5 = 5 ∧ t.1.postedBefore ((t.1.chan 0).q.headD (cmdC [] false)).id none = t.2) ∧
    (let c := cmdC (dsc 0 0 0x40000000 0x2100 5) false
     (chanS c).AtHead 0 c ∧ c.slot = none ∧ c.cancel = false ∧ c.bad = none ∧ ndCkind c.dw = 0 ∧ dwAt c.dw 1 = 0 ∧ descStatus 0 c.dw = none ∧ ndTotal c.dw ≠ 0 ∧ (chanS c).conflicts 0 c = false ∧
     clash.AtHead 0 c ∧ clash.conflicts 0 c = true) ∧
    (let c := cmdC (dsc 0 0 0x40000000 0x2100 0) false
     (chanS c).AtHead 0 c ∧ descStatus 0 c.dw = none ∧ ndTotal c.dw = 0) ∧
    (let c := cmdC (dsc 0 0 0x40000004 0x2100 5) false
     (chanS c).AtHead 0 c ∧ (descStatus 0 c.dw).isSome = true) ∧
    (let c := cmdC (dsc 2 8191 0x40000000 0x2100 5) false
     let s := (Upd.counter 8191 { owner := some 1 }).apply (chanS c)
     s.AtHead 0 c ∧ ndCkind c.dw = 2 ∧ fld (dwAt c.dw 1) 0 13 = 8191 ∧ fld (dwAt c.dw 1) 48 16 = 0 ∧ fld (dwAt c.dw 1) 13 3 = 0 ∧ descStatus 0 c.dw = none ∧ s.conflicts 0 c = false ∧ (s.counter 8191).owner = some c.ctx) ∧
    (let c := cmdC (dsc 3 4095 0x40000000 0x2100 5) false
     let s := fun (r : Ring) => (Upd.ring 4095 { r with owner := some 1, lsz := 6, nslot := 2 }).apply (chanS c)
     (s {}).AtHead 0 c ∧ ndCkind c.dw = 3 ∧ fld (dwAt c.dw 1) 12 52 = 0 ∧ ringRoom ((s {}).ring 4095) = true ∧ ringRoom ((s { wr := 2, rsv := 2 }).ring 4095) = false) :=
  ⟨by decide +kernel, ⟨atHead_of (by decide +kernel), by decide +kernel, by decide +kernel, by decide +kernel, by decide +kernel, by decide +kernel, by decide +kernel, by decide +kernel, by decide +kernel, atHead_of (by decide +kernel), by decide +kernel⟩,
   ⟨atHead_of (by decide +kernel), by decide +kernel⟩, ⟨atHead_of (by decide +kernel), by decide +kernel⟩,
   ⟨atHead_of (by decide +kernel), by decide +kernel⟩,
   atHead_of (by decide +kernel), by decide +kernel⟩

/-- A chunk of five elements that is the last, and one of 512 that is not; a fired copy behind another channel's, with room for it and without. -/
theorem wit_SluiceEvents_run :
    (let c := cmdC (dsc 0 0 0x40000000 0x2100 5) true
     let s := chanS c
     s.AtHead 0 c ∧ c.phase = .idle ∧ c.elems = [] ∧ c.vals = [] ∧ c.wrote = 0 ∧ c.held = [] ∧ c.replies = [] ∧ ndCkind c.dw = 0 ∧ ndXf c.dw < 2 ∧ ndDring c.dw = false ∧ min (ndTotal c.dw) (4096 / ndE c.dw) = ndTotal c.dw ∧
     ∀ n < 5, s.engineAt (whoC c) (if ndSspc c.dw then selPan 0 (ndSsel c.dw) else none) (nestAddr c.dw (dwAt c.dw 2) (ndSstr c.dw) n) (ndE c.dw) accLoad = (.ok (storageAt false (at0 n)), s) ∧
       s.engineAt (whoC c) (if ndDspc c.dw then selPan 0 (ndDsel c.dw) else none) (nestAddr c.dw (dwAt c.dw 3) (ndDstr c.dw) n) (ndE c.dw) accStore = (.ok (storageAt true (panKey 0 (0x2100 + 8 * n))), s) ∧
       s.poisonedAt (at0 n) (ndE c.dw) = false ∧ s.panPoisonedAt (panKey 0 (0x2100 + 8 * n)) (ndE c.dw) = false ∧ ∀ i < ndE c.dw, panKeyOk (panKey 0 (0x2100 + 8 * n) + i) = true) ∧
    ndTotal (dsc 0 0 0x40000000 0x2100 513) = 513 ∧ 4096 / ndE (dsc 0 0 0x40000000 0x2100 513) = 512 ∧
    (let c := cmdC (dsc 0 0 0x40000000 0x2100 5) false
     let s := fun (n : Nat) => { cmd [] [] with sched := { (cmd [] []).sched with fired := [(1, c), (0, c), (0, { c with id := 99 })] }, chans := [(0, { q := List.replicate n c })] }
     (s 7).sched.fired = [(1, c)] ++ (0, c) :: [(0, { c with id := 99 })] ∧ ((s 7).chan 0).q.length < 8 ∧ 8 ≤ ((s 8).chan 0).q.length) := by
  have h : ∀ n ∈ List.range 5, (let c := cmdC (dsc 0 0 0x40000000 0x2100 5) true
      let s := chanS c
      engineB s (whoC c) (if ndSspc c.dw then selPan 0 (ndSsel c.dw) else none) (nestAddr c.dw (dwAt c.dw 2) (ndSstr c.dw) n) (ndE c.dw) accLoad (storageAt false (at0 n)) &&
      engineB s (whoC c) (if ndDspc c.dw then selPan 0 (ndDsel c.dw) else none) (nestAddr c.dw (dwAt c.dw 3) (ndDstr c.dw) n) (ndE c.dw) accStore (storageAt true (panKey 0 (0x2100 + 8 * n))) &&
      decide (s.poisonedAt (at0 n) (ndE c.dw) = false ∧ s.panPoisonedAt (panKey 0 (0x2100 + 8 * n)) (ndE c.dw) = false ∧ ∀ i < ndE c.dw, panKeyOk (panKey 0 (0x2100 + 8 * n) + i) = true)) = true := List.all_eq_true.mp (by decide +kernel)
  refine ⟨⟨atHead_of (by decide +kernel), by decide +kernel, by decide +kernel, by decide +kernel, by decide +kernel, by decide +kernel, by decide +kernel, by decide +kernel, by decide +kernel, by decide +kernel, by decide +kernel, fun n hn => ?_⟩, by decide +kernel⟩
  obtain ⟨h1, h2⟩ := and_true' (h n (List.mem_range.mpr hn))
  exact ⟨engine_of (and_true' h1).1, engine_of (and_true' h1).2, of_decide_eq_true h2⟩

/-- A migration's descriptor at 0x20000 and another behind it; a migration under way, with poison and monitors in the pages. -/
def pmS (e n p l : Nat) : State := { cmd [] [e, n, p, 0, 0, 0, 0, 0, l] with dies := [(0, { (State.reset.die 0) with pmigQ := [0x20000, 0x40] })] }
def mig (c : Nat) (inv race : Bool) (l : Nat) : Pmig := ⟨0x30040, word l, 2, 5, 0x60000, c, race, inv⟩
def migS (m : Pmig) : State :=
  let s := cmd [] []
  { s with
    dies := [(0, { (State.reset.die 0) with pmig := some m })], mem := cells 0x20000 [1, 2, 3, 4] ++ cells 0x21000 [9] ++ cells 0x2F000 [77] ++ cells 0x30040 [0x201F3] ++ cells 0x51008 [5],
    poison := [0x20040 / 64, 0x51000 / 64], strands := [(0, { s.here with monitor := .line (0x20100 / 128) }), (4, { monitor := .line (0x21100 / 128) })] }

theorem wit_PageMigration :
    (let s := pmS 0x20040 0x50000 0x60000 0x201F3
     s.Good ∧ s.tasks = [] ∧ (s.die 0).pmig = none ∧ (s.die 0).pmigQ = 0x20000 :: [0x40] ∧
     s.pmigStatus (word (s.physRead 0x20000 8)) (word (s.physRead 0x20008 8)) (word (s.physRead 0x20010 8)) (word (s.physRead 0x20018 8)) (word (s.physRead 0x20040 8)) = none) ∧
    (let s := pmS 0x20040 0x50001 0x60000 0x201F3
     s.Good ∧ (s.pmigStatus (word (s.physRead 0x20000 8)) (word (s.physRead 0x20008 8)) (word (s.physRead 0x20010 8)) (word (s.physRead 0x20018 8)) (word (s.physRead 0x20040 8))).isSome = true ∧
     ∀ i < 8, s.home (0x60000 + i) < memLimit) ∧
    (∀ c < 16, let m := mig c false false 0x201F3
     let s := migS m
     s.Good ∧ s.tasks = [] ∧ (s.die 0).pmig = some m ∧ m.old ≠ m.new ∧ m.old < 2 ^ 23 ∧ m.new < 2 ^ 23 ∧ m.prog % 8 = 0 ∧ m.prog / 65536 ≠ m.old ∧ m.prog / 65536 ≠ m.new ∧ m.prog < memLimit ∧
     m.entryPA % 8 = 0 ∧ m.entryPA / 65536 ≠ m.old ∧ m.entryPA / 65536 ≠ m.new ∧ m.entryPA ≠ m.prog ∧ m.entryPA < memLimit ∧ s.physRead m.entryPA 8 = m.entry.toNat ∧ fld m.entry 16 23 = m.old) ∧
    (∀ d' x, d' ≠ 0 → ((migS (mig 15 false false 0x201F3)).die d').pmig = some x → x.old ≠ 2 ∧ x.old ≠ 5 ∧ x.old ≠ 6 ∧ x.old ≠ 3) ∧
    (migS (mig 15 false false 0x201E3)).physRead 0x30040 8 ≠ (mig 15 false false 0x201E3).entry.toNat ∧
    (let m := mig 16 true true 0x201F3
     (migS m).Good ∧ ((migS m).die 0).pmig = some m ∧ m.invalidating = true ∧ (migS m).noHolder = true) ∧
    (let s := { pmS 0x20040 0x50000 0x60000 0x201F3 with bays := [(0, { lines := [(0x800, .e)] })] }
     s.Good ∧ s.tasks = [] ∧ (s.die 0).pmigQ = 0x20000 :: [0x40] ∧ s.pmigStatus (word (s.physRead 0x20000 8)) (word (s.physRead 0x20008 8)) (word (s.physRead 0x20010 8)) (word (s.physRead 0x20018 8)) (word (s.physRead 0x20040 8)) = none ∧
     ∀ y ∈ s.bays, ∀ x ∈ y.2.lines, ¬ (x.1 / 512 = 2 ∨ x.1 / 512 = 5)) := by
  have h : ∀ c ∈ List.range 16, (let m := mig c false false 0x201F3
     let s := migS m
     goodB s && decide (s.tasks = [] ∧ (s.die 0).pmig = some m ∧ m.old ≠ m.new ∧ m.old < 2 ^ 23 ∧ m.new < 2 ^ 23 ∧ m.prog % 8 = 0 ∧ m.prog / 65536 ≠ m.old ∧ m.prog / 65536 ≠ m.new ∧ m.prog < memLimit ∧
     m.entryPA % 8 = 0 ∧ m.entryPA / 65536 ≠ m.old ∧ m.entryPA / 65536 ≠ m.new ∧ m.entryPA ≠ m.prog ∧ m.entryPA < memLimit ∧ s.physRead m.entryPA 8 = m.entry.toNat ∧ fld m.entry 16 23 = m.old)) = true :=
    List.all_eq_true.mp (by decide +kernel)
  refine ⟨⟨good_of (by decide +kernel), by decide +kernel⟩, ⟨good_of (by decide +kernel), by decide +kernel⟩,
    fun c hc => ?_, fun d' x hd hx => ?_, by decide +kernel, ⟨good_of (by decide +kernel), by decide +kernel⟩, good_of (by decide +kernel), by decide +kernel⟩
  · have := and_true' (h c (List.mem_range.mpr hc))
    exact ⟨good_of this.1, of_decide_eq_true this.2⟩
  · have e : (migS (mig 15 false false 0x201F3)).die d' = {} := by
      show Tbl.get ({} : Die) d' [(0, _)] = _
      simp [Tbl.get, hd.symm]
    rw [e] at hx
    cases hx

/-- Device 1 of a domain with device 2, whose inbound page at 0x40000000 has a leaf; a message of device `src`. -/
def homeS (leaf : Word) (inb : List RMsg) : State := { cmd [] dwords with
  harbour := { State.reset.harbour with domtab := [(0, 0b110)], devid := 1 }, dies := [(0, { (State.reset.die 0) with inTlb := [⟨0x10000, 16, 0x4000, leaf⟩] })], fabric := { (State.reset.fabric) with inbound := inb } }
def msgOf (src size : Nat) (kind : RKind) (addr : Nat) (rel : Option Nat) : RMsg := ⟨src, 1, 7, addr, size, kind, 0x55AA, 0x8000000000000080, false, rel, 3, [], none⟩

/-- Whether the stores that an access counts, and those before it to its lines, are applied. -/
def remReady (s : State) (m : RMsg) : Bool :=
  (match m.rel with | some n => decide ((s.fabric.applied.get 0 m.src + 2 ^ 32 - n) % 2 ^ 32 < 2 ^ 31) | none => true) && m.after.all fun t => decide ((m.src, t) ∈ s.fabric.stored)

/-- An access of a member, of no member, to a page without the right, to none and to poison, of no byte, and to a region whose token is away, of another device and of its owner. One that comes back from the owner. -/
theorem wit_RemoteAccesses_arrivals :
    (let s := homeS leafPlain []
     let m := msgOf 2 8 .cas 0x40000008 none
     s.Good ∧ s.tasks = [] ∧ s.links = [] ∧ m.dst = s.harbour.devid ∧ bitOf (s.harbour.domtab.get 0 (2 / 64)) (2 % 64) = true ∧ bitOf (s.harbour.domtab.get 0 (9 / 64)) 9 = false ∧
     s.inbound 0x40000008 true true = (.ok 0x20008, s) ∧ s.inbound 0x80000008 true false = (.error 4, s) ∧ s.poisonedAt 0x20008 8 = false ∧ (∀ i < 8, s.home (0x20008 + i) < memLimit) ∧
     s.physRead 0x20008 8 % 2 ^ 64 = m.cmp.toNat % 2 ^ 64 ∧ s.fabric.away.get 0 (0x20008 / 2 ^ 21) = 0 ∧ m.via = none ∧ { m with via := some 3 }.via ≠ none ∧ 0 < m.size ∧ (msgOf 2 0 .load 0x40000008 none).size = 0) ∧
    (homeS 0x20193 []).inbound 0x40000008 false true = (.error 5, homeS 0x20193 []) ∧
    ({ homeS leafPlain [] with poison := [0x20000 / 64] } : State).poisonedAt 0x20008 8 = true ∧
    (let s := { homeS leafPlain [] with fabric := { (State.reset.fabric) with away := [(0, 3)] } }
     s.Good ∧ s.inbound 0x40000008 true true = (.ok 0x20008, s) ∧ s.fabric.away.get 0 (0x20008 / 2 ^ 21) = (msgOf 2 8 .load 0 none).src + 1 ∧ (msgOf 1 8 .load 0 none).src + 1 ≠ 3) :=
  ⟨⟨good_of (by decide +kernel), by decide +kernel, by decide +kernel, by decide +kernel, by decide +kernel, by decide +kernel, rfl, rfl, by decide +kernel⟩, rfl, by decide +kernel, good_of (by decide +kernel), rfl, by decide +kernel⟩

/-- Accesses that are ready and that are not: a release that counts a store, and a load behind a posted store to its line, before and after the stores are applied. -/
theorem wit_RemoteAccesses_waits :
    (let a := msgOf 2 8 .store 0x40000008 (some 1)
     let b := { msgOf 2 8 .load 0x40000078 none with after := [4] }
     let s := homeS leafPlain [a, b, msgOf 2 8 .load 0x40000080 none]
     let t := { s with fabric := { s.fabric with applied := [(2, 1)], stored := [(2, 4)] } }
     goodB s = true ∧ goodB t = true ∧ s.fabric.inbound = [a] ++ b :: [msgOf 2 8 .load 0x40000080 none] ∧
     remReady s a = false ∧ remReady s b = false ∧ remReady s (msgOf 2 8 .load 0x40000080 none) = true ∧ remReady t a = true ∧ remReady t b = true) := by decide +kernel

/-- A request of a strand with other answers in its list, a posted store, and a read of host memory. -/
def askS (who : Requester) (msg : Option RMsg) (host : Option (Nat × Nat × Nat)) : State :=
  let s := homeS leafPlain []
  { s.withHere { s.here with replies := [(4, .ack), (6, .value 3)], posted := [⟨5, 2, 0, 8, none⟩] } with fabric := { s.fabric with requests := [⟨5, who, msg, host, 0⟩] } }
def noMonitor (s : State) (m : RMsg) : Bool := s.strands.all fun x => decide (x.2.monitor ≠ .remote m.dst (m.addr / 128))

theorem wit_RemoteAccesses_answers :
    (let s := askS (.strand 0) (some (msgOf 2 8 .load 0 none)) none
     s.request 5 = some ⟨5, .strand 0, some (msgOf 2 8 .load 0 none), none, 0⟩ ∧ s.links = [] ∧ noMonitor s (msgOf 2 8 .load 0 none) = true ∧ (s.strand 0).replies = [(4, .ack)] ++ [(6, .value 3)] ∧ (∀ y ∈ [(4, RResp.ack)], y.1 < 5) ∧ ∀ y ∈ [(6, RResp.value 3)], 5 ≤ y.1) ∧
    (askS (.posted 0) (some (msgOf 2 8 .store 0 none)) none).request 5 = some ⟨5, .posted 0, some (msgOf 2 8 .store 0 none), none, 0⟩ ∧
    (askS (.strand 0) none (some (0, 0x100, 4))).request 5 = some ⟨5, .strand 0, none, some (0, 0x100, 4), 0⟩ := by decide +kernel

/-- An entry for a group with one set, its links and stream; a stream with a shared part and aborts. -/
def ent1 (outs : Nat) : List Word := blk [9, 0, 2 + 4096 + outs * 65536 + 2 ^ 32]
def vs1 (outs : Nat) : VStream := { owner := some 1, dw := ent1 outs, seq := 7 }
def grpS (v : VStream) : State := { homeS leafPlain [] with streams := [(3, v)], links := [(1, { up := true }), (5, { up := true })] }
def abort1 : AbortRec := ⟨9, 3, some 1, [5]⟩
def abort2 : AbortRec := ⟨9, 4, some 1, [5, 1]⟩

theorem wit_CollectiveEvents_flits :
    (let s := grpS (vs1 32)
     let v := s.stream 3
     (∀ y ∈ s.links, y.2.arrived = []) ∧ s.streamOfGroup 9 = some 3 ∧ s.streamOfGroup 8 = none ∧ v.pend = none ∧ ((rtSets v.dw).any fun j => (rtIn v.dw j).testBit 1) = true ∧ v.seq < 2 ^ 32 ∧ v.ahead.length < 256 ∧
     rtGroup v.dw = 9 ∧ v.slot = none ∧ v.waitq = [] ∧ v.remembered = none ∧ v.ahead = [] ∧ s.fabric.requests = [] ∧ ((entryLinks v.dw).filter fun l => decide (some l ≠ some 1) && (s.link l).up) ≠ [] ∧
     (∀ d, ∀ r ∈ (s.die d).reducer, r.vs ≠ 3)) ∧
    (let v := { vs1 32 with shares := [⟨1, [1, 2], none⟩] }
     (grpS v).stream 3 = v ∧ v.busy = true ∧ fld (grpS v).harbour.colltmo 0 32 ≠ 0) ∧
    (let v := { vs1 32 with aborts := [abort1, abort2] }
     ((grpS v).stream 3).aborts = [] ++ abort1 :: [abort2] ∧ ((grpS v).stream 3).aborts = [abort1] ++ abort2 :: [] ∧ (abort1.links.filter fun y => decide (y ≠ 5)) = [] ∧ (abort2.links.filter fun y => decide (y ≠ 5)) ≠ [] ∧
     ∀ w, w ≠ 3 → ((grpS v).stream w).aborts = []) := by
  refine ⟨⟨by decide +kernel, by decide +kernel, by decide +kernel, by decide +kernel, by decide +kernel, by decide +kernel, by decide +kernel, by decide +kernel, by decide +kernel, by decide +kernel, by decide +kernel, by decide +kernel,
    by decide +kernel, by decide +kernel, fun d => ?_⟩, by decide +kernel, by decide +kernel, by decide +kernel, by decide +kernel, by decide +kernel, fun w hw => ?_⟩
  · have e : ((grpS (vs1 32)).die d).reducer = [] := by
      obtain e | ⟨x, hx, e⟩ := Tbl.get_mem ({} : Die) d (grpS (vs1 32)).dies
      · exact congrArg Die.reducer e
      · have : ∀ x ∈ (grpS (vs1 32)).dies, x.2.reducer = [] := by decide +kernel
        exact (congrArg Die.reducer e).symm.trans (this x hx)
    rw [e]; exact fun r hr => nomatch hr
  · have e : (grpS { vs1 32 with aborts := [abort1, abort2] }).stream w = {} := by
      show Tbl.get ({} : VStream) w [(3, _)] = _
      simp [Tbl.get, hw.symm]
    rw [e]

/-- A reduction of four words, two in each step, of the partition at 0x40000000 with a link's share, into 0x40000020. -/
def redC : Coll := ⟨1, 1, 0, blk [2 * 4096, 0, 0, 0x40000000, 0x40000020, 4, 0, 0], none, false, none, none⟩
def redS : State :=
  let s := grpS { vs1 0 with pend := some redC, done := 4, shares := [⟨1, [1, 0, 0, 0, 2, 0, 0, 0, 3, 0, 0, 0, 4, 0, 0, 0], some 0⟩] }
  { s with dies := [(0, { s.die 0 with reducer := [⟨3, 7, 0, 0, 2⟩, ⟨3, 7, 0, 2, 2⟩] })] }

theorem wit_CollectiveEvents_reducer :
    redS.Good ∧ redS.tasks = [] ∧ redC.task = none ∧ (redS.die 0).reducer = ⟨3, 7, 0, 0, 2⟩ :: [⟨3, 7, 0, 2, 2⟩] ∧ (∀ w, w ≠ 3 → (redS.stream w).pend = none) ∧ redS.fabric.requests = [] ∧
    (let v := redS.stream 3
     v.pend = some redC ∧ redC.failed = none ∧ clCkind redC.dw ≠ 3 ∧ v.replies = [] ∧ v.held = [] ∧ v.done = clNelem redC.dw ∧ v.set = 0 ∧ v.shareBad redC = false ∧ rtAction v.dw v.set = 1 ∧ portsIn (rtIn v.dw v.set) ≠ [] ∧ linksIn (rtOut v.dw v.set) = [] ∧ hasLocal (rtIn v.dw v.set) = true ∧ clEd redC.dw = 4 ∧ clEs redC.dw = 4) ∧
    ∀ i < 2, redS.engineAt redC.who none (redC.dst 0 i) 4 { accRmw with cached := true } = (.ok (.at_ (.mem (0x20020 + 4 * i))), redS) ∧ redS.poisonedAt (0x20020 + 4 * i) 4 = false ∧ (∀ o < 4, redS.home (0x20020 + 4 * i + o) < memLimit) ∧
      redS.engineAt redC.who none (redC.src 0 i) 4 accLoad = (.ok (.at_ (.mem (0x20000 + 4 * i))), redS) ∧ redS.poisonedAt (0x20000 + 4 * i) 4 = false := by
  refine ⟨good_of (by decide +kernel), by decide +kernel, by decide +kernel, by decide +kernel, fun w hw => ?_, by decide +kernel, by decide +kernel, fun i hi => ?_⟩
  · have e : redS.stream w = {} := by
      show Tbl.get ({} : VStream) w [(3, _)] = _
      simp [Tbl.get, hw.symm]
    rw [e]
  · obtain rfl | rfl : i = 0 ∨ i = 1 := by omega
    all_goals exact ⟨engine_of (by decide +kernel), by decide +kernel, by decide +kernel, engine_of (by decide +kernel), by decide +kernel⟩

/-- A link near the end of its numbers, with its parts changed; flits to send and to receive. -/
def link0 : Link := { up := true, txLseq := 4095, txCtr := 6, ackDue := some (false, 3), rxExp := 5 }
def flit (vc : Nat) (b : FlitBody) : Flit := ⟨none, 5, 0, 9, 2, 1, vc, false, b, (0, 0)⟩
def kept (n : Nat) : Flit := { flit 0 .idle with lseq := n }
def rx0 : Link := { link0 with replay := [kept 3, kept 4, kept 5], resend := 2, fails := 2 }
def lkS (l : Link) : State := { homeS leafPlain [] with links := [(1, l)] }

theorem wit_LinkEvents :
    (let s := lkS link0
     let l := s.link 1
     (s.link 2).up = false ∧ l.up = true ∧ l.retraining = false ∧ l.resend = 0 ∧ l.replay.length < 512 ∧ l.txCtr < l.keylim ∧ l.waiting = [] ∧ s.fabric.responses = [] ∧ s.fabric.outbox = [] ∧ 1 ∈ s.routes 2 (0, 0)) ∧
    (let l := (lkS { link0 with keylim := 6, resend := 0, slotRdy := true, replay := List.replicate 511 (kept 3) }).link 1
     l.keylim ≤ l.txCtr ∧ l.slotRdy = true ∧ l.replay.length < 512) ∧
    512 ≤ (List.replicate 512 (kept 3)).length ∧
    (let l := (lkS rx0).link 1
     let f := { flit 2 .abt with ack := some (true, 4) }
     l.up = true ∧ l.retraining = false ∧ 0 < l.resend ∧ f.lseq = l.rxExp ∧ f.ks = l.rxSlot ∧ 3 ≤ l.fails + 1 ∧ l.replay = [kept 3] ++ kept 4 :: [kept 5] ∧ (∀ y ∈ [kept 3], y.lseq ≠ (kept 4).lseq) ∧ f.ack = some (true, (kept 4).lseq) ∧
     ∀ x ∈ l.replay, match x.body with | .keysw _ => False | _ => True) ∧
    (let l := (lkS { rx0 with retraining := true, badRetrains := 2 }).link 1
     l.retraining = true ∧ l.badRetrains + 1 = 3 ∧ l.waiting = []) ∧ (lkS rx0).streams = [] ∧ bitOf (1 : Word) 0 = true := by
  refine ⟨by decide +kernel, by decide +kernel, by decide +kernel, ⟨by decide +kernel, by decide +kernel, by decide +kernel, by decide +kernel, by decide +kernel, by decide +kernel, by decide +kernel, by decide +kernel, by decide +kernel, fun x hx => ?_⟩, by decide +kernel⟩
  have : x ∈ [kept 3, kept 4, kept 5] := hx
  simp only [List.mem_cons, List.not_mem_nil, or_false] at this
  obtain rfl | rfl | rfl := this <;> trivial

/-- Device 1 after boot, with its harbour changed. -/
def hostS (f : Harbour → Harbour) : State := let s := homeS leafPlain []; { s with harbour := f { s.harbour with bootStep := 4 } }

/-- No owner; the last port as the owner that offers, and one that does not; an image of the table in the cache; a host access under way. -/
theorem wit_HostEvents_harbour :
    (let h := (hostS id).harbour
     h.bootStep = 4 ∧ h.owner = 0 ∧ (1 < 2) ∧ (∀ r ∈ (hostS id).fabric.requests, r.host = none) ∧ (∀ x ∈ (hostS id).strands, x.2.vlda = [] ∧ x.2.held = [] ∧ x.2.ntf = []) ∧ (hostS id).chans = [] ∧ (hostS id).streams = []) ∧
    (let h := (hostS fun h => { h with owner := 2, hpend := true, downTimer := true }).harbour
     h.owner = 1 + 1 ∧ h.owner ≠ 0 + 1 ∧ h.hpend = true ∧ h.downTimer = true) ∧
    (hostS fun h => { h with bootStep := 3 }).harbour.bootStep ≠ 4 ∧
    (let s := hostS fun h => { h with owner := 1, images := [(8190, 2 ^ 48 + 77)], cache := [⟨77, [], false, 3⟩] }
     s.queues = [] ∧ s.harbour.owner = 0 + 1 ∧ bitOf (s.harbour.images.get 0 (2 * 4095)) 48 = true ∧ fld (s.harbour.images.get 0 (2 * 4095)) 0 48 = 77) ∧
    (let r : Request := ⟨3, .strand 0, none, some (0, 0, 8), 0⟩
     ∀ x ∈ [r], x.host ≠ none) := by decide +kernel

/-- A record in the last ingress slot of port 0, with this many words of it, and its queue. -/
def recI (ck n : Nat) : List Word := [word (2 * 2 ^ 52), word (n * 2 ^ 51 + ck * 2 ^ 55 + 1), 0, 0]
def qI (cap : Nat) (hostok : Bool) (n : Nat) : LQueue := { cfg := word (2 ^ 48 + (if hostok then 2 ^ 46 else 0) + cap + 3 * 2 ^ 28), recs := List.replicate n ⟨1, [], none, 0, none, none, false⟩ }
def ingS (ws : List Word) (q : LQueue) : State := { hostS (fun h => { h with owner := 1, ingress := [(63, ⟨ws, true, 7, 3⟩)] }) with queues := [(2, q)], contexts := [(1, some ctx1)] }
def dwI (ws : List Word) : List Word := ws.take 4 ++ [0] ++ ws.drop 4

theorem wit_HostEvents_ingress :
    (let ws := recI 0 2 ++ [5, 6]
     let s := ingS ws (qI 4 true 3)
     s.Good ∧ s.harbour.owner = 0 + 1 ∧ (s.ingress 0 63).active = true ∧ (s.ingress 0 63).words = ws ∧ ws.length = 4 + recNargs ws ∧ recQueue (dwI ws) = 2 ∧ s.recMalformed (s.queue 2).ctx (dwI ws) = false ∧ recCkind (dwI ws) ≠ 3 ∧
     (s.queue 2).hostok = true ∧ (s.queue 2).prio ≠ 7 ∧ ¬ (s.queue 2).cap ≤ (s.queue 2).recs.length ∧ (s.queue 2).shadow = none ∧ ((ingS ws (qI 4 true 4)).queue 2).cap ≤ ((ingS ws (qI 4 true 4)).queue 2).recs.length ∧
     ((ingS ws (qI 4 false 0)).queue 2).hostok = false) ∧
    (let ws := recI 0 15 ++ List.replicate 15 0
     ws.length = 4 + recNargs ws ∧ (ingS ws (qI 4 true 0)).recMalformed ((ingS ws (qI 4 true 0)).queue 2).ctx (dwI ws) = true) ∧
    ((recI 0 2).take 1).length = 1 ∧ ((recI 0 2).take 2).length = 2 ∧ ((recI 0 2).take 3).length = 3 ∧ 4 ≤ (recI 0 2 ++ [5]).length ∧ (recI 0 2 ++ [5]).length < 4 + recNargs (recI 0 2 ++ [5]) ∧
    (ingS [] (qI 4 true 3)).harbour.owner ≠ 1 + 1 :=
  ⟨⟨good_of (by decide +kernel), by decide +kernel⟩, by decide +kernel⟩

/-- The last pan and the last queue; a queue that is busy, given another context; the power limit at the value written and below it. -/
theorem wit_RegisterWrites :
    (let c : LQueue := { cfg := 0x0001600000000004, recs := [⟨1, [], none, 0, none, none, false⟩], level := 5 }
     let s := { hostS id with queues := [(511, c)] }
     let v : Word := 0x0002600010000004
     let w := v &&& 0xFFFFFFFF7000FFFF
     s.Good ∧ (s.strands.all fun x => match x.2.monitor with | .io _ => false | _ => true) = true ∧ Config.panExists 1007 = true ∧ (s.queue 511).recs ≠ [] ∧ fld (s.queue 511).cfg 48 16 ≠ fld w 48 16 ∧ (s.queue 511).shadow = none ∧
     (let w : Word := 0x0001600030000004 &&& 0xFFFFFFFF7000FFFF
      fld (s.queue 511).cfg 48 16 = fld w 48 16 ∧ bitOf (s.queue 511).cfg 45 = bitOf w 45 ∧ bitOf (s.queue 511).cfg 44 = bitOf w 44 ∧ fld (s.queue 511).cfg 28 3 ≠ fld w 28 3) ∧
     fld (4800 : Word) 0 16 ≤ s.pwrlim ∧ s.pwrlim < fld (4801 : Word) 0 16) ∧
    (let s := { hostS id with strands := [(5, { monitor := .io (0x70300 / 128) })] }
     s.Good ∧ s.queues = [] ∧ (s.strand 5).monitor = .io (0x70300 / 128) ∧ after (.registerWrite 0x70300 7 false) s (fun t => (t.strand 5).latch) = true) :=
  ⟨⟨good_of (by decide +kernel), by decide +kernel⟩, good_of (by decide +kernel), by decide +kernel⟩

/-- Boot at each step; a host's read that a strand waits for; images in the cache and the owner's nonce; the largest units; entries of the log's queue that come after the next, at the same time and source too. -/
theorem wit_DeviceEvents :
    (∀ n < 5, (hostS fun h => { h with bootStep := n }).Good ∧ (hostS fun h => { h with bootStep := n }).harbour.bootFail = false ∧ (hostS fun h => { h with bootStep := n }).harbour.bootStep = n) ∧
    (let s := { hostS id with fabric := { (State.reset.fabric) with requests := [⟨3, .strand 0, none, some (0, 0, 8), 0⟩] } }
     s.Good ∧ ∀ r ∈ s.fabric.requests, r.host ≠ none → ∃ k, r.who = .strand k) ∧
    ((hostS fun h => { h with owner := 2 }).harbour.owner = 1 + 1 ∧ (List.replicate 32 (0 : Byte)).length = 32) ∧
    (2 ^ 33 - 1 < 2 ^ 33 ∧ Config.panExists 1007 = true ∧ 1048575 < 1048576) ∧
    (let le := fun (t k : Nat) => (⟨t, k, 5, 0, 0⟩ : LogEnt)
     let h := (hostS fun h => { h with logPending := [le 7 2, le 5 3, le 5 3, le 6 1], log := List.replicate 4096 (le 1 1) }).harbour
     h.logPending = [le 7 2] ++ le 5 3 :: [le 5 3, le 6 1] ∧ (∀ x ∈ [le 7 2], (le 5 3).time < x.time ∨ ((le 5 3).time = x.time ∧ (le 5 3).source < x.source)) ∧
     (∀ x ∈ [le 5 3, le 6 1], (le 5 3).time < x.time ∨ ((le 5 3).time = x.time ∧ (le 5 3).source ≤ x.source)) ∧ 4096 ≤ h.log.length) := by
  refine ⟨fun n hn => ?_, ⟨good_of (by decide +kernel), fun r hr _ => ?_⟩, by decide +kernel⟩
  · obtain rfl | rfl | rfl | rfl | rfl : n = 0 ∨ n = 1 ∨ n = 2 ∨ n = 3 ∨ n = 4 := by omega
    all_goals exact ⟨good_of (by decide +kernel), by decide +kernel⟩
  · have : r ∈ [(⟨3, .strand 0, none, some (0, 0, 8), 0⟩ : Request)] := hr
    simp only [List.mem_cons, List.not_mem_nil, or_false] at this
    exact ⟨0, by rw [this]⟩

/-! An image that the loader accepts: two bytes of code behind the header, with the digest that the bytes have. -/

def imgSrc : Nat := 0x100000
def loadHead : List Nat := [2 ^ 32 + 0x594E524B, 65538 * 2 ^ 32, 2 ^ 17, 0, 65536 + 2 * 2 ^ 32, 0, 0, 0, 0, 0, 0, 0]
def loadBase : State := { (hostS fun h => { h with loads := [0x55], images := [(0, 2 ^ 48 + 0x55), (1, word imgSrc)] }) with mem := cells imgSrc loadHead, dies := [], poison := [], queues := [] }
@[irreducible] def imgBytes : List Nat := (List.range 65538).map fun i => if 96 ≤ i ∧ i < 128 then 0 else loadBase.physByte (imgSrc + i)
def digestByte (d : List Word) (j : Nat) : Byte := BitVec.ofNat 8 ((nth 0 d (j / 8)).toNat / 256 ^ (j % 8))
def withDigest (d : List Word) : Nat → List Host.Cell → List Host.Cell
  | 0, m => m
  | n + 1, m => Tbl.put 0 (imgSrc + 96 + n) (digestByte d n) (withDigest d n m)
def imageS (d : List Word) : State := { loadBase with mem := withDigest d 32 loadBase.mem }

theorem withDigest_get (d : List Word) (a : Nat) (m : List Host.Cell) : ∀ n, Tbl.get 0 a (withDigest d n m) =
    if imgSrc + 96 ≤ a ∧ a < imgSrc + 96 + n then digestByte d (a - (imgSrc + 96)) else Tbl.get 0 a m
  | 0 => by rw [if_neg (by omega)]; rfl
  | n + 1 => by
    show Tbl.get 0 a (Tbl.put 0 _ _ _) = _
    by_cases h : a = imgSrc + 96 + n
    · subst h
      rw [Tbl.get_put, if_pos (by omega), Nat.add_sub_cancel_left]
    · rw [Tbl.get_put_other _ _ _ _ _ h, withDigest_get d a m n]
      by_cases h2 : imgSrc + 96 ≤ a ∧ a < imgSrc + 96 + n
      · rw [if_pos h2, if_pos (by omega)]
      · rw [if_neg h2, if_neg (by omega)]

theorem withDigest_wf (d : List Word) (m : List Host.Cell) (h : Memory.wf m) : ∀ n, n ≤ 32 → Memory.wf (withDigest d n m)
  | 0, _ => h
  | n + 1, hn =>
    have ih := withDigest_wf d m h n (by omega)
    ⟨Tbl.put_wf _ _ _ _ ih.1, Tbl.put_all _ _ _ (fun k => decide (k < memLimit)) _ (by have : imgSrc = 0x100000 := rfl; have : memLimit = 2 ^ 39 := rfl; exact decide_eq_true (by omega)) ih.2⟩

theorem home_none {s : State} (h : s.dies = []) (a : Nat) : s.home a = a := by simp only [State.home, h, List.findSome?_nil]

theorem physByte_none {s : State} (h : s.dies = []) (a : Nat) : s.physByte a = (Tbl.get 0 a s.mem).toNat := by
  unfold State.physByte
  rw [home_none h]
  rfl

theorem imageS_byte (d : List Word) (a : Nat) : (imageS d).physByte a = if imgSrc + 96 ≤ a ∧ a < imgSrc + 128 then (digestByte d (a - (imgSrc + 96))).toNat else loadBase.physByte a := by
  rw [physByte_none (s := imageS d) rfl, physByte_none (s := loadBase) rfl, show (imageS d).mem = withDigest d 32 loadBase.mem from rfl, withDigest_get]
  split <;> rfl

theorem upd_length {α : Type} (l : List α) (i : Nat) (f : α → α) : (upd l i f).length = l.length := by
  induction l generalizing i with
  | nil => rfl
  | cons x l ih => cases i with
    | zero => rfl
    | succ i => exact congrArg (· + 1) (ih i)

theorem keccak_length (rs : List Word) : ∀ a : List Word, a.length = 25 → (rs.foldl keccakRound a).length = 25 := by
  induction rs with
  | nil => exact fun _ h => h
  | cons r rs ih => exact fun a _ => ih _ ((upd_length _ _ _).trans (by simp [lanes25]))

theorem absorb_length : ∀ n bs (a : List Word), a.length = 25 → (absorb n bs a).length = 25
  | 0, _, _, h => h
  | n + 1, bs, a, h => absorb_length n _ _ (keccak_length _ _ (by simp [h, lanesOf8]))

theorem shake256_length (bs : List Nat) : (shake256 bs).length = 4 := by
  unfold shake256
  simp only [List.length_take]
  rw [absorb_length _ _ _ (by simp)]; rfl

/-- A dword before the digest, and one of it. -/
theorem imageS_read (d : List Word) (i : Nat) (h : i < 12) : (imageS d).physRead (imgSrc + 8 * i) 8 = loadBase.physRead (imgSrc + 8 * i) 8 := by
  simp only [State.physRead, imageS_byte]
  repeat rw [if_neg (by omega)]

theorem physRead_of (s : State) : ∀ n a x, (∀ j < n, s.physByte (a + j) = x / 256 ^ j % 256) → s.physRead a n = x % 256 ^ n
  | 0, _, _, _ => by simp only [State.physRead, Nat.pow_zero, Nat.mod_one]
  | n + 1, a, x, h => by
    have ih := physRead_of s n (a + 1) (x / 256) fun j hj => by
      rw [Nat.add_assoc, Nat.add_comm 1 j, h (j + 1) (by omega), Nat.div_div_eq_div_mul, Nat.pow_succ']
    have h0 := h 0 (by omega)
    simp only [Nat.add_zero, Nat.pow_zero, Nat.div_one] at h0
    rw [State.physRead, ih, h0, Nat.pow_succ', Nat.mod_mul]

theorem imageS_digest (d : List Word) (i : Nat) (h : i < 4) : word ((imageS d).physRead (imgSrc + 8 * (12 + i)) 8) = nth 0 d i := by
  rw [physRead_of _ _ _ (nth 0 d i).toNat fun j hj => ?_, show (256 : Nat) ^ 8 = 2 ^ 64 from rfl, Nat.mod_eq_of_lt (nth 0 d i).isLt]
  · exact BitVec.ofNat_toNat .. |>.trans (BitVec.setWidth_eq _)
  · rw [imageS_byte, if_pos (by omega), show imgSrc + 8 * (12 + i) + j - (imgSrc + 96) = 8 * i + j by omega, digestByte, show (8 * i + j) / 8 = i by omega, show (8 * i + j) % 8 = j by omega]
    exact BitVec.toNat_ofNat ..

theorem imageS_header (a b c d : Word) : (List.range 16).map (fun i => word ((imageS [a, b, c, d]).physRead (imgSrc + 8 * i) 8)) = loadHead.map word ++ [a, b, c, d] := by
  have l : (List.range 12).map (fun i => word ((imageS [a, b, c, d]).physRead (imgSrc + 8 * i) 8)) = loadHead.map word :=
    (List.map_congr_left fun i h => by rw [imageS_read _ i (List.mem_range.mp h)]).trans (by decide +kernel)
  have r : ([0, 1, 2, 3] : List Nat).map (fun i => word ((imageS [a, b, c, d]).physRead (imgSrc + 8 * (12 + i)) 8)) = [a, b, c, d] :=
    (List.map_congr_left fun i h => imageS_digest _ i (by revert i; decide)).trans rfl
  rw [show List.range 16 = List.range 12 ++ ([0, 1, 2, 3] : List Nat).map (12 + ·) from rfl, List.map_append, l, List.map_map]
  exact congrArg _ r

theorem imageS_bytes (d : List Word) : (List.range 65538).map (fun i => if 96 ≤ i ∧ i < 128 then 0 else (imageS d).physByte (imgSrc + i)) = imgBytes := by
  unfold imgBytes
  refine List.map_congr_left fun i _ => ?_
  split
  · rfl
  · rw [imageS_byte, if_neg (by omega)]

theorem dwAt_head (d : List Word) : ∀ i < 12, dwAt (loadHead.map word ++ d) i = dwAt (loadHead.map word) i
  | 0, _ | 1, _ | 2, _ | 3, _ | 4, _ | 5, _ | 6, _ | 7, _ | 8, _ | 9, _ | 10, _ | 11, _ => rfl

theorem header_ok (d : List Word) : imgHeaderOk (loadHead.map word ++ d) = true := by
  have e : imgHeaderOk (loadHead.map word ++ d) = imgHeaderOk (loadHead.map word) := by
    simp only [imgHeaderOk, imgSec, imgEntry, imgSize, imgNentry, imgNargs, imgSlots, List.range, List.range.loop, List.all_cons, List.all_nil, List.map_cons, List.map_nil, Nat.reduceAdd, Nat.reduceDiv,
      dwAt_head d 0 (by omega), dwAt_head d 1 (by omega), dwAt_head d 2 (by omega), dwAt_head d 3 (by omega), dwAt_head d 4 (by omega), dwAt_head d 5 (by omega), dwAt_head d 6 (by omega), dwAt_head d 8 (by omega),
      dwAt_head d 9 (by omega), dwAt_head d 10 (by omega), dwAt_head d 11 (by omega)]
    rfl
  rw [e]
  decide +kernel
theorem table_ok (d : List Word) (rd : Nat → Nat → Nat) : imgTableOk (loadHead.map word ++ d) rd = true := by
  simp only [imgTableOk, dwAt_head d 8 (by omega)]
  rfl

theorem poison_none {s : State} (h : s.poison = []) (pa n : Nat) : s.poisonedAt pa n = false := by
  unfold State.poisonedAt
  rw [h]
  exact List.any_eq_false.mpr fun _ _ => Bool.false_ne_true

/-- The image has its digest: the loader accepts it. -/
theorem goodImage : ∃ d hdr, (imageS d).Good ∧ (imageS d).queues = [] ∧ 0x55 ∈ (imageS d).harbour.loads ∧ ((imageS d).imageSrc 0x55).bind (imageS d).checkImage = some hdr := by
  obtain ⟨a, b, c, d, e⟩ : ∃ a b c d, shake256 imgBytes = [a, b, c, d] := by
    have := shake256_length imgBytes
    match shake256 imgBytes, this with
    | [a, b, c, d], _ => exact ⟨a, b, c, d, rfl⟩
  refine ⟨[a, b, c, d], loadHead.map word ++ [a, b, c, d], ?_, rfl, (by decide : 0x55 ∈ loadBase.harbour.loads), ?_⟩
  · have g : loadBase.Good := good_of (by decide +kernel)
    exact { g with mem := withDigest_wf _ _ g.mem 32 (Nat.le_refl _) }
  · have q : (imageS [a, b, c, d]).imageSrc 0x55 = some imgSrc := by
      unfold State.imageSrc
      rw [show (imageS [a, b, c, d]).harbour = loadBase.harbour from rfl]
      decide +kernel
    rw [q, Option.bind_some]
    have p : (imageS [a, b, c, d]).poisonedAt imgSrc 65538 = false := poison_none rfl ..
    have z : imgSize (loadHead.map word ++ [a, b, c, d]) = 65538 := by simp only [imgSize, dwAt_head _ 1 (by omega)]; rfl
    have k : (loadHead.map word ++ [a, b, c, d]).drop 12 = [a, b, c, d] := rfl
    unfold State.checkImage
    simp only [imageS_header]
    rw [z, imageS_bytes, e, p, k, header_ok, table_ok]
    exact if_pos (by simp [imgSrc])

/-- A block of two pans with four strands each, in each state of its life; its kernel. -/
def blkK : Kernel := ⟨3, 5, 1, [0x2, 1, 0, 0, 0], blk [0x1, 0, 0, 0, 0, 0x1000, 0x10, 0x55, 0, 0, 0, 0, 0, 0, 0, 0], 1, 1, 4, 0, 1, 0, false, 2, none, false⟩
def blkB (st : BlockSt) (f : Block → Block := id) : Block := f ⟨6, 1, 0, st, 0, 0, [0, 2], [0, 2], 1, false, false, false, false, false, [], []⟩
def blkStrand (k : Nat) (st : StrandSt) : Strand := { st := st, pc := word (0x40008000 + k), g := [(3, word (k + 1))], ctx := 1, block := some 7, tvec := 0x123400, v := [(3, { img := 5, dirty := true })], mdirty := [1] }
def blkS (b : Option Block) (st : StrandSt) (rs : ResSt) : State := { hostS id with
  strands := [0, 1, 2, 3, 8, 9, 10, 11].map (fun k => (k, blkStrand k st))
  pans := [0, 2].map (fun p => (p, { res := [(0, { st := rs, ctx := 1, spbase := 0x400, splim := 0x4000 })] }))
  blocks := b.toList.map (fun b => (7, some b)), kernels := [(6, some blkK)], contexts := [(1, some ctx1)], queues := [(5, { begun := [2, 3, 4] })] }

theorem only_block {b : Block} {st : StrandSt} {rs : ResSt} {x : Nat} {y : Block} (h : (blkS (some b) st rs).block x = some y) : x = 7 ∧ y = b := by
  have e : (blkS (some b) st rs).block x = Tbl.get none x [(7, some b)] := rfl
  rw [e] at h
  unfold Tbl.get at h
  split at h
  · next hx => exact ⟨hx.symm, by cases h; rfl⟩
  · cases h

/-- A block of one strand whose save can complete, and the same block parked, with its strand in the save area. -/
def oneB (st : BlockSt) : Block := blkB st fun b => { b with pans := [2], home := [2], preempt := true, resume := true }
def oneS : State := { blkS (some (oneB .running)) .saved .running with kernels := [(6, some { blkK with strands := 1 })] }
def parkedS : State :=
  match execPreemptComplete 7 oneS with
  | .next t => { t with blocks := [(7, some (oneB .parked))] }
  | _ => State.reset

theorem wit_BlockEvents_saves :
    oneS.Good ∧ oneS.blockQuiet (oneB .running) = true ∧ Tbl.wf {} (oneS.strand 8).v = true ∧ oneS.blockStrands (oneB .running) = [8] ∧ oneS.strandsOf (oneB .running) ≤ 4 ∧ ctx1.saveBase + 2 ^ 23 * (1 + 1) ≤ memLimit ∧
      (oneS.strand 8).savesApart (Config.shoal (dieOf 8)) = true :=
  ⟨good_of (by decide +kernel), by decide +kernel⟩

theorem wit_BlockEvents_parked :
    parkedS.Good ∧ parkedS.ckpt.halted = false ∧ parkedS.panFree noSkip 2 1 blkK.slots none = true ∧ (match parkedS.savedStrand 8 (saveSlot ctx1 1 0 0) with | .ok _ => true | .error _ => false) = true := by
  have h : (goodB parkedS && decide (parkedS.ckpt.halted = false ∧ parkedS.panFree noSkip 2 1 blkK.slots none = true ∧ (match parkedS.savedStrand 8 (saveSlot ctx1 1 0 0) with | .ok _ => true | .error _ => false) = true)) = true := by decide +kernel
  exact ⟨good_of (and_true' h).1, of_decide_eq_true (and_true' h).2⟩

theorem wit_BlockEvents_life :
    (let s := blkS (some (blkB .placed)) .idle .running
     s.Good ∧ s.block 7 = some (blkB .placed) ∧ (∀ b' y, s.block b' = some y → b' ≠ 7 → y.st = .parked → ∀ p ∈ y.pans, p ∉ (blkB .placed).pans) ∧
     (blkB .placed).pans.Nodup ∧ (blkB .placed).home = (blkB .placed).pans ∧ (blkB .placed).killOnResume = false ∧ s.kernel 6 = some blkK ∧ s.context 1 = some ctx1 ∧ blkK.strands ≤ 4) ∧
    (let s := blkS (some (blkB .running)) .wait .running
     s.Good ∧ 11 < 4096 ∧ Config.panExists (panOf 11) = true ∧ (s.strand 11).block = some 7 ∧ s.shadowOf 11 = none ∧ (s.blockStrands (blkB .running)).Nodup ∧
      ∃ x ∈ s.blockStrands (blkB .running), (s.strand x).st ≠ .idle ∧ bitOf (s.strand x).tstatus 3 = false) ∧
    (let s := blkS (some (blkB .ending)) .idle .running
     s.Good ∧ s.blockWorks 7 (blkB .ending) = false ∧ blkK.retired + 1 = blkK.nblk ∧ blkK.task = none ∧ recCkind blkK.dw = 0 ∧ dwAt blkK.dw 4 = 0) := by
  refine ⟨⟨good_of (by decide +kernel), rfl, fun b' y h hb => absurd (only_block h).1 hb, by decide, rfl, rfl, rfl, rfl, by decide⟩,
    ⟨good_of (by decide +kernel), by decide, by decide +kernel, by decide +kernel, by decide +kernel, by decide +kernel, 11, by decide +kernel⟩,
    good_of (by decide +kernel), by decide +kernel⟩

def moving : Block := blkB .moving fun b => { b with target := [16, 17] }

theorem wit_BlockEvents_moves :
    (let s := blkS none .idle .evicting
     s.Good ∧ ((blkS none .idle .parked).pan 0).res.get {} 0 = { st := .parked, ctx := 1, spbase := 0x400, splim := 0x4000 } ∧ ((s.pan 2).res.get {} 0).st = .evicting ∧ s.evictQuiet 2 1 = true ∧ s.context 1 = some ctx1 ∧
     s.resOf 2 1 = some 0 ∧ s.regionsOf 2 1 = [] ∧ s.blocks = [] ∧ fld ((s.pan 2).res.get {} 0).splim 8 13 ≤ 4096 ∧ evictArea ctx1 (s.freeArea 1 ctx1) + 2 ^ 28 ≤ memLimit) ∧
    (let s := blkS (some moving) .saved .running
     s.Good ∧ s.block 7 = some moving ∧ s.blockQuiet moving = true ∧ s.writesDone 7 moving = true ∧ s.chansFit 7 moving.pans moving.target = true ∧ moving.target.length = moving.pans.length ∧ (moving.pans ++ moving.target).Nodup ∧ s.strandsOf moving ≤ 4 ∧
     (∀ p ∈ moving.target, Config.panExists p = true ∧ s.resOf p moving.ctx = none ∧ (s.freeRes p).isSome = true) ∧ (∀ p ∈ moving.pans, Config.panExists p = true ∧ s.regionsOf p moving.ctx = [])) :=
  ⟨⟨good_of (by decide +kernel), by decide +kernel⟩, good_of (by decide +kernel), rfl, by decide +kernel⟩

/-- A context without kernels, and one with; a free context number with the largest fields; a queue; and checkpoints: none under way, one that device 2 has still to report for, one being written, and two kept. -/
def snap (t : Nat) : Snapshot := ⟨t, [(5, 6)], [9], [(2, { wr := 5 })], [(2, { c := 5 })], [(1, 2)], [], [3], [], {}, [], [], [], [(3, { pc := 5 })], [], [], []⟩
def ckS (f : Ckpt → Ckpt) : State := let s := hostS id; { s with ckpt := f s.ckpt, strands := [], pans := [], contexts := [(1, some ctx1)], queues := [(5, { cfg := 0x800000000004 })] }

theorem wit_ContextsAndCheckpoints :
    (let s := ckS id
     s.Good ∧ s.context 0xFFFE = none ∧ s.context 1 = some ctx1 ∧ s.kernels = [] ∧ s.tasks = [] ∧ (s.queue 5).shadow = none ∧ (s.queue 5).recs = [] ∧ (0x1000 : Word).toNat % 128 = 0 ∧ Tbl.wf 0 s.harbour.domtab = true ∧ s.ckpt.active = false ∧ s.blocks = [] ∧
     s.streams = [] ∧ s.fabric.requests = [] ∧ s.fabric.outbox = [] ∧ s.fabric.inbound = [] ∧ s.fabric.moving = [] ∧ s.ckpt.kept = [] ∧ s.ckpt.streaming = false) ∧
    (blkS none .idle .running).Good ∧ (blkS none .idle .running).kernel 6 = some blkK ∧ blkK.ctx = 1 ∧ (blkS none .idle .running).context 1 = some ctx1 ∧ (blkS none .idle .running).tasks = [] ∧
    (let s := ckS fun k => { k with active := true, quiesced := true }
     s.Good ∧ s.ckpt.quiesced = true ∧ ∀ j < 64, bitOf (s.harbour.domtab.get 0 0) j = true → 0 * 64 + j ≠ s.harbour.devid → 0 * 64 + j ∈ [2]) ∧
    (let s := ckS fun k => { k with active := true, quiesced := true, streaming := true, cut := some (snap 3), kept := [snap 2, snap 1] }
     s.Good ∧ s.ckpt.cut = some (snap 3) ∧ s.ckpt.kept = snap 2 :: [snap 1] ∧ Memory.wf (snap 2).mem) :=
  ⟨⟨good_of (by decide +kernel), by decide +kernel⟩, good_of (by decide +kernel), rfl, rfl, rfl, rfl, ⟨good_of (by decide +kernel), by decide +kernel⟩, good_of (by decide +kernel), rfl, rfl, by decide +kernel⟩

/-- A queue at each level, a load under way, a record that waits, a finished task, and a machine with one record to place on the last die whose turn it may be. -/
def qS (q : LQueue) : State := { hostS id with queues := [(5, q)], contexts := [(1, some ctx1)] }
def q5 : LQueue := { cfg := word (2 ^ 48 + 2 ^ 47 + 0xFF * 2 ^ 36 + 3 * 2 ^ 28 + 4), recs := [⟨1, [], none, 0, none, none, false⟩], since := 1000 }
def loadS : State := hostS fun h => { h with loads := [7, 0x55], cache := [⟨0x55, [1], true, 3⟩] }
def taskK : Kernel := { blkK with task := some 4 }
def task0 : Task := ⟨6, 5, 0, false, false, 8, 1, [(0x20003, 7), (0x20100, 1)], [(0x400, 1)], 0, 0, [], [], [], true, [0]⟩
def taskS : State := { qS { q5 with begun := [3] } with tasks := [(4, some task0)], kernels := [(6, some taskK)], dies := [] }

theorem wit_Scheduling_queues :
    (qS { q5 with level := 5 }).Good ∧ ((qS q5).queue 5).recs ≠ [] ∧ ((qS q5).queue 5).prio ≠ 7 ∧
    (loadS.Good ∧ (0x55 : BitVec 48).toNat ∈ loadS.harbour.loads ∧ (loadS.harbour.cache.filter fun c => decide (c.handle ≠ 0x55)).length < 256 ∧ loadS.queues = [] ∧ (loadS.imageSrc 0x55).bind loadS.checkImage = none) ∧
    (∃ d hdr, (imageS d).Good ∧ (imageS d).queues = [] ∧ 0x55 ∈ (imageS d).harbour.loads ∧ ((imageS d).imageSrc 0x55).bind (imageS d).checkImage = some hdr) ∧
    (let s := { qS q5 with sched := { (State.reset.sched) with held := [(4, [], none), (5, [1, 2, 3, 4, 5], none), (5, [], none)] } }
     s.Good ∧ s.sched.held = [(4, [], none)] ++ (5, [1, 2, 3, 4, 5], none) :: [(5, [], none)] ∧ (s.queue 5).recs.length < (s.queue 5).cap ∧ (s.queue 5).shadow = none) ∧
    ((qS { q5 with cfg := word (2 ^ 48 + 2 ^ 47 + 1) }).queue 5).cap ≤ ((qS { q5 with cfg := word (2 ^ 48 + 2 ^ 47 + 1) }).queue 5).recs.length ∧
    (taskS.Good ∧ taskS.tasks = [(4, some task0)] ∧ taskS.isOldest 4 = true ∧ (task0.buf.map (·.1)).Nodup ∧ (∀ c ∈ task0.buf, c.1 < memLimit) ∧ taskS.kernel 6 = some taskK ∧ recCkind taskK.dw = 0 ∧ dwAt taskK.dw 4 = 0) :=
  ⟨good_of (by decide +kernel), by decide +kernel, by decide +kernel, ⟨good_of (by decide +kernel), by decide +kernel⟩, goodImage, ⟨good_of (by decide +kernel), by decide +kernel⟩, by decide +kernel, good_of (by decide +kernel), by decide +kernel⟩

def rec1 : QRec := ⟨9, blk [5 * 2 ^ 52 + 0x55, 1, 0, 0, 0], none, 0, none, none, false⟩
def hdr16 : List Word := (List.range 16).map fun i => if i = 2 then word (2 ^ 17) else 0
def placeS : State := let s := qS { q5 with recs := [rec1] }; { s with
  harbour := { s.harbour with cache := [⟨0x55, hdr16, false, 3⟩], images := [(0, 2 ^ 48 + 0x55)] }, pans := [], strands := [], dies := [], sched := { s.sched with dieptr := 7 } }

theorem wit_Scheduling_dispatch : (let s := placeS
     s.Good ∧ s.queues = [(5, { q5 with recs := [rec1] })] ∧ q5.en = true ∧ q5.ordered = false ∧ q5.specok = false ∧ q5.shadow = none ∧ rec1.kernel = none ∧ rec1.bound = none ∧ rec1.bad = false ∧ ctx1.away = [] ∧ rec1.next = 0 ∧ recNblk rec1.dw = 1 ∧ s.blocks = [] ∧
     s.tasks = [] ∧ s.kernels = [] ∧ s.dies = [] ∧ s.ckpt.halted = false ∧ s.resident (recImage rec1.dw) = some ⟨0x55, hdr16, false, 3⟩ ∧ agrees hdr16 rec1.dw = true ∧ s.context q5.ctx = some ctx1 ∧ s.sched.dieptr = 7 ∧
     s.ready noSkip 5 rec1 7 = true ∧ s.recFit noSkip 5 rec1 7 = some [896]) :=
  ⟨good_of (by decide +kernel), by decide +kernel⟩

/-- A well-formed instruction of each length, and a word that decodes. -/
theorem wit_EncodeDecode : (Instr.add 31 31 31 7).wf = true ∧ (Instr.add 31 31 31 7).encode.isSome = true ∧ (Instr.cpyTrg 31 7 31).wf = true ∧ (Instr.cpyTrg 31 7 31).encode.isSome = true ∧
    ((Instr.add 31 31 31 7).encode.bind fun x => (decodeBits x.1).map (·.2)) = some 4 := by decide +kernel

/-- ADD g1, g2, g4 in u32 at the pc of strand 0, in memory, with a cached translation, and in a cached line; its turn has come, in the schedule and by itself. -/
def addBits : Word := (0#32 ++ (3#4 ++ 0#3 ++ 4#5 ++ 2#5 ++ 1#5 ++ 0x00#6 ++ 0#3 ++ 1#1))
def fetchS (ts : List Turn) (lines : List ILine) : State := { mach { str0 [0, 7, 9, 0, 4] with pc := 0x40000000 } [addBits.toNat] with
  turns := ts, pans := [(0, { res := [(0, { st := .running, ctx := 1, spbase := 0x400, splim := 0x4000 })], tlb := [⟨1, 16, 0x4000, leafTM⟩], icache := lines })], bays := [(0, { tlb := [⟨1, 16, 0x4000, leafTM⟩], lines := [(0x400, .m)] })] }
def line0 : ILine := ⟨1, 0x40000000 / 128, BitVec.ofNat 1024 addBits.toNat⟩

theorem looks_of {s : State} {k : Nat} {va : Word} {n : Nat} {a : Acc} {l : Loc}
    (h : (match s.looks k va n a with | (.ok x, t) => decide (x = l ∧ t = s) | _ => false) = true) : s.looks k va n a = (.ok l, s) := by
  split at h
  · next x t e => rw [e]; obtain ⟨rfl, rfl⟩ := of_decide_eq_true h; rfl
  · cases h

theorem probes_of {s : State} {k : Nat} {va : Word} {a : Acc} (h : (match s.probes k va a with | (.ok _, t) => decide (t = s) | _ => false) = true) : ∃ t, s.probes k va a = (.ok t, s) := by
  split at h
  · next x t e => exact ⟨x, by rw [e, of_decide_eq_true h]⟩
  · cases h

theorem wit_StepRunsDecoded :
    (let s := fetchS [.strand 0, .strand 5] [line0]
     let s0 := { s with turns := [.strand 5], cur := 0 }
     s.harbour.tripped = false ∧ s.turns = .strand 0 :: [.strand 5] ∧ (s.strand 0).issues = true ∧ (s.strand 5).issues = false ∧ s0.fetched 0 (s.strand 0).pc = (.inst (.add 1 2 4 3), s0) ∧
     (∀ j < 2, ∃ t, s0.probes 0 (0x40000000 + word (2 * j)) accFetch = (.ok t, s0)) ∧ (s.pan 0).icache = [line0]) ∧
    (let s := fetchS [] []
     let s0 := { s with turns := [], cur := 0 }
     s.turns = [] ∧ s.autoTurn = .strand 0 ∧ (s.strand 0).issues = true ∧ (s.strand 0).pc.toNat % 2 = 0 ∧ decodeBits addBits = some (.add 1 2 4 3, 4) ∧ s0.looks 0 0x40000000 128 accFetch = (.ok (.mem 0x20000), s0) ∧
     (∀ j < 2, (s.strand 0).watched (0x40000000 + word (2 * j)) 2 accFetch = false) ∧ (s.pan 0).icache = [] ∧ s.poisonedAt 0x20000 128 = false ∧
     ∀ j < 2, s.physRead (0x20000 + 2 * j) 2 = addBits.toNat / 2 ^ (16 * j) % 65536) ∧
    (Instr.strandWake 0).isEvent = true ∧ (fetchS [.reserve 7 0x10000 0x20000] []).turns = .reserve 7 0x10000 0x20000 :: [] ∧ (fetchS [.hostRead 1 8] []).turns = .hostRead 1 8 :: [] := by
  refine ⟨⟨by decide +kernel, by decide +kernel, by decide +kernel, by decide +kernel, fetched_of (by decide +kernel), fun j hj => ?_, by decide +kernel⟩,
    ⟨by decide +kernel, by decide +kernel, by decide +kernel, by decide +kernel, by decide +kernel, looks_of (by decide +kernel), by decide +kernel⟩, by decide +kernel⟩
  obtain rfl | rfl : j = 0 ∨ j = 1 := by omega
  all_goals exact probes_of (by decide +kernel)

/-- The cause of a fetch that fails, and 100 for an encoding that is not well formed. -/
def failure (o : Fetched × State) : Nat := match o.1 with | .fault c _ => c | .illegal _ => 100 | .inst _ => 0

theorem wit_StepRunsDecoded_traps : failure ((fetchS [] []).fetched 0 0x80000000) = 4 ∧ failure (({ fetchS [] [] with mem := [] } : State).fetched 0 0x40000000) = 100 := by decide +kernel

theorem next_of {o : Host.Outcome State Fault Refusal} (h : (next? o).isSome = true) : ∃ t, o = .next t := by
  cases o with
  | next t => exact ⟨t, rfl⟩
  | _ => cases h

theorem wit_StepKeepsGood : (fetchS [.strand 0] [line0]).Good ∧ ∃ t, step (fetchS [.strand 0] [line0]) = .next t := ⟨good_of (by decide +kernel), next_of (by decide +kernel)⟩

theorem wit_RegisterZero : (let s := m0
     s.Good ∧ s.here.canIssue [0, 1, 0] = true ∧ srcI 3 (s.here.gpr 0) = 0 ∧ s.here.canIssue [0, 3] = true ∧ s.finds s.cur (s.here.gpr 3) = (some ent0, s) ∧ s.here.canIssue [0, 3, 1] = true ∧
     s.Reaches (s.here.gpr 3) 8 accRmw 0x20010 s ∧ s.CanStore 0x20010 8 ∧ s.here.looping = false ∧ (s.here.gpr 4 + (0 : BitVec 12).signExtend 64).toNat % tyBytes 1 ≠ 0 ∧ s.here.canIssue [0, 4] = true ∧
     s.Reaches (s.here.gpr 3 + (0 : BitVec 12).signExtend 64) 8 accLoad 0x20010 s) :=
  ⟨good_of (by decide +kernel), by decide +kernel, by decide +kernel, by decide +kernel, rfl, by decide +kernel, reaches_of (by decide +kernel), canStore_of (by decide +kernel), by decide +kernel, by decide +kernel,
   by decide +kernel, reaches_of (by decide +kernel)⟩

end Sys2Proof.Tests
end

/-! Scalar control flow (09 R263 to R266): what a branch, a jump and ERET leave of the executing strand, and the trap each can raise. -/

namespace Sys2Proof.Machine

/-! How the meaning of a scalar instruction ends. -/

/-- The meaning raises one cause at the instruction's own address, and no loop runs that would hold the trap (10 R308). -/
theorem run_traps {m : M Unit} {s : State} {c : Nat} {v : Word} (hm : m ⟨s, []⟩ = .error (.trap ⟨c, v, 2 ^ c⟩ none [])) (hl : s.here.looping = false) :
    run m s = s.traps c v := by
  have hl' : (s.strand s.cur).looping = false := hl
  simp only [run, runAs, hm, hl', Bool.false_eq_true, if_false, Option.getD_none, applyAll_nil]
  rfl

/-- A strand that can issue goes on with the rest of the meaning. -/
theorem issue_bind {α : Type} {s : State} {rs : List (BitVec 5)} (hi : s.here.canIssue rs = true) (f : Unit → M α) :
    (issue rs >>= f) ⟨s, []⟩ = f () ⟨s, []⟩ := by
  simp only [bind_eq, issue_eq, hi, if_true]

/-- A meaning that only replaces the executing strand. -/
theorem run_withHere {m : M Unit} {s : State} {st : Strand} (hm : m ⟨s, []⟩ = .ok ((), ⟨s.withHere st, [.strand s.cur st]⟩)) :
    run m s = .next (s.withHere st) := run_ok hm

/-- No loop owns g0. -/
@[simp] theorem Strand.owns_zero (st : Strand) : st.owns 0 = false := by
  unfold Strand.owns
  split <;> simp

@[simp] theorem Strand.canIssue_nil (st : Strand) : st.canIssue [] = st.issues := by simp [Strand.canIssue]

theorem Strand.canIssue_zero (st : Strand) (a : BitVec 5) : st.canIssue [a, 0] = st.canIssue [a] := by
  simp only [Strand.canIssue, List.any_cons, List.any_nil, Strand.owns_zero, Bool.or_false]

/-- Bit 0 of an address tells whether it is odd. -/
theorem bitOf_zero (x : Word) : bitOf x 0 = decide (x.toNat % 2 = 1) := by
  simp [bitOf, BitVec.getLsbD, Nat.testBit_zero]

/-- 08 R213: a byte offset is twice the signed count of halfwords. -/
theorem half_eq {n : Nat} (i : BitVec n) : half i = BitVec.ofInt 64 (2 * i.toInt) := by
  rw [half, BitVec.shiftLeft_eq_mul_twoPow, BitVec.signExtend, Int.mul_comm, BitVec.ofInt_mul]
  rfl

theorem not_slt_iff (x y : Word) : (!x.slt y) = true ↔ y.toInt ≤ x.toInt := by
  rw [Bool.not_eq_true', ← Bool.not_eq_true, BitVec.slt_iff_toInt_lt, Int.not_lt]

theorem not_ult_iff (x y : Word) : (!x.ult y) = true ↔ y.toNat ≤ x.toNat := by
  rw [Bool.not_eq_true', ← Bool.not_eq_true, BitVec.ult_iff_toNat_lt, Nat.not_lt]

/-! Branches and jumps. -/

/-- A branch on a condition that the compared registers decide. -/
theorem run_branch {s : State} {c : Word → Word → Bool} {a b : BitVec 5} {n : Nat} (i : BitVec n) (len : Nat) (p : Prop) [Decidable p]
    (hi : s.here.canIssue [a, b] = true) (hp : c (s.here.gpr a) (s.here.gpr b) = true ↔ p) :
    run (branch c a b (half i) len) s =
      .next (s.withHere { s.here with pc := if p then s.here.pc + BitVec.ofInt 64 (2 * i.toInt) else s.here.pc + word len }) := by
  refine run_withHere ?_
  rw [branch, issue_bind hi]
  by_cases h : p
  · simp only [bind_eq, rg_eq, me_eq, hp.mpr h, h, if_true, jump_eq, half_eq]
  · have hc : c (s.here.gpr a) (s.here.gpr b) = false := by simpa [h] using hp
    simp only [bind_eq, rg_eq, hc, h, Bool.false_eq_true, if_false, next_eq, Strand.past]

/-- A 16-bit branch compares its register with zero (08 R225). -/
theorem run_branch_zero {s : State} {c : Word → Word → Bool} {a : BitVec 5} {n : Nat} (i : BitVec n) (p : Prop) [Decidable p]
    (hi : s.here.canIssue [a] = true) (hp : c (s.here.gpr a) 0 = true ↔ p) :
    run (branch c a 0 (half i) 2) s =
      .next (s.withHere { s.here with pc := if p then s.here.pc + BitVec.ofInt 64 (2 * i.toInt) else s.here.pc + word 2 }) :=
  run_branch i 2 p ((s.here.canIssue_zero a).trans hi) hp

theorem run_jal {s : State} {n : Nat} (i : BitVec n) (len : Nat) (hi : s.here.canIssue [1] = true) :
    run (jal (half i) len) s =
      .next (s.withHere { s.here.setG 1 (s.here.pc + word len) with pc := s.here.pc + BitVec.ofInt 64 (2 * i.toInt) }) := by
  refine run_withHere ?_
  rw [jal, issue_bind hi, modMe_eq, half_eq]

theorem run_jalr_odd {s : State} {d a : BitVec 5} {off : Word} (len : Nat) (hi : s.here.canIssue [d, a] = true) (hl : s.here.looping = false)
    (ho : (s.here.gpr a + off).toNat % 2 = 1) : run (jalr d a off len) s = s.traps 3 (s.here.gpr a + off) := by
  refine run_traps ?_ hl
  have hb : bitOf (s.here.gpr a + off) 0 = true := by rw [bitOf_zero, ho]; rfl
  rw [jalr, issue_bind hi]
  simp only [bind_eq, rg_eq, hb, if_true, trap_eq]

theorem run_jalr_even {s : State} {d a : BitVec 5} {off : Word} (len : Nat) (hi : s.here.canIssue [d, a] = true)
    (he : (s.here.gpr a + off).toNat % 2 = 0) :
    run (jalr d a off len) s = .next (s.withHere { s.here.setG d (s.here.pc + word len) with pc := s.here.gpr a + off }) := by
  refine run_withHere ?_
  have hb : bitOf (s.here.gpr a + off) 0 = false := by rw [bitOf_zero, he]; rfl
  rw [jalr, issue_bind hi]
  simp only [bind_eq, rg_eq, hb, Bool.false_eq_true, if_false, modMe_eq]

end Sys2Proof.Machine

/-! The words of class 3 in formats J and I (08 R213), and the jumps that they decode to. -/

namespace Sys2Proof

/-- The fields of a word of format J: the offset fills all that stands above OP. -/
theorem W32.ofBits_formatJ (j : BitVec 22) (op : BitVec 6) (c : BitVec 3) :
    W32.ofBits (0#32 ++ (j ++ op ++ c ++ 1#1)) =
      ⟨c ++ 1#1, op, j.extractLsb' 0 5, j.extractLsb' 5 5, j.extractLsb' 10 5, j.extractLsb' 15 3, j.extractLsb' 18 4⟩ := by
  simp only [W32.ofBits, W32.mk.injEq]
  refine ⟨?_, ?_, ?_, ?_, ?_, ?_, ?_⟩ <;> ext n hn <;> simp <;> grind

/-- The fields of a word of format I: the immediate fills b, m and f. -/
theorem W32.ofBits_formatI (i : BitVec 12) (a d : BitVec 5) (op : BitVec 6) (c : BitVec 3) :
    W32.ofBits (0#32 ++ (i ++ a ++ d ++ op ++ c ++ 1#1)) =
      ⟨c ++ 1#1, op, d, a, i.extractLsb' 0 5, i.extractLsb' 5 3, i.extractLsb' 8 4⟩ := by
  simp only [W32.ofBits, W32.mk.injEq]
  refine ⟨?_, ?_, ?_, ?_, ?_, ?_, ?_⟩ <;> ext n hn <;> simp <;> grind

/-- The parts of an offset of format J, put together again. -/
theorem parts_formatJ (j : BitVec 22) :
    j.extractLsb' 18 4 ++ j.extractLsb' 15 3 ++ j.extractLsb' 10 5 ++ j.extractLsb' 5 5 ++ j.extractLsb' 0 5 = j := by
  iterate 4 rw [BitVec.extractLsb'_append_extractLsb'_eq_extractLsb' (by rfl)]
  exact BitVec.extractLsb'_eq_self

/-- The parts of an immediate of format I, put together again. -/
theorem parts_formatI (i : BitVec 12) : i.extractLsb' 8 4 ++ i.extractLsb' 5 3 ++ i.extractLsb' 0 5 = i := by
  iterate 2 rw [BitVec.extractLsb'_append_extractLsb'_eq_extractLsb' (by rfl)]
  exact BitVec.extractLsb'_eq_self

/-- A word whose low bits name class 3 is read by the table of that class (08 R209, R219). -/
theorem decodeBits_class3 {w : Word} {x : W32} (h : W32.ofBits w = x) (hk : x.k = 7#4) :
    decodeBits w = (checked (decodeClass3 x)).map (·, 4) := by
  subst h
  have hk' : w.extractLsb' 0 4 = 7#4 := hk
  have h0 : bitOf w 0 = true := by
    have := congrArg (·.getLsbD 0) hk'
    simpa [bitOf] using this
  have hf : fld w 0 4 = 7 := by
    have := congrArg BitVec.toNat hk'
    simpa [fld] using this
  simp only [decodeBits, h0, hf, decodeBase, hk, Bool.not_true, Bool.false_eq_true, if_false, Nat.reduceEqDiff]
  rfl

theorem decodeBits_jal (j : BitVec 22) : decodeBits (0#32 ++ (j ++ 0x08#6 ++ 3#3 ++ 1#1)) = some (.jal j, 4) := by
  have h : decodeClass3 ⟨3#3 ++ 1#1, 0x08#6, j.extractLsb' 0 5, j.extractLsb' 5 5, j.extractLsb' 10 5, j.extractLsb' 15 3, j.extractLsb' 18 4⟩ =
      some (.jal j) := congrArg (fun x => some (Instr.jal x)) (parts_formatJ j)
  rw [decodeBits_class3 (W32.ofBits_formatJ j _ _) rfl, h]
  rfl

theorem decodeBits_jalr (i : BitVec 12) (a d : BitVec 5) :
    decodeBits (0#32 ++ (i ++ a ++ d ++ 0x09#6 ++ 3#3 ++ 1#1)) = some (.jalr d a i, 4) := by
  have h : decodeClass3 ⟨3#3 ++ 1#1, 0x09#6, d, a, i.extractLsb' 0 5, i.extractLsb' 5 3, i.extractLsb' 8 4⟩ =
      some (.jalr d a i) := congrArg (fun x => some (Instr.jalr d a x)) (parts_formatI i)
  rw [decodeBits_class3 (W32.ofBits_formatI i a d _ _) rfl, h]
  rfl

end Sys2Proof

namespace Sys2Proof.Machine

/-- Settles O7: a branch by its condition on the two registers, a jump by whether its target is odd, a word by its fields. -/
theorem branchesAndJumps : Obligations.BranchesAndJumps := by
  intro s a b d i h j l st x y goes
  have hx : x + 0 = x := BitVec.add_zero x
  refine ⟨fun hi => ?_, fun hi => ?_, fun hi => ⟨run_jal j 4 hi, run_jal l 2 hi⟩, fun hi hl => ?_, decodeBits_jal j, decodeBits_jalr i a d, fun hi => ?_⟩
  · refine ⟨run_branch i 4 _ hi ?_, run_branch i 4 _ hi ?_, run_branch i 4 _ hi ?_, run_branch i 4 _ hi ?_, run_branch i 4 _ hi ?_, run_branch i 4 _ hi ?_⟩
    · exact beq_iff_eq
    · exact bne_iff_ne
    · exact BitVec.slt_iff_toInt_lt
    · exact not_slt_iff x y
    · exact BitVec.ult_iff_toNat_lt
    · exact not_ult_iff x y
  · exact ⟨run_branch_zero h _ hi beq_iff_eq, run_branch_zero h _ hi bne_iff_ne⟩
  · refine ⟨run_jalr_odd 4 hi hl, fun ho => ?_⟩
    have := run_jalr_odd (off := 0) 2 hi hl (by rw [hx]; exact ho)
    rwa [hx] at this
  · refine ⟨run_jalr_even 4 hi, fun he => ?_⟩
    have := run_jalr_even (off := 0) 2 hi (by rw [hx]; exact he)
    rwa [hx] at this

end Sys2Proof.Machine

/-! The return from an exception (09 R266, 14 R392). -/

namespace Sys2Proof.Machine

/-- The body instruction at which a loop stands, by its address. -/
theorem nth_fst (l : List (Word × Instr)) (n : Nat) : (nth (0, Instr.eret) l n).1 = nth 0 (l.map (·.1)) n := by
  simp only [nth, List.getElem?_map]
  cases l[n]? <;> rfl

/-- With no loop, or with one that did not stop at the target, the return ends it. -/
theorem Strand.loopAfter_none {st : Strand} {target : Word} (h : ∀ l, st.loop = some l → nth 0 (l.body.map (·.1)) l.pos ≠ target) :
    st.loopAfter target = none := by
  unfold Strand.loopAfter
  split
  next l hl =>
    have hne : (nth (0, .eret) l.body l.pos).1 ≠ target := nth_fst l.body l.pos ▸ h l hl
    rw [decide_eq_false hne, Bool.and_false]
    rfl
  next => rfl

/-- A loop whose body instruction at the target trapped goes on from there (10 R308). -/
theorem Strand.loopAfter_some {st : Strand} {target : Word} {l : Loop} (hl : st.loop = some l) (hs : st.looping = false)
    (h : nth 0 (l.body.map (·.1)) l.pos = target) : st.loopAfter target = some { l with stopped := false } := by
  have hs' : l.stopped = true := by simpa [Strand.looping, hl] using hs
  rw [← nth_fst] at h
  rw [Strand.loopAfter, hl]
  simp only [hs', h, decide_true, Bool.and_self, if_true]

/-- A single bit that is clear counts nothing. -/
theorem fld_bit_clear {x : Word} {n : Nat} (h : bitOf x n = false) : fld x n 1 = 0 := by
  have : x.toNat.testBit n = false := h
  rw [Nat.testBit_eq_decide_div_mod_eq, decide_eq_false_iff_not] at this
  rw [fld, Nat.pow_one]
  omega

section
variable {st : Strand} (hk : bitOf st.tstatus 3 = false)
include hk

/-- The return with K clear to an instruction outside any loop. -/
theorem Strand.returnTrap_ends (h : st.loopAfter st.tpc = none) :
    st.returnTrap = { st with
      st := .run, sup := bitOf st.tstatus 0, tstatus := word (fld st.tstatus 2 1 * 4 + fld st.tstatus 0 1), pc := st.tpc, loop := none } := by
  simp only [Strand.returnTrap, h, fld_bit_clear hk, Nat.zero_mul, Nat.zero_add]

/-- The return with K clear into a loop. -/
theorem Strand.returnTrap_resumes {l : Loop} (h : st.loopAfter st.tpc = some l) :
    st.returnTrap = { st with
      st := .run, sup := bitOf st.tstatus 0, tstatus := word (fld st.tstatus 2 1 * 4 + fld st.tstatus 0 1), pc := l.resume, loop := some l } := by
  simp only [Strand.returnTrap, h, fld_bit_clear hk, Nat.zero_mul, Nat.zero_add]

end

/-- In supervisor mode a privileged instruction goes on with the rest of its meaning. -/
theorem issuePriv_bind {α : Type} {s : State} {i : Instr} {rs : List (BitVec 5)} (hi : s.here.canIssue rs = true) (hp : s.here.sup = true) (f : Unit → M α) :
    (issuePriv i rs >>= f) ⟨s, []⟩ = f () ⟨s, []⟩ := by
  rw [bind_eq, issuePriv, issue_bind hi]
  simp only [bind_eq, me_eq, hp, Bool.not_true, Bool.false_eq_true, if_false, pure_eq]

/-- In user mode it raises PRIV with its bits (14 R388). -/
theorem issuePriv_user {s : State} {i : Instr} {rs : List (BitVec 5)} (hi : s.here.canIssue rs = true) (hp : s.here.sup = false) :
    issuePriv i rs ⟨s, []⟩ = .error (.trap ⟨0xA, i.bits, 2 ^ 0xA⟩ none []) := by
  rw [issuePriv, issue_bind hi]
  simp only [bind_eq, me_eq, hp, Bool.not_false, if_true, raiseBits, trap_eq]

theorem exec_eret_returns {s : State} (hi : s.here.issues = true) (hp : s.here.sup = true) (hk : bitOf s.here.tstatus 3 = false) :
    exec .eret s = .next (s.withHere s.here.returnTrap) := by
  show execEret s = _
  refine run_withHere ?_
  rw [issuePriv_bind (s.here.canIssue_nil.trans hi) hp]
  simp only [bind_eq, me_eq, hk, Bool.false_eq_true, if_false, modMe_eq]

/-- After a double trap there is nothing to return to. -/
theorem exec_eret_double {s : State} (hi : s.here.issues = true) (hp : s.here.sup = true) (hk : bitOf s.here.tstatus 3 = true) (hl : s.here.looping = false) :
    exec .eret s = s.traps 0x01 (Instr.bits .eret) := by
  show execEret s = _
  refine run_traps ?_ hl
  rw [issuePriv_bind (s.here.canIssue_nil.trans hi) hp]
  simp only [bind_eq, me_eq, hk, if_true, raiseBits, trap_eq]

theorem exec_eret_user {s : State} (hi : s.here.issues = true) (hp : s.here.sup = false) (hl : s.here.looping = false) :
    exec .eret s = s.traps 0x0A (Instr.bits .eret) := by
  show execEret s = _
  refine run_traps ?_ hl
  rw [bind_eq, issuePriv_user (s.here.canIssue_nil.trans hi) hp]

/-- The fetch at an odd address fails before any access (08 R210). -/
theorem fetched_odd (s : State) (k : Nat) {pc : Word} (h : bitOf pc 0 = true) : s.fetched k pc = (.fault 3 pc, s) := by
  have hf : fetchAt k pc ⟨s, []⟩ = .ok (.fault 3 pc, ⟨s, []⟩) := by
    simp only [fetchAt, h, if_true, pure_eq]
  simp only [State.fetched, hf]

/-- Settles O10: where the return leads is what it makes of the loop, `Strand.loopAfter`. -/
theorem exceptionReturn : Obligations.ExceptionReturn := by
  intro s hi st back
  refine ⟨by decide +kernel, fun hp hk hs => ⟨fun h => ?_, fun l hl h => ?_⟩, fun ho u => fetched_odd u s.cur ho, exec_eret_double hi, exec_eret_user hi⟩
  · rw [exec_eret_returns hi hp hk, Strand.returnTrap_ends hk (Strand.loopAfter_none h)]
  · rw [exec_eret_returns hi hp hk, Strand.returnTrap_resumes hk (Strand.loopAfter_some hl hs h)]

end Sys2Proof.Machine

/-! Register zero (09 R239): the clause on misaligned loads fails where the address is held by an access under way. -/

namespace Sys2Proof.Machine

/-- 01 R41: an access under way keeps its place, whatever its address, and no check is made again. -/
theorem scalarReach_held {k n : Nat} {va : Word} {p : Place} {w : Work} (pan : Bool) (a : Acc) (h : (w.s.strand k).holds va = some p) :
    scalarReach k va n pan a w = .ok (p, w) := by
  simp only [scalarReach, bind_eq, getStrand_eq, h, pure_eq]

/-- A strand waits for the answers to its accesses of peers and hosts. -/
theorem askAll_waits {k n : Nat} {hs : List (Word × Place)} {send : M Unit} {w : Work} (hn : n ≠ 0)
    (h : (w.s.fabric.requests.any fun r => r.who = .strand k) = true) : askAll k n hs send w = .error (.stop []) := by
  simp only [askAll, bind_eq, hn, if_false, getStrand_eq, gs_eq, h, if_true, stall_eq]

/-- A load of a peer, once it is under way, stays at its instruction until the answer comes; its address is not looked at again. -/
theorem exec_ld_waits {s : State} {t : BitVec 3} {d a : BitVec 5} {i : BitVec 12} {dev da : Nat}
    (hi : s.here.canIssue [d, a] = true) (hl : s.here.looping = false)
    (hh : s.here.holds (s.here.gpr a + i.signExtend 64) = some (.at_ (.remote dev da)))
    (hw : s.here.watched (s.here.gpr a + i.signExtend 64) (tyBytes t.toNat) accLoad = false) (hv : s.here.vlda = [])
    (hr : (s.fabric.requests.any fun r => r.who = .strand s.cur) = true) : exec (.ld t d a i) s = .next s := by
  show run (loadI false t d a i) s = _
  refine run_stop (log := []) ?_
  have hp : s.here.pendingAt (.at_ (.remote dev da)) (tyBytes t.toNat) = false := by simp only [Strand.pendingAt, hv, List.any_nil]
  have ht : scalarTail s.cur (s.here.gpr a + i.signExtend 64) (tyBytes t.toNat) accLoad (.at_ (.remote dev da)) ⟨s, []⟩ = .ok ((), ⟨s, []⟩) := by
    have hw' : (s.strand s.cur).watched (s.here.gpr a + i.signExtend 64) (tyBytes t.toNat) accLoad = false := hw
    simp only [scalarTail, bind_eq, gs_eq, hw', Bool.false_eq_true, if_false, pure_eq]
  simp only [loadI, loadTo, scalarRead, loadPlace, bind_eq, issueMem_eq, hi, hl, Bool.not_false, Bool.and_self, if_true, rg_eq, curKey_eq,
    scalarReach_held (w := ⟨s, []⟩) false accLoad hh, ht, waitVlda_none (w := ⟨s, []⟩) hp, gs_eq, askAll_waits (w := ⟨s, []⟩) Nat.one_ne_zero hr]

/-- Strand 0 waits for device 5 to answer a load, and holds the translation of the odd address 1. -/
def oddHeld : State := { State.reset with
  strands := [(0, { st := .run, held := [(1, .at_ (.remote 5 0))] })]
  fabric := { requests := [⟨0, .strand 0, none, none, 1⟩] } }

/-- The executing strand stands in its handler. -/
def inHandler (o : Host.Outcome State Fault Refusal) : Bool := match o with | .next t => decide (t.here.st = .trap) | _ => false

/-- Refutes O60: its last clause has every misaligned load into g0 raise ALIGN, and says nothing of the places that the strand holds. In `oddHeld` the address 1 is held by a load under way, so it is not checked again and the strand waits. The clause lacks the hypothesis `s.here.held = []` that AlignmentTraps has. -/
theorem not_registerZero : ¬ Obligations.RegisterZero := by
  intro ⟨_, _, _, _, _, _, _, hld⟩
  have hi : oddHeld.here.canIssue [0, 0] = true := by decide +kernel
  have hl : oddHeld.here.looping = false := by decide +kernel
  have hwaits : exec (.ld 1 0 0 1) oddHeld = .next oddHeld :=
    exec_ld_waits (dev := 5) (da := 0) hi hl (by decide +kernel) (by decide +kernel) rfl (by decide +kernel)
  have htraps : exec (.ld 1 0 0 1) oddHeld = oddHeld.traps 3 (oddHeld.here.gpr 0 + (1 : BitVec 12).signExtend 64) :=
    (hld oddHeld 0 1 1 hi hl).1 (by decide +kernel)
  have hne : inHandler (.next oddHeld) ≠ inHandler (oddHeld.traps 3 (oddHeld.here.gpr 0 + (1 : BitVec 12).signExtend 64)) := by decide +kernel
  exact hne (congrArg inHandler (hwaits.symm.trans htraps))

end Sys2Proof.Machine
